-- ==== Sys2Proof/Word.lean ====
section
/-! DEFINITION. The number types of the Somjar LF6 (manual 0.8): bytes, the 32-bit millisecond time base, and the
fixed ranges of functions, positions and segments. -/

namespace Sys2Proof

/-- One byte of a train-link frame or of a CAN message; also a command epoch, a tag or a list revision, which all
wrap at 256 (0.8.7, R160). -/
abbrev Byte := BitVec 8

/-- A reading of the 32-bit millisecond counter, which wraps (0.8.6). -/
abbrev Time := BitVec 32

/-- A module serial (R40). -/
abbrev Serial := BitVec 32

/-- A set of functions: bit f for function f (13.1.2, QUERY). -/
abbrev Mask := BitVec 8

/-- A lamp function 0 to 7: TAIL, STOP, TURN_L, TURN_R, REVERSE, FOG, MARKER, AUX (0.8.1). -/
abbrev Func := Fin 8

/-- A position of a towed unit. The manual's position p, 1 to 6, is the index p - 1; `p.succ` is its number as a
counter position, `p.castSucc` the segment before it and `p.succ` the segment after it (0.8.1, 0.8.2). -/
abbrev Pos := Fin 6

/-- A segment 0 to 6 (0.8.2). -/
abbrev Seg := Fin 7

/-- The manual's number, 1 to 6, of a position. -/
def posNumber (p : Pos) : Nat := p.val + 1

/-- The position with the manual's number `n`, when it is 1 to 6. -/
def posOfNumber (n : Nat) : Option Pos :=
  if h : 1 ≤ n ∧ n ≤ 6 then some ⟨n - 1, by omega⟩ else none

/-- The positions in ascending order. -/
def positions : List Pos := [0, 1, 2, 3, 4, 5]

/-- The functions in ascending order. -/
def functions : List Func := [0, 1, 2, 3, 4, 5, 6, 7]

/-- The segments in ascending order. -/
def segments : List Seg := [0, 1, 2, 3, 4, 5, 6]

/-- A table with every entry replaced by what `g` makes of its index and the entry. -/
def remap {α : Type} {n : Nat} (v : Vector α n) (g : Fin n → α → α) : Vector α n :=
  Vector.ofFn fun i => g i v[i]

/-- `a / b` rounded to the nearest whole number, halves up (0.8.5). -/
def rounded (a b : Nat) : Nat := (2 * a + b) / (2 * b)

/-- `x` brought into the range `lo` to `hi` at the nearer end. -/
def clampTo (lo hi x : Nat) : Nat := if x < lo then lo else if hi < x then hi else x

end Sys2Proof
end

