-- ==== Sys2Proof/Config.lean ====
section
/-! DEFINITION. What the manual fixes once for every part (settings table 12.4, timings, part code) and the free
values, which the manual leaves open and no proof can evaluate. -/

namespace Sys2Proof.Machine

/-- Lamp technology of a profile (R59). -/
inductive Tech where
  | filament
  | led
  deriving DecidableEq, Repr

/-- SPEED_LOCK (R189). -/
inductive SpeedLock where
  | fullAllowed
  | reducedOnly
  deriving DecidableEq, Repr

/-- The fifteen settings of table 12.4, in its order. -/
structure Settings where
  scanPeriod : Nat
  replyBase : Nat
  retryLimit : Nat
  speedLock : SpeedLock
  openFloor : Nat
  overLimit : Nat
  tolFilament : Nat
  tolLed : Nat
  minJudgeV : Nat
  qSet : Nat
  qClear : Nat
  harnessFloor : Nat
  harnessPct : Nat
  pairWindow : Nat
  canBase : Nat
  deriving DecidableEq, Repr

end Sys2Proof.Machine

namespace Sys2Proof.Config

open Sys2Proof.Machine

/-- The defaults of table 12.4. -/
def defaultSettings : Settings where
  scanPeriod := 200
  replyBase := 3
  retryLimit := 2
  speedLock := .fullAllowed
  openFloor := 40
  overLimit := 1400
  tolFilament := 120
  tolLed := 200
  minJudgeV := 180
  qSet := 3
  qClear := 5
  harnessFloor := 150
  harnessPct := 60
  pairWindow := 600
  canBase := 0x500

/-- The part code of the Somjar LF6 (13.4). -/
def partCode : Nat := 0x6C06

/-- The part revision the manual describes (13.4). -/
def partRevision : Nat := 1

/-- Places of the transmit queue (R173). -/
def transmitPlaces : Nat := 24

/-- Free transmit places a request needs before it is taken (R170). -/
def placesToTake : Nat := 9

/-- Places of the receive buffer (R170). -/
def receivePlaces : Nat := 8

/-- Places of the Query Queue (R78). -/
def queuePlaces : Nat := 8

/-- Places of the Fault List (R151). -/
def faultPlaces : Nat := 24

/-- Places of the Profile Library (R69). -/
def libraryPlaces : Nat := 16

/-- FREE VALUE. The two operation bits of the REPLY to a request whose operation byte is 4 or more: the manual says
that the operation is echoed as received (R202) in a field of two bits (13.4), and no two bits hold it.
Log entry 3. -/
opaque operationEcho : Byte → BitVec 2

/-- FREE VALUE. How far beyond 1.5 ms, in microseconds, the pull of the attention line lasts that a module begins at a
time: the manual gives 1.5 to 2.5 ms (R31, R105). Log entry 51. -/
opaque pullBeyondLeast : Nat → Fin 1001

/-- FREE VALUE. The two operation bits of the REPLY to a request of a shared code that is too short to carry its
operation byte (R174, 13.4). Log entry 3. -/
opaque missingOperationEcho : BitVec 2

end Sys2Proof.Config
end

