-- ==== Sys2Proof/Syntax.lean ====
section
/-! DEFINITION. The commands of the part: one constructor of `Instr` per row of the table of operations and events,
with the moment at which it is taken and the data it brings. -/

namespace Sys2Proof.Machine

/-- The levels on the part's inputs (0.5): ignition, socket detect, the attention line as the modules leave it, the
eight line-sense channels and the socket voltage (tenths of a volt). -/
structure Inputs where
  ignitionHigh : Bool
  socketCoupled : Bool
  attentionHigh : Bool
  driven : Vector Bool 8
  current : Vector Nat 8
  voltage : Nat
  deriving DecidableEq, Repr

/-- When a command is taken: the microseconds that have passed since the command before it, and the input levels at
that moment. -/
structure Moment where
  elapsed : Nat
  inputs : Inputs
  deriving DecidableEq, Repr

/-- The masters on the CAN port, source codes 0, 1 and 2 (0.6, R169). -/
inductive Master where
  | body
  | cluster
  | service
  deriving DecidableEq, Repr

/-- A frame on the vehicle CAN port: an 11-bit identifier, remote or data, and its data bytes (R169). -/
structure CanFrame where
  ident : BitVec 11
  remote : Bool
  data : List Byte
  deriving DecidableEq, Repr

/-- A request: the kind code and source that its identifier carries, and its data bytes (R169, 13.2). -/
structure Request where
  kind : Nat
  source : Master
  data : List Byte
  deriving DecidableEq, Repr

/-- Link speed (R19). -/
inductive Speed where
  | full
  | reduced
  deriving DecidableEq, Repr

/-- One character as it travels on the train link, after its start bit: eight data bits, the inversion flag, whether
the stop bit was recessive, and the speed of the transmitter that sent it (R19). -/
structure WireChar where
  bits : Byte
  flag : Bool
  stop : Bool
  speed : Speed
  deriving DecidableEq, Repr

/-- The two causes of a power-on reset (R197). -/
inductive PowerCause where
  | powerOn
  | supplyDip
  deriving DecidableEq, Repr

end Sys2Proof.Machine

namespace Sys2Proof

open Sys2Proof.Machine

/-- One constructor per row of the table of operations and events. `m` is the moment; `r` is the request taken;
`w` are the characters of a received frame. -/
inductive Instr where
  | powerOn (m : Moment) (cause : PowerCause)
  | hardReset (m : Moment)
  | softReset (m : Moment)
  | ignitionChange (m : Moment)
  | standbyEntry (m : Moment)
  | requestReceive (m : Moment) (frame : CanFrame)
  | lampCommand (m : Moment) (r : Request)
  | faultRead (m : Moment) (r : Request)
  | faultAck (m : Moment) (r : Request)
  | faultAckAll (m : Moment) (r : Request)
  | refresh (m : Moment) (r : Request)
  | mapRead (m : Moment) (r : Request)
  | siteClear (m : Moment) (r : Request)
  | siteClearChainBreak (m : Moment) (r : Request)
  | siteClearModule (m : Moment) (r : Request)
  | siteClearLink (m : Moment) (r : Request)
  | profileStage (m : Moment) (r : Request)
  | profileApply (m : Moment) (r : Request)
  | profileRead (m : Moment) (r : Request)
  | positionReset (m : Moment) (r : Request)
  | settingWrite (m : Moment) (r : Request)
  | settingRead (m : Moment) (r : Request)
  | settingSave (m : Moment) (r : Request)
  | saveEnd (m : Moment) (checkPasses : Bool)
  | counterSetup (m : Moment) (r : Request)
  | counterRead (m : Moment) (r : Request)
  | libraryDelete (m : Moment) (r : Request)
  | enumerate (m : Moment) (r : Request)
  | partResetHard (m : Moment) (r : Request)
  | partResetSoft (m : Moment) (r : Request)
  | identRead (m : Moment) (r : Request)
  | transmitterFree (m : Moment)
  | telltaleDue (m : Moment)
  | lampSummaryDue (m : Moment)
  | commandLoss (m : Moment)
  | socketDetectChange (m : Moment)
  | drivenChange (m : Moment) (f : Func)
  | settleTestPoint (m : Moment) (f : Func)
  | scanRound (m : Moment)
  | lampStateInterval (m : Moment)
  | linkIdle (m : Moment)
  | wakePulseRelease (m : Moment)
  | wakePulseHoldEnd (m : Moment)
  | frameTransmitEnd (m : Moment)
  | speedHoldEnd (m : Moment)
  | frameReceiveStart (m : Moment)
  | replyTimerEnd (m : Moment)
  | frameTruncated (m : Moment)
  | sample (m : Moment) (w : List WireChar)
  | busy (m : Moment) (w : List WireChar)
  | reissueDue (m : Moment)
  | enumReply (m : Moment) (w : List WireChar)
  | profileReply (m : Moment) (w : List WireChar)
  | resetDone (m : Moment) (w : List WireChar)
  | crcFailure (m : Moment) (w : List WireChar)
  | strayFrame (m : Moment) (w : List WireChar)
  | collectionWindowEnd (m : Moment)
  | probeInterval (m : Moment)
  | recoveryHoldExpiry (m : Moment)
  | attentionFall (m : Moment)
  | attentionRise (m : Moment)
  | pulseTaken (m : Moment)
  | lineStuck (m : Moment)
  | stuckRaiseRetry (m : Moment)
  | stuckRelease (m : Moment)
  deriving DecidableEq, Repr

end Sys2Proof
end

