-- ==== Sys2Proof/Machine/State.lean ====
section
/-! DEFINITION. The state of the part, block by block in the order of the manual's ownership table (0.4), the reasons
a step can stop, and the state right after reset. -/

namespace Sys2Proof.Machine

/-- No command of this part stops the machine with a fault: the manual gives every command an effect in every state.
The type has no constructor, so no step can answer a fault. -/
inductive Fault where
  deriving DecidableEq, Repr

/-- Why a command could have no meaning. -/
inductive Refusal where
  /-- Raised by no arm of this model: every row of the table has its meaning. A command without one would answer it,
  which is safe: nothing is then claimed of it. -/
  | notModelled (mnemonic : String)
  deriving DecidableEq, Repr

/-! ### Command Intake (chapter 1) -/

/-- The command state of a function (1.2). -/
inductive CommandState where
  | off
  | on
  | flash
  | unknown
  deriving DecidableEq, Repr

/-- Command Intake: the five items of 1.2. -/
structure Intake where
  states : Vector CommandState 8
  epoch : Byte
  moving : Bool
  lost : Bool
  lastCommand : Time
  deriving DecidableEq, Repr

/-! ### Line Sense Unit (chapter 1) -/

/-- One line-sense channel (R15): the driven flag, the driven-since time, and how many of the two settle test points
of R16 the present on-phase has passed. The line current is the reading of the inputs. -/
structure Channel where
  driven : Bool
  since : Option Time
  testPoints : Nat
  deriving DecidableEq, Repr

/-- The Line Sense Unit (R15). -/
structure Sense where
  channels : Vector Channel 8
  coupled : Bool
  deriving DecidableEq, Repr

/-! ### Train Link Controller (chapter 2) -/

/-- The six frame kinds the part sends (R23). -/
inductive DownKind where
  | lampState
  | query
  | enumerate
  | profileReq
  | posReset
  | speed
  deriving DecidableEq, Repr

/-- A frame the part sends: header fields and payload (R21, 13.1). -/
structure DownFrame where
  kind : DownKind
  target : Byte
  tag : Byte
  payload : List Byte
  deriving DecidableEq, Repr

/-- The reply timer of R26 and R27, in microseconds: running to its deadline, or stopped with what it had left. -/
inductive ReplyTimer where
  | running (deadline : Nat)
  | stopped (left : Nat)
  deriving DecidableEq, Repr

/-- What the link is occupied with (R26, R28, R29). Times are microseconds of the part's clock. -/
inductive LinkPhase where
  /-- No frame is with the controller and nothing is awaited. -/
  | free
  /-- A frame waits for a module's pulse to be taken before the wake pulse (R104). -/
  | waitPulse (f : DownFrame)
  /-- The part drives the attention line low before this frame (R28). -/
  | wakeDrive (f : DownFrame) (until_ : Nat)
  /-- Segment 0 is held recessive after the wake pulse, before this frame (R28). -/
  | wakeHold (f : DownFrame) (until_ : Nat)
  | sending (f : DownFrame) (until_ : Nat)
  /-- The addressed request in the in-flight slot awaits its answer. -/
  | awaiting (timer : ReplyTimer)
  /-- The collection window of an ENUMERATE attempt is open (R43). -/
  | collecting (until_ : Nat)
  /-- The hold after a speed switch (R29). -/
  | speedHold (until_ : Nat)
  deriving DecidableEq, Repr

/-- The frame being received (R21, R27). -/
inductive Reception where
  | none
  /-- A frame is arriving; `doomed` when it began inside the three-character gap after a frame (R21). -/
  | receiving (doomed : Bool)
  /-- Characters that arrive before the gap after a truncated frame are not taken as a frame (R21). -/
  | skipping
  deriving DecidableEq, Repr

/-- The Train Link Controller (2.3). `lineActive` is the time of the last character on segment 0, `received` the time
of the last character of the last received frame and whether that frame was truncated. -/
structure Link where
  speed : Speed
  phase : LinkPhase
  reception : Reception
  lastFrameSent : Option Time
  lineActive : Option Nat
  received : Option (Nat × Bool)
  deriving DecidableEq, Repr

/-- The link health logic (11.1). The window holds `true` for a failed frame, oldest first. -/
structure Health where
  window : List Bool
  cleanRun : Nat
  pending : Option Speed
  watch : Option Nat
  hold : Option Time
  deriving DecidableEq, Repr

/-! ### Attention Monitor (chapter 6) -/

/-- The monitor states of 6.1. Times are microseconds. -/
inductive Monitor where
  | idle
  /-- `rise` is the rising edge of the high stretch in progress, if the line is high. -/
  | measuring (start : Nat) (known : Bool) (rise : Option Nat)
  | ownDrive
  | stuck (raiseDue : Option Nat)
  | releasing (since : Nat)
  | quiet
  deriving DecidableEq, Repr

/-- The Attention Monitor (6.1). -/
structure Attention where
  high : Bool
  monitor : Monitor
  stuckMark : Bool
  deriving DecidableEq, Repr

/-! ### Link Scheduler (chapter 5) -/

/-- Who is owed a deferred REPLY, and under which request number. -/
structure Requester where
  source : Master
  number : Byte
  deriving DecidableEq, Repr

/-- Origin of a QUERY entry (R78). -/
inductive Origin where
  | scan
  | sweep
  | refresh
  deriving DecidableEq, Repr

/-- The four kinds of Query Queue entry (R78). -/
inductive Work where
  | query (p : Pos) (mask : Mask) (origin : Origin)
  | profile (p : Pos)
  | posReset (p : Pos) (who : Requester)
  | enumerate
  deriving DecidableEq, Repr

/-- A Query Queue entry (R78). -/
structure Entry where
  work : Work
  placedAt : Time
  deriving DecidableEq, Repr

/-- The addressed request in the in-flight slot (5.4); a QUERY with the mask as sent. -/
inductive Sent where
  | query (p : Pos) (mask : Mask)
  | profileReq (p : Pos)
  | posReset (p : Pos) (who : Requester)
  deriving DecidableEq, Repr

/-- Where the current attempt of an addressed request stands. -/
inductive Stage where
  /-- Its frame is with the Train Link Controller, or awaits its answer. -/
  | onLink
  /-- The next attempt or the reissue is due (R88, R89). -/
  | due
  /-- The wait after BUSY, to this time in microseconds (R88). -/
  | reissueAt (t : Nat)
  deriving DecidableEq, Repr

/-- An addressed request in the in-flight slot (5.4). `gone` is set when its position departs or becomes LOST while
the request is in the slot (R89, R90). -/
structure Flight where
  sent : Sent
  attempt : Nat
  busyCount : Nat
  tag : Byte
  commandChanged : Bool
  gone : Bool
  stage : Stage
  deriving DecidableEq, Repr

/-- The in-flight slot (5.4). An ENUMERATE attempt holds its tag; `cancelled` when socket detect UNCOUPLED has
cancelled its enumeration (R44). -/
inductive Slot where
  | empty
  | addressed (x : Flight)
  | enumerating (tag : Byte) (cancelled : Bool)
  deriving DecidableEq, Repr

/-- The Link Scheduler (chapter 5). `roundAtOnce` is set while a scan round falls at once (R83, R96). -/
structure Scheduler where
  queue : List Entry
  enumerateWaiting : Bool
  slot : Slot
  broadcastOwed : Bool
  lastLampState : Option Time
  tag : Byte
  roundAtOnce : Bool
  lastRound : Option Time
  deriving DecidableEq, Repr

/-! ### Profile Store (chapter 4) -/

/-- A known profile (R59). `power` is in half-watts; `tol` is the tolerance override. -/
structure Profile where
  n : Nat
  tech : Tech
  power : Nat
  tol : Option Nat
  deriving DecidableEq, Repr

/-- A Profile Library entry (R69). -/
structure LibraryEntry where
  serial : Serial
  profiles : Vector Profile 8
  ordinal : BitVec 16
  deriving DecidableEq, Repr

/-- The Profile Library with its coupling counter (R69). -/
structure Library where
  entries : List LibraryEntry
  counter : BitVec 16
  deriving DecidableEq, Repr

/-- A profile apply in progress (4.4): the waiting set in ascending order, the persist flag and the skipped count. -/
structure Apply where
  waiting : List Pos
  persist : Bool
  skipped : Nat
  who : Requester
  deriving DecidableEq, Repr

/-! ### Enumerator and Train Map (chapter 3) -/

inductive PosState where
  | present
  | silent
  | lost
  deriving DecidableEq, Repr

inductive UnitKind where
  | trailer
  | dolly
  deriving DecidableEq, Repr

inductive ProfileSource where
  | module
  | library
  | staged
  deriving DecidableEq, Repr

inductive LinkState where
  | noTrain
  | down
  | live
  deriving DecidableEq, Repr

/-- A position record (R40) with what the Profile Store keeps for that position: applied profiles (R59), pending
profiles and change flags (R64), the profile-wanted flag (R61). -/
structure PosRecord where
  state : PosState
  serial : Option Serial
  kind : UnitKind
  streak : Nat
  source : ProfileSource
  coupledAt : Time
  applied : Vector (Option Profile) 8
  staged : Vector (Option Profile) 8
  changed : Vector Bool 8
  wanted : Bool
  deriving DecidableEq, Repr

/-- The Train Map (3.1). Outside the comparison of an enumeration result the records are contiguous (R40). -/
structure TrainMap where
  records : Vector (Option PosRecord) 6
  linkState : LinkState
  endCertain : Bool
  deriving DecidableEq, Repr

/-- What one ENUM_REPLY carries (R43). -/
structure EnumAnswer where
  serial : Serial
  kind : UnitKind
  last : Bool
  deriving DecidableEq, Repr

/-- The enumeration states of 3.2; RUNNING carries the attempt number and the attempt's answer set. -/
inductive EnumPhase where
  | idle
  | pending
  | running (attempt : Nat) (answers : Vector (Option EnumAnswer) 6)
  deriving DecidableEq, Repr

/-- The Enumerator: its state, the start of the probe interval of R46 while it runs, and the socket-detect state as
last handed to it (R41). -/
structure Enumerator where
  phase : EnumPhase
  probeFrom : Option Time
  coupled : Bool
  deriving DecidableEq, Repr

/-! ### Cell Table (chapter 1) -/

/-- A non-OK verdict (0.8.4). -/
inductive Verdict where
  | partialLoss (k : Nat)
  | openCircuit
  | overload
  | unexpectedLoad
  | leak
  | senseConflict
  deriving DecidableEq, Repr

inductive CellState where
  | absent
  | unverified
  | clean
  | suspect
  | faulted
  | recovering
  deriving DecidableEq, Repr

/-- The hold reasons of R4. -/
inductive HoldReason where
  | stale
  | settling
  | offPhase
  | notDriven
  | lowSupply
  | saturatedUnusable
  | commandLost
  | notFitted
  | silent
  deriving DecidableEq, Repr

/-- A latest accepted sample (R3), with the saturation status of each current that harness balance reads (R129). A
line sample has its line current as in-current and its socket voltage as voltage. -/
structure Sample where
  inCurrent : Nat
  loadCurrent : Nat
  voltage : Nat
  epoch : Byte
  onPhase : Bool
  takenAt : Time
  inSaturated : Bool
  loadSaturated : Bool
  deriving DecidableEq, Repr

/-- The cell record (1.1.2). -/
structure Cell where
  state : CellState
  confirmed : Option Verdict
  candidate : Option Verdict
  count : Nat
  sample : Option Sample
  hold : Option HoldReason
  resolvable : Bool
  listed : Bool
  confirmedAt : Option Time
  deriving DecidableEq, Repr

/-- The 112 cells (R1). -/
structure CellTable where
  lamp : Vector (Vector Cell 8) 6
  line : Vector Cell 8
  segment : Vector (Vector Cell 8) 7
  deriving DecidableEq, Repr

/-- The address of a cell (R1). -/
inductive CellKey where
  | lamp (p : Pos) (f : Func)
  | line (f : Func)
  | segment (s : Seg) (f : Func)
  deriving DecidableEq, Repr

/-! ### Fault List Manager (chapter 9) -/

/-- The key of a record (R151): a cell's site and function, or a site without a function. -/
inductive Site where
  | cell (k : CellKey)
  | chainBreak (s : Seg)
  | module (p : Pos)
  | link
  deriving DecidableEq, Repr

inductive FaultKind where
  | openCircuit
  | partialLoss
  | overload
  | unexpectedLoad
  | leak
  | senseConflict
  | silentModule
  | chainBreak
  | attentionStuck
  deriving DecidableEq, Repr

inductive RecordState where
  | activeUnack
  | activeAck
  | healedUnack
  deriving DecidableEq, Repr

/-- A Fault List record (R152). -/
structure FaultRecord where
  id : Nat
  site : Site
  kind : FaultKind
  severity : Nat
  state : RecordState
  lampsOut : Option Nat
  firstRaised : Time
  lastChange : Time
  occurrences : Nat
  serial : Option Serial
  deriving DecidableEq, Repr

/-- The Fault List (9.2): records oldest first. -/
structure FaultList where
  records : List FaultRecord
  nextId : Nat
  overflow : Bool
  revision : Byte
  deriving DecidableEq, Repr

/-! ### Report Unit (chapter 10) -/

/-- The four kinds of message the part sends (13.2). -/
inductive MessageKind where
  | reply
  | readData
  | telltaleImage
  | lampSummary
  deriving DecidableEq, Repr

inductive ResetKind where
  | hard
  | soft
  deriving DecidableEq, Repr

/-- A message the part places for sending; `thenReset` marks the REPLY to a PART_RESET (R198). -/
structure Message where
  kind : MessageKind
  data : List Byte
  thenReset : Option ResetKind
  deriving DecidableEq, Repr

/-- The message the CAN controller has taken; `fromQueue` when it is the head of the transmit queue, which stays in
the queue until it has been sent (R173). -/
structure OnBus where
  frame : CanFrame
  fromQueue : Bool
  deriving DecidableEq, Repr

/-- PART_RESET in progress (R198): its REPLY waits to be sent, or has been sent and the reset is to be taken. -/
inductive ResetProgress where
  | none
  | replying
  | due (k : ResetKind)
  deriving DecidableEq, Repr

/-- The Report Unit (chapter 10). `deferred` are deferred REPLYs that fell due while the transmit queue was full. -/
structure Report where
  received : List Request
  transmit : List Message
  deferred : List Message
  onBus : Option OnBus
  lastImage : Option (List Byte × Time)
  imageDue : Bool
  lastSummary : Option (List Byte × Time)
  summaryDue : Bool
  reset : ResetProgress
  deriving DecidableEq, Repr

/-! ### Event Counters (chapter 11) -/

/-- The twelve events of R191. -/
inductive CountedEvent where
  | frameSent
  | replyValid
  | replyCrcFail
  | replyTimeout
  | replyBusy
  | sampleStale
  | attentionShort
  | attentionAmbiguous
  | attentionLong
  | scanSkipped
  | judgementNonOk
  | queueOccupancy
  deriving DecidableEq, Repr

/-- An event counter (11.2); bit q of the mask stands for position q, 0 to 6. -/
structure Counter where
  selector : CountedEvent
  mask : Byte
  value : BitVec 32
  overflow : Bool
  deriving DecidableEq, Repr

/-! ### Ignition Controller and Settings Store (chapter 12) -/

inductive PartState where
  | asleep
  | waking
  | running
  deriving DecidableEq, Repr

inductive ResetCause where
  | powerOn
  | supplyDip
  | hard
  | soft
  deriving DecidableEq, Repr

inductive StoreStatus where
  | valid
  | defaulted
  | writeFailed
  deriving DecidableEq, Repr

/-- The content of the store: settings and Profile Library with its counter (R200). -/
structure StoredImage where
  settings : Settings
  library : Library
  deriving DecidableEq, Repr

/-- A save in progress (R200); `who` is absent once a reset has dropped its REPLY (R198). -/
structure Save where
  snapshot : StoredImage
  who : Option Requester
  deriving DecidableEq, Repr

/-- The Ignition Controller and the Settings Store (chapter 12). `stored` is absent when the image in the store fails
its check. -/
structure Ignition where
  part : PartState
  high : Bool
  quietSince : Option Time
  cause : ResetCause
  settings : Settings
  library : Library
  canBase : Nat
  stored : Option StoredImage
  status : StoreStatus
  save : Option Save
  deriving DecidableEq, Repr

/-- Since when, in microseconds of the part's clock, the two inputs that must hold a level before it counts have stood
at theirs: the socket-detect input (R15) and the ignition input (R194). Log entry 48. -/
structure Steady where
  socket : Nat
  ignition : Nat
  deriving DecidableEq, Repr

/-- The state of the part: one field per block of 0.4, the clock in microseconds since power-on, the input levels and
since when two of them have stood, and the queue of commands that wait. -/
structure State where
  clock : Nat
  inputs : Inputs
  steady : Steady
  intake : Intake
  sense : Sense
  link : Link
  health : Health
  attention : Attention
  scheduler : Scheduler
  enumerator : Enumerator
  train : TrainMap
  apply : Option Apply
  cells : CellTable
  faults : FaultList
  report : Report
  counters : Vector Counter 4
  ignition : Ignition
  pending : List Instr
  deriving DecidableEq, Repr

/-! ### Updates of one block -/

def State.withIntake (s : State) (x : Intake) : State := { s with intake := x }
def State.withSense (s : State) (x : Sense) : State := { s with sense := x }
def State.withLink (s : State) (x : Link) : State := { s with link := x }
def State.withHealth (s : State) (x : Health) : State := { s with health := x }
def State.withAttention (s : State) (x : Attention) : State := { s with attention := x }
def State.withScheduler (s : State) (x : Scheduler) : State := { s with scheduler := x }
def State.withEnumerator (s : State) (x : Enumerator) : State := { s with enumerator := x }
def State.withTrain (s : State) (x : TrainMap) : State := { s with train := x }
def State.withApply (s : State) (x : Option Apply) : State := { s with apply := x }
def State.withCells (s : State) (x : CellTable) : State := { s with cells := x }
def State.withFaults (s : State) (x : FaultList) : State := { s with faults := x }
def State.withReport (s : State) (x : Report) : State := { s with report := x }
def State.withCounters (s : State) (x : Vector Counter 4) : State := { s with counters := x }
def State.withIgnition (s : State) (x : Ignition) : State := { s with ignition := x }
def State.withPending (s : State) (x : List Instr) : State := { s with pending := x }

/-- At time `clock` the inputs stand at `new`; an input that stood at another level before has taken its level now (log
entry 48). -/
def Steady.follow (x : Steady) (old new : Inputs) (clock : Nat) : Steady where
  socket := if new.socketCoupled = old.socketCoupled then x.socket else clock
  ignition := if new.ignitionHigh = old.ignitionHigh then x.ignition else clock

/-- The moment's time has passed and the inputs stand at its levels. -/
def State.advance (s : State) (m : Moment) : State :=
  { s with
    clock := s.clock + m.elapsed
    inputs := m.inputs
    steady := s.steady.follow s.inputs m.inputs (s.clock + m.elapsed) }

/-! ### Reset -/

/-- DESIGN CHOICE (log entry 2): the input levels at the reset the model starts from, every input inactive. -/
def Inputs.atRest : Inputs where
  ignitionHigh := false
  socketCoupled := false
  attentionHigh := true
  driven := Vector.replicate 8 false
  current := Vector.replicate 8 0
  voltage := 0

/-- A cell in state ABSENT, with the field values of R8. -/
def Cell.absent : Cell where
  state := .absent
  confirmed := none
  candidate := none
  count := 0
  sample := none
  hold := none
  resolvable := false
  listed := false
  confirmedAt := none

/-- The Cell Table with every cell ABSENT (R8). -/
def CellTable.allAbsent : CellTable where
  lamp := Vector.replicate 6 (Vector.replicate 8 Cell.absent)
  line := Vector.replicate 8 Cell.absent
  segment := Vector.replicate 7 (Vector.replicate 8 Cell.absent)

/-- The Event Counters' defaults (R193). -/
def defaultCounters : Vector Counter 4 :=
  #v[⟨.frameSent, 0x7F, 0, false⟩, ⟨.replyCrcFail, 0x7F, 0, false⟩, ⟨.replyTimeout, 0x7F, 0, false⟩,
    ⟨.judgementNonOk, 0x7F, 0, false⟩]

/-- The part right after a power-on reset (R197) with every input at rest and no image in the store that passes its
check: ASLEEP, since the ignition is LOW. -/
def State.reset : State where
  clock := 0
  inputs := Inputs.atRest
  steady := { socket := 0, ignition := 0 }
  intake :=
    { states := Vector.replicate 8 .unknown, epoch := 0, moving := true, lost := true, lastCommand := 0 }
  sense := { channels := Vector.replicate 8 ⟨false, none, 0⟩, coupled := false }
  link :=
    { speed := .full, phase := .free, reception := .none, lastFrameSent := none, lineActive := none,
      received := none }
  health := { window := [], cleanRun := 0, pending := none, watch := none, hold := none }
  attention := { high := true, monitor := .quiet, stuckMark := false }
  scheduler :=
    { queue := [], enumerateWaiting := false, slot := .empty, broadcastOwed := true, lastLampState := none,
      tag := 0, roundAtOnce := false, lastRound := none }
  enumerator := { phase := .idle, probeFrom := none, coupled := false }
  train := { records := Vector.replicate 6 none, linkState := .noTrain, endCertain := false }
  apply := none
  cells := CellTable.allAbsent
  faults := { records := [], nextId := 1, overflow := false, revision := 0 }
  report :=
    { received := [], transmit := [], deferred := [], onBus := none, lastImage := none, imageDue := false,
      lastSummary := none, summaryDue := false, reset := .none }
  counters := defaultCounters
  ignition :=
    { part := .asleep, high := false, quietSince := some 0, cause := .powerOn,
      settings := Config.defaultSettings, library := { entries := [], counter := 0 },
      canBase := Config.defaultSettings.canBase, stored := none, status := .defaulted, save := none }
  pending := []

end Sys2Proof.Machine
end

