-- ==== Sys2Proof/Machine/Operands.lean ====
section
/-! DEFINITION. The operand forms: characters and frames of the train link (chapter 2, 13.1), request layouts on the
CAN port (13.2, 13.3), settings by their codes, and the encodings of 13.4. -/

namespace Sys2Proof.Machine

/-! ### Characters and check byte (R19 to R22) -/

/-- The number of 0 bits of a byte. -/
def zeroBits (b : Byte) : Nat :=
  ([0, 1, 2, 3, 4, 5, 6, 7] : List Nat).foldl (fun n i => if b.getLsbD i then n else n + 1) 0

/-- A byte sent at speed v; one of five or more 0 bits is sent inverted with the flag 1 (R19, R20). -/
def encodeChar (v : Speed) (b : Byte) : WireChar :=
  if 5 ≤ zeroBits b then ⟨~~~b, true, true, v⟩ else ⟨b, false, true, v⟩

/-- A character restored by a receiver that listens at speed v: none when it was sent at the other speed, at a framing
error (R19) or at an encoding error (R20). -/
def decodeChar (v : Speed) (c : WireChar) : Option Byte :=
  let b := if c.flag then ~~~c.bits else c.bits
  if c.speed = v ∧ c.stop ∧ c.flag = decide (5 ≤ zeroBits b) then some b else none

/-- One bit of the CRC-8 with generator x^8 + x^5 + x^3 + x^2 + x + 1 (R22). -/
def crcBit (c : Byte) : Byte := if c.msb then (c <<< 1) ^^^ 0x2F else c <<< 1

/-- One byte of the CRC-8, most significant bit first (R22). -/
def crcByte (c b : Byte) : Byte :=
  crcBit (crcBit (crcBit (crcBit (crcBit (crcBit (crcBit (crcBit (c ^^^ b))))))))

/-- The check byte over restored bytes, initial value 0xFF (R22). -/
def crc8 (bytes : List Byte) : Byte := bytes.foldl crcByte 0xFF

/-- The characters that carry these bytes and their check byte at speed v (R19, R21, R22). -/
def wireOf (v : Speed) (bytes : List Byte) : List WireChar := (bytes ++ [crc8 bytes]).map (encodeChar v)

/-- Every character restored at listening speed v; none when one of them does not decode. -/
def decodeAll (v : Speed) : List WireChar → Option (List Byte)
  | [] => some []
  | c :: rest =>
    match decodeChar v c, decodeAll v rest with
    | some b, some bs => some (b :: bs)
    | _, _ => none

/-- A received frame restored and checked: the bytes before the check byte, when every character decodes, the header's
payload length is at most 48 and met, and the check byte matches (R20 to R22). -/
def restoreFrame (v : Speed) (w : List WireChar) : Option (List Byte) :=
  match decodeAll v w with
  | none => none
  | some bytes =>
    let body := bytes.dropLast
    let len := ((bytes[3]?).getD 0).toNat
    if 5 ≤ bytes.length ∧ len ≤ 48 ∧ bytes.length = 5 + len ∧ bytes.getLast? = some (crc8 body) then some body
    else none

/-- The payload length that the header of these characters gives, once its fourth character has arrived and decodes. -/
def headerLength (v : Speed) (w : List WireChar) : Option Nat := ((w[3]?).bind (decodeChar v)).map BitVec.toNat

/-- How many of the characters belong to the frame that the first one begins: 5 and the payload length that its header
gives, where the header gives one of at most 48; else all that arrived (R21). -/
def frameLength (v : Speed) (w : List WireChar) : Nat :=
  match headerLength v w with
  | none => w.length
  | some n => if n ≤ 48 then 5 + n else w.length

/-- The frame that these characters begin is truncated (R21): fewer have arrived than its header, or than the header's
payload length asks for, or that length is over 48. -/
def truncatedFrame (v : Speed) (w : List WireChar) : Bool :=
  match headerLength v w with
  | none => decide (w.length < 4)
  | some n => decide (48 < n ∨ w.length < 5 + n)

/-- Every character was sent at another speed than v, so none of them decodes (R19). -/
def foreignSpeed (v : Speed) (w : List WireChar) : Bool :=
  decide (w ≠ []) && w.all fun c => decide (c.speed ≠ v)

/-- How a receiver takes the first character of a burst (R21): inside the gap after a frame it begins a frame that will be
discarded; before the gap that must follow a truncated frame it is not taken as a frame at all. `last` is when the last
frame ended and whether it was truncated, `quiet` whether the line has been recessive for a gap. -/
def receptionAt (last : Option (Nat × Bool)) (quiet : Bool) (clock gap : Nat) : Reception :=
  match last with
  | none => .receiving false
  | some (_, true) => if quiet then .receiving false else .skipping
  | some (t, false) => .receiving (decide (clock < t + gap))

/-! ### Frames the part sends (R23, 13.1) -/

def byteOf (n : Nat) : Byte := BitVec.ofNat 8 n

/-- Frame kind codes of 13.1.1. -/
def DownKind.code : DownKind → Byte
  | .lampState => 0x11
  | .query => 0x12
  | .enumerate => 0x13
  | .profileReq => 0x14
  | .posReset => 0x15
  | .speed => 0x16

def DownFrame.bytes (f : DownFrame) : List Byte :=
  [f.kind.code, f.target, f.tag, byteOf f.payload.length] ++ f.payload

/-- The characters of a frame the part sends at speed v. -/
def DownFrame.wire (f : DownFrame) (v : Speed) : List WireChar := wireOf v f.bytes

/-- Bit time 16 µs at FULL and 64 µs at REDUCED, eleven bits to a character (R19). -/
def charTime : Speed → Nat
  | .full => 176
  | .reduced => 704

/-- How long a frame takes to send, in microseconds: five characters and its payload (R21). -/
def DownFrame.duration (f : DownFrame) (v : Speed) : Nat := (5 + f.payload.length) * charTime v

/-- Two-bit code of a command state (13.1.2). -/
def CommandState.code : CommandState → Nat
  | .off => 0
  | .on => 1
  | .flash => 2
  | .unknown => 3

/-- Numbers of two and four bytes, most significant byte first (chapter 13). -/
def twoBytes (n : Nat) : List Byte := [byteOf (n / 256), byteOf n]
def fourBytes (n : Nat) : List Byte := [byteOf (n / 16777216), byteOf (n / 65536), byteOf (n / 256), byteOf n]

/-- The eight fields of `width` bits of a message, function f in bits width·f and up (13.1.2, 13.4). -/
def packed (width : Nat) (code : Func → Nat) : Nat :=
  functions.foldl (fun n f => n + code f * 2 ^ (width * f.val)) 0

def lampStateFrame (i : Intake) : DownFrame where
  kind := .lampState
  target := 0
  tag := 0
  payload := i.epoch :: twoBytes (packed 2 fun f => (i.states[f]).code)

def speedFrame (v : Speed) : DownFrame where
  kind := .speed
  target := 0
  tag := 0
  payload := match v with
    | .full => [0]
    | .reduced => [1]

def enumerateFrame (tag : Byte) : DownFrame := ⟨.enumerate, 0, tag, []⟩

/-- The position a request in the in-flight slot is addressed to. -/
def Sent.pos : Sent → Pos
  | .query p _ => p
  | .profileReq p => p
  | .posReset p _ => p

/-- The frame of an addressed request (R23, R87). -/
def Sent.frame (x : Sent) (tag : Byte) : DownFrame :=
  match x with
  | .query p mask => ⟨.query, byteOf (posNumber p), tag, [mask]⟩
  | .profileReq p => ⟨.profileReq, byteOf (posNumber p), tag, []⟩
  | .posReset p _ => ⟨.posReset, byteOf (posNumber p), tag, []⟩

/-! ### Frames the part receives (R24, R25, R201, 13.1.2) -/

inductive EntryStatus where
  | valid
  | settling
  | offPhase
  | notDriven
  deriving DecidableEq, Repr

/-- One function entry of a SAMPLE (13.1.2). -/
structure SampleEntry where
  status : EntryStatus
  inSaturated : Bool
  loadSaturated : Bool
  onPhase : Bool
  noEpoch : Bool
  inCurrent : Nat
  loadCurrent : Nat
  deriving DecidableEq, Repr

/-- One function of a self-description, as the module gives it (R63). -/
structure Described where
  n : Nat
  tech : Nat
  power : Nat
  deriving DecidableEq, Repr

/-- What an upstream frame carries (R24). -/
inductive UpBody where
  | sample (voltage : Nat) (epoch : Byte) (entries : List SampleEntry)
  | busy
  | enumReply (answer : EnumAnswer)
  | profileReply (serial : Serial) (description : List Described)
  | resetDone
  deriving DecidableEq, Repr

/-- A valid upstream frame: the sender's position, the tag echoed, and its content. -/
structure UpFrame where
  p : Pos
  tag : Byte
  body : UpBody
  deriving DecidableEq, Repr

/-- The number two and four bytes hold, most significant first. -/
def num2 (a b : Byte) : Nat := a.toNat * 256 + b.toNat
def num4 (a b c d : Byte) : Nat := num2 a b * 65536 + num2 c d

/-- The functions of a mask in ascending order. -/
def maskFunctions (mask : Mask) : List Func := functions.filter fun f => mask.getLsbD f.val

/-- A SAMPLE entry of five bytes: none with bit 6 or 7 of its flags set; a current above 16000 is taken as 16000 with
its saturation status set (R201). -/
def parseEntry (flags a b c d : Byte) : Option SampleEntry :=
  if flags.getLsbD 6 ∨ flags.getLsbD 7 then none
  else some
    { status := match flags.toNat % 4 with
        | 0 => .valid
        | 1 => .settling
        | 2 => .offPhase
        | _ => .notDriven
      inSaturated := flags.getLsbD 2 || decide (16000 < num2 a b)
      loadSaturated := flags.getLsbD 3 || decide (16000 < num2 c d)
      onPhase := flags.getLsbD 4
      noEpoch := flags.getLsbD 5
      inCurrent := min 16000 (num2 a b)
      loadCurrent := min 16000 (num2 c d) }

/-- The entries of a SAMPLE, five bytes each. -/
def parseEntries : List Byte → Option (List SampleEntry)
  | [] => some []
  | flags :: a :: b :: c :: d :: rest =>
    match parseEntry flags a b c d, parseEntries rest with
    | some e, some es => some (e :: es)
    | _, _ => none
  | _ => none

/-- The eight descriptions of a PROFILE_REPLY, three bytes each. -/
def parseDescriptions : List Byte → Option (List Described)
  | [] => some []
  | n :: t :: q :: rest =>
    match parseDescriptions rest with
    | some ds => some (⟨n.toNat, t.toNat, q.toNat⟩ :: ds)
    | none => none
  | _ => none

/-- The number of entries a SAMPLE must carry: that of the in-flight QUERY's mask; with none in flight, any number a
mask could ask for, 1 to 8 (R25; log entry 12). -/
def sampleLengthFits (mask : Option Mask) (payloadLength : Nat) : Bool :=
  match mask with
  | some m => decide (payloadLength = 3 + 5 * (maskFunctions m).length)
  | none => decide (payloadLength % 5 = 3 ∧ 8 ≤ payloadLength ∧ payloadLength ≤ 43)

/-- The payload of an upstream frame by its kind code (13.1.1, 13.1.2): none at a kind that does not travel upstream,
a length its kind does not have (R25), or a field outside its encoding (R201). -/
def parseBody (mask : Option Mask) (kind : Byte) (payload : List Byte) : Option UpBody :=
  if kind = 0x21 then
    if sampleLengthFits mask payload.length then
      match payload with
      | v1 :: v0 :: epoch :: rest => (parseEntries rest).map fun es => .sample (num2 v1 v0) epoch es
      | _ => none
    else none
  else if kind = 0x22 then if payload = [] then some .busy else none
  else if kind = 0x23 then
    match payload with
    | [a, b, c, d, unit, last] =>
      if unit.toNat ≤ 1 ∧ last.toNat ≤ 1 then
        some (.enumReply
          { serial := BitVec.ofNat 32 (num4 a b c d), kind := if unit = 0 then .trailer else .dolly,
            last := decide (last = 1) })
      else none
    | _ => none
  else if kind = 0x24 then
    match payload with
    | a :: b :: c :: d :: rest =>
      if rest.length = 24 then
        (parseDescriptions rest).map fun ds => .profileReply (BitVec.ofNat 32 (num4 a b c d)) ds
      else none
    | _ => none
  else if kind = 0x25 then if payload = [] then some .resetDone else none
  else none

/-- A received frame that decodes at speed v, matches its CRC and passes R25 and R201, against the mask of the in-flight
QUERY. -/
def parseFrame (v : Speed) (mask : Option Mask) (w : List WireChar) : Option UpFrame :=
  match restoreFrame v w with
  | some (kind :: target :: tag :: _ :: payload) =>
    match posOfNumber target.toNat, parseBody mask kind payload with
    | some p, some body => some ⟨p, tag, body⟩
    | _, _ => none
  | _ => none

/-! ### Requests on the CAN port (13.2, 13.3) -/

/-- The rows of the table that are requests a master sends. -/
inductive RequestRow where
  | lampCommand
  | faultRead
  | faultAck
  | faultAckAll
  | refresh
  | mapRead
  | siteClear
  | siteClearChainBreak
  | siteClearModule
  | siteClearLink
  | profileStage
  | profileApply
  | profileRead
  | positionReset
  | settingWrite
  | settingRead
  | settingSave
  | counterSetup
  | counterRead
  | libraryDelete
  | enumerate
  | partResetHard
  | partResetSoft
  | identRead
  deriving DecidableEq, Repr

/-- Source codes (R169). -/
def Master.code : Master → Nat
  | .body => 0
  | .cluster => 1
  | .service => 2

/-- The request a CAN frame is, if it is one: a data frame on CAN_BASE + kind × 4 + source with source 0 to 2 (R169). -/
def requestOf (canBase : Nat) (f : CanFrame) : Option Request :=
  if f.remote ∨ f.ident.toNat < canBase ∨ canBase + 64 ≤ f.ident.toNat then none
  else
    let offset := f.ident.toNat - canBase
    match offset % 4 with
    | 0 => some ⟨offset / 4, .body, f.data⟩
    | 1 => some ⟨offset / 4, .cluster, f.data⟩
    | 2 => some ⟨offset / 4, .service, f.data⟩
    | _ => none

/-- Data byte i of a request; 0 past its end. -/
def Request.byte (r : Request) (i : Nat) : Nat := ((r.data[i]?).getD 0).toNat

/-- Two data bytes from i on as one number. -/
def Request.word (r : Request) (i : Nat) : Nat := r.byte i * 256 + r.byte (i + 1)

/-- The row a request belongs to, by its code and what tells apart the rows of one code: the operation of codes 10 and
11, the id of FAULT_ACK, the key of SITE_CLEAR, the kind of PART_RESET (log entry 9). -/
def Request.row (r : Request) : RequestRow :=
  match r.kind with
  | 0 => .lampCommand
  | 1 => .faultRead
  | 2 => if r.data.length = 5 ∧ r.byte 1 = 0 then .faultAckAll else .faultAck
  | 3 => .refresh
  | 4 => .mapRead
  | 5 =>
    if r.data.length ≠ 4 then .siteClear
    else if r.byte 1 = 2 ∧ r.byte 3 = 255 then .siteClearChainBreak
    else if r.byte 1 = 3 then .siteClearModule
    else if r.byte 1 = 4 then .siteClearLink
    else .siteClear
  | 6 => .profileStage
  | 7 => .profileApply
  | 8 => .profileRead
  | 9 => .positionReset
  | 10 =>
    if r.data.length < 2 then .settingWrite
    else if r.byte 1 = 1 then .settingRead
    else if r.byte 1 = 2 then .settingSave
    else .settingWrite
  | 11 => if 2 ≤ r.data.length ∧ r.byte 1 = 1 then .counterRead else .counterSetup
  | 12 => .libraryDelete
  | 13 => .enumerate
  | 14 => if 2 ≤ r.data.length ∧ r.byte 1 = 1 then .partResetSoft else .partResetHard
  | _ => .identRead

/-- The permitted requests (R171). -/
def permitted (source : Master) : RequestRow → Bool
  | .lampCommand => decide (source = .body)
  | .faultRead | .mapRead => true
  | .faultAck | .faultAckAll => decide (source = .cluster)
  | .refresh => decide (source ≠ .body)
  | .siteClear | .siteClearChainBreak | .siteClearModule | .siteClearLink | .profileStage | .profileApply
  | .profileRead | .positionReset => decide (source ≠ .cluster)
  | .settingWrite | .settingRead | .settingSave | .counterSetup | .counterRead | .libraryDelete | .enumerate
  | .partResetHard | .partResetSoft | .identRead => decide (source = .service)

/-- The function a byte names, 0 to 7. -/
def funcOf (n : Nat) : Option Func := if h : n < 8 then some ⟨n, h⟩ else none

def segOf (n : Nat) : Option Seg := if h : n < 7 then some ⟨n, h⟩ else none

/-- The key that a site kind, site number and function byte name (13.3), when it fits its site kind (R163). -/
def siteOfCodes (kind number function : Nat) : Option Site :=
  match kind with
  | 0 =>
    match posOfNumber number, funcOf function with
    | some p, some f => some (.cell (.lamp p f))
    | _, _ => none
  | 1 => if number = 0 then (funcOf function).map fun f => .cell (.line f) else none
  | 2 =>
    match segOf number with
    | none => none
    | some g => if function = 255 then some (.chainBreak g) else (funcOf function).map fun f => .cell (.segment g f)
  | 3 => if function = 255 then (posOfNumber number).map fun p => .module p else none
  | 4 => if number = 0 ∧ function = 255 then some .link else none
  | _ => none

/-- The site a FAULT_ACK carries as its check. -/
def Request.ackSite (r : Request) : Option Site := siteOfCodes (r.byte 2) (r.byte 3) (r.byte 4)

/-- The key a SITE_CLEAR names. -/
def Request.clearSite (r : Request) : Option Site := siteOfCodes (r.byte 1) (r.byte 2) (r.byte 3)

/-- The form of a FAULT_ACK's site fields (R202): kind at most 4, function 0 to 7 or 0xFF, and 0xFF only where the
site kind can lack a function. -/
def ackFieldsFormed (kind function : Nat) : Bool :=
  decide (kind ≤ 4 ∧ (function < 8 ∨ (function = 255 ∧ 2 ≤ kind)))

/-- The two-bit fields of a LAMP_COMMAND (13.3). -/
def Request.commandCode (r : Request) (f : Func) : Nat := r.word 0 / 2 ^ (2 * f.val) % 4

/-- The function state a LAMP_COMMAND carries. -/
def Request.commandState (r : Request) (f : Func) : CommandState :=
  match r.commandCode f with
  | 0 => .off
  | 1 => .on
  | 2 => .flash
  | _ => .unknown

/-- The form check of a request of each row: lengths of 13.2, fields of R174, R192, R199 and R202. -/
def Request.formed (r : Request) : Bool :=
  match r.row with
  | .lampCommand =>
    decide (r.data.length = 3 ∧ r.byte 2 ≤ 1) && functions.all fun f => decide (r.commandCode f ≠ 3)
  | .faultRead => decide (r.data.length = 2)
  | .faultAck => decide (r.data.length = 5) && ackFieldsFormed (r.byte 2) (r.byte 4)
  | .faultAckAll => decide (r.data.length = 5)
  | .refresh => decide (r.data.length = 3 ∧ 1 ≤ r.byte 1 ∧ r.byte 1 ≤ 6)
  | .mapRead => decide (r.data.length = 2 ∧ r.byte 1 ≤ 6)
  | .siteClear | .siteClearChainBreak | .siteClearModule | .siteClearLink =>
    decide (r.data.length = 4) && r.clearSite.isSome
  | .profileStage =>
    decide (r.data.length = 8 ∧ 1 ≤ r.byte 1 ∧ r.byte 1 ≤ 6 ∧ r.byte 2 < 8 ∧ r.byte 4 ≤ 1)
  | .profileApply => decide (r.data.length = 3 ∧ 0 < r.byte 1 ∧ r.byte 1 < 64 ∧ r.byte 2 ≤ 1)
  | .profileRead => decide (r.data.length = 3 ∧ 1 ≤ r.byte 1 ∧ r.byte 1 ≤ 6 ∧ r.byte 2 < 8)
  | .positionReset => decide (r.data.length = 2 ∧ 1 ≤ r.byte 1 ∧ r.byte 1 ≤ 6)
  | .settingWrite =>
    decide (r.data.length = 5 ∧ r.byte 1 = 0 ∧ r.byte 2 ≤ 14 ∧ (r.byte 2 = 3 → r.word 3 ≤ 1))
  | .settingRead => decide (r.data.length = 3 ∧ r.byte 2 ≤ 14)
  | .settingSave => decide (r.data.length = 2)
  | .counterSetup =>
    decide (r.data.length = 5 ∧ r.byte 1 = 0 ∧ r.byte 2 ≤ 3 ∧ r.byte 3 ≤ 11 ∧ r.byte 4 < 128)
  | .counterRead => decide (r.data.length = 4 ∧ r.byte 2 ≤ 3 ∧ r.byte 3 ≤ 1)
  | .libraryDelete => decide (r.data.length = 5)
  | .enumerate => decide (r.data.length = 1)
  | .partResetHard => decide (r.data.length = 2 ∧ r.byte 1 = 0)
  | .partResetSoft => decide (r.data.length = 2)
  | .identRead => decide (r.data.length = 1)

/-- The request number, byte 0; 0 for a LAMP_COMMAND, which carries none, and where the byte is missing (13.4). -/
def Request.number (r : Request) : Byte := if r.kind = 0 then 0 else byteOf (r.byte 0)

def Request.requester (r : Request) : Requester := ⟨r.source, r.number⟩

/-- The operation bits a REPLY echoes: 0 where the code has none (13.4), the operation as received (R202). -/
def Request.operation (r : Request) : Nat :=
  if r.kind = 10 ∨ r.kind = 11 then
    match r.data[1]? with
    | none => Config.missingOperationEcho.toNat
    | some b => if b.toNat < 4 then b.toNat else (Config.operationEcho b).toNat
  else 0

/-! ### Settings by their codes (R199, 12.4, 13.3) -/

def SpeedLock.code : SpeedLock → Nat
  | .fullAllowed => 0
  | .reducedOnly => 1

/-- The working value of the setting with a code, as SETTING_READ carries it. -/
def Settings.read (x : Settings) : Nat → Nat
  | 0 => x.scanPeriod
  | 1 => x.replyBase
  | 2 => x.retryLimit
  | 3 => x.speedLock.code
  | 4 => x.openFloor
  | 5 => x.overLimit
  | 6 => x.tolFilament
  | 7 => x.tolLed
  | 8 => x.minJudgeV
  | 9 => x.qSet
  | 10 => x.qClear
  | 11 => x.harnessFloor
  | 12 => x.harnessPct
  | 13 => x.pairWindow
  | _ => x.canBase

/-- Range and step of the setting with a code (12.4). -/
def settingRange : Nat → Nat × Nat × Nat
  | 0 => (50, 2000, 10)
  | 1 => (1, 20, 1)
  | 2 => (0, 3, 1)
  | 3 => (0, 1, 1)
  | 4 => (10, 200, 1)
  | 5 => (1100, 2500, 1)
  | 6 => (30, 300, 1)
  | 7 => (30, 300, 1)
  | 8 => (160, 240, 1)
  | 9 => (1, 15, 1)
  | 10 => (1, 15, 1)
  | 11 => (50, 1000, 1)
  | 12 => (20, 200, 1)
  | 13 => (100, 2000, 1)
  | _ => (0x000, 0x7A0, 0x20)

/-- The value a write brings into force: clamped to the range, then rounded down to the step (R174, R199). -/
def settingValue (code v : Nat) : Nat :=
  let (lo, hi, step) := settingRange code
  clampTo lo hi v / step * step

/-- The settings with one setting written. -/
def Settings.write (x : Settings) (code v : Nat) : Settings :=
  match code with
  | 0 => { x with scanPeriod := v }
  | 1 => { x with replyBase := v }
  | 2 => { x with retryLimit := v }
  | 3 => { x with speedLock := if v = 0 then .fullAllowed else .reducedOnly }
  | 4 => { x with openFloor := v }
  | 5 => { x with overLimit := v }
  | 6 => { x with tolFilament := v }
  | 7 => { x with tolLed := v }
  | 8 => { x with minJudgeV := v }
  | 9 => { x with qSet := v }
  | 10 => { x with qClear := v }
  | 11 => { x with harnessFloor := v }
  | 12 => { x with harnessPct := v }
  | 13 => { x with pairWindow := v }
  | _ => { x with canBase := v }

/-! ### Encodings of 13.3 and 13.4 -/

def boolCode (b : Bool) : Nat := if b then 1 else 0

/-- Site kind, site number and function byte of a key (13.3). -/
def Site.kindCode : Site → Nat
  | .cell (.lamp _ _) => 0
  | .cell (.line _) => 1
  | .cell (.segment _ _) => 2
  | .chainBreak _ => 2
  | .module _ => 3
  | .link => 4

def Site.number : Site → Nat
  | .cell (.lamp p _) => posNumber p
  | .cell (.line _) => 0
  | .cell (.segment g _) => g.val
  | .chainBreak g => g.val
  | .module p => posNumber p
  | .link => 0

def FaultKind.code : FaultKind → Nat
  | .openCircuit => 0
  | .partialLoss => 1
  | .overload => 2
  | .unexpectedLoad => 3
  | .leak => 4
  | .senseConflict => 5
  | .silentModule => 6
  | .chainBreak => 7
  | .attentionStuck => 8

def RecordState.code : RecordState → Nat
  | .activeUnack => 0
  | .activeAck => 1
  | .healedUnack => 2

def PosState.code : PosState → Nat
  | .present => 0
  | .silent => 1
  | .lost => 2

def UnitKind.code : UnitKind → Nat
  | .trailer => 0
  | .dolly => 1

def ProfileSource.code : ProfileSource → Nat
  | .module => 0
  | .library => 1
  | .staged => 2

def LinkState.code : LinkState → Nat
  | .noTrain => 0
  | .down => 1
  | .live => 2

def ResetCause.code : ResetCause → Nat
  | .powerOn => 0
  | .supplyDip => 1
  | .hard => 2
  | .soft => 3

def StoreStatus.code : StoreStatus → Nat
  | .valid => 0
  | .defaulted => 1
  | .writeFailed => 2

def Tech.code : Tech → Nat
  | .filament => 0
  | .led => 1

def CellState.code : CellState → Nat
  | .absent => 0
  | .unverified => 1
  | .clean => 2
  | .suspect => 3
  | .faulted => 4
  | .recovering => 5

def HoldReason.code : HoldReason → Nat
  | .stale => 1
  | .settling => 2
  | .offPhase => 3
  | .notDriven => 4
  | .lowSupply => 5
  | .saturatedUnusable => 6
  | .commandLost => 7
  | .notFitted => 8
  | .silent => 9

/-- Event codes of 13.3. -/
def CountedEvent.code : CountedEvent → Nat
  | .frameSent => 0
  | .replyValid => 1
  | .replyCrcFail => 2
  | .replyTimeout => 3
  | .replyBusy => 4
  | .sampleStale => 5
  | .attentionShort => 6
  | .attentionAmbiguous => 7
  | .attentionLong => 8
  | .scanSkipped => 9
  | .judgementNonOk => 10
  | .queueOccupancy => 11

def eventOfCode : Nat → CountedEvent
  | 0 => .frameSent
  | 1 => .replyValid
  | 2 => .replyCrcFail
  | 3 => .replyTimeout
  | 4 => .replyBusy
  | 5 => .sampleStale
  | 6 => .attentionShort
  | 7 => .attentionAmbiguous
  | 8 => .attentionLong
  | 9 => .scanSkipped
  | 10 => .judgementNonOk
  | _ => .queueOccupancy

/-- A cell byte: state in bits 0 to 2, resolvable flag in bit 3 (0 for segment cells), hold reason in bits 4 to 7. -/
def cellByte (c : Cell) (withFlag : Bool) : Byte :=
  byteOf (c.state.code + 8 * boolCode (withFlag && c.resolvable) +
    16 * (match c.hold with | none => 0 | some h => h.code))

/-- Request statuses (R172, 13.4). -/
inductive Status where
  | done
  | clamped
  | held
  | busy
  | queueFull
  | noRecord
  | end_
  | badArgument
  | failed
  | refusedSource
  deriving DecidableEq, Repr

def Status.code : Status → Nat
  | .done => 0
  | .clamped => 1
  | .held => 2
  | .busy => 3
  | .queueFull => 4
  | .noRecord => 5
  | .end_ => 6
  | .badArgument => 7
  | .failed => 8
  | .refusedSource => 9

def MessageKind.code : MessageKind → Nat
  | .reply => 0
  | .readData => 1
  | .telltaleImage => 2
  | .lampSummary => 3

/-- Data bytes in groups of five, the last filled with zeros (READ_DATA, 13.4). -/
def groupsOfFive : Nat → List Byte → List (List Byte)
  | 0, _ => []
  | n + 1, bytes => (bytes.take 5 ++ List.replicate (5 - bytes.length) 0) :: groupsOfFive n (bytes.drop 5)

end Sys2Proof.Machine
end

