-- ==== Sys2Proof/Machine/Ops.lean ====
section
/-! DEFINITION. The shared operations over the blocks' state: time, cells, position records, the Fault List, the
Event Counters, and what every event ends with. -/

namespace Sys2Proof.Machine

/-! ### Time (0.8.6) -/

/-- The reading of the 32-bit millisecond counter. -/
def State.now (s : State) : Time := BitVec.ofNat 32 (s.clock / 1000)

/-- The milliseconds since a stored reading, by subtraction modulo 2^32 (0.8.6). -/
def State.age (s : State) (t : Time) : Nat := (s.now - t).toNat

/-- At least `n` ms have passed since a reading, if there is one. -/
def State.passed (s : State) (t : Option Time) (n : Nat) : Bool :=
  match t with
  | none => false
  | some u => decide (n ≤ s.age u)

/-- The part is WAKING or RUNNING. -/
def State.awake (s : State) : Bool := decide (s.ignition.part ≠ .asleep)

/-- The part is RUNNING. -/
def State.running (s : State) : Bool := decide (s.ignition.part = .running)

/-! ### Cells (1.1) -/

/-- The cell at an address (R1). -/
def CellTable.get (t : CellTable) : CellKey → Cell
  | .lamp p f => t.lamp[p][f]
  | .line f => t.line[f]
  | .segment g f => t.segment[g][f]

/-- The table with one cell replaced. -/
def CellTable.set (t : CellTable) (k : CellKey) (c : Cell) : CellTable :=
  match k with
  | .lamp p f => { t with lamp := t.lamp.set p (t.lamp[p].set f c) }
  | .line f => { t with line := t.line.set f c }
  | .segment g f => { t with segment := t.segment.set g (t.segment[g].set f c) }

/-- The table with every cell replaced by what `g` makes of it. -/
def CellTable.change (t : CellTable) (g : CellKey → Cell → Cell) : CellTable where
  lamp := remap t.lamp fun p row => remap row fun f c => g (.lamp p f) c
  line := remap t.line fun f c => g (.line f) c
  segment := remap t.segment fun i row => remap row fun f c => g (.segment i f) c

/-- The addresses of all 112 cells, in the order of the admission tie-break of R158: LAMP, LINE, SEGMENT; lower site
number; lower function. -/
def cellKeys : List CellKey :=
  (positions.flatMap fun p => functions.map fun f => .lamp p f) ++
    (functions.map fun f => .line f) ++
    (segments.flatMap fun g => functions.map fun f => .segment g f)

def State.cell (s : State) (k : CellKey) : Cell := s.cells.get k

def State.setCell (s : State) (k : CellKey) (c : Cell) : State := s.withCells (s.cells.set k c)

/-- A cell that has left ABSENT: UNVERIFIED with the field values of ABSENT (R1). -/
def Cell.fresh : Cell := { Cell.absent with state := .unverified }

/-- A cell reset to UNVERIFIED: count 0, verdicts, confirmed-at time, sample and hold reason cleared (R57, R163). -/
def Cell.cleared (c : Cell) : Cell :=
  { c with state := .unverified, confirmed := none, candidate := none, count := 0, sample := none, hold := none,
           confirmedAt := none }

/-- The cell is in FAULTED or RECOVERING. -/
def Cell.faulty (c : Cell) : Bool := decide (c.state = .faulted ∨ c.state = .recovering)

/-- A held outcome sets the hold reason and nothing else (R4); an ABSENT cell takes none. -/
def State.holdCell (s : State) (k : CellKey) (r : HoldReason) : State :=
  if (s.cell k).state = .absent then s else s.setCell k { s.cell k with hold := some r }

/-! ### Position records (3.1) -/

def State.record (s : State) (p : Pos) : Option PosRecord := s.train.records[p]

def State.setRecord (s : State) (p : Pos) (r : Option PosRecord) : State :=
  s.withTrain { s.train with records := s.train.records.set p r }

/-- What the record of a mapped position becomes; nothing at an unmapped one. -/
def State.changeRecord (s : State) (p : Pos) (g : PosRecord → PosRecord) : State :=
  match s.record p with
  | none => s
  | some r => s.setRecord p (some (g r))

/-- The state of position p, if it is mapped. -/
def State.posState (s : State) (p : Pos) : Option PosState := (s.record p).map PosRecord.state

/-- N, the number of the last mapped position, 0 when the map is empty (3.1). -/
def State.trainLength (s : State) : Nat :=
  positions.foldl (fun n p => if (s.record p).isSome then posNumber p else n) 0

/-- Segment g exists: with N positions mapped, segments 0 to N; none with the map empty (R1). -/
def State.segmentExists (s : State) (g : Seg) : Bool := decide (0 < s.trainLength ∧ g.val ≤ s.trainLength)

/-- Some position is in the given state. -/
def State.somePosition (s : State) (x : PosState) : Bool :=
  positions.any fun p => decide (s.posState p = some x)

/-- The applied profile of circuit (p, f), if p is mapped and the profile known (R59). -/
def State.appliedProfile (s : State) (p : Pos) (f : Func) : Option Profile :=
  match s.record p with
  | none => none
  | some r => r.applied[f]

/-! ### Event Counters (R191) -/

/-- The counter's mask lets an event count: it holds the event's position, or the event carries none. -/
def Counter.covers (c : Counter) : Option Nat → Bool
  | none => true
  | some q => c.mask.getLsbD q

/-- The counter after an event it may count: its selector names the event and, where the event carries a position, its
mask holds it. The value wraps past 4294967295 and the overflow flag is then set. -/
def Counter.count (c : Counter) (e : CountedEvent) (position : Option Nat) (amount : Nat) : Counter :=
  if c.selector = e ∧ c.covers position then
    { c with value := c.value + BitVec.ofNat 32 amount,
             overflow := c.overflow || decide (2 ^ 32 ≤ c.value.toNat + amount) }
  else c

/-- An event handed to the Event Counters; while the part is ASLEEP they are frozen (R191). -/
def State.countBy (s : State) (e : CountedEvent) (position : Option Nat) (amount : Nat) : State :=
  if s.awake then s.withCounters (remap s.counters fun _ c => c.count e position amount) else s

def State.countEvent (s : State) (e : CountedEvent) (position : Option Nat) : State := s.countBy e position 1

/-! ### The Fault List (9.2) -/

/-- The kind of a cell's record is the kind of its confirmed verdict (R148). -/
def Verdict.faultKind : Verdict → FaultKind
  | .partialLoss _ => .partialLoss
  | .openCircuit => .openCircuit
  | .overload => .overload
  | .unexpectedLoad => .unexpectedLoad
  | .leak => .leak
  | .senseConflict => .senseConflict

/-- lamps_out is present for kind PARTIAL alone (R152). -/
def Verdict.lampsOut : Verdict → Option Nat
  | .partialLoss k => some k
  | .openCircuit => none
  | .overload => none
  | .unexpectedLoad => none
  | .leak => none
  | .senseConflict => none

/-- Two verdicts are the same when their kinds are equal (0.8.4). -/
def Verdict.same (v w : Verdict) : Bool := decide (v.faultKind = w.faultKind)

/-- The function of a site, if it has one (R151). -/
def Site.function : Site → Option Func
  | .cell (.lamp _ f) => some f
  | .cell (.line f) => some f
  | .cell (.segment _ f) => some f
  | .chainBreak _ => none
  | .module _ => none
  | .link => none

/-- The severity table of R152: OPEN has severity 4 on STOP, TURN_L and TURN_R. -/
def severityOf (site : Site) : FaultKind → Nat
  | .chainBreak => 4
  | .openCircuit => if site.function = some 1 ∨ site.function = some 2 ∨ site.function = some 3 then 4 else 3
  | .overload => 3
  | .leak => 3
  | .silentModule => 3
  | .partialLoss => 2
  | .unexpectedLoad => 2
  | .attentionStuck => 2
  | .senseConflict => 1

/-- The id after one, 255 wrapping to 1 (R153). -/
def nextFaultId (n : Nat) : Nat := if n = 255 then 1 else n + 1

/-- The first id from `n` on that no record holds, within `fuel` advances (R153). -/
def freeFaultId (records : List FaultRecord) : Nat → Nat → Nat
  | 0, n => n
  | fuel + 1, n => if records.any (fun r => decide (r.id = n)) then freeFaultId records fuel (nextFaultId n) else n

/-- The record of a key, if the list holds one. -/
def State.faultAt (s : State) (site : Site) : Option FaultRecord :=
  s.faults.records.find? fun r => decide (r.site = site)

/-- The listed flag of the cell behind a site, if it has one (R6). -/
def State.markListed (s : State) (site : Site) (b : Bool) : State :=
  match site with
  | .cell k => s.setCell k { s.cell k with listed := b }
  | .chainBreak _ => s
  | .module _ => s
  | .link => s

/-- The serial a new record takes: that of the position record of a LAMP or MODULE site (R152). -/
def State.serialFor (s : State) : Site → Option Serial
  | .cell (.lamp p _) => (s.record p).bind PosRecord.serial
  | .module p => (s.record p).bind PosRecord.serial
  | .cell (.line _) => none
  | .cell (.segment _ _) => none
  | .chainBreak _ => none
  | .link => none

def State.withRecords (s : State) (rs : List FaultRecord) : State := s.withFaults { s.faults with records := rs }

/-- A record inserted at the tail with a new id (R153, R154). -/
def State.insertFault (s : State) (site : Site) (kind : FaultKind) (lampsOut : Option Nat) (first : Time) : State :=
  let id := freeFaultId s.faults.records Config.faultPlaces s.faults.nextId
  let r : FaultRecord :=
    { id := id, site := site, kind := kind, severity := severityOf site kind, state := .activeUnack,
      lampsOut := lampsOut, firstRaised := first, lastChange := s.now, occurrences := 1,
      serial := s.serialFor site }
  (s.withFaults { s.faults with records := s.faults.records ++ [r], nextId := nextFaultId id }).markListed site true

/-- The record of a key removed, whatever its state, and its cell's listed flag cleared (R6, R150). -/
def State.removeFault (s : State) (site : Site) : State :=
  match s.faultAt site with
  | none => s
  | some _ => (s.withRecords (s.faults.records.filter fun r => decide (r.site ≠ site))).markListed site false

/-- What the record of a key becomes, in its place. -/
def State.changeFault (s : State) (site : Site) (g : FaultRecord → FaultRecord) : State :=
  s.withRecords (s.faults.records.map fun r => if r.site = site then g r else r)

/-- A HEALED_UNACK record taken up again by a raise (R154). -/
def FaultRecord.reused (r : FaultRecord) (kind : FaultKind) (lampsOut : Option Nat) (now : Time) : FaultRecord :=
  { r with state := .activeUnack, kind := kind, severity := severityOf r.site kind, lampsOut := lampsOut,
           lastChange := now, occurrences := min 255 (r.occurrences + 1) }

/-- The oldest HEALED_UNACK record, the one nearest the head (R157). -/
def State.oldestHealed (s : State) : Option FaultRecord :=
  s.faults.records.find? fun r => decide (r.state = .healedUnack)

/-- A raise (R154, R157). `full` is what happens when the list is full and holds no HEALED_UNACK record. An active
record of the key is left as it is: the raise does not arise. -/
def State.raiseFault (s : State) (site : Site) (kind : FaultKind) (lampsOut : Option Nat) (full : State) : State :=
  match s.faultAt site with
  | some r =>
    if r.state = .healedUnack then s.changeFault site fun x => x.reused kind lampsOut s.now else s
  | none =>
    if s.faults.records.length < Config.faultPlaces then s.insertFault site kind lampsOut s.now
    else
      match s.oldestHealed with
      | some h => (s.removeFault h.site).insertFault site kind lampsOut s.now
      | none => full

/-- A heal (R156). -/
def State.healFault (s : State) (site : Site) : State :=
  match s.faultAt site with
  | none => s
  | some r =>
    match r.state with
    | .activeUnack => s.changeFault site fun x => { x with state := .healedUnack, lastChange := s.now }
    | .activeAck => s.removeFault site
    | .healedUnack => s

/-- An escalation of a listed cell's record (R155). -/
def State.escalateFault (s : State) (site : Site) (v : Verdict) : State :=
  s.changeFault site fun x =>
    { x with kind := v.faultKind, severity := severityOf x.site v.faultKind, lampsOut := v.lampsOut,
             state := .activeUnack, occurrences := min 255 (x.occurrences + 1), lastChange := s.now }

/-- A change of lamps_out (R155). -/
def State.renewLampsOut (s : State) (site : Site) (v : Verdict) : State :=
  s.changeFault site fun x => { x with lampsOut := v.lampsOut, lastChange := s.now }

/-- A cell goes ABSENT: every field at its ABSENT value, its record removed (R1). -/
def State.makeAbsent (s : State) (k : CellKey) : State :=
  (s.removeFault (.cell k)).setCell k Cell.absent

/-- A cell goes to UNVERIFIED with its record removed (R48, R49, R57, R163); an ABSENT cell stays. -/
def State.clearCell (s : State) (k : CellKey) : State :=
  if (s.cell k).state = .absent then s
  else
    let t := s.removeFault (.cell k)
    t.setCell k (t.cell k).cleared

/-! ### Admission and the overflow flag (R158, R159) -/

/-- A cell in FAULTED or RECOVERING whose listed flag is false. -/
def State.unlisted (s : State) (k : CellKey) : Bool := (s.cell k).faulty && !(s.cell k).listed

/-- How long ago the cell was confirmed. -/
def State.confirmedAge (s : State) (k : CellKey) : Nat :=
  match (s.cell k).confirmedAt with
  | none => 0
  | some t => s.age t

/-- A cell that waits for a record: unlisted, with the confirmed verdict that every faulted cell has (R2). -/
def State.awaitsRecord (s : State) (k : CellKey) : Bool := s.unlisted k && (s.cell k).confirmed.isSome

/-- The unlisted faulted cell with the earliest confirmed-at time, ties in the order of `cellKeys` (R158). -/
def State.nextToAdmit (s : State) : Option CellKey :=
  (cellKeys.filter s.awaitsRecord).foldl
    (fun best k =>
      match best with
      | none => some k
      | some b => if s.confirmedAge b < s.confirmedAge k then some k else some b)
    none

/-- One admission: a record for the cell as its confirmed verdict stands, first raised when it was confirmed (R158). -/
def State.admitCell (s : State) (k : CellKey) : State :=
  match (s.cell k).confirmed with
  | none => s
  | some v => s.insertFault (.cell k) v.faultKind v.lampsOut ((s.cell k).confirmedAt.getD s.now)

/-- Waiting cells are admitted into free places, at most `fuel` of them (R158). -/
def State.admitUpTo : Nat → State → State
  | 0, s => s
  | fuel + 1, s =>
    if s.faults.records.length < Config.faultPlaces then
      match s.nextToAdmit with
      | none => s
      | some k => (s.admitCell k).admitUpTo fuel
    else s

def State.admitWaiting (s : State) : State := s.admitUpTo Config.faultPlaces

/-- The overflow flag is set exactly while a faulted cell is unlisted (R159). A flag that is set or cleared moves the list
revision, from which `State.settleRevision` makes the one step of the event (R160). -/
def State.settleOverflow (s : State) : State :=
  let full := cellKeys.any s.unlisted
  s.withFaults
    { s.faults with
      overflow := full, revision := if full = s.faults.overflow then s.faults.revision else s.faults.revision + 1 }

/-- The event has changed the list as it was before it (R160). A record that the event inserts and then removes shows in
the next id, which every insertion moves (R153); a flag that it sets and then clears, or the other way about, in the
revision (log entry 20). -/
def FaultList.changedFrom (l before : FaultList) : Bool :=
  !decide (l.records = before.records ∧ l.overflow = before.overflow ∧ l.nextId = before.nextId ∧
    l.revision = before.revision)

/-- The list revision moves by one when the event has changed the list, however often it has done so (R160). -/
def State.settleRevision (s : State) (before : FaultList) : State :=
  if s.faults.changedFrom before then s.withFaults { s.faults with revision := before.revision + 1 } else s

/-! ### What follows an event -/

/-- The ENUMERATE entry that waits takes the first place that has been freed, at the head (R81). -/
def State.settleQueue (s : State) : State :=
  if s.scheduler.enumerateWaiting ∧ s.scheduler.queue.length < Config.queuePlaces then
    s.withScheduler
      { s.scheduler with queue := ⟨.enumerate, s.now⟩ :: s.scheduler.queue, enumerateWaiting := false }
  else s

/-- The vehicle is quiet: ignition LOW and every function OFF or UNKNOWN (R194). -/
def State.isQuiet (s : State) : Bool :=
  !s.ignition.high &&
    functions.all fun f => decide (s.intake.states[f] = .off ∨ s.intake.states[f] = .unknown)

/-- The quiet-since time is set when the vehicle becomes quiet and dropped when it stops being quiet (R194). -/
def State.settleQuiet (s : State) : State :=
  if s.isQuiet then
    match s.ignition.quietSince with
    | some _ => s
    | none => s.withIgnition { s.ignition with quietSince := some s.now }
  else s.withIgnition { s.ignition with quietSince := none }

/-- The condition under which the probe interval runs (R46). -/
def State.probing (s : State) : Bool :=
  decide (s.enumerator.phase = .idle) && s.running &&
    (decide (s.train.linkState = .down) || s.somePosition .lost)

/-- The probe interval starts when its condition becomes true and is abandoned when it ends (R46). -/
def State.settleProbe (s : State) : State :=
  if s.probing then
    match s.enumerator.probeFrom with
    | some _ => s
    | none => s.withEnumerator { s.enumerator with probeFrom := some s.now }
  else s.withEnumerator { s.enumerator with probeFrom := none }

end Sys2Proof.Machine
end

