-- ==== Sys2Proof/Machine/Flags.lean ====
section
/-! DEFINITION. What the part computes from its state: the lit functions, the link state and what the line cells do
when it changes, the telltale image and the lamp summary. -/

namespace Sys2Proof.Machine

/-! ### Commands in force (1.2) -/

/-- Function f is commanded ON or FLASH. -/
def State.lit (s : State) (f : Func) : Bool :=
  decide (s.intake.states[f] = .on ∨ s.intake.states[f] = .flash)

/-- The set of functions that satisfy a test. -/
def maskWhere (g : Func → Bool) : Mask :=
  BitVec.ofNat 8 (functions.foldl (fun n f => if g f then n + 2 ^ f.val else n) 0)

/-- The mask of functions commanded ON or FLASH (R83). -/
def State.litMask (s : State) : Mask := maskWhere s.lit

/-! ### Link state (R41, R7) -/

/-- The link state by the table of R41. -/
def State.linkStateNow (s : State) : LinkState :=
  if ¬ s.enumerator.coupled then .noTrain else if s.somePosition .present then .live else .down

/-- A line cell on a change from DOWN to LIVE: UNVERIFIED with count 0; its sample and hold reason are kept, its
verdicts and confirmed-at time dropped (R7). -/
def Cell.unjudged (c : Cell) : Cell :=
  { c with state := .unverified, count := 0, confirmed := none, candidate := none, confirmedAt := none }

/-- What line cell f does at a change of link state (R7). -/
def State.lineCellFollows (s : State) (old new : LinkState) (f : Func) : State :=
  match old, new with
  | .noTrain, .noTrain => s
  | _, .noTrain => s.makeAbsent (.line f)
  | .noTrain, _ => s.setCell (.line f) Cell.fresh
  | .down, .live =>
    (s.setCell (.line f) (s.cell (.line f)).unjudged).healFault (.cell (.line f))
  | .live, .live => s
  | .live, .down => s
  | .down, .down => s

/-- A new link state, handed at once to the line cells (R41). -/
def State.setLinkState (s : State) (new : LinkState) : State :=
  functions.foldl (fun t f => t.lineCellFollows s.train.linkState new f)
    (s.withTrain { s.train with linkState := new })

/-- The link state set afresh (R41). -/
def State.refreshLink (s : State) : State := s.setLinkState s.linkStateNow

/-! ### The telltale image (R175, R176, 13.4) -/

inductive Telltale where
  | off
  | steady
  | flash
  deriving DecidableEq, Repr

def Telltale.code : Telltale → Nat
  | .off => 0
  | .steady => 1
  | .flash => 2

/-- A record is unacknowledged when it is ACTIVE_UNACK or HEALED_UNACK (R175). -/
def FaultRecord.unacknowledged (r : FaultRecord) : Bool := decide (r.state ≠ .activeAck)

/-- The telltale over a group of records: FLASH when one is unacknowledged, STEADY when there are some and all are
ACTIVE_ACK, OFF otherwise (R175). -/
def telltaleOver (rs : List FaultRecord) : Telltale :=
  if rs.any FaultRecord.unacknowledged then .flash else if rs = [] then .off else .steady

/-- The telltale of function f (R175). -/
def FaultList.telltale (l : FaultList) (f : Func) : Telltale :=
  telltaleOver (l.records.filter fun r => decide (r.site.function = some f))

/-- The TRAIN telltale, over the records without a function (R175). -/
def FaultList.trainTelltale (l : FaultList) : Telltale :=
  telltaleOver (l.records.filter fun r => decide (r.site.function = none))

/-- The record of highest severity, a tie going to the one nearer the head. -/
def worstOf (rs : List FaultRecord) : Option FaultRecord :=
  rs.foldl
    (fun best r =>
      match best with
      | none => some r
      | some b => if b.severity < r.severity then some r else some b)
    none

/-- The worst site: among the unacknowledged records, or among all when none is unacknowledged (R176). -/
def FaultList.worst (l : FaultList) : Option FaultRecord :=
  match worstOf (l.records.filter FaultRecord.unacknowledged) with
  | some r => some r
  | none => worstOf l.records

inductive Mode where
  | checking
  | normal
  | commandLost
  | linkDown
  | noTrain
  deriving DecidableEq, Repr

def Mode.code : Mode → Nat
  | .checking => 0
  | .normal => 1
  | .commandLost => 2
  | .linkDown => 3
  | .noTrain => 4

/-- The mode table of R176; no image is built while the part is ASLEEP. -/
def State.mode (s : State) : Mode :=
  if s.ignition.part ≠ .running then .checking
  else if s.intake.lost then .commandLost
  else
    match s.train.linkState with
    | .noTrain => .noTrain
    | .down => .linkDown
    | .live => .normal

/-- Bytes 5 to 7 of the image: the worst site (13.4). -/
def worstBytes : Option FaultRecord → List Byte
  | none => [0, 0, 0]
  | some r =>
    [byteOf (r.site.kindCode + 8 * r.site.number),
     byteOf ((match r.site.function with | none => 15 | some f => f.val) + 16 * r.kind.code),
     byteOf r.severity]

/-- The data bytes of the TELLTALE_IMAGE as it would now be built (R175, R176, 13.4). -/
def State.imageNow (s : State) : List Byte :=
  let l := s.faults
  twoBytes (packed 2 fun f => (l.telltale f).code) ++
    [byteOf (l.trainTelltale.code + 4 * s.mode.code + 32 * boolCode l.overflow + 64 * boolCode l.worst.isSome),
     byteOf l.records.length, l.revision] ++ worstBytes l.worst

/-! ### The lamp summary (R178, R179, 13.4) -/

inductive SummaryClass where
  | ok
  | partialLoss
  | openCircuit
  | overload
  | unknown
  deriving DecidableEq, Repr

def SummaryClass.code : SummaryClass → Nat
  | .ok => 0
  | .partialLoss => 1
  | .openCircuit => 2
  | .overload => 3
  | .unknown => 4

/-- The lamp cells and the line cell of a function (R178). -/
def State.circuitCells (s : State) (f : Func) : List Cell :=
  (positions.map fun p => s.cell (.lamp p f)) ++ [s.cell (.line f)]

/-- Some cell of the function is FAULTED or RECOVERING with a confirmed verdict that satisfies the test. -/
def State.someConfirmed (s : State) (f : Func) (g : Verdict → Bool) : Bool :=
  (s.circuitCells f).any fun c =>
    c.faulty && (match c.confirmed with | none => false | some v => g v)

/-- The class of a function (R178). -/
def State.summaryClass (s : State) (f : Func) : SummaryClass :=
  if (s.circuitCells f).any Cell.faulty then
    if s.someConfirmed f fun v => decide (v.faultKind = .openCircuit) then .openCircuit
    else if s.someConfirmed f fun v => decide (v.faultKind = .overload ∨ v.faultKind = .unexpectedLoad) then .overload
    else .partialLoss
  else if (s.circuitCells f).any fun c => decide (c.state = .clean) then .ok
  else .unknown

/-- TURN_L_DEGRADED and TURN_R_DEGRADED: some circuit of the function confirmed PARTIAL or OPEN (R179). -/
def State.degraded (s : State) (f : Func) : Bool :=
  s.someConfirmed f fun v => decide (v.faultKind = .partialLoss ∨ v.faultKind = .openCircuit)

/-- The data bytes of the LAMP_SUMMARY as it would now be built (R178, R179, 13.4). -/
def State.summaryNow (s : State) : List Byte :=
  let classes := packed 3 fun f => (s.summaryClass f).code
  [byteOf (classes / 65536), byteOf (classes / 256), byteOf classes,
   byteOf (boolCode (s.degraded 2) + 2 * boolCode (s.degraded 3) + 4 * s.train.linkState.code)]

end Sys2Proof.Machine
end

