-- ==== Sys2Proof/Machine/Events.lean ====
section
/-! DEFINITION. An event: the moment at which a command is taken, its effect, and what every event ends with. -/

namespace Sys2Proof.Machine

/-- A report that differs from the one last sent, at least 50 ms after that one, falls due (R177, R179). -/
def State.changeDue (s : State) (last : Option (List Byte × Time)) (present : List Byte) : Bool :=
  match last with
  | none => false
  | some (sent, at_) => decide (present ≠ sent ∧ 50 ≤ s.age at_)

/-- A change of the telltale image or of the lamp summary makes it due; none falls due while ASLEEP (R177, R179). -/
def State.settleReports (s : State) : State :=
  if s.awake then
    s.withReport
      { s.report with
        imageDue := s.report.imageDue || s.changeDue s.report.lastImage s.imageNow
        summaryDue := s.report.summaryDue || s.changeDue s.report.lastSummary s.summaryNow }
  else s

/-- What an event ends with: the freed queue place (R81), admission after every removal of the event (R158), the
overflow flag (R159), one step of the revision if the list has changed since `before` (R160), the quiet-since time
(R194), the probe interval (R46), and the reports that a change makes due. DEDUCED (log entry 20): a raise later in the same
event takes a place freed in it before the cells that wait for admission. -/
def State.conclude (s : State) (before : FaultList) : State :=
  ((((s.settleQueue.admitWaiting.settleOverflow).settleRevision before).settleQuiet).settleProbe).settleReports

/-- An event: time and inputs move to the moment, the event has its effect, and `conclude` ends it. -/
def State.event (s : State) (m : Moment) (effect : State → State) : Host.Outcome State Fault Refusal :=
  .next ((effect (s.advance m)).conclude s.faults)

/-- A reset that starts the Fault List afresh (R166): as an event, but the revision the reset leaves stands. -/
def State.freshEvent (s : State) (m : Moment) (effect : State → State) : Host.Outcome State Fault Refusal :=
  .next ((effect (s.advance m)).conclude (effect (s.advance m)).faults)

end Sys2Proof.Machine
end

