-- ==== Sys2Proof/Machine/Qualification.lean ====
section
/-! DEFINITION. The Qualifier (9.1): the machine that moves a cell at a judgement, and what each transition hands to
the Fault List Manager. -/

namespace Sys2Proof.Machine

/-- A judgement: OK (BALANCED for a segment cell), or a non-OK verdict. -/
inductive Judgement where
  | good
  | bad (v : Verdict)
  deriving DecidableEq, Repr

/-- What a transition hands to the Fault List Manager (R148). -/
inductive ListAction where
  | nothing
  | raise
  | escalate
  | renewK
  | heal
  deriving DecidableEq, Repr

/-- The cell in FAULTED with confirmed verdict v, confirmed now, count 0 and no candidate (R144, R145). -/
def Cell.confirm (c : Cell) (v : Verdict) (now : Time) : Cell :=
  { c with state := .faulted, confirmed := some v, candidate := none, count := 0, confirmedAt := some now }

/-- The cell in SUSPECT with candidate v (R144, R145). -/
def Cell.suspected (c : Cell) (v : Verdict) (count : Nat) : Cell :=
  { c with state := .suspect, candidate := some v, count := count }

/-- The cell in CLEAN: verdicts, count and confirmed-at time dropped (R144 to R147). -/
def Cell.cleaned (c : Cell) : Cell :=
  { c with state := .clean, confirmed := none, candidate := none, count := 0, confirmedAt := none }

/-- Counting v up to Q_SET from a count of `n` judgements of it, this one included (R144, R145). -/
def Cell.countToward (c : Cell) (qSet : Nat) (now : Time) (v : Verdict) (n : Nat) : Cell × ListAction :=
  if qSet ≤ n then (c.confirm v now, .raise) else (c.suspected v n, .nothing)

/-- A judgement of the confirmed verdict v brings the cell back to, or keeps it in, FAULTED with count 0 and no
candidate; a PARTIAL whose k differs renews k (R146, R147). -/
def Cell.confirmAgain (c : Cell) (v w : Verdict) : Cell × ListAction :=
  ({ c with state := .faulted, confirmed := some w, candidate := none, count := 0 },
    if v = w then .nothing else .renewK)

/-- A different verdict w counts as the escalation candidate, n judgements of it with this one (R146, R147). -/
def Cell.countEscalation (c : Cell) (qSet : Nat) (w : Verdict) (n : Nat) : Cell × ListAction :=
  if qSet ≤ n then
    ({ c with state := .faulted, confirmed := some w, candidate := none, count := 0 }, .escalate)
  else ({ c with state := .faulted, candidate := some w, count := n }, .nothing)

/-- How many judgements of v the cell has counted as its candidate. -/
def Cell.countOf (c : Cell) (v : Verdict) : Nat :=
  match c.candidate with
  | none => 0
  | some u => if u.same v then c.count else 0

/-- A judgement of a faulty cell that is the same as, or differs from, its confirmed verdict (R146, R147). -/
def Cell.judgeFaulty (c : Cell) (qSet : Nat) (w : Verdict) (counted : Nat) : Cell × ListAction :=
  match c.confirmed with
  | none => c.countEscalation qSet w (counted + 1)
  | some v => if v.same w then c.confirmAgain v w else c.countEscalation qSet w (counted + 1)

/-- The transition of a cell at a judgement (R143 to R147); the judgement clears the hold reason (R4), and an ABSENT
cell takes none. -/
def qualify (qSet qClear : Nat) (now : Time) (c0 : Cell) (j : Judgement) : Cell × ListAction :=
  let c := { c0 with hold := none }
  match c0.state, j with
  | .absent, _ => (c0, .nothing)
  | .unverified, .good => (c.cleaned, .nothing)
  | .clean, .good => (c.cleaned, .nothing)
  | .suspect, .good => (c.cleaned, .nothing)
  | .faulted, .good =>
    if qClear ≤ 1 then (c.cleaned, .heal)
    else ({ c with state := .recovering, candidate := none, count := 1 }, .nothing)
  | .recovering, .good =>
    if qClear ≤ c.count + 1 then (c.cleaned, .heal) else ({ c with count := c.count + 1 }, .nothing)
  | .unverified, .bad v => c.countToward qSet now v 1
  | .clean, .bad v => c.countToward qSet now v 1
  | .suspect, .bad v => c.countToward qSet now v (c.countOf v + 1)
  | .faulted, .bad w => c.judgeFaulty qSet w (c.countOf w)
  | .recovering, .bad w => c.judgeFaulty qSet w 0

/-- What the Fault List Manager does at a transition of cell k, after the cell's own fields have been set (R148): a
raise that finds no place leaves the cell unlisted (R157), and a change of an unlisted cell is none of the list. -/
def State.handToList (s : State) (k : CellKey) : ListAction → State
  | .nothing => s
  | .raise =>
    match (s.cell k).confirmed with
    | none => s
    | some v => s.raiseFault (.cell k) v.faultKind v.lampsOut s
  | .escalate =>
    match (s.cell k).confirmed with
    | none => s
    | some v => if (s.cell k).listed then s.escalateFault (.cell k) v else s
  | .renewK =>
    match (s.cell k).confirmed with
    | none => s
    | some v => if (s.cell k).listed then s.renewLampsOut (.cell k) v else s
  | .heal => s.healFault (.cell k)

/-- A judgement taken for cell k (R143, R148). -/
def State.takeJudgement (s : State) (k : CellKey) (j : Judgement) : State :=
  let r := qualify s.ignition.settings.qSet s.ignition.settings.qClear s.now (s.cell k) j
  (s.setCell k r.1).handToList k r.2

/-- A write of Q_SET: every SUSPECT count, and every escalation candidate's in FAULTED, that stands at or above the new
value is set to one less; a candidate whose count falls to 0 is dropped (R149). -/
def Cell.clampToSet (q : Nat) (c : Cell) : Cell :=
  if c.state = .suspect ∧ q ≤ c.count then { c with count := q - 1 }
  else if c.state = .faulted ∧ c.candidate.isSome ∧ q ≤ c.count then
    if q ≤ 1 then { c with candidate := none, count := 0 } else { c with count := q - 1 }
  else c

/-- A write of Q_CLEAR: every RECOVERING count at or above the new value is set to one less (R149). -/
def Cell.clampToClear (q : Nat) (c : Cell) : Cell :=
  if c.state = .recovering ∧ q ≤ c.count then { c with count := q - 1 } else c

end Sys2Proof.Machine
end

