-- ==== Sys2Proof/Machine/Judgement.lean ====
section
/-! DEFINITION. The Judgement Unit (chapter 7): circuit judgement, line-only judgement, and the handing on of their
outcomes. -/

namespace Sys2Proof.Machine

/-- The outcome of a judgement (R108): a verdict or a hold; and the resolvable flag where the judgement sets it. -/
inductive Ruling where
  | verdict (j : Judgement)
  | hold (r : HoldReason)
  deriving DecidableEq, Repr

structure Judged where
  ruling : Ruling
  resolvable : Option Bool
  deriving DecidableEq, Repr

/-! ### Expected current (R112 to R114) -/

/-- V as it enters the arithmetic: clamped to 160 to 320 (R112, R122). -/
def clampVoltage (v : Nat) : Nat := clampTo 160 320 v

/-- Stage 2: the nominal current of one lamp at 24.0 V (R113). -/
def nominalCurrent (power : Nat) : Nat := rounded (power * 500) 24

/-- Stage 3: the current of one lamp at voltage v (R113). -/
def lampCurrent (tech : Tech) (power v : Nat) : Nat :=
  match tech with
  | .filament => rounded (nominalCurrent power * (v + 240)) 480
  | .led => rounded (nominalCurrent power * 240) v

/-- Stage 4: the expected current of a circuit (R114). -/
def expectedCurrent (x : Profile) (v : Nat) : Nat := x.n * lampCurrent x.tech x.power v

/-- The tolerance in force for a circuit: the override, or that of the technology (R119). -/
def toleranceOf (set : Settings) (x : Profile) : Nat :=
  match x.tol with
  | some t => t
  | none =>
    match x.tech with
    | .filament => set.tolFilament
    | .led => set.tolLed

/-- Stage 12: the loss of one lamp of n shows (R119); false with no lamp (R68). -/
def resolves (n tol : Nat) : Bool := decide (1 ≤ n ∧ tol < 1000 / n)

/-! ### Stages (R115 to R120) -/

/-- Stage 5: a circuit with no lamps (R115). -/
def judgeUnfitted (set : Settings) (current : Nat) : Judged :=
  if set.openFloor < current then ⟨.verdict (.bad .unexpectedLoad), none⟩ else ⟨.hold .notFitted, some false⟩

/-- Stage 8: measured over expected in permille, saturating at 4000 (R118). -/
def ratio (current expected : Nat) : Nat := min 4000 (current * 1000 / expected)

/-- Stage 11: the lamps-out estimate (R120). -/
def lampsOutEstimate (n r : Nat) : Nat := max 1 ((n * (1000 - r) + 500) / 1000)

/-- Stage 11: OPEN when the estimate accounts for every lamp, else PARTIAL; for the line, k is carried as at most 14
(R120, R125). -/
def judgeLoss (n r : Nat) : Verdict :=
  if n ≤ lampsOutEstimate n r then .openCircuit else .partialLoss (min 14 (lampsOutEstimate n r))

/-- Stages 6 to 12 for n lamps with expected current e and tolerance tol (R116 to R120, R125). -/
def judgeFitted (set : Settings) (n e tol current : Nat) (saturated : Bool) : Judged :=
  if current ≤ set.openFloor then ⟨.verdict (.bad .openCircuit), none⟩
  else if saturated then
    if e * set.overLimit ≤ 16000000 then ⟨.verdict (.bad .overload), none⟩ else ⟨.hold .saturatedUnusable, none⟩
  else if set.overLimit ≤ ratio current e then ⟨.verdict (.bad .overload), none⟩
  else if 1000 - tol ≤ ratio current e then ⟨.verdict .good, some (resolves n tol)⟩
  else ⟨.verdict (.bad (judgeLoss n (ratio current e))), some (resolves n tol)⟩

/-- Circuit judgement, stages 0 to 12 in order (R108, R111 to R120). -/
def judgeCircuit (set : Settings) (profile : Option Profile) (x : Sample) : Judged :=
  match profile with
  | none => ⟨.hold .notFitted, some false⟩
  | some y =>
    if x.voltage < set.minJudgeV then ⟨.hold .lowSupply, none⟩
    else if y.n = 0 then judgeUnfitted set x.loadCurrent
    else
      judgeFitted set y.n (expectedCurrent y (clampVoltage x.voltage)) (toleranceOf set y) x.loadCurrent
        x.loadSaturated

/-! ### Line-only judgement (R121 to R125) -/

/-- The profiles that enter the sums of R123: the known applied profiles of f, over every mapped position. -/
def State.lineProfiles (s : State) (f : Func) : List Profile :=
  positions.filterMap fun p => s.appliedProfile p f

/-- n_total of R123. -/
def lampTotal (ps : List Profile) : Nat := ps.foldl (fun n x => n + x.n) 0

/-- E_total of R123, each circuit rounded by its own stages. -/
def expectedTotal (ps : List Profile) (v : Nat) : Nat := ps.foldl (fun e x => e + expectedCurrent x v) 0

/-- The largest tolerance among the circuits with lamps (R123). -/
def largestTolerance (set : Settings) (ps : List Profile) : Nat :=
  ps.foldl (fun t x => if x.n = 0 then t else max t (toleranceOf set x)) 0

/-- The empty-map judgement (R124). -/
def judgeEmptyMap (set : Settings) (current : Nat) : Judged :=
  if current ≤ set.openFloor then ⟨.verdict (.bad .openCircuit), none⟩ else ⟨.hold .notFitted, some false⟩

/-- Line-only judgement of a line sample of f (R122). -/
def State.judgeLine (s : State) (f : Func) (x : Sample) : Judged :=
  let set := s.ignition.settings
  let ps := s.lineProfiles f
  if x.voltage < set.minJudgeV then ⟨.hold .lowSupply, none⟩
  else if s.trainLength = 0 then judgeEmptyMap set x.inCurrent
  else if lampTotal ps = 0 then judgeUnfitted set x.inCurrent
  else
    judgeFitted set (lampTotal ps) (expectedTotal ps (clampVoltage x.voltage)) (largestTolerance set ps) x.inCurrent
      x.inSaturated

/-! ### Handing on (R109) -/

/-- The position JUDGEMENT_NON_OK carries for a cell (R109, R139). -/
def CellKey.countedPosition : CellKey → Nat
  | .lamp p _ => posNumber p
  | .line _ => 0
  | .segment g _ => g.val

/-- A judgement taken for cell k, the overflow flag set or cleared at its moment: by what the event did before it, and
then by the judgement (R157, R159). -/
def State.qualifyCell (s : State) (k : CellKey) (j : Judgement) : State :=
  (s.settleOverflow.takeJudgement k j).settleOverflow

/-- A verdict handed to the Qualifier, and to the Event Counters when it is not OK (R109, R139). -/
def State.deliverVerdict (s : State) (k : CellKey) (j : Judgement) : State :=
  match j with
  | .good => s.qualifyCell k .good
  | .bad v => (s.qualifyCell k (.bad v)).countEvent .judgementNonOk (some k.countedPosition)

/-- The outcome of a judgement handed on for cell k (R109). -/
def State.deliver (s : State) (k : CellKey) (x : Judged) : State :=
  let t :=
    match x.resolvable with
    | none => s
    | some b => s.setCell k { s.cell k with resolvable := b }
  match x.ruling with
  | .hold r => t.holdCell k r
  | .verdict j => t.deliverVerdict k j

end Sys2Proof.Machine
end

