-- ==== Sys2Proof/Machine/Reporting.lean ====
section
/-! DEFINITION. The Report Unit (chapter 10): REPLY and READ_DATA, the transmit queue and deferred replies, the CAN
controller, the two reports, and the commands REQUEST_RECEIVE, TRANSMITTER_FREE, TELLTALE_DUE, LAMP_SUMMARY_DUE. -/

namespace Sys2Proof.Machine

/-! ### Replies (R172, R173, 13.4) -/

/-- The data bytes of a REPLY (13.4). -/
def replyBytes (kind operation : Nat) (who : Requester) (status : Status) (extra : List Byte) : List Byte :=
  [byteOf (kind + 16 * who.source.code + 64 * operation), who.number, byteOf status.code] ++ extra

/-- Bytes 3 to 5 of a REPLY at once: revision, count and overflow flag for FAULT_READ whatever its status (R172). -/
def State.replyExtra (s : State) (r : Request) : List Byte :=
  if r.kind = 1 then [s.faults.revision, byteOf s.faults.records.length, byteOf (boolCode s.faults.overflow)]
  else [0, 0, 0]

/-- Messages placed in the transmit queue together (R173). -/
def State.transmit (s : State) (ms : List Message) : State :=
  s.withReport { s.report with transmit := s.report.transmit ++ ms }

/-- The REPLY to a request, placed when the request is taken (R172). -/
def State.reply (s : State) (r : Request) (status : Status) : State :=
  s.transmit [⟨.reply, replyBytes r.kind r.operation r.requester status (s.replyExtra r), none⟩]

/-- A read answered DONE: its REPLY and its `n` READ_DATA messages (R173). -/
def State.replyData (s : State) (r : Request) (n : Nat) (data : List Byte) : State :=
  let first := byteOf (r.kind + 16 * r.source.code + 64 * r.operation)
  (s.reply r .done).transmit
    ((groupsOfFive n data).mapIdx fun i five => ⟨.readData, [first, r.number, byteOf i] ++ five, none⟩)

/-- A deferred REPLY that falls due: placed in the transmit queue, or kept for the first place that frees (R173). -/
def State.fallDue (s : State) (m : Message) : State :=
  if s.report.transmit.length < Config.transmitPlaces ∧ s.report.deferred = [] then s.transmit [m]
  else s.withReport { s.report with deferred := s.report.deferred ++ [m] }

/-- The deferred REPLY to a POSITION_RESET (R57). -/
def State.replyPositionReset (s : State) (who : Requester) (status : Status) : State :=
  s.fallDue ⟨.reply, replyBytes 9 0 who status [0, 0, 0], none⟩

/-- The REPLY to a PROFILE_APPLY that completes, with its skipped count (R67). -/
def State.replyApply (s : State) (who : Requester) (skipped : Nat) : State :=
  s.fallDue ⟨.reply, replyBytes 7 0 who .done [byteOf skipped, 0, 0], none⟩

/-- The deferred REPLY to a SETTING_SAVE, operation 2 (R200). -/
def State.replySave (s : State) (who : Requester) (status : Status) : State :=
  s.fallDue ⟨.reply, replyBytes 10 2 who status [0, 0, 0], none⟩

/-! ### Taking a request (R170) -/

/-- A request can be taken: nine transmit places are free and no PART_RESET holds requests back (R170, R198). -/
def Report.canTake (x : Report) : Bool :=
  decide (x.transmit.length + Config.placesToTake ≤ Config.transmitPlaces) && decide (x.reset = .none)

/-- The receive buffer once request r has been taken from it: r is its oldest request; with the buffer empty, r arrives
and is taken in the one step (log entry 8). None when r cannot be taken now. -/
def Report.afterTaking (x : Report) (r : Request) : Option (List Request) :=
  if ¬ x.canTake then none
  else
    match x.received with
    | [] => some []
    | q :: rest => if q = r then some rest else none

/-! ### Starting the reports afresh (R177, R179, R184) -/

/-- Both reports are due. -/
def Report.bothDue (x : Report) : Report := { x with imageDue := true, summaryDue := true }

/-- The Report Unit after a reset: buffers and queues empty, owed replies dropped, no report sent yet (R184). -/
def Report.fresh : Report where
  received := []
  transmit := []
  deferred := []
  onBus := none
  lastImage := none
  imageDue := false
  lastSummary := none
  summaryDue := false
  reset := .none

/-! ### The CAN controller (R173) -/

/-- The message at the head of the transmit queue has been sent: it leaves the queue, a waiting deferred REPLY takes
the freed place, and the REPLY to a PART_RESET lets the reset be taken (R173, R198). -/
def Report.sentHead (x : Report) : Report :=
  match x.transmit with
  | [] => x
  | m :: rest =>
    let y : Report :=
      { x with
        transmit := rest ++ x.deferred.take 1
        deferred := x.deferred.drop 1 }
    match m.thenReset with
    | none => y
    | some k => { y with reset := .due k }

/-- The message on the bus has been sent. -/
def Report.finish (x : Report) : Report :=
  match x.onBus with
  | none => x
  | some b => { (if b.fromQueue then x.sentHead else x) with onBus := none }

/-- A message as a CAN frame on CAN_BASE + 64 + message kind code (R169). -/
def State.messageFrame (s : State) (kind : MessageKind) (data : List Byte) : CanFrame :=
  ⟨BitVec.ofNat 11 (s.ignition.canBase + 64 + kind.code), false, data⟩

/-- The CAN controller takes the next message: the head of the transmit queue, a due image, a due summary (R173). -/
def State.takeMessage (s : State) : State :=
  match s.report.reset with
  | .due _ => s
  | _ =>
    match s.report.transmit with
    | m :: _ => s.withReport { s.report with onBus := some ⟨s.messageFrame m.kind m.data, true⟩ }
    | [] =>
      if s.report.imageDue then
        s.withReport
          { s.report with
            onBus := some ⟨s.messageFrame .telltaleImage s.imageNow, false⟩
            lastImage := some (s.imageNow, s.now)
            imageDue := false }
      else if s.report.summaryDue then
        s.withReport
          { s.report with
            onBus := some ⟨s.messageFrame .lampSummary s.summaryNow, false⟩
            lastSummary := some (s.summaryNow, s.now)
            summaryDue := false }
      else s

/-! ### Commands -/

/-- REQUEST_RECEIVE (R169, R170): a request joins the receive buffer, or is lost when the buffer holds 8; a frame that
is no request is ignored. -/
def execRequestReceive (m : Moment) (frame : CanFrame) (s : State) : Host.Outcome State Fault Refusal :=
  s.event m fun t =>
    match requestOf t.ignition.canBase frame with
    | none => t
    | some r =>
      if t.report.received.length < Config.receivePlaces then
        t.withReport { t.report with received := t.report.received ++ [r] }
      else t

/-- TRANSMITTER_FREE (R173): the CAN controller finishes its message and takes the next one. -/
def execTransmitterFree (m : Moment) (s : State) : Host.Outcome State Fault Refusal :=
  s.event m fun t => (t.withReport t.report.finish).takeMessage

/-- `period` ms have passed since a report was sent (R177, R179). -/
def State.periodDue (s : State) (last : Option (List Byte × Time)) (period : Nat) : Bool :=
  match last with
  | none => false
  | some (_, at_) => decide (period ≤ s.age at_)

/-- TELLTALE_DUE (R177). -/
def execTelltaleDue (m : Moment) (s : State) : Host.Outcome State Fault Refusal :=
  s.event m fun t =>
    if t.awake ∧ (t.periodDue t.report.lastImage 200 ∨ t.changeDue t.report.lastImage t.imageNow) then
      t.withReport { t.report with imageDue := true }
    else t

/-- LAMP_SUMMARY_DUE (R179). -/
def execLampSummaryDue (m : Moment) (s : State) : Host.Outcome State Fault Refusal :=
  s.event m fun t =>
    if t.awake ∧ (t.periodDue t.report.lastSummary 500 ∨ t.changeDue t.report.lastSummary t.summaryNow) then
      t.withReport { t.report with summaryDue := true }
    else t

end Sys2Proof.Machine
end

