-- ==== Sys2Proof/Machine/Queue.lean ====
section
/-! DEFINITION. The Query Queue (5.2): placing, merging, displacing and discarding entries; sweeps (5.3); and the
request for an enumeration (R42). -/

namespace Sys2Proof.Machine

/-- The position an entry is for; ENUMERATE is for none. -/
def Work.pos : Work → Option Pos
  | .query p _ _ => some p
  | .profile p => some p
  | .posReset p _ => some p
  | .enumerate => none

def Work.isQueryFor (p : Pos) : Work → Bool
  | .query q _ _ => decide (q = p)
  | _ => false

def Work.isProfileFor (p : Pos) : Work → Bool
  | .profile q => decide (q = p)
  | _ => false

def Work.isResetFor (p : Pos) : Work → Bool
  | .posReset q _ => decide (q = p)
  | _ => false

def Work.isScan : Work → Bool
  | .query _ _ .scan => true
  | _ => false

def Origin.rank : Origin → Nat
  | .scan => 0
  | .sweep => 1
  | .refresh => 2

/-- The stronger of two origins, REFRESH being strongest, then SWEEP, then SCAN (R79). -/
def Origin.stronger (a b : Origin) : Origin := if a.rank < b.rank then b else a

/-- A QUERY entry for p joined by a new request: masks joined, the stronger origin, place and age kept (R79). -/
def Entry.merged (e : Entry) (p : Pos) (mask : Mask) (origin : Origin) : Entry :=
  match e.work with
  | .query q m o => if q = p then { e with work := .query q (m ||| mask) (o.stronger origin) } else e
  | _ => e

def State.withQueue (s : State) (q : List Entry) : State := s.withScheduler { s.scheduler with queue := q }

/-- The queue has an entry that satisfies the test. -/
def State.queued (s : State) (g : Work → Bool) : Bool := s.scheduler.queue.any fun e => g e.work

def State.queueFull (s : State) : Bool := decide (Config.queuePlaces ≤ s.scheduler.queue.length)

/-- An entry placed at the tail. -/
def State.placeTail (s : State) (w : Work) : State := s.withQueue (s.scheduler.queue ++ [⟨w, s.now⟩])

/-- A QUERY offered for p finds a place: it merges, or a place is free (R79, R80). -/
def State.queryFits (s : State) (p : Pos) : Bool := s.queued (Work.isQueryFor p) || !s.queueFull

/-- A QUERY that fits is merged or placed at the tail (R79). -/
def State.putQuery (s : State) (p : Pos) (mask : Mask) (origin : Origin) : State :=
  if s.queued (Work.isQueryFor p) then s.withQueue (s.scheduler.queue.map fun e => e.merged p mask origin)
  else s.placeTail (.query p mask origin)

/-- A QUERY of a scan round offered for p: one that finds no place is counted SCAN_SKIPPED (R80). -/
def State.offerScan (s : State) (p : Pos) (mask : Mask) : State :=
  if s.queryFits p then s.putQuery p mask .scan else s.countEvent .scanSkipped (some (posNumber p))

/-- A QUERY of a sweep offered for p: one that finds no place is passed over (R80). -/
def State.offerSweep (s : State) (p : Pos) (mask : Mask) : State :=
  if s.queryFits p then s.putQuery p mask .sweep else s

/-- The request in the in-flight slot, if it is addressed. -/
def Slot.flight : Slot → Option Flight
  | .addressed x => some x
  | .empty => none
  | .enumerating _ _ => none

/-- The addressed request in the slot satisfies the test. -/
def State.inFlight (s : State) (g : Sent → Bool) : Bool :=
  match s.scheduler.slot.flight with
  | none => false
  | some x => g x.sent

def Sent.isProfileFor (p : Pos) : Sent → Bool
  | .profileReq q => decide (q = p)
  | _ => false

def Sent.isResetFor (p : Pos) : Sent → Bool
  | .posReset q _ => decide (q = p)
  | _ => false

/-- A PROFILE entry handed over for p (R61): placed when none is queued and a place is free (R78, R80). -/
def State.offerProfile (s : State) (p : Pos) : State :=
  if s.queued (Work.isProfileFor p) ∨ s.queueFull then s else s.placeTail (.profile p)

/-- The entries for which the test holds are discarded (R82); a discarded POS_RESET answers its master FAILED. -/
def State.discardEntries (s : State) (g : Pos → Bool) : State :=
  let gone := fun (e : Entry) => match e.work.pos with | none => false | some p => g p
  (s.scheduler.queue.filter gone).foldl
    (fun t e =>
      match e.work with
      | .posReset _ who => t.replyPositionReset who .failed
      | _ => t)
    (s.withQueue (s.scheduler.queue.filter fun e => !gone e))

/-- The queue without its last QUERY entry of origin SCAN, and that entry's position: the youngest one (R81). -/
def dropYoungestScan : List Entry → Option (List Entry × Pos)
  | [] => none
  | e :: rest =>
    match dropYoungestScan rest with
    | some (rest', p) => some (e :: rest', p)
    | none =>
      match e.work with
      | .query p _ .scan => some (rest, p)
      | _ => none

/-- The ENUMERATE entry handed over by the Enumerator (R81): at the head when a place is free; else in place of the
youngest SCAN QUERY; else it waits. -/
def State.placeEnumerate (s : State) : State :=
  if ¬ s.queueFull then s.withQueue (⟨.enumerate, s.now⟩ :: s.scheduler.queue)
  else
    match dropYoungestScan s.scheduler.queue with
    | some (rest, p) => (s.withQueue (⟨.enumerate, s.now⟩ :: rest)).countEvent .scanSkipped (some (posNumber p))
    | none => s.withScheduler { s.scheduler with enumerateWaiting := true }

/-- The ENUMERATE entry leaves the queue, and a waiting one waits no more (R81). -/
def State.removeEnumerate (s : State) : State :=
  s.withScheduler
    { s.scheduler with
      queue := s.scheduler.queue.filter fun e => decide (e.work ≠ .enumerate)
      enumerateWaiting := false }

def State.withEnumPhase (s : State) (x : EnumPhase) : State := s.withEnumerator { s.enumerator with phase := x }

/-- An enumeration is requested (R42): taken while WAKING or RUNNING with the socket COUPLED (R45); in PENDING or
RUNNING it merges with the one already wanted. -/
def State.requestEnumeration (s : State) : State :=
  if s.awake ∧ s.enumerator.coupled ∧ s.enumerator.phase = .idle then
    (s.withEnumPhase .pending).placeEnumerate
  else s

/-- A sweep (R85): QUERY offered for each PRESENT position in position order, for the lit functions; under command loss
the mask is empty and nothing is offered (R100). -/
def State.sweep (s : State) : State :=
  if s.awake ∧ s.litMask ≠ 0 then
    positions.foldl (fun t p => if t.posState p = some .present then t.offerSweep p s.litMask else t) s
  else s

/-- The broadcast-owed flag is set (R76). -/
def State.oweBroadcast (s : State) : State := s.withScheduler { s.scheduler with broadcastOwed := true }

end Sys2Proof.Machine
end

