-- ==== Sys2Proof/Machine/Profiles.lean ====
section
/-! DEFINITION. The Profile Store (chapter 4): self-descriptions, staged edits, applying and persisting, the Profile
Library. -/

namespace Sys2Proof.Machine

/-! ### The Profile Library (R69 to R72) -/

/-- The age of an entry: the counter minus its ordinal, modulo 65536 (R69). -/
def Library.age (l : Library) (e : LibraryEntry) : Nat := (l.counter - e.ordinal).toNat

def Library.lookup (l : Library) (serial : Serial) : Option LibraryEntry :=
  l.entries.find? fun e => decide (e.serial = serial)

/-- The coupling counter steps, and the entry of the serial, if any, takes its new value (R69). -/
def Library.stamp (l : Library) (serial : Serial) : Library where
  counter := l.counter + 1
  entries := l.entries.map fun e => if e.serial = serial then { e with ordinal := l.counter + 1 } else e

/-- Entry a is removed before entry b: larger age, or equal age and lower serial (R71). -/
def Library.goesBefore (l : Library) (a b : LibraryEntry) : Bool :=
  decide (l.age b < l.age a ∨ (l.age a = l.age b ∧ a.serial.toNat < b.serial.toNat))

/-- The entry that makes room: the one of largest age whose serial `kept` does not hold (R71). -/
def Library.victim (l : Library) (kept : List Serial) : Option LibraryEntry :=
  (l.entries.filter fun e => decide (e.serial ∉ kept)).foldl
    (fun best e =>
      match best with
      | none => some e
      | some b => if l.goesBefore e b then some e else some b)
    none

/-- The Library with room for one more entry (R71). -/
def Library.withRoom (l : Library) (kept : List Serial) : Library :=
  if l.entries.length < Config.libraryPlaces then l
  else
    match l.victim kept with
    | none => l
    | some v => { l with entries := l.entries.filter fun e => decide (e.serial ≠ v.serial) }

/-- Eight profiles written under a serial: overwritten or inserted, and stamped (R70). -/
def Library.write (l : Library) (kept : List Serial) (serial : Serial) (profiles : Vector Profile 8) : Library :=
  match l.lookup serial with
  | some _ =>
    ({ l with entries := l.entries.map fun e => if e.serial = serial then { e with profiles := profiles } else e }
      : Library).stamp serial
  | none =>
    let room := l.withRoom kept
    ({ room with entries := room.entries ++ [⟨serial, profiles, 0⟩] } : Library).stamp serial

/-- The Library without the entry of a serial (R72). -/
def Library.delete (l : Library) (serial : Serial) : Library :=
  { l with entries := l.entries.filter fun e => decide (e.serial ≠ serial) }

def State.withLibrary (s : State) (l : Library) : State := s.withIgnition { s.ignition with library := l }

/-- The serials of the records in the Train Map (R71). -/
def State.trainSerials (s : State) : List Serial := positions.filterMap fun p => (s.record p).bind PosRecord.serial

/-! ### A profile change (R63, R66, R68) -/

/-- A lamp cell reset by a profile change (R68): its record removed, UNVERIFIED, hold reason SILENT at a SILENT or LOST
position and absent otherwise, and the resolvable flag recomputed. An ABSENT cell is not reset. -/
def State.resetForProfile (s : State) (p : Pos) (f : Func) (x : Profile) : State :=
  if (s.cell (.lamp p f)).state = .absent then s
  else
    let t := s.removeFault (.cell (.lamp p f))
    t.setCell (.lamp p f)
      { (t.cell (.lamp p f)).cleared with
        hold := if t.posState p = some .silent ∨ t.posState p = some .lost then some .silent else none
        resolvable := resolves x.n (toleranceOf t.ignition.settings x) }

/-- The applied profile of (p, f) becomes x; where that changes it, its lamp cell is reset (R63, R66). -/
def State.applyProfile (s : State) (p : Pos) (f : Func) (x : Profile) : State :=
  if s.appliedProfile p f = some x then s
  else
    (s.changeRecord p fun r => { r with applied := r.applied.set f (some x) }).resetForProfile p f x

/-! ### The self-description (R62, R63) -/

/-- One function of a description brought into range (R63). -/
def Described.profile (d : Described) : Profile where
  n := min 15 d.n
  tech := if d.tech = 1 then .led else .filament
  power := clampTo 1 100 d.power
  tol := none

/-- A description applied to one function: to an unknown profile, or to a known one under source MODULE (R63). -/
def State.describe (s : State) (p : Pos) (f : Func) (x : Profile) : State :=
  match s.record p with
  | none => s
  | some r => if r.applied[f] = none ∨ r.source = .module then s.applyProfile p f x else s

/-- A description applied function by function (R63). -/
def State.describeAll (s : State) (p : Pos) (ds : List Described) : State :=
  functions.foldl
    (fun t f =>
      match ds[f.val]? with
      | none => t
      | some d => t.describe p f d.profile)
    s

/-- A PROFILE_REPLY taken for p (R62): accepted when its serial is the record's or the record is anonymous; otherwise
discarded, and an enumeration is requested. -/
def State.takeDescription (s : State) (p : Pos) (serial : Serial) (ds : List Described) : State :=
  match s.record p with
  | none => s
  | some r =>
    if r.serial = none ∨ r.serial = some serial then
      (s.changeRecord p fun x => { x with wanted := false }).describeAll p ds
    else s.requestEnumeration

/-! ### Applying a position (R66, R70) -/

/-- A flagged entry carried out (R66): the pending profile becomes applied and absent, the change flag clears. -/
def State.carryOut (s : State) (p : Pos) (f : Func) : State :=
  match s.record p with
  | none => s
  | some r =>
    match r.changed[f], r.staged[f] with
    | true, some x =>
      (s.changeRecord p fun y =>
        { y with staged := y.staged.set f none, changed := y.changed.set f false,
                 source := .staged }).applyProfile p f x
    | _, _ => s

/-- Applying position p: every flagged entry in function order (R66). -/
def State.applyPosition (s : State) (p : Pos) : State := functions.foldl (fun t f => t.carryOut p f) s

/-- The eight applied profiles of a record, when all are known. -/
def PosRecord.knownProfiles (r : PosRecord) : Option (Vector Profile 8) :=
  if functions.all fun f => (r.applied[f]).isSome then
    some (Vector.ofFn fun f => (r.applied[f]).getD ⟨0, .filament, 1, none⟩)
  else none

/-- A mapped position persisted when it is applied: skipped when anonymous or with an unknown profile (R70). -/
def State.persistPosition (s : State) (p : Pos) : State :=
  match s.record p with
  | none => s
  | some r =>
    match r.serial, r.knownProfiles with
    | some serial, some ps => s.withLibrary (s.ignition.library.write s.trainSerials serial ps)
    | _, _ => s.withApply (s.apply.map fun a => { a with skipped := a.skipped + 1 })

/-- Position p applied, and persisted if the apply in progress persists (R65, R67). -/
def State.applyAndPersist (s : State) (p : Pos) : State :=
  match s.apply with
  | none => s.applyPosition p
  | some a => if a.persist then (s.applyPosition p).persistPosition p else s.applyPosition p

/-- The apply completes when its waiting set is empty: its master is answered DONE with the skipped count (R67). -/
def State.completeApply (s : State) : State :=
  match s.apply with
  | none => s
  | some a => if a.waiting = [] then (s.withApply none).replyApply a.who a.skipped else s

/-- Position p leaves the waiting set (R67). -/
def State.stopWaiting (s : State) (p : Pos) : State :=
  (s.withApply (s.apply.map fun a => { a with waiting := a.waiting.filter fun q => decide (q ≠ p) })).completeApply

/-- The apply in progress waits on p. -/
def State.applyWaits (s : State) (p : Pos) : Bool :=
  match s.apply with
  | none => false
  | some a => decide (p ∈ a.waiting)

/-- The request to p has ended: a waiting p is applied and persisted and leaves the set (R67). -/
def State.applyWaited (s : State) (p : Pos) : State :=
  if s.applyWaits p then (s.applyAndPersist p).stopWaiting p else s

end Sys2Proof.Machine
end

