-- ==== Sys2Proof/Machine/Positions.lean ====
section
/-! DEFINITION. What happens to one position of the Train Map (chapter 3): its silent streak, falling silent and coming
back, being lost, departing, and being created. -/

namespace Sys2Proof.Machine

/-! ### Cells beside a position -/

/-- Every lamp cell of p and every segment cell beside p that is not ABSENT takes hold reason SILENT (R50, R54, R138). -/
def State.holdSilent (s : State) (p : Pos) : State :=
  functions.foldl
    (fun t f =>
      ((t.holdCell (.lamp p f) .silent).holdCell (.segment p.castSucc f) .silent).holdCell (.segment p.succ f) .silent)
    s

/-- A cell reset by position reset or site clear: its record is removed and it goes to UNVERIFIED; a lamp cell whose
applied profile is not known takes NOT_FITTED (R4, R57, R163). -/
def State.resetCell (s : State) (k : CellKey) : State :=
  let t := s.clearCell k
  match k with
  | .lamp p f => if (t.appliedProfile p f).isNone then t.holdCell (.lamp p f) .notFitted else t
  | .line _ => t
  | .segment _ _ => t

/-- Segment cell k beside a created or departed position: ABSENT when its segment does not exist; UNVERIFIED, with its
record removed, when it does (R1, R48, R49). -/
def State.settleSegmentCell (s : State) (g : Seg) (f : Func) : State :=
  if s.segmentExists g then
    if (s.cell (.segment g f)).state = .absent then s.setCell (.segment g f) Cell.fresh
    else s.clearCell (.segment g f)
  else s.makeAbsent (.segment g f)

/-- The two segments beside position p (R48, R49). -/
def State.settleSegments (s : State) (p : Pos) : State :=
  functions.foldl (fun t f => (t.settleSegmentCell p.castSucc f).settleSegmentCell p.succ f) s

/-- Every segment cell whose segment no longer exists is ABSENT (R1). -/
def State.dropSegments (s : State) : State :=
  segments.foldl
    (fun t g => if t.segmentExists g then t else functions.foldl (fun u f => u.makeAbsent (.segment g f)) t)
    s

/-! ### The request in the in-flight slot (R49, R89) -/

def State.withSlot (s : State) (x : Slot) : State := s.withScheduler { s.scheduler with slot := x }

/-- A request that ends as discarded leaves the slot; a POS_RESET answers its master FAILED, and an apply that waits on
the position acts by R67 (R89). -/
def State.dropFlight (s : State) (x : Flight) : State :=
  (match x.sent with
    | .posReset _ who => (s.withSlot .empty).replyPositionReset who .failed
    | .query _ _ => s.withSlot .empty
    | .profileReq _ => s.withSlot .empty).applyWaited x.sent.pos

/-- Position p has departed or become LOST: a request to it that is on the link runs to its end there, and one that
waits to be sent again ends as discarded (R49, R89). -/
def State.forsake (s : State) (p : Pos) : State :=
  match s.scheduler.slot with
  | .empty => s
  | .enumerating _ _ => s
  | .addressed x =>
    if x.sent.pos = p then
      match x.stage with
      | .onLink => s.withSlot (.addressed { x with gone := true })
      | .due => s.dropFlight x
      | .reissueAt _ => s.dropFlight x
    else s

/-! ### Silent positions (R53 to R55) -/

/-- The SILENT_MODULE record of p is raised; with the list full and nothing to displace the raise is dropped (R54). -/
def State.raiseSilent (s : State) (p : Pos) : State := s.raiseFault (.module p) .silentModule none s

/-- Position p becomes SILENT (R54). -/
def State.becomeSilent (s : State) (p : Pos) : State :=
  ((((s.changeRecord p fun r => { r with state := .silent }).raiseSilent p).holdSilent p).requestEnumeration).refreshLink

/-- A SILENT position returns to PRESENT with streak 0 (R55). -/
def State.returnPresent (s : State) (p : Pos) : State :=
  ((s.changeRecord p fun r => { r with state := .present, streak := 0 }).healFault (.module p)).refreshLink

/-- An answer taken from p: its streak is 0, and a SILENT p returns to PRESENT (R53, R55). -/
def State.answered (s : State) (p : Pos) : State :=
  if s.posState p = some .silent then s.returnPresent p else s.changeRecord p fun r => { r with streak := 0 }

/-- The streak of p goes up by 1, saturating at 3 (R53). -/
def State.countSilence (s : State) (p : Pos) : State := s.changeRecord p fun r => { r with streak := min 3 (r.streak + 1) }

/-- A request to p has failed: the streak is counted; PRESENT at 3 becomes SILENT, and a SILENT p without its record
raises it (R53). -/
def State.unanswered (s : State) (p : Pos) : State :=
  let t := s.countSilence p
  match t.record p with
  | none => t
  | some r =>
    match r.state with
    | .present => if r.streak = 3 then t.becomeSilent p else t
    | .silent => if (t.faultAt (.module p)).isNone then t.raiseSilent p else t
    | .lost => t

/-! ### Loss, departure, creation (R48 to R50) -/

/-- Position p becomes LOST (R50, R138). -/
def State.becomeLost (s : State) (p : Pos) : State :=
  (((((s.changeRecord p fun r => { r with state := .lost }).removeFault (.module p)).discardEntries
    fun q => decide (q = p)).holdSilent p).forsake p)

/-- Position p departs (R49); the link state is set afresh by the event that makes it depart. -/
def State.depart (s : State) (p : Pos) : State :=
  if (s.record p).isNone then s
  else
    let bare := functions.foldl (fun t f => t.makeAbsent (.lamp p f)) s
    let unmapped := ((bare.removeFault (.module p)).setRecord p none).settleSegments p
    ((((unmapped.dropSegments.removeFault (.chainBreak p.castSucc)).removeFault (.chainBreak p.succ)).discardEntries
      fun q => decide (q = p)).forsake p).stopWaiting p

/-- The positions in descending order. -/
def positionsDown : List Pos := positions.reverse

/-- Every position departs, from the last one down, and the map is empty (R45). -/
def State.departAll (s : State) : State :=
  let t := positionsDown.foldl (fun u p => u.depart p) s
  t.withTrain { t.train with endCertain := false }

/-- A lamp cell of a created position leaves ABSENT; it holds with NOT_FITTED while its profile is unknown (R48). -/
def State.openLampCell (s : State) (p : Pos) (f : Func) : State :=
  let known := (s.appliedProfile p f).isSome
  s.setCell (.lamp p f) { Cell.fresh with hold := if known then none else some .notFitted }

/-- The record created at a position for an answer, or for a gap (R48). -/
def newRecord (now : Time) (answer : Option EnumAnswer) (stored : Option LibraryEntry) : PosRecord where
  state := .present
  serial := answer.map EnumAnswer.serial
  kind := match answer with
    | none => .trailer
    | some a => a.kind
  streak := if answer.isNone then 3 else 0
  source := if stored.isSome then .library else .module
  coupledAt := now
  applied := match stored with
    | none => Vector.replicate 8 none
    | some e => Vector.ofFn fun f => some e.profiles[f]
  staged := Vector.replicate 8 none
  changed := Vector.replicate 8 false
  wanted := stored.isNone

/-- The Library entry that a created record finds for its serial (R48). -/
def State.storedFor (s : State) (answer : Option EnumAnswer) : Option LibraryEntry :=
  match answer with
  | none => none
  | some a => s.ignition.library.lookup a.serial

/-- A record is created at position p (R48, R61). -/
def State.createRecord (s : State) (p : Pos) (answer : Option EnumAnswer) : State :=
  let stored := s.storedFor answer
  let mapped := s.setRecord p (some (newRecord s.now answer stored))
  let opened := (functions.foldl (fun t f => t.openLampCell p f) mapped).settleSegments p
  if stored.isNone then opened.offerProfile p else opened

end Sys2Proof.Machine
end

