-- ==== Sys2Proof/Machine/Enumeration.lean ====
section
/-! DEFINITION. The Enumerator (3.2, 3.3): judging an attempt, reading the result against the map, the chain break, and
the commands SOCKET_DETECT_CHANGE, COLLECTION_WINDOW_END and PROBE_INTERVAL. -/

namespace Sys2Proof.Machine

/-- What the positions have answered in one attempt (R43). -/
abbrev Answers := Vector (Option EnumAnswer) 6

/-! ### Judging an attempt (R44) -/

/-- The highest answering position's number, 0 when nothing answered. -/
def answersLength (a : Answers) : Nat := positions.foldl (fun n p => if (a[p]).isSome then posNumber p else n) 0

/-- Position p answered with the last flag. -/
def answersLast (a : Answers) (p : Pos) : Bool :=
  match a[p] with
  | none => false
  | some x => x.last

/-- A lower position answered with the serial of p's answer. -/
def repeatsLower (a : Answers) (p : Pos) : Bool :=
  match a[p] with
  | none => false
  | some x =>
    positions.any fun q =>
      decide (q < p) && (match a[q] with | none => false | some y => decide (y.serial = x.serial))

/-- The attempt is complete (R44). -/
def attemptComplete (a : Answers) : Bool :=
  decide (0 < answersLength a) &&
    positions.all fun p =>
      (decide (answersLength a < posNumber p) || (a[p]).isSome) &&
        (answersLast a p == decide (posNumber p = answersLength a)) && !repeatsLower a p

/-- The result's entry at p: the answer, or none for a gap; of two answers with one serial the higher is a gap (R44). -/
def resultAt (a : Answers) (p : Pos) : Option EnumAnswer := if repeatsLower a p then none else a[p]

/-- The serial is answered in the result at a position other than p. -/
def answeredElsewhere (a : Answers) (p : Pos) (serial : Serial) : Bool :=
  positions.any fun q =>
    decide (q ≠ p) && (match resultAt a q with | none => false | some x => decide (x.serial = serial))

/-! ### Reading the result (R47 to R50) -/

/-- The record at p has a serial that the result holds at a different position (R47). -/
def State.movedAway (s : State) (a : Answers) (p : Pos) : Bool :=
  match (s.record p).bind PosRecord.serial with
  | none => false
  | some serial => answeredElsewhere a p serial

/-- Every answered serial is handed to the Profile Store (R47, R69). -/
def State.stampLibrary (s : State) (serial : Serial) : State := s.withLibrary (s.ignition.library.stamp serial)

/-- A record kept on its own serial's answer: a LOST one is found again (R47). -/
def PosRecord.keptAnswered (r : PosRecord) (x : EnumAnswer) : PosRecord :=
  match r.state with
  | .lost => { r with state := .present, streak := 0, kind := x.kind }
  | .present => { r with kind := x.kind }
  | .silent => { r with kind := x.kind }

/-- A record kept through a gap (R47). -/
def PosRecord.keptGap (r : PosRecord) : PosRecord :=
  match r.state, r.serial with
  | .silent, _ => r
  | .lost, _ => { r with state := .present, streak := 3 }
  | .present, some _ => { r with streak := 3 }
  | .present, none => r

/-- The result at p, a position no higher than its length, read against the map (R47, R48). -/
def State.readResult (s : State) (a : Answers) (p : Pos) : State :=
  match s.record p, resultAt a p with
  | none, none => s.createRecord p none
  | none, some x => (s.createRecord p (some x)).stampLibrary x.serial
  | some _, none => s.changeRecord p PosRecord.keptGap
  | some r, some x =>
    if r.serial = some x.serial then (s.changeRecord p fun y => y.keptAnswered x).stampLibrary x.serial
    else ((s.depart p).createRecord p (some x)).stampLibrary x.serial

/-- Position p lies beyond the end of the result (R50). -/
def State.readBeyond (s : State) (moving : Bool) (p : Pos) : State :=
  if moving then
    match s.posState p with
    | some .present => s.becomeLost p
    | some .silent => s.becomeLost p
    | some .lost => s
    | none => s
  else s.depart p

/-! ### The chain break (R51) -/

/-- The CHAIN_BREAK record in the list in ACTIVE_UNACK or ACTIVE_ACK, by its segment. -/
def State.activeBreak (s : State) : Option Seg :=
  segments.find? fun g =>
    match s.faultAt (.chainBreak g) with
    | none => false
    | some r => decide (r.state ≠ .healedUnack)

/-- The segment just before the lowest LOST position, if any position is LOST. -/
def State.lostFrom (s : State) : Option Seg :=
  (positions.find? fun p => decide (s.posState p = some .lost)).map Fin.castSucc

def Site.isCell : Site → Bool
  | .cell _ => true
  | .chainBreak _ => false
  | .module _ => false
  | .link => false

/-- Among the records of cells, the most recently inserted of those with the lowest severity (R51). -/
def State.leastRecord (s : State) : Option FaultRecord :=
  (s.faults.records.filter fun r => r.site.isCell).foldl
    (fun best r =>
      match best with
      | none => some r
      | some b => if b.severity < r.severity then some b else some r)
    none

/-- CHAIN_BREAK raised on segment t; with a full list it displaces a cell's record (R51). -/
def State.raiseBreak (s : State) (t : Seg) : State :=
  s.raiseFault (.chainBreak t) .chainBreak none
    (match s.leastRecord with
      | none => s
      | some r => (s.removeFault r.site).insertFault (.chainBreak t) .chainBreak none s.now)

/-- The chain break settled at the end of an enumeration (R51). -/
def State.settleBreak (s : State) : State :=
  match s.activeBreak, s.lostFrom with
  | none, none => s
  | none, some t => s.raiseBreak t
  | some g, none => s.healFault (.chainBreak g)
  | some g, some t =>
    if t = g then s
    else if g < t then (s.healFault (.chainBreak g)).raiseBreak t
    else (s.removeFault (.chainBreak g)).raiseBreak t

/-! ### Completion (R51, R195) -/

/-- WAKING ends: the part enters RUNNING, and a scan round falls at once (R83, R195). -/
def State.enterRunning (s : State) : State :=
  match s.ignition.part with
  | .waking =>
    (s.withIgnition { s.ignition with part := .running }).withScheduler { s.scheduler with roundAtOnce := true }
  | .asleep => s
  | .running => s

/-- The end-certain flag after an enumeration (R51). -/
def State.endCertainAfter (s : State) (a : Answers) : Bool :=
  !s.somePosition .lost &&
    positions.any fun p =>
      decide (posNumber p = answersLength a) &&
        (match resultAt a p with | none => false | some x => x.last)

/-- The result of an enumeration read against the map (R47 to R50). -/
def State.compareResult (s : State) (a : Answers) : State :=
  let moved := positions.any fun p => s.movedAway a p
  let gone := positionsDown.foldl (fun t p => if s.movedAway a p then t.depart p else t) s
  let read := positions.foldl (fun t p => if posNumber p ≤ answersLength a then t.readResult a p else t) gone
  positionsDown.foldl
    (fun t p => if posNumber p ≤ answersLength a then t else t.readBeyond (s.intake.moving && !moved) p) read

/-- An enumeration ends with the answers of its last attempt (R47 to R51). -/
def State.completeEnumeration (s : State) (a : Answers) : State :=
  let settled := (s.removeEnumerate.compareResult a).settleBreak
  let flagged := settled.withTrain { settled.train with endCertain := settled.endCertainAfter a }
  (((flagged.refreshLink.discardEntries fun p => decide (flagged.trainLength < posNumber p)).withEnumPhase
    .idle).enterRunning)

/-- The collection window of an attempt closes (R44). -/
def State.judgeAttempt (s : State) : State :=
  match s.enumerator.phase with
  | .idle => s
  | .pending => s
  | .running attempt a =>
    if attemptComplete a ∨ 3 ≤ attempt then s.completeEnumeration a
    else s.withEnumPhase (.running (attempt + 1) (Vector.replicate 6 none))

/-! ### Socket detect (R15, R44, R45) -/

/-- The attempt in the in-flight slot is cancelled: its answers will be discarded (R44). -/
def Slot.cancel : Slot → Slot
  | .enumerating tag _ => .enumerating tag true
  | .empty => .empty
  | .addressed x => .addressed x

/-- The enumeration wanted, if any, is cancelled; while WAKING that counts as the wake enumeration completed (R44,
R45). -/
def State.cancelEnumeration (s : State) : State :=
  match s.enumerator.phase with
  | .idle => s
  | .pending => (s.removeEnumerate.withEnumPhase .idle).enterRunning
  | .running _ _ =>
    let t := s.removeEnumerate
    ((t.withSlot t.scheduler.slot.cancel).withEnumPhase .idle).enterRunning

/-- The socket is UNCOUPLED: every position departs and link state becomes NO_TRAIN (R45). -/
def State.uncouple (s : State) : State := s.departAll.refreshLink

/-- Entry to WAKING with the socket-detect state now handed on: an enumeration is requested, or R45 applies and the wake
enumeration counts as completed (R42, R45, R195). -/
def State.wakeEnumeration (s : State) : State :=
  if s.enumerator.coupled then s.requestEnumeration else s.uncouple.enterRunning

/-- A change of socket-detect state handed to the Enumerator (R15, R42, R44, R45). -/
def State.socketHandedOn (s : State) (coupled : Bool) : State :=
  let t := s.withEnumerator { s.enumerator with coupled := coupled }
  if coupled then t.refreshLink.requestEnumeration else t.cancelEnumeration.uncouple

/-- The socket-detect input has held its level for 200 ms (R15; log entry 48). -/
def State.socketHeld (s : State) : Bool := decide (s.steady.socket + 200000 ≤ s.clock)

/-- SOCKET_DETECT_CHANGE (R15): the socket-detect input has held a new level for 200 ms; the change is handed on while the
part is awake. A shorter excursion leaves the state unchanged. -/
def execSocketDetectChange (m : Moment) (s : State) : Host.Outcome State Fault Refusal :=
  s.event m fun t =>
    if t.inputs.socketCoupled = t.sense.coupled ∨ ¬ t.socketHeld then t
    else
      let u := t.withSense { t.sense with coupled := t.inputs.socketCoupled }
      if u.awake then u.socketHandedOn u.sense.coupled else u

/-- COLLECTION_WINDOW_END (R43, R44). -/
def execCollectionWindowEnd (m : Moment) (s : State) : Host.Outcome State Fault Refusal :=
  s.event m fun t =>
    match t.link.phase with
    | .collecting until_ =>
      if until_ ≤ t.clock then
        let u := (t.withLink { t.link with phase := .free }).withSlot .empty
        match t.scheduler.slot with
        | .enumerating _ true => u
        | .enumerating _ false => u.judgeAttempt
        | .empty => u
        | .addressed _ => u
      else t
    | .free | .waitPulse _ | .wakeDrive _ _ | .wakeHold _ _ | .sending _ _ | .awaiting _ | .speedHold _ => t

/-- PROBE_INTERVAL (R46): 5 s have passed since the interval began. -/
def execProbeInterval (m : Moment) (s : State) : Host.Outcome State Fault Refusal :=
  s.event m fun t => if t.probing ∧ t.passed t.enumerator.probeFrom 5000 then t.requestEnumeration else t

end Sys2Proof.Machine
end

