-- ==== Sys2Proof/Machine/Harness.lean ====
section
/-! DEFINITION. The Harness Balance Unit (chapter 8): the check of one segment cell, and when it is made. -/

namespace Sys2Proof.Machine

/-- out(p): the current a unit passes on; 0 at a sense conflict (R129). -/
def Sample.out (x : Sample) : Nat := x.inCurrent - x.loadCurrent

/-- The position is in sense conflict: its load-current exceeds its in-current (R129). -/
def Sample.conflict (x : Sample) : Bool := decide (x.inCurrent < x.loadCurrent)

/-- out(p) is saturated when either current it is formed from is (R129, R133). -/
def Sample.outSaturated (x : Sample) : Bool := x.inSaturated || x.loadSaturated

/-- The cell at the upstream end of segment g: the line cell for segment 0, else lamp cell (g, f) (R130). -/
def upstreamEnd (g : Seg) (f : Func) : CellKey :=
  match posOfNumber g.val with
  | none => .line f
  | some p => .lamp p f

/-- The position at the downstream end of segment g, when it is mapped (R130). -/
def State.downstreamPos (s : State) (g : Seg) : Option Pos :=
  match posOfNumber (g.val + 1) with
  | none => none
  | some p => if (s.record p).isSome then some p else none

/-- Position p is SILENT or LOST (R137). -/
def State.quietPosition (s : State) (p : Pos) : Bool :=
  decide (s.posState p = some .silent ∨ s.posState p = some .lost)

/-- A position at either end of segment g is SILENT or LOST (R137). -/
def State.besideQuiet (s : State) (g : Seg) : Bool :=
  (match posOfNumber g.val with | none => false | some p => s.quietPosition p) ||
    (match s.downstreamPos g with | none => false | some p => s.quietPosition p)

/-- Two samples can be compared: same epoch, the new one at most PAIR_WINDOW after its partner, and both on-phase where
f is commanded FLASH (R132). -/
def State.pairs (s : State) (f : Func) (new partner : Sample) : Bool :=
  decide (partner.epoch = new.epoch ∧
    (new.takenAt - partner.takenAt).toNat ≤ s.ignition.settings.pairWindow ∧
    (s.intake.states[f] = .flash → new.onPhase ∧ partner.onPhase))

/-- The margin (R134). -/
def harnessMargin (set : Settings) (u : Nat) : Nat := max set.harnessFloor (rounded (u * set.harnessPct) 1000)

/-- The verdict by margin and imbalance (R134): u leaves the upstream end, `arrives` arrives. -/
def balance (set : Settings) (u arrives : Nat) : Judgement :=
  if harnessMargin set u + arrives < u then .bad .leak
  else if harnessMargin set u + u < arrives then .bad .senseConflict
  else .good

/-- Tests 4 to 6 of R131 on usable samples: the upstream sample, and the in-current arriving downstream with its
saturation. Segment 0 (`line`) uses the line current and has no sense conflict (R133, R135). -/
def checkPair (set : Settings) (line : Bool) (up : Sample) (arrives : Nat) (arrivesSaturated : Bool) : Ruling :=
  if (if line then up.inSaturated else up.outSaturated) ∨ arrivesSaturated then .hold .saturatedUnusable
  else if ¬ line ∧ up.conflict then .verdict (.bad .senseConflict)
  else .verdict (balance set (if line then up.inCurrent else up.out) arrives)

/-- The check of segment cell (g, f) at a new sample; `upNew` when the new sample is at the upstream end (R131). None
is a check not made. -/
def State.harnessRuling (s : State) (g : Seg) (f : Func) (upNew : Bool) : Option Ruling :=
  let line := decide (g.val = 0)
  let set := s.ignition.settings
  match s.downstreamPos g with
  | none =>
    if ¬ s.train.endCertain then none
    else if s.besideQuiet g then some (.hold .silent)
    else (s.cell (upstreamEnd g f)).sample.map fun up => checkPair set line up 0 false
  | some p =>
    if s.besideQuiet g then some (.hold .silent)
    else
      match (s.cell (upstreamEnd g f)).sample, (s.cell (.lamp p f)).sample with
      | some up, some down =>
        if (if upNew then s.pairs f up down else s.pairs f down up) then
          some (checkPair set line up down.inCurrent down.inSaturated)
        else none
      | _, _ => none

/-- A segment check, with its outcome handed on (R128, R139). A segment whose cell is ABSENT is not checked (R131). -/
def State.checkSegment (s : State) (g : Seg) (f : Func) (upNew : Bool) : State :=
  if (s.cell (.segment g f)).state = .absent then s
  else
    match s.harnessRuling g f upNew with
    | none => s
    | some (.hold r) => s.holdCell (.segment g f) r
    | some (.verdict j) => s.deliverVerdict (.segment g f) j

end Sys2Proof.Machine
end

