-- ==== Sys2Proof/Machine/LineSense.lean ====
section
/-! DEFINITION. The Line Sense Unit (1.3): its readings, line samples and their screening, and the commands
DRIVEN_CHANGE and SETTLE_TEST_POINT. -/

namespace Sys2Proof.Machine

/-- The line current of function f, 0 to 16000 mA (R15). -/
def State.lineCurrent (s : State) (f : Func) : Nat := min 16000 s.inputs.current[f]

/-- The socket voltage in tenths of a volt, saturating at 400 (R15). -/
def State.socketVoltage (s : State) : Nat := min 400 s.inputs.voltage

/-- The channel after its driven indication is `level` (R15): driven-since is set at a change from false to true and
absent while the flag is false. -/
def Channel.follow (c : Channel) (level : Bool) (now : Time) : Channel :=
  if level = c.driven then c
  else if level then { driven := true, since := some now, testPoints := 0 }
  else { driven := false, since := none, testPoints := 0 }

/-- A channel read afresh (R18): driven-since is the present time for a driven line. -/
def Channel.afresh (level : Bool) (now : Time) : Channel where
  driven := level
  since := if level then some now else none
  testPoints := 0

/-- Every channel read afresh from the inputs (R18). -/
def State.readChannels (s : State) : State :=
  s.withSense { s.sense with channels := Vector.ofFn fun f => Channel.afresh s.inputs.driven[f] s.now }

/-- The settle time of f is 100 ms with the map empty, or when some mapped position has a FILAMENT profile with a lamp
for f or no applied profile for f; otherwise 30 ms (R16, R59). -/
def State.settleTime (s : State) (f : Func) : Nat :=
  if s.trainLength = 0 ∨
      positions.any fun p =>
        match s.record p with
        | none => false
        | some r =>
          match r.applied[f] with
          | none => true
          | some x => decide (x.tech = .filament ∧ 1 ≤ x.n)
  then 100 else 30

/-- How long the line of f has been driven. -/
def State.drivenFor (s : State) (f : Func) : Nat :=
  match (s.sense.channels[f]).since with
  | none => 0
  | some t => s.age t

/-- What screening makes of a line sample of f (R16). -/
inductive LineScreen where
  | noSample
  | held (r : HoldReason)
  | accepted
  deriving DecidableEq, Repr

/-- The screening tests of R16 in their order. -/
def State.screenLine (s : State) (f : Func) : LineScreen :=
  if s.intake.lost then .held .commandLost
  else if s.intake.states[f] = .off then .noSample
  else if ¬ (s.sense.channels[f]).driven then
    if s.intake.states[f] = .flash then .held .offPhase else .held .notDriven
  else if s.drivenFor f < s.settleTime f then .held .settling
  else .accepted

/-- The line sample of f taken now (R16): a reading at 16000 is saturated (R15). -/
def State.lineSampleNow (s : State) (f : Func) : Sample where
  inCurrent := s.lineCurrent f
  loadCurrent := 0
  voltage := s.socketVoltage
  epoch := s.intake.epoch
  onPhase := true
  takenAt := s.now
  inSaturated := decide (s.lineCurrent f = 16000)
  loadSaturated := false

/-- A sample becomes the latest accepted sample of its cell (R3). -/
def State.storeSample (s : State) (k : CellKey) (x : Sample) : State :=
  s.setCell k { s.cell k with sample := some x }

/-- An accepted line sample handed on by the link state (R17): judged in DOWN, offered to segment 0 in LIVE. -/
def State.handLineSample (s : State) (f : Func) (x : Sample) : State :=
  match s.train.linkState with
  | .down => s.deliver (.line f) (s.judgeLine f x)
  | .live => s.checkSegment 0 f true
  | .noTrain => s

/-- A line sample of f is taken (R16): only while RUNNING, and only for a line cell that is not ABSENT. DESIGN CHOICE (log
entry 55): one accepted in LIVE, where nothing judges it (R17), leaves the line cell's hold reason as it was. -/
def State.takeLineSample (s : State) (f : Func) : State :=
  if s.running ∧ (s.cell (.line f)).state ≠ .absent then
    match s.screenLine f with
    | .noSample => s
    | .held r => s.holdCell (.line f) r
    | .accepted => (s.storeSample (.line f) (s.lineSampleNow f)).handLineSample f (s.lineSampleNow f)
  else s

/-- DRIVEN_CHANGE (R15): the driven indication of f stands at its input's level. -/
def execDrivenChange (m : Moment) (f : Func) (s : State) : Host.Outcome State Fault Refusal :=
  s.event m fun t =>
    t.withSense
      { t.sense with channels := t.sense.channels.set f ((t.sense.channels[f]).follow t.inputs.driven[f] t.now) }

/-- A settle test point of f is reached: 30 ms, and then 100 ms, after driven-since, while still driven (R16). -/
def State.testPointReached (s : State) (f : Func) : Bool :=
  (s.sense.channels[f]).driven &&
    decide (((s.sense.channels[f]).testPoints = 0 ∧ 30 ≤ s.drivenFor f) ∨
      ((s.sense.channels[f]).testPoints = 1 ∧ 100 ≤ s.drivenFor f))

/-- SETTLE_TEST_POINT (R16). -/
def execSettleTestPoint (m : Moment) (f : Func) (s : State) : Host.Outcome State Fault Refusal :=
  s.event m fun t =>
    if t.testPointReached f then
      let c := t.sense.channels[f]
      (t.withSense
        { t.sense with channels := t.sense.channels.set f { c with testPoints := c.testPoints + 1 } }).takeLineSample f
    else t

end Sys2Proof.Machine
end

