-- ==== Sys2Proof/Machine/LinkHealth.lean ====
section
/-! DEFINITION. The link health logic (11.1): the window, the clean run, drops, returns, the watch and the recovery
hold; and the command RECOVERY_HOLD_EXPIRY. -/

namespace Sys2Proof.Machine

/-- The controller has been handed a SPEED frame (R187: from then on a return goes ahead). -/
def LinkPhase.carriesSpeed : LinkPhase → Bool
  | .waitPulse f => decide (f.kind = .speed)
  | .wakeDrive f _ => decide (f.kind = .speed)
  | .wakeHold f _ => decide (f.kind = .speed)
  | .sending f _ => decide (f.kind = .speed)
  | .free => false
  | .awaiting _ => false
  | .collecting _ => false
  | .speedHold _ => false

/-- The time 30 s from now (R188). -/
def State.holdExpiry (s : State) : Time := s.now + 30000

/-- A failed return, when the watch runs: the watch ends, a drop is decided and the recovery hold starts (R188). -/
def State.failReturn (s : State) : State :=
  match s.health.watch with
  | none => s
  | some _ =>
    s.withHealth { s.health with watch := none, pending := some .reduced, hold := some s.holdExpiry }

/-- A drop is decided, provided no change is pending; while the watch runs it is a failed return (R186, R188). -/
def State.decideDrop (s : State) : State :=
  if s.health.pending = none then (s.withHealth { s.health with pending := some .reduced }).failReturn else s

/-- The return test (R187). -/
def State.testReturn (s : State) : State :=
  if s.awake ∧ s.link.speed = .reduced ∧ s.health.cleanRun = 256 ∧ s.health.hold = none ∧
      s.ignition.settings.speedLock = .fullAllowed ∧ s.health.pending = none then
    s.withHealth { s.health with pending := some .full }
  else s

/-- A pending return is withdrawn while its SPEED frame has not been handed over (R187). -/
def State.withdrawReturn (s : State) : State :=
  if s.health.pending = some .full ∧ ¬ s.link.phase.carriesSpeed then
    s.withHealth { s.health with pending := none }
  else s

/-- The window with an outcome at its newest end, at most 32 outcomes (R185). -/
def windowWith (w : List Bool) (failed : Bool) : List Bool :=
  (w ++ [failed]).drop ((w ++ [failed]).length - 32)

def failures (w : List Bool) : Nat := (w.filter id).length

/-- A clean frame taken (R185): it joins the window at FULL; at REDUCED it raises the clean run, and the return test is
made (R187). -/
def State.recordClean (s : State) : State :=
  match s.link.speed with
  | .full => s.withHealth { s.health with window := windowWith s.health.window false }
  | .reduced => (s.withHealth { s.health with cleanRun := min 256 (s.health.cleanRun + 1) }).testReturn

/-- A failed frame taken (R185): at FULL the fourth failure in the window decides a drop (R186); at REDUCED the clean
run goes to 0 and a pending return is withdrawn (R187). -/
def State.recordFailed (s : State) : State :=
  match s.link.speed with
  | .full =>
    let w := windowWith s.health.window true
    let t := s.withHealth { s.health with window := w }
    if 4 ≤ failures w then t.decideDrop else t
  | .reduced => (s.withHealth { s.health with cleanRun := 0 }).withdrawReturn

/-- A scan round raises the watch's count; a round that finds it at 3 ends the watch (R188). -/
def State.watchRound (s : State) : State :=
  match s.health.watch with
  | none => s
  | some n => s.withHealth { s.health with watch := if 3 ≤ n then none else some (n + 1) }

/-- The completed switch to a speed (R186, R187): the window and clean run start afresh, nothing is pending, and a
switch to FULL starts the watch. -/
def State.switchHealth (s : State) (v : Speed) : State :=
  s.withHealth
    { s.health with window := [], cleanRun := 0, pending := none,
                    watch := if v = .full then some 0 else s.health.watch }

/-- A drop decided because SPEED_LOCK is REDUCED_ONLY and the link is at FULL: not a failed return (R189). -/
def State.lockDrop (s : State) : State :=
  if s.awake ∧ s.ignition.settings.speedLock = .reducedOnly ∧ s.link.speed = .full ∧ s.health.pending = none then
    s.withHealth { s.health with pending := some .reduced, watch := none }
  else s

/-- A SPEED_LOCK write acts by the table of R189. DEDUCED (log entry 59): written REDUCED_ONLY at REDUCED when SPEED(FULL) has
been handed over, the return goes ahead (R187) and no drop is decided at that write. -/
def State.lockWritten (s : State) : State :=
  match s.ignition.settings.speedLock with
  | .reducedOnly => s.lockDrop.withdrawReturn
  | .fullAllowed => s.testReturn

/-- The health logic after a reset or a part-state change that clears it; the recovery hold is kept (R190). -/
def Health.cleared (h : Health) : Health := { h with window := [], cleanRun := 0, pending := none, watch := none }

/-- RECOVERY_HOLD_EXPIRY (R187): the hold's time has come, whether or not the part is awake (R190). -/
def execRecoveryHoldExpiry (m : Moment) (s : State) : Host.Outcome State Fault Refusal :=
  s.event m fun t =>
    match t.health.hold with
    | none => t
    | some expiry =>
      if t.age expiry < 2 ^ 31 then (t.withHealth { t.health with hold := none }).testReturn else t

end Sys2Proof.Machine
end

