-- ==== Sys2Proof/Machine/Scheduling.lean ====
section
/-! DEFINITION. The Link Scheduler (5.3, 5.4): scan rounds, how attempts and requests end, screening of samples, and the
commands SCAN_ROUND, LAMP_STATE_INTERVAL and REISSUE_DUE. -/

namespace Sys2Proof.Machine

/-! ### Scan rounds (R83) -/

/-- Position p is PRESENT or SILENT. -/
def State.queried (s : State) (p : Pos) : Bool := decide (s.posState p = some .present ∨ s.posState p = some .silent)

/-- Step 1 of a scan round: a QUERY offered for each PRESENT or SILENT position; none with an empty mask (R83). -/
def State.offerScans (s : State) : State :=
  if s.litMask = 0 then s
  else positions.foldl (fun t p => if t.queried p then t.offerScan p t.litMask else t) s

/-- The Profile Store offers PROFILE(p) at a scan round: wanted, not queued, no PROFILE_REQ in the slot (R61). -/
def State.offerWanted (s : State) (p : Pos) : State :=
  match s.record p with
  | none => s
  | some r => if r.wanted ∧ s.queried p ∧ ¬ s.inFlight (Sent.isProfileFor p) then s.offerProfile p else s

/-- A scan round, its four steps in order (R83). DESIGN CHOICE (log entry 71): the line samples are taken, judged and
checked in ascending order of function. -/
def State.round (s : State) : State :=
  let placed := positions.foldl (fun t p => t.offerWanted p) s.offerScans
  let sampled := functions.foldl (fun t f => t.takeLineSample f) placed
  ((sampled.countBy .queueOccupancy none placed.scheduler.queue.length).watchRound)

/-- A scan round falls: on entry to RUNNING or after SOFT reset at once, else SCAN_PERIOD after the last one (R83, R84). -/
def State.roundFalls (s : State) : Bool :=
  s.running && (s.scheduler.roundAtOnce || s.passed s.scheduler.lastRound s.ignition.settings.scanPeriod)

/-- SCAN_ROUND (R83). -/
def execScanRound (m : Moment) (s : State) : Host.Outcome State Fault Refusal :=
  s.event m fun t =>
    if t.roundFalls then
      (t.withScheduler { t.scheduler with roundAtOnce := false, lastRound := some t.now }).round
    else t

/-- LAMP_STATE_INTERVAL (R76): 250 ms have passed since the last LAMP_STATE was sent. -/
def execLampStateInterval (m : Moment) (s : State) : Host.Outcome State Fault Refusal :=
  s.event m fun t => if t.awake ∧ t.passed t.scheduler.lastLampState 250 then t.oweBroadcast else t

/-! ### How an attempt fails (R88, R89) -/

/-- The failure handed to the request's owner (R89). -/
def State.ownerFails (s : State) : Sent → State
  | .query _ _ => s.failReturn
  | .profileReq _ => s
  | .posReset _ who => s.replyPositionReset who .failed

/-- The request fails and leaves the slot; the failure goes to the silent streak, the owner and a waiting apply (R89). -/
def State.requestFailed (s : State) (x : Flight) : State :=
  ((((s.withSlot .empty).unanswered x.sent.pos).ownerFails x.sent).applyWaited x.sent.pos)

/-- The current attempt of request x has failed: the next attempt is due, or the request fails; a request whose position
has gone ends as discarded (R89). -/
def State.attemptFailed (s : State) (x : Flight) : State :=
  if x.gone then s.dropFlight x
  else if x.attempt ≤ s.ignition.settings.retryLimit then
    s.withSlot (.addressed { x with attempt := x.attempt + 1, busyCount := 0, stage := .due })
  else s.requestFailed x

/-- The request in the slot whose attempt is on the link, its frame being sent or its answer awaited. -/
def State.onLink (s : State) : Option Flight :=
  match s.scheduler.slot.flight with
  | none => none
  | some x => if x.stage = .onLink then some x else none

/-! ### Answers (R90) -/

/-- What screening makes of a SAMPLE entry (R92). -/
inductive EntryScreen where
  | discarded
  | held (r : HoldReason)
  | accepted
  deriving DecidableEq, Repr

/-- The screening tests of R92 in their order; `changed` is the request's command-changed mark. -/
def State.screenEntry (s : State) (changed : Bool) (epoch : Byte) (f : Func) (e : SampleEntry) : EntryScreen :=
  if s.intake.lost then .held .commandLost
  else if s.intake.states[f] = .off then .discarded
  else if changed ∨ epoch ≠ s.intake.epoch ∨ e.noEpoch then .held .stale
  else
    match e.status with
    | .settling => .held .settling
    | .offPhase => .held .offPhase
    | .notDriven => .held .notDriven
    | .valid => .accepted

/-- The latest accepted sample that an accepted entry makes (R93). -/
def State.sampleOf (s : State) (voltage : Nat) (e : SampleEntry) : Sample where
  inCurrent := e.inCurrent
  loadCurrent := e.loadCurrent
  voltage := voltage
  epoch := s.intake.epoch
  onPhase := e.onPhase
  takenAt := s.now
  inSaturated := e.inSaturated
  loadSaturated := e.loadSaturated

/-- An accepted entry: stored, judged, and checked against both segments of its position (R93). DESIGN CHOICE: the
circuit is judged before the segments are checked (log entry 76), and the segment before the position is checked before
the one after it (R131; log entry 58). -/
def State.acceptEntry (s : State) (p : Pos) (f : Func) (x : Sample) : State :=
  let stored := s.storeSample (.lamp p f) x
  let judged := stored.deliver (.lamp p f) (judgeCircuit stored.ignition.settings (stored.appliedProfile p f) x)
  (judged.checkSegment p.castSucc f false).checkSegment p.succ f true

/-- One entry of a SAMPLE screened and, when accepted, handed on (R92, R93). -/
def State.takeEntry (s : State) (p : Pos) (changed : Bool) (voltage : Nat) (epoch : Byte) (f : Func) (e : SampleEntry) :
    State :=
  match s.screenEntry changed epoch f e with
  | .discarded => s
  | .held r =>
    let t := s.holdCell (.lamp p f) r
    if r = .stale then t.countEvent .sampleStale (some (posNumber p)) else t
  | .accepted => s.acceptEntry p f (s.sampleOf voltage e)

/-- The entries of a SAMPLE, in the function order of the mask sent (R92). -/
def State.takeSample (s : State) (p : Pos) (mask : Mask) (changed : Bool) (voltage : Nat) (epoch : Byte)
    (entries : List SampleEntry) : State :=
  ((maskFunctions mask).zip entries).foldl (fun t fe => t.takeEntry p changed voltage epoch fe.1 fe.2) s

/-- RESET_DONE taken for p (R57): cells and records of p and its segments start afresh, its staged edits are cleared, a
description is wanted, a broadcast is owed, and the master is answered DONE. -/
def State.takeResetDone (s : State) (p : Pos) (who : Requester) : State :=
  let cleared :=
    functions.foldl
      (fun t f => ((t.resetCell (.lamp p f)).resetCell (.segment p.castSucc f)).resetCell (.segment p.succ f)) s
  let bare := cleared.changeRecord p fun r =>
    { r with staged := Vector.replicate 8 none, changed := Vector.replicate 8 false, wanted := true }
  ((bare.offerProfile p).oweBroadcast).replyPositionReset who .done

/-- The answer handed to its owner (R90). -/
def State.ownerAnswered (s : State) (x : Flight) (body : UpBody) : State :=
  match x.sent, body with
  | .query p mask, .sample voltage epoch entries => s.takeSample p mask x.commandChanged voltage epoch entries
  | .profileReq p, .profileReply serial ds => s.takeDescription p serial ds
  | .posReset p who, .resetDone => s.takeResetDone p who
  | _, _ => s

/-- The request ends with its answer: the streak, the owner of the answer, a waiting apply (R90). -/
def State.requestAnswered (s : State) (x : Flight) (body : UpBody) : State :=
  if x.gone then s.dropFlight x
  else
    ((((s.withSlot .empty).answered x.sent.pos).ownerAnswered x body).applyWaited x.sent.pos)

/-- BUSY taken for request x (R88). DEDUCED (log entry 30): a request whose position has gone ends as discarded at once. -/
def State.takeBusy (s : State) (x : Flight) : State :=
  let t := s.countEvent .replyBusy (some (posNumber x.sent.pos))
  if x.gone then t.dropFlight x
  else if x.busyCount < 4 then
    t.withSlot (.addressed { x with busyCount := x.busyCount + 1, stage := .reissueAt (t.clock + 5000) })
  else t.attemptFailed x

/-- REISSUE_DUE (R88): the 5 ms wait after BUSY has ended. -/
def execReissueDue (m : Moment) (s : State) : Host.Outcome State Fault Refusal :=
  s.event m fun t =>
    match t.scheduler.slot with
    | .empty => t
    | .enumerating _ _ => t
    | .addressed x =>
      match x.stage with
      | .onLink => t
      | .due => t
      | .reissueAt at_ => if at_ ≤ t.clock then t.withSlot (.addressed { x with stage := .due }) else t

end Sys2Proof.Machine
end

