-- ==== Sys2Proof/Machine/TrainLink.lean ====
section
/-! DEFINITION. The Train Link Controller (2.3) and the choice of the next frame (5.1): handing over, sending, the wake
pulse, the speed change, receiving, and the commands of the link. -/

namespace Sys2Proof.Machine

def State.withPhase (s : State) (x : LinkPhase) : State := s.withLink { s.link with phase := x }

/-! ### Idle (R21, R26, R27) -/

/-- The line has been recessive for 3 character times (R21). -/
def State.gapPassed (s : State) : Bool :=
  match s.link.lineActive with
  | none => true
  | some t => decide (t + 3 * charTime s.link.speed ≤ s.clock)

/-- The link is idle (R26, R27). -/
def State.linkFree (s : State) : Bool :=
  decide (s.link.phase = .free) && decide (s.link.reception = .none) && s.gapPassed

/-! ### Handing a frame over (R26, R28, R104) -/

/-- The frame needs the wake pulse before it: 1 s or more since the last frame, or none sent (R28). -/
def State.needsWakePulse (s : State) : Bool :=
  match s.link.lastFrameSent with
  | none => true
  | some t => decide (1000 ≤ s.age t)

/-- The controller sends a frame now (R26); a frame that was still arriving is received no further (log entry 19). -/
def State.sendNow (s : State) (f : DownFrame) : State :=
  s.withLink
    { s.link with phase := .sending f (s.clock + f.duration s.link.speed), reception := .none }

/-- The part drives the attention line low for 2 ms before frame f (R28, R104). -/
def State.driveLow (s : State) (f : DownFrame) : State := s.withPhase (.wakeDrive f (s.clock + 2000))

/-- The wake pulse before frame f, by the monitor state (R104); in QUIET the part drives none. -/
def State.beginWakePulse (s : State) (f : DownFrame) : State :=
  match s.attention.monitor with
  | .idle => (s.withAttention { s.attention with monitor := .ownDrive }).driveLow f
  | .measuring _ _ _ => s.withPhase (.waitPulse f)
  | .ownDrive => s.driveLow f
  | .stuck _ => s.driveLow f
  | .releasing _ => s.driveLow f
  | .quiet => s.sendNow f

/-- The position FRAME_SENT carries: the target, 0 for LAMP_STATE, SPEED and ENUMERATE (R191). -/
def DownFrame.countedPosition (f : DownFrame) : Nat := f.target.toNat

/-- A frame handed to the controller: counted FRAME_SENT, and sent, after the wake pulse where one is needed (R26,
R28). -/
def State.handOver (s : State) (f : DownFrame) : State :=
  let t := s.countEvent .frameSent (some f.countedPosition)
  if t.needsWakePulse then t.beginWakePulse f else t.sendNow f

/-! ### Choosing the next frame (R75) -/

/-- The tag counter steps (R77). -/
def State.nextTag (s : State) : State := s.withScheduler { s.scheduler with tag := s.scheduler.tag + 1 }

/-- An attempt or a reissue of the request in the slot is handed over with a fresh tag (R77, R87). -/
def State.sendFlight (s : State) (x : Flight) : State :=
  let t := s.nextTag
  (t.withSlot (.addressed { x with tag := t.scheduler.tag, stage := .onLink })).handOver
    (x.sent.frame t.scheduler.tag)

/-- An attempt of ENUMERATE is handed over; the first moves the Enumerator to RUNNING (R42, R43). -/
def State.sendEnumerate (s : State) : State :=
  let t := s.nextTag
  let attempt := match t.enumerator.phase with
    | .running n _ => n
    | .idle => 1
    | .pending => 1
  (((t.withEnumPhase (.running attempt (Vector.replicate 6 none))).withSlot
    (.enumerating t.scheduler.tag false)).handOver (enumerateFrame t.scheduler.tag))

/-- A new request taken from the queue (R87). -/
def newFlight (x : Sent) : Flight where
  sent := x
  attempt := 1
  busyCount := 0
  tag := 0
  commandChanged := false
  gone := false
  stage := .due

/-- The oldest entry that may be sent, as the request it becomes, with the queue left (R75 step 4, R87): QUERY entries
are passed over while WAKING, and one with no lit function left in its mask is discarded (R82). -/
def pickEntry (running : Bool) (lit : Mask) : List Entry → List Entry × Option Sent
  | [] => ([], none)
  | e :: rest =>
    let passOver := (e :: (pickEntry running lit rest).1, (pickEntry running lit rest).2)
    match e.work with
    | .enumerate => passOver
    | .profile p => (rest, some (.profileReq p))
    | .posReset p who => (rest, some (.posReset p who))
    | .query p mask _ =>
      if ¬ running then passOver
      else if mask &&& lit = 0 then pickEntry running lit rest
      else (rest, some (.query p (mask &&& lit)))

/-- The QUERY at the head of the queue is to be discarded, its mask holding no lit function, and an ENUMERATE entry waits
for the place that this frees (R81, R82). -/
def State.headGivesPlace (s : State) : Bool :=
  match s.scheduler.queue with
  | ⟨.query _ mask _, _⟩ :: rest =>
    s.running && decide (mask &&& s.litMask = 0) && s.scheduler.enumerateWaiting &&
      decide (rest.length < Config.queuePlaces)
  | _ => false

/-- The Link Scheduler offers the first frame that applies (R75). -/
def State.offerFrame (s : State) : State :=
  if s.scheduler.broadcastOwed then
    (s.withScheduler { s.scheduler with broadcastOwed := false }).handOver (lampStateFrame s.intake)
  else
    match s.scheduler.slot with
    | .addressed x =>
      match x.stage with
      | .due => s.sendFlight x
      | .onLink => s
      | .reissueAt _ => s
    | .enumerating _ _ => s
    | .empty =>
      match s.scheduler.queue with
      | ⟨.enumerate, _⟩ :: _ => s.sendEnumerate
      | q =>
        if s.headGivesPlace then (s.withQueue q.tail).settleQueue.sendEnumerate
        else
          let picked := pickEntry s.running s.litMask q
          let t := s.withQueue picked.1
          match picked.2 with
          | none => t
          | some x => t.sendFlight (newFlight x)

/-- LINK_IDLE (R75, R29): a pending speed change takes the idle link first; else the scheduler offers. -/
def execLinkIdle (m : Moment) (s : State) : Host.Outcome State Fault Refusal :=
  s.event m fun t =>
    if t.awake ∧ t.linkFree then
      match t.health.pending with
      | some v => t.handOver (speedFrame v)
      | none => t.offerFrame
    else t

/-! ### The wake pulse (R28, R104) -/

/-- A line found low moves RELEASING back to STUCK; the raise-due time is set 500 ms ahead when the list holds no
ATTENTION_STUCK record (R102). -/
def State.stuckAgain (s : State) : State :=
  s.withAttention
    { s.attention with
      monitor := .stuck (if (s.faultAt .link).isNone then some (s.clock + 500000) else none) }

/-- What the monitor makes of the line when the part releases it (R104). -/
def State.releaseLine (s : State) : State :=
  let t := s.withAttention { s.attention with high := s.inputs.attentionHigh }
  match t.attention.monitor, t.inputs.attentionHigh with
  | .ownDrive, true => t.withAttention { t.attention with monitor := .idle }
  | .ownDrive, false => t.withAttention { t.attention with monitor := .measuring t.clock true none }
  | .idle, false => t.withAttention { t.attention with monitor := .measuring t.clock true none }
  | .measuring start known none, true =>
    t.withAttention { t.attention with monitor := .measuring start known (some t.clock) }
  | .stuck _, true => t.withAttention { t.attention with monitor := .releasing t.clock }
  | .releasing _, false => t.stuckAgain
  | .idle, true | .measuring _ _ _, _ | .stuck _, false | .releasing _, true | .quiet, _ => t

/-- WAKE_PULSE_RELEASE (R104): the 2 ms drive ends, and segment 0 is then held recessive for 5 ms (R28). -/
def execWakePulseRelease (m : Moment) (s : State) : Host.Outcome State Fault Refusal :=
  s.event m fun t =>
    match t.link.phase with
    | .wakeDrive f until_ =>
      if until_ ≤ t.clock then t.releaseLine.withPhase (.wakeHold f (t.clock + 5000)) else t
    | .free | .waitPulse _ | .wakeHold _ _ | .sending _ _ | .awaiting _ | .collecting _ | .speedHold _ => t

/-- WAKE_PULSE_HOLD_END (R28): the frame is sent. -/
def execWakePulseHoldEnd (m : Moment) (s : State) : Host.Outcome State Fault Refusal :=
  s.event m fun t =>
    match t.link.phase with
    | .wakeHold f until_ => if until_ ≤ t.clock then t.sendNow f else t
    | .free | .waitPulse _ | .wakeDrive _ _ | .sending _ _ | .awaiting _ | .collecting _ | .speedHold _ => t

/-! ### The end of a frame sent (R26, R29, R43) -/

/-- The reply timer for position p, in microseconds (R26). -/
def replyTime (set : Settings) (v : Speed) (p : Pos) : Nat :=
  match v with
  | .full => (set.replyBase + posNumber p) * 1000
  | .reduced => 4 * ((set.replyBase + posNumber p) * 1000)

/-- The collection window, in microseconds (R43). -/
def windowTime : Speed → Nat
  | .full => 22000
  | .reduced => 88000

/-- The speed a SPEED frame carries (13.1.2). -/
def DownFrame.speed (f : DownFrame) : Speed := if f.payload = [0] then .full else .reduced

/-- An addressed frame has been sent: it awaits its answer, unless its attempt has already failed (R26, R99). -/
def State.awaitAnswer (s : State) : State :=
  match s.onLink with
  | none => s.withPhase .free
  | some x => s.withPhase (.awaiting (.running (s.clock + replyTime s.ignition.settings s.link.speed x.sent.pos)))

/-- A SPEED frame has been sent: the part switches, and holds segment 0 recessive for 36 character times at the old
speed (R29). -/
def State.switchSpeed (s : State) (v : Speed) : State :=
  (s.withLink { s.link with speed := v, phase := .speedHold (s.clock + 36 * charTime s.link.speed) }).switchHealth v

/-- What follows the last character of frame f (R26). -/
def State.frameSent (s : State) (f : DownFrame) : State :=
  match f.kind with
  | .lampState =>
    (s.withPhase .free).withScheduler { s.scheduler with lastLampState := some s.now }
  | .query => s.awaitAnswer
  | .profileReq => s.awaitAnswer
  | .posReset => s.awaitAnswer
  | .enumerate => s.withPhase (.collecting (s.clock + windowTime s.link.speed))
  | .speed => s.switchSpeed f.speed

/-- FRAME_TRANSMIT_END (R26): the time of the last character is recorded. -/
def execFrameTransmitEnd (m : Moment) (s : State) : Host.Outcome State Fault Refusal :=
  s.event m fun t =>
    match t.link.phase with
    | .sending f until_ =>
      if until_ ≤ t.clock then
        (t.withLink
          { t.link with lastFrameSent := some t.now, lineActive := some t.clock,
                        received := some (t.clock, false) }).frameSent f
      else t
    | .free | .waitPulse _ | .wakeDrive _ _ | .wakeHold _ _ | .awaiting _ | .collecting _ | .speedHold _ => t

/-- SPEED_HOLD_END (R29). -/
def execSpeedHoldEnd (m : Moment) (s : State) : Host.Outcome State Fault Refusal :=
  s.event m fun t =>
    match t.link.phase with
    | .speedHold until_ => if until_ ≤ t.clock then t.withPhase .free else t
    | .free | .waitPulse _ | .wakeDrive _ _ | .wakeHold _ _ | .sending _ _ | .awaiting _ | .collecting _ => t

/-! ### Receiving (R21, R27) -/

/-- The controller takes characters: the part is awake and is not transmitting (R26, R30). -/
def State.listens (s : State) : Bool :=
  s.awake && (match s.link.phase with
    | .sending _ _ => false
    | .free => true
    | .waitPulse _ => true
    | .wakeDrive _ _ => true
    | .wakeHold _ _ => true
    | .awaiting _ => true
    | .collecting _ => true
    | .speedHold _ => true)

/-- How the first character of a burst is received (R21). -/
def State.receptionNow (s : State) : Reception :=
  receptionAt s.link.received s.gapPassed s.clock (3 * charTime s.link.speed)

/-- The reply timer stops with what it has left (R27). -/
def LinkPhase.stopTimer (x : LinkPhase) (clock : Nat) : LinkPhase :=
  match x with
  | .awaiting (.running deadline) => .awaiting (.stopped (deadline - clock))
  | .awaiting (.stopped left) => .awaiting (.stopped left)
  | .free => .free
  | .waitPulse f => .waitPulse f
  | .wakeDrive f t => .wakeDrive f t
  | .wakeHold f t => .wakeHold f t
  | .sending f t => .sending f t
  | .collecting t => .collecting t
  | .speedHold t => .speedHold t

/-- The first character of a burst arrives (R21, R27). -/
def State.receiveStart (s : State) : State :=
  if s.listens ∧ s.link.reception = .none then
    let r := s.receptionNow
    s.withLink
      { s.link with
        reception := r
        lineActive := some s.clock
        phase := if r = .skipping then s.link.phase else s.link.phase.stopTimer s.clock }
  else s

/-- FRAME_RECEIVE_START (R27). -/
def execFrameReceiveStart (m : Moment) (s : State) : Host.Outcome State Fault Refusal :=
  s.event m fun t => t.receiveStart

/-- A CRC failure by what awaits an answer (R27): an awaited attempt has failed. The health logic records it (R185). -/
def State.takeFailure (s : State) : State :=
  let t := s.recordFailed
  match t.link.phase, t.onLink with
  | .awaiting _, some x =>
    ((t.countEvent .replyCrcFail (some (posNumber x.sent.pos))).withPhase .free).attemptFailed x
  | _, _ => t.countEvent .replyCrcFail none

/-- The body is of an answer kind for the request (R24, R27). -/
def UpBody.answers : UpBody → Sent → Bool
  | .sample _ _ _, .query _ _ => true
  | .busy, .query _ _ => true
  | .busy, .profileReq _ => true
  | .profileReply _ _, .profileReq _ => true
  | .resetDone, .posReset _ _ => true
  | _, _ => false

/-- The frame is the answer that request x awaits: kind, position and tag match (R27). -/
def UpFrame.matches (f : UpFrame) (x : Flight) : Bool :=
  f.body.answers x.sent && decide (f.p = x.sent.pos) && decide (f.tag = x.tag)

/-- An awaited answer is taken (R27, R88). -/
def State.takeAnswer (s : State) (x : Flight) (body : UpBody) : State :=
  let t := (s.countEvent .replyValid (some (posNumber x.sent.pos))).withPhase .free
  match body with
  | .busy => t.takeBusy x
  | .sample _ _ _ => t.requestAnswered x body
  | .profileReply _ _ => t.requestAnswered x body
  | .resetDone => t.requestAnswered x body
  | .enumReply _ => t.requestAnswered x body

/-- A stray frame while a request awaits its answer: the reply timer resumes with the time it had left (R27). -/
def State.resumeTimer (s : State) : State :=
  match s.link.phase with
  | .awaiting (.stopped left) => s.withPhase (.awaiting (.running (s.clock + left)))
  | _ => s

/-- An ENUM_REPLY entered in the attempt's answer set, if p has none yet and the enumeration still runs (R43, R44). -/
def State.enterAnswer (s : State) (p : Pos) (a : EnumAnswer) : State :=
  match s.enumerator.phase with
  | .running n answers =>
    if (answers[p]).isNone then s.withEnumPhase (.running n (answers.set p (some a))) else s
  | .idle => s
  | .pending => s

/-- The attempt in the slot has been cancelled, or the tag is not its own: its window takes no answer from the frame. -/
def Slot.collects (tag : Byte) : Slot → Option Bool
  | .enumerating t cancelled => if t = tag then some (!cancelled) else none
  | .empty => none
  | .addressed _ => none

/-- A valid frame within the collection window (R27, R43). -/
def State.collectFrame (s : State) (f : UpFrame) : State :=
  match f.body, s.scheduler.slot.collects f.tag with
  | .enumReply a, some running =>
    let t := s.countEvent .replyValid (some (posNumber f.p))
    if running then t.enterAnswer f.p a else t
  | _, _ => s

/-- A valid frame by what awaits an answer (R27). -/
def State.takeValid (s : State) (f : UpFrame) : State :=
  let t := s.recordClean
  match t.link.phase with
  | .awaiting _ =>
    match t.onLink with
    | none => t
    | some x => if f.matches x then t.takeAnswer x f.body else t.resumeTimer
  | .collecting _ => t.collectFrame f
  | .free | .waitPulse _ | .wakeDrive _ _ | .wakeHold _ _ | .sending _ _ | .speedHold _ => t

/-- The mask of the QUERY in the in-flight slot (R25). -/
def State.flightMask (s : State) : Option Mask :=
  match s.scheduler.slot with
  | .addressed x =>
    match x.sent with
    | .query _ mask => some mask
    | .profileReq _ => none
    | .posReset _ _ => none
  | .empty => none
  | .enumerating _ _ => none

/-- A burst of characters has ended: the line was last active `ago` microseconds before now, and the frame, if it was
one, was truncated or whole. -/
def State.receptionEnds (s : State) (ago : Nat) (truncated : Bool) : State :=
  s.withLink
    { s.link with reception := .none, lineActive := some (s.clock - ago),
                  received := some (s.clock - ago, truncated) }

/-- The characters of one frame by what they hold, whatever it was meant to be (R27). -/
def State.takeCharacters (s : State) (doomed : Bool) (w : List WireChar) : State :=
  let t := s.receptionEnds 0 (truncatedFrame s.link.speed w)
  match parseFrame t.link.speed t.flightMask w with
  | none => t.takeFailure
  | some f => if doomed then t.takeFailure else t.takeValid f

/-- Dominant levels that do not decode at the part's speed: the line is active, and no frame begins (R19; log entry
50). -/
def State.hearForeign (s : State) : State := s.withLink { s.link with lineActive := some s.clock }

/-- A received frame is taken by its last character (R27). It ends with the payload that its header gives, and a character
beyond it begins a frame of its own, inside the gap (R21). DESIGN CHOICE (log entry 62): that frame begins at the moment
of the row. -/
def State.takeFrame (s0 : State) (w : List WireChar) : State :=
  if s0.listens ∧ s0.link.reception = .none ∧ foreignSpeed s0.link.speed w then s0.hearForeign
  else
    let s := s0.receiveStart
    if ¬ s.listens then s
    else
      match s.link.reception with
      | .none => s
      | .skipping => s.receptionEnds 0 true
      | .receiving doomed =>
        let n := frameLength s.link.speed w
        let t := s.takeCharacters doomed (w.take n)
        if w.length ≤ n then t else t.receiveStart

/-- SAMPLE (R92). -/
def execSample (m : Moment) (w : List WireChar) (s : State) : Host.Outcome State Fault Refusal :=
  s.event m fun t => t.takeFrame w

/-- BUSY (R88). -/
def execBusy (m : Moment) (w : List WireChar) (s : State) : Host.Outcome State Fault Refusal :=
  s.event m fun t => t.takeFrame w

/-- ENUM_REPLY (R43). -/
def execEnumReply (m : Moment) (w : List WireChar) (s : State) : Host.Outcome State Fault Refusal :=
  s.event m fun t => t.takeFrame w

/-- PROFILE_REPLY (R62). -/
def execProfileReply (m : Moment) (w : List WireChar) (s : State) : Host.Outcome State Fault Refusal :=
  s.event m fun t => t.takeFrame w

/-- RESET_DONE (R57). -/
def execResetDone (m : Moment) (w : List WireChar) (s : State) : Host.Outcome State Fault Refusal :=
  s.event m fun t => t.takeFrame w

/-- CRC_FAILURE (R27). -/
def execCrcFailure (m : Moment) (w : List WireChar) (s : State) : Host.Outcome State Fault Refusal :=
  s.event m fun t => t.takeFrame w

/-- STRAY_FRAME (R27). -/
def execStrayFrame (m : Moment) (w : List WireChar) (s : State) : Host.Outcome State Fault Refusal :=
  s.event m fun t => t.takeFrame w

/-- The line can have been recessive for 2 character times: that long has passed since the end of the last character known
of (R21). DESIGN CHOICE (log entry 62): that is the frame's first, which began when the frame did and lasts one. -/
def State.pausePassed (s : State) : Bool :=
  match s.link.lineActive with
  | none => true
  | some t => decide (t + 3 * charTime s.link.speed ≤ s.clock)

/-- FRAME_TRUNCATED (R21): the line has been recessive for 2 character times before the frame was complete. -/
def execFrameTruncated (m : Moment) (s : State) : Host.Outcome State Fault Refusal :=
  s.event m fun t =>
    match t.link.reception with
    | .none => t
    | .skipping => if t.pausePassed then t.receptionEnds (2 * charTime t.link.speed) true else t
    | .receiving _ =>
      if t.pausePassed then (t.receptionEnds (2 * charTime t.link.speed) true).takeFailure else t

/-- REPLY_TIMER_END (R27, R88): the timer has ended with no frame being received. -/
def execReplyTimerEnd (m : Moment) (s : State) : Host.Outcome State Fault Refusal :=
  s.event m fun t =>
    match t.link.phase, t.onLink with
    | .awaiting (.running deadline), some x =>
      if deadline ≤ t.clock then
        ((t.countEvent .replyTimeout (some (posNumber x.sent.pos))).withPhase .free).attemptFailed x
      else t
    | _, _ => t

end Sys2Proof.Machine
end

