-- ==== Sys2Proof/Machine/AttentionLine.lean ====
section
/-! DEFINITION. The Attention Monitor (chapter 6): measuring and classifying pulses, their two actions, the stuck line,
and the commands of the attention line. -/

namespace Sys2Proof.Machine

/-! ### Classes (R98) -/

inductive PulseClass where
  | glitch
  | short
  | ambiguous
  | long
  deriving DecidableEq, Repr

/-- The class of a pulse by its width in microseconds (R98). -/
def pulseClass (width : Nat) : PulseClass :=
  if width < 500 then .glitch
  else if width < 10000 then .short
  else if width < 40000 then .ambiguous
  else .long

/-! ### The two actions (R99, R100) -/

/-- The SHORT action, by the state of the in-flight slot (R99). DEDUCED (log entry 29): an addressed frame that waits for its
wake pulse is in flight, and between attempts nothing is. DESIGN CHOICE (log entry 82): a pulse taken while an ENUMERATE's
frame waits or is being sent acts as one taken while it collects: a broadcast is owed, and the attempt runs on. -/
def State.shortAction (s : State) : State :=
  match s.onLink with
  | none => s.oweBroadcast
  | some x =>
    match s.link.phase with
    | .awaiting _ => (s.withPhase .free).attemptFailed x
    | .waitPulse _ | .wakeDrive _ _ | .wakeHold _ _ | .sending _ _ => s.attemptFailed x
    | .free | .collecting _ | .speedHold _ => s.attemptFailed x

/-- What a classified pulse does (R98): the AMBIGUOUS pulse is counted once and takes both actions. DESIGN CHOICE (log entry
57): the SHORT action comes first, so a position that it makes SILENT is not swept (R85, R100). -/
def State.actOnPulse (s : State) : PulseClass → State
  | .glitch => s
  | .short => (s.countEvent .attentionShort none).shortAction
  | .ambiguous => (s.countEvent .attentionAmbiguous none).shortAction.sweep
  | .long => (s.countEvent .attentionLong none).sweep

def State.withMonitor (s : State) (x : Monitor) : State := s.withAttention { s.attention with monitor := x }

/-- A frame that waits for the pulse to be taken now gets its wake pulse from IDLE (R104). -/
def State.startWaitingDrive (s : State) : State :=
  match s.link.phase with
  | .waitPulse f => s.beginWakePulse f
  | .free | .wakeDrive _ _ | .wakeHold _ _ | .sending _ _ | .awaiting _ | .collecting _ | .speedHold _ => s

/-- A pulse is taken: the monitor returns to IDLE; one whose start is not known is neither classified nor counted (R97,
R98). -/
def State.takePulse (s : State) (width : Nat) (known : Bool) : State :=
  let t := s.withMonitor .idle
  (if known then t.actOnPulse (pulseClass width) else t).startWaitingDrive

/-! ### The stuck line (R101, R102) -/

/-- The raise of ATTENTION_STUCK is offered to the Fault List; a dropped offer is made again 500 ms later (R101). -/
def State.offerStuckRaise (s : State) : State :=
  let t := s.raiseFault .link .attentionStuck none s
  t.withMonitor (.stuck (if (t.faultAt .link).isNone then some (t.clock + 500000) else none))

/-- The line is declared stuck (R101). A frame that waits for the pulse then has its drive ignored by the monitor
(R104). -/
def State.declareStuck (s : State) : State :=
  ((s.withAttention { s.attention with monitor := .stuck none, stuckMark := true }).offerStuckRaise).startWaitingDrive

/-- The stuck line has been high for 1 s: its record heals and the mark clears (R102). -/
def State.releaseStuck (s : State) : State :=
  (s.healFault .link).withAttention { s.attention with monitor := .idle, stuckMark := false }

/-! ### Edges (R97, R102) -/

/-- The part is driving the line low itself (R104). -/
def State.drivesLine (s : State) : Bool :=
  match s.link.phase with
  | .wakeDrive _ _ => true
  | .free | .waitPulse _ | .wakeHold _ _ | .sending _ _ | .awaiting _ | .collecting _ | .speedHold _ => false

/-- A falling edge in IDLE starts a pulse with a known start (R97). -/
def State.startPulse (s : State) : State :=
  match s.attention.monitor with
  | .idle => s.withMonitor (.measuring s.clock true none)
  | .measuring _ _ _ | .ownDrive | .stuck _ | .releasing _ | .quiet => s

/-- A falling edge (R97, R102). A pulse whose 0.5 ms have passed, or a release whose 1 s has passed, is taken first. -/
def State.lineFalls (s : State) : State :=
  match s.attention.monitor with
  | .idle => s.startPulse
  | .measuring start known (some rise) =>
    if rise + 500 ≤ s.clock then (s.takePulse (rise - start) known).startPulse
    else s.withMonitor (.measuring start known none)
  | .measuring _ _ none => s
  | .ownDrive => s
  | .stuck _ => s
  | .releasing since =>
    if s.drivesLine then s
    else if since + 1000000 ≤ s.clock then s.releaseStuck.startPulse
    else s.stuckAgain
  | .quiet => s

/-- A rising edge (R97, R102). A pulse that has reached 500 ms is declared stuck first. -/
def State.lineRises (s : State) : State :=
  match s.attention.monitor with
  | .measuring start known none =>
    if start + 500000 ≤ s.clock then s.declareStuck.withMonitor (.releasing s.clock)
    else s.withMonitor (.measuring start known (some s.clock))
  | .stuck _ => s.withMonitor (.releasing s.clock)
  | .idle | .measuring _ _ (some _) | .ownDrive | .releasing _ | .quiet => s

/-- ATTENTION_FALL (R97). -/
def execAttentionFall (m : Moment) (s : State) : Host.Outcome State Fault Refusal :=
  s.event m fun t => (t.withAttention { t.attention with high := false }).lineFalls

/-- ATTENTION_RISE (R97). -/
def execAttentionRise (m : Moment) (s : State) : Host.Outcome State Fault Refusal :=
  s.event m fun t => (t.withAttention { t.attention with high := true }).lineRises

/-- PULSE_TAKEN (R97, R98): the line has been high for 0.5 ms. -/
def execPulseTaken (m : Moment) (s : State) : Host.Outcome State Fault Refusal :=
  s.event m fun t =>
    match t.attention.monitor with
    | .measuring start known (some rise) =>
      if rise + 500 ≤ t.clock then t.takePulse (rise - start) known else t
    | .idle | .measuring _ _ none | .ownDrive | .stuck _ | .releasing _ | .quiet => t

/-- LINE_STUCK (R101): a pulse still low has lasted 500 ms. DESIGN CHOICE (log entry 31): one whose 500 ms end within a high
gap of under 0.5 ms (R97) is stuck once the line is low again. -/
def execLineStuck (m : Moment) (s : State) : Host.Outcome State Fault Refusal :=
  s.event m fun t =>
    match t.attention.monitor with
    | .measuring start _ none => if start + 500000 ≤ t.clock then t.declareStuck else t
    | .idle | .measuring _ _ (some _) | .ownDrive | .stuck _ | .releasing _ | .quiet => t

/-- STUCK_RAISE_RETRY (R101): the raise-due time is reached while STUCK. -/
def execStuckRaiseRetry (m : Moment) (s : State) : Host.Outcome State Fault Refusal :=
  s.event m fun t =>
    match t.attention.monitor with
    | .stuck (some due) => if due ≤ t.clock then t.offerStuckRaise else t
    | .idle | .measuring _ _ _ | .ownDrive | .stuck none | .releasing _ | .quiet => t

/-- STUCK_RELEASE (R102): the line has stayed high for 1 s. -/
def execStuckRelease (m : Moment) (s : State) : Host.Outcome State Fault Refusal :=
  s.event m fun t =>
    match t.attention.monitor with
    | .releasing since => if since + 1000000 ≤ t.clock then t.releaseStuck else t
    | .idle | .measuring _ _ _ | .ownDrive | .stuck _ | .quiet => t

/-- The monitor taken afresh from the line's level: IDLE, or a pulse without a known start (R107). -/
def State.monitorAfresh (s : State) : State :=
  s.withAttention
    { high := s.inputs.attentionHigh
      monitor := if s.inputs.attentionHigh then .idle else .measuring s.clock false none
      stuckMark := false }

/-- The monitor at wake (R107). -/
def State.monitorWakes (s : State) : State :=
  if s.attention.stuckMark then
    let t := s.withAttention { s.attention with high := s.inputs.attentionHigh, monitor := .releasing s.clock }
    if s.inputs.attentionHigh then t else t.stuckAgain
  else s.monitorAfresh

/-- The monitor goes QUIET; its marks and times for the pulse in progress are dropped (R107). -/
def State.monitorSleeps (s : State) : State := s.withMonitor .quiet

end Sys2Proof.Machine
end

