-- ==== Sys2Proof/Machine/PartStates.lean ====
section
/-! DEFINITION. The Ignition Controller (chapter 12): wake, standby entry, the resets, the end of a save; command loss;
and the commands POWER_ON, HARD_RESET, SOFT_RESET, IGNITION_CHANGE, STANDBY_ENTRY, SAVE_END and COMMAND_LOSS. -/

namespace Sys2Proof.Machine

/-! ### Command loss (R12) -/

/-- A new epoch is handed to the Link Scheduler: a QUERY in the slot is marked, and a broadcast is owed (R10, R76,
R91). -/
def State.epochHandedOn (s : State) : State :=
  let t := s.oweBroadcast
  match t.scheduler.slot with
  | .addressed x =>
    match x.sent with
    | .query _ _ => t.withSlot (.addressed { x with commandChanged := true })
    | .profileReq _ => t
    | .posReset _ _ => t
  | .empty => t
  | .enumerating _ _ => t

/-- Every lamp and line cell that is not ABSENT takes hold reason COMMAND_LOST (R12). -/
def Cell.commandLost (k : CellKey) (c : Cell) : Cell :=
  match k with
  | .lamp _ _ => if c.state = .absent then c else { c with hold := some .commandLost }
  | .line _ => if c.state = .absent then c else { c with hold := some .commandLost }
  | .segment _ _ => c

/-- Command loss is declared (R12). -/
def State.declareLoss (s : State) : State :=
  ((s.withIntake
    { s.intake with lost := true, epoch := s.intake.epoch + 1, moving := true,
                    states := Vector.replicate 8 .unknown }).withCells (s.cells.change Cell.commandLost)).epochHandedOn

/-- COMMAND_LOSS (R12): 500 ms have passed since the last LAMP_COMMAND. -/
def execCommandLoss (m : Moment) (s : State) : Host.Outcome State Fault Refusal :=
  s.event m fun t => if ¬ t.intake.lost ∧ 500 ≤ t.age t.intake.lastCommand then t.declareLoss else t

/-! ### Wake (R195) -/

/-- The Link Scheduler's queue, mark and slot empty; what is owed by them is dropped (R96). -/
def Scheduler.emptied (x : Scheduler) (owed : Bool) : Scheduler :=
  { x with queue := [], enumerateWaiting := false, slot := .empty, broadcastOwed := owed, roundAtOnce := false }

/-- The end of the character in progress of a frame that would end at `until_`: character boundaries lie whole character
times before it (R19, R30). -/
def characterEnd (v : Speed) (until_ clock : Nat) : Nat := until_ - (until_ - clock) / charTime v * charTime v

/-- The Train Link Controller cut off: nothing is sent, received or awaited. A frame being sent stops after the character
in progress (R30). DESIGN CHOICE: the hold of R29 after a change of speed ends at once (log entry 63); after a frame that
was being received, nothing is taken as a frame until a gap has passed (log entry 64); a wake pulse of R28, its drive or its
hold, ends at once with the frame behind it (log entry 75). -/
def Link.cutOff (x : Link) (clock : Nat) : Link :=
  let cut (active : Option Nat) (received : Option (Nat × Bool)) : Link :=
    { x with phase := .free, reception := .none, lineActive := active, received := received }
  match x.phase with
  | .sending _ until_ =>
    cut (some (characterEnd x.speed until_ clock)) (some (characterEnd x.speed until_ clock, false))
  | .free | .waitPulse _ | .wakeDrive _ _ | .wakeHold _ _ | .awaiting _ | .collecting _ | .speedHold _ =>
    if x.reception = .none then cut x.lineActive x.received else cut (some clock) (some (clock, true))

def State.withPart (s : State) (p : PartState) : State := s.withIgnition { s.ignition with part := p }

/-- The image and the summary fall due (R177, R179). -/
def State.reportsDue (s : State) : State := s.withReport s.report.bothDue

/-- Wake: ASLEEP to WAKING, block by block (R18, R30, R58, R96, R107, R189, R190, R195). -/
def State.wake (s : State) : State :=
  let part := (s.withPart .waking).readChannels
  let link := (part.withLink { part.link with phase := .free, reception := .none }).withHealth part.health.cleared
  let scheduled := (link.withScheduler (link.scheduler.emptied true)).monitorWakes.reportsDue
  let handed := scheduled.withEnumerator { scheduled.enumerator with coupled := scheduled.sense.coupled }
  handed.wakeEnumeration.lockDrop

/-- The part wakes if it is ASLEEP. -/
def State.wakeIfAsleep (s : State) : State :=
  match s.ignition.part with
  | .asleep => s.wake
  | .waking => s
  | .running => s

/-- The ignition input has held its level for 50 ms (R194; log entry 48). -/
def State.ignitionHeld (s : State) : Bool := decide (s.steady.ignition + 50000 ≤ s.clock)

/-- IGNITION_CHANGE (R194): the ignition input has held a new level for 50 ms; HIGH wakes the part. -/
def execIgnitionChange (m : Moment) (s : State) : Host.Outcome State Fault Refusal :=
  s.event m fun t =>
    if t.inputs.ignitionHigh = t.ignition.high ∨ ¬ t.ignitionHeld then t
    else
      let u := t.withIgnition { t.ignition with high := t.inputs.ignitionHigh }
      if u.ignition.high then u.wakeIfAsleep else u

/-! ### Standby entry (R196) -/

/-- A cell at standby entry (R168). -/
def Cell.atStandby (c : Cell) : Cell :=
  match c.state with
  | .absent => { c with sample := none }
  | .unverified => { c with sample := none }
  | .clean => { c with sample := none }
  | .suspect => { c with state := .unverified, candidate := none, count := 0, sample := none }
  | .faulted => { c with candidate := none, count := 0, sample := none }
  | .recovering => { c with state := .faulted, count := 0, sample := none }

/-- An apply in progress completes at once: every waiting position is applied and persisted (R67). -/
def State.finishApply (s : State) : State :=
  match s.apply with
  | none => s
  | some a => (a.waiting.foldl (fun t p => t.applyWaited p) s).completeApply

/-- Standby entry: RUNNING to ASLEEP, block by block (R30, R58, R96, R107, R168, R184, R190, R196). -/
def State.standby (s : State) : State :=
  let applied := s.finishApply
  let cut := (applied.withScheduler (applied.scheduler.emptied false)).withLink (applied.link.cutOff applied.clock)
  let quiet := ((cut.withHealth cut.health.cleared).monitorSleeps).withEnumPhase .idle
  let cells := quiet.withCells (quiet.cells.change fun _ c => c.atStandby)
  (cells.withReport { cells.report with imageDue := false, summaryDue := false }).withPart .asleep

/-- STANDBY_ENTRY (R194, R196): the vehicle has been quiet for 2 s while RUNNING. -/
def execStandbyEntry (m : Moment) (s : State) : Host.Outcome State Fault Refusal :=
  s.event m fun t => if t.running ∧ t.passed t.ignition.quietSince 2000 then t.standby else t

/-! ### Power-on and HARD reset (R197, R198) -/

/-- Command Intake after power-on and HARD reset (R14). -/
def Intake.fresh : Intake where
  states := Vector.replicate 8 .unknown
  epoch := 0
  moving := true
  lost := true
  lastCommand := 0

/-- The Train Link Controller after power-on and HARD reset (R30). -/
def Link.fresh : Link where
  speed := .full
  phase := .free
  reception := .none
  lastFrameSent := none
  lineActive := none
  received := none

/-- The link health logic after power-on and HARD reset (R190). -/
def Health.fresh : Health where
  window := []
  cleanRun := 0
  pending := none
  watch := none
  hold := none

/-- The Link Scheduler after power-on and HARD reset (R96). -/
def Scheduler.fresh : Scheduler where
  queue := []
  enumerateWaiting := false
  slot := .empty
  broadcastOwed := true
  lastLampState := none
  tag := 0
  roundAtOnce := false
  lastRound := none

/-- The Cell Table after power-on and HARD reset: ABSENT, but for line cells with the socket COUPLED (R8). -/
def CellTable.fresh (coupled : Bool) : CellTable :=
  { CellTable.allAbsent with line := Vector.replicate 8 (if coupled then Cell.fresh else Cell.absent) }

/-- The Fault List after power-on and HARD reset (R166). -/
def FaultList.fresh : FaultList where
  records := []
  nextId := 1
  overflow := false
  revision := 0

/-- Every block but the Ignition Controller as power-on and HARD reset leave it, from the levels on the inputs (R8, R14,
R18, R30, R58, R74, R96, R107, R166, R184, R190, R193). -/
def State.startAfresh (s : State) : State :=
  { s with
    intake := Intake.fresh
    sense :=
      { channels := Vector.ofFn fun f => Channel.afresh s.inputs.driven[f] s.now
        coupled := s.inputs.socketCoupled }
    link := Link.fresh
    health := Health.fresh
    attention := s.monitorAfresh.attention
    scheduler := Scheduler.fresh
    enumerator := { phase := .idle, probeFrom := none, coupled := s.inputs.socketCoupled }
    train :=
      { records := Vector.replicate 6 none
        linkState := if s.inputs.socketCoupled then .down else .noTrain
        endCertain := false }
    apply := none
    cells := CellTable.fresh s.inputs.socketCoupled
    faults := FaultList.fresh
    report := Report.fresh
    counters := defaultCounters }

/-- Entry to WAKING or ASLEEP out of power-on or HARD reset: awake, both reports are due, the enumeration is requested
or R45 applies, and SPEED_LOCK is looked at (R45, R58, R177, R189); ASLEEP, the monitor is QUIET (R107, log entry 15). -/
def State.enterAfterReset (s : State) (p : PartState) : State :=
  match p with
  | .asleep => (s.withPart .asleep).monitorSleeps
  | .waking => ((s.withPart .waking).reportsDue.wakeEnumeration).lockDrop
  | .running => ((s.withPart .running).reportsDue.wakeEnumeration).lockDrop

/-- The image the store holds when power returns: one that a save was being written over fails its check (R200). -/
def Ignition.imageAtPowerOn (x : Ignition) : Option StoredImage :=
  match x.save with
  | none => x.stored
  | some _ => none

def PowerCause.cause : PowerCause → ResetCause
  | .powerOn => .powerOn
  | .supplyDip => .supplyDip

/-- The content of an image that fails its check: defaults and an empty Library (R73, R200). -/
def defaultImage : StoredImage where
  settings := Config.defaultSettings
  library := { entries := [], counter := 0 }

/-- The Ignition Controller and Settings Store after power-on (R197, R200). -/
def Ignition.powered (x : Ignition) (high : Bool) (cause : ResetCause) : Ignition :=
  let image := x.imageAtPowerOn
  let loaded := image.getD defaultImage
  { part := if high then .waking else .asleep
    high := high
    quietSince := none
    cause := cause
    settings := loaded.settings
    library := loaded.library
    canBase := loaded.settings.canBase
    stored := image
    status := if image.isSome then .valid else .defaulted
    save := none }

/-- Power-on (R197): the time counter starts at 0. -/
def State.powerOn (s : State) (cause : ResetCause) : State :=
  let t := { s with clock := 0, steady := { socket := 0, ignition := 0 } }
  let u := t.startAfresh.withIgnition (t.ignition.powered t.inputs.ignitionHigh cause)
  u.enterAfterReset u.ignition.part

/-- POWER_ON (R197). -/
def execPowerOn (m : Moment) (cause : PowerCause) (s : State) : Host.Outcome State Fault Refusal :=
  s.freshEvent m fun t => t.powerOn cause.cause

/-- The save in progress, its REPLY dropped by a reset (R184, R198). -/
def Ignition.dropSaveReply (x : Ignition) : Ignition :=
  { x with save := x.save.map fun y => { y with who := none } }

/-- HARD reset (R198): settings, Library, stored image, store status and ignition state are kept. DEDUCED (log entry 61): the
reset cause is recorded HARD (R183, R198), though R200 names it among what a reset keeps. -/
def State.hardReset (s : State) : State :=
  (s.startAfresh.withIgnition
    { s.ignition.dropSaveReply with cause := .hard, canBase := s.ignition.settings.canBase,
                                    quietSince := none }).enterAfterReset .waking

/-- HARD_RESET (R198): the REPLY to PART_RESET(HARD) has been sent. -/
def execHardReset (m : Moment) (s : State) : Host.Outcome State Fault Refusal :=
  if s.report.reset = .due .hard then s.freshEvent m State.hardReset else s.event m id

/-! ### SOFT reset (R198) -/

/-- Command Intake after SOFT reset (R14). -/
def Intake.softened (x : Intake) : Intake :=
  { x with states := Vector.replicate 8 .unknown, epoch := x.epoch + 1, moving := true, lost := true }

/-- The records after SOFT reset: pending profiles and change flags are cleared (R74). -/
def TrainMap.unstaged (x : TrainMap) : TrainMap :=
  { x with
    records := remap x.records fun _ r =>
      r.map fun y => { y with staged := Vector.replicate 8 none, changed := Vector.replicate 8 false } }

/-- The counters after SOFT reset (R193). -/
def Counter.zeroed (c : Counter) : Counter := { c with value := 0, overflow := false }

/-- The Enumerator after SOFT reset: an enumeration that was wanted is wanted again (R58). -/
def State.enumerateAgain (s : State) : State :=
  let wanted := decide (s.enumerator.phase ≠ .idle)
  let t := s.withEnumerator { s.enumerator with phase := .idle, probeFrom := none }
  if wanted then t.requestEnumeration else t

/-- The Ignition Controller after SOFT reset (R198): part state, settings, Library and CAN_BASE are kept. DEDUCED (log entry
61): the reset cause is recorded SOFT (R183, R198), though R200 names it among what a reset keeps. -/
def Ignition.softened (x : Ignition) : Ignition := { x.dropSaveReply with cause := .soft, quietSince := none }

/-- The monitor after SOFT reset: as power-on while awake, QUIET while ASLEEP; the ATTENTION_STUCK record is removed
(R107). -/
def State.monitorSoftReset (s : State) : State :=
  let t := (s.removeFault .link).monitorAfresh
  if t.awake then t else t.monitorSleeps

/-- SOFT reset, block by block (R14, R18, R30, R58, R74, R96, R107, R167, R184, R190, R193, R198). -/
def State.softReset (s : State) : State :=
  let sensed := (s.withIntake s.intake.softened).readChannels
  let link := (sensed.withLink { sensed.link.cutOff sensed.clock with lastFrameSent := none }).withHealth
    sensed.health.cleared
  let scheduled := link.withScheduler
    { link.scheduler.emptied true with lastLampState := none, roundAtOnce := link.running }
  let stores := (scheduled.withTrain scheduled.train.unstaged).withApply none
  let cells := stores.withCells (stores.cells.change fun _ c => { c with sample := none })
  let reports := (cells.withReport (if cells.awake then Report.fresh.bothDue else Report.fresh)).withCounters
    (remap cells.counters fun _ c => c.zeroed)
  ((reports.withIgnition reports.ignition.softened).monitorSoftReset.enumerateAgain).lockDrop

/-- SOFT_RESET (R198): the REPLY to PART_RESET(SOFT) has been sent. -/
def execSoftReset (m : Moment) (s : State) : Host.Outcome State Fault Refusal :=
  s.event m fun t => if t.report.reset = .due .soft then t.softReset else t

/-! ### The end of a save (R200) -/

/-- The REPLY to a SETTING_SAVE, unless a reset has dropped it (R198). -/
def State.replySaveTo (s : State) (who : Option Requester) (status : Status) : State :=
  match who with
  | none => s
  | some w => s.replySave w status

/-- SAVE_END (R200): the image is read back and checked. An image that fails is left failing (log entry 16). DESIGN CHOICE
(log entry 60): a save that fails while the status is DEFAULTED sets WRITE_FAILED, as its table says. -/
def execSaveEnd (m : Moment) (checkPasses : Bool) (s : State) : Host.Outcome State Fault Refusal :=
  s.event m fun t =>
    match t.ignition.save with
    | none => t
    | some x =>
      if checkPasses then
        (t.withIgnition { t.ignition with save := none, stored := some x.snapshot, status := .valid }).replySaveTo
          x.who .done
      else
        (t.withIgnition { t.ignition with save := none, stored := none, status := .writeFailed }).replySaveTo
          x.who .failed

end Sys2Proof.Machine
end

