-- ==== Sys2Proof/Machine/Requests.lean ====
section
/-! DEFINITION. The request decoder (10.1) and the requests: lamp commands, the Fault List, the Train Map and the Query
Queue. -/

namespace Sys2Proof.Machine

/-! ### Taking a request (R170, R171)

The REPLY to a request is placed first, ahead of any deferred REPLY that the request's effect makes due (R172). -/

/-- The four checks of a taken request, in order: permission, part state, form, and the request's own rule (R171). -/
def State.checked (s : State) (r : Request) (rule : State → State) : State :=
  if ¬ permitted r.source r.row then s.reply r .refusedSource
  else if ¬ s.awake ∧ r.row ≠ .lampCommand then s.reply r .busy
  else if ¬ r.formed then (if r.row = .lampCommand then s else s.reply r .badArgument)
  else rule s

/-- A request of a row is taken from the receive buffer and decided, when it can be taken (R170). -/
def State.takeRequest (s : State) (row : RequestRow) (r : Request) (rule : State → State) : State :=
  if r.row ≠ row then s
  else
    match s.report.afterTaking r with
    | none => s
    | some rest => (s.withReport { s.report with received := rest }).checked r rule

/-- The command of a request row. -/
def State.serve (s : State) (m : Moment) (row : RequestRow) (r : Request) (rule : State → State) :
    Host.Outcome State Fault Refusal :=
  s.event m fun t => t.takeRequest row r rule

/-! ### LAMP_COMMAND (R9, R13) -/

/-- Some carried function state differs from the state in force (R9). -/
def Intake.differs (x : Intake) (r : Request) : Bool :=
  functions.any fun f => decide (x.states[f] ≠ r.commandState f)

/-- Command Intake when a LAMP_COMMAND is taken (R9, R13). -/
def Intake.command (x : Intake) (r : Request) (now : Time) : Intake where
  states := if x.differs r then Vector.ofFn r.commandState else x.states
  epoch := if x.differs r then x.epoch + 1 else x.epoch
  moving := decide (r.byte 2 = 1)
  lost := false
  lastCommand := now

/-- Some function is ON or FLASH in the request (R9). -/
def Request.lights (r : Request) : Bool :=
  functions.any fun f => decide (r.commandState f = .on ∨ r.commandState f = .flash)

/-- A LAMP_COMMAND taken (R9, R10, R13); one that lights a function wakes the part (R194). -/
def State.lampCommand (s : State) (r : Request) : State :=
  let changed := s.intake.differs r
  let t := s.withIntake (s.intake.command r s.now)
  let u := if changed then t.epochHandedOn else t
  if r.lights then u.wakeIfAsleep else u

/-- LAMP_COMMAND (R9). -/
def execLampCommand (m : Moment) (r : Request) (s : State) : Host.Outcome State Fault Refusal :=
  s.serve m .lampCommand r fun t => t.lampCommand r

/-! ### The Fault List (R161 to R163, R180) -/

/-- The function byte of a site: 0xFF where it has none (13.3). -/
def Site.functionCode (x : Site) : Nat :=
  match x.function with
  | none => 255
  | some f => f.val

/-- The READ_DATA bytes of a record (13.4). -/
def FaultRecord.bytes (x : FaultRecord) : List Byte :=
  [byteOf x.id, byteOf x.site.kindCode, byteOf x.site.number, byteOf x.site.functionCode, byteOf x.kind.code,
    byteOf x.severity, byteOf x.state.code, byteOf (x.lampsOut.getD 0)] ++
    fourBytes x.firstRaised.toNat ++ fourBytes x.lastChange.toNat ++
    [byteOf x.occurrences, byteOf (boolCode x.serial.isSome)] ++ fourBytes (x.serial.getD 0).toNat

/-- FAULT_READ (R180). -/
def execFaultRead (m : Moment) (r : Request) (s : State) : Host.Outcome State Fault Refusal :=
  s.serve m .faultRead r fun t =>
    match t.faults.records[r.byte 1]? with
    | none => t.reply r .end_
    | some x => t.replyData r 5 x.bytes

/-- One record acknowledged (R161). -/
def State.acknowledge (s : State) (x : FaultRecord) : State :=
  match x.state with
  | .activeUnack => s.changeFault x.site fun y => { y with state := .activeAck, lastChange := s.now }
  | .healedUnack => s.removeFault x.site
  | .activeAck => s

/-- The record that a FAULT_ACK names by its id, when its key is the one carried as a check (R161). -/
def State.ackTarget (s : State) (r : Request) : Option FaultRecord :=
  s.faults.records.find? fun x => decide (x.id = r.byte 1 ∧ r.ackSite = some x.site)

/-- FAULT_ACK (R161). -/
def execFaultAck (m : Moment) (r : Request) (s : State) : Host.Outcome State Fault Refusal :=
  s.serve m .faultAck r fun t =>
    match t.ackTarget r with
    | none => t.reply r .noRecord
    | some x => (t.reply r .done).acknowledge x

/-- Every record present is acknowledged (R162). -/
def State.acknowledgeAll (s : State) : State := s.faults.records.foldl (fun t x => t.acknowledge x) s

/-- FAULT_ACK with id 0 (R162). -/
def execFaultAckAll (m : Moment) (r : Request) (s : State) : Host.Outcome State Fault Refusal :=
  s.serve m .faultAckAll r fun t => (t.reply r .done).acknowledgeAll

/-- A LAMP, LINE or SEGMENT key with a function is cleared (R163). -/
def State.clearSite (s : State) (r : Request) (k : CellKey) : State :=
  match s.faultAt (.cell k) with
  | some _ => ((s.reply r .done).removeFault (.cell k)).resetCell k
  | none => if (s.cell k).faulty then (s.reply r .done).resetCell k else s.reply r .noRecord

/-- SITE_CLEAR of a cell's key (R163). -/
def execSiteClear (m : Moment) (r : Request) (s : State) : Host.Outcome State Fault Refusal :=
  s.serve m .siteClear r fun t =>
    match r.clearSite with
    | some (.cell k) => t.clearSite r k
    | some (.chainBreak _) => t
    | some (.module _) => t
    | some .link => t
    | none => t

/-- Every LOST position departs quietly, from the last one down (R52). -/
def State.departLost (s : State) : State :=
  (positionsDown.foldl (fun t p => if t.posState p = some .lost then t.depart p else t) s).refreshLink

/-- The CHAIN_BREAK record on segment g is cleared (R52). -/
def State.clearBreak (s : State) (r : Request) (g : Seg) : State :=
  match s.faultAt (.chainBreak g) with
  | none => s.reply r .noRecord
  | some x =>
    let t := (s.reply r .done).removeFault (.chainBreak g)
    if x.state = .healedUnack then t else t.departLost

/-- SITE_CLEAR of a CHAIN_BREAK key (R52). -/
def execSiteClearChainBreak (m : Moment) (r : Request) (s : State) : Host.Outcome State Fault Refusal :=
  s.serve m .siteClearChainBreak r fun t =>
    match r.clearSite with
    | some (.chainBreak g) => t.clearBreak r g
    | some (.cell _) => t
    | some (.module _) => t
    | some .link => t
    | none => t

/-- The SILENT_MODULE record of p is cleared; a SILENT p becomes PRESENT with streak 0 (R55). -/
def State.clearModule (s : State) (r : Request) (p : Pos) : State :=
  match s.faultAt (.module p) with
  | none => s.reply r .noRecord
  | some _ =>
    let t := (s.reply r .done).removeFault (.module p)
    if t.posState p = some .silent then t.returnPresent p else t

/-- SITE_CLEAR of a MODULE key (R55). -/
def execSiteClearModule (m : Moment) (r : Request) (s : State) : Host.Outcome State Fault Refusal :=
  s.serve m .siteClearModule r fun t =>
    match r.clearSite with
    | some (.module p) => t.clearModule r p
    | some (.cell _) => t
    | some (.chainBreak _) => t
    | some .link => t
    | none => t

/-- The monitor after its ATTENTION_STUCK record is cleared (R103). -/
def State.monitorCleared (s : State) : State :=
  match s.attention.monitor with
  | .stuck _ =>
    s.withAttention { s.attention with monitor := .measuring s.clock false none, stuckMark := false }
  | .releasing _ => s.withAttention { s.attention with monitor := .idle, stuckMark := false }
  | .idle | .measuring _ _ _ | .ownDrive | .quiet => s

/-- The ATTENTION_STUCK record is cleared (R103). -/
def State.clearLink (s : State) (r : Request) : State :=
  match s.faultAt .link with
  | none => s.reply r .noRecord
  | some _ => ((s.reply r .done).removeFault .link).monitorCleared

/-- SITE_CLEAR of the LINK key (R103). -/
def execSiteClearLink (m : Moment) (r : Request) (s : State) : Host.Outcome State Fault Refusal :=
  s.serve m .siteClearLink r fun t => t.clearLink r

/-! ### The Train Map (R42, R86, R181) -/

/-- Lamp and segment cell bytes of a position, or line and segment 0 bytes, function by function (13.4). -/
def State.cellBytes (s : State) (first second : Func → CellKey) : List Byte :=
  functions.flatMap fun f => [cellByte (s.cell (first f)) true, cellByte (s.cell (second f)) false]

/-- The READ_DATA bytes of a position (R181, 13.4). -/
def State.positionBytes (s : State) (p : Pos) (x : PosRecord) : List Byte :=
  [byteOf x.state.code, byteOf (boolCode x.serial.isSome)] ++ fourBytes (x.serial.getD 0).toNat ++
    [byteOf x.kind.code, byteOf x.streak, byteOf x.source.code] ++ fourBytes x.coupledAt.toNat ++
    s.cellBytes (fun f => .lamp p f) (fun f => .segment p.succ f)

/-- The READ_DATA bytes of MAP_READ(0) (R181, 13.4). -/
def State.socketBytes (s : State) : List Byte :=
  s.cellBytes (fun f => .line f) (fun f => .segment 0 f) ++ twoBytes s.socketVoltage ++
    [byteOf (boolCode s.sense.coupled), byteOf s.train.linkState.code, byteOf s.trainLength,
      byteOf (boolCode s.train.endCertain)]

/-- MAP_READ (R181). -/
def execMapRead (m : Moment) (r : Request) (s : State) : Host.Outcome State Fault Refusal :=
  s.serve m .mapRead r fun t =>
    match posOfNumber (r.byte 1) with
    | none => t.replyData r 5 t.socketBytes
    | some p =>
      match t.record p with
      | none => t.reply r .end_
      | some x => t.replyData r 6 (t.positionBytes p x)

/-- REFRESH of position p (R86). -/
def State.refresh (s : State) (r : Request) (p : Pos) : State :=
  if ¬ s.queried p then s.reply r .noRecord
  else if byteOf (r.byte 2) = 0 then s.reply r .done
  else if s.queryFits p then (s.reply r .done).putQuery p (byteOf (r.byte 2)) .refresh
  else s.reply r .queueFull

/-- REFRESH (R86). -/
def execRefresh (m : Moment) (r : Request) (s : State) : Host.Outcome State Fault Refusal :=
  s.serve m .refresh r fun t =>
    match posOfNumber (r.byte 1) with
    | none => t
    | some p => t.refresh r p

/-- POSITION_RESET of position p (R56): the reply to a placed entry waits for its outcome. -/
def State.resetPosition (s : State) (r : Request) (p : Pos) : State :=
  if ¬ s.queried p then s.reply r .noRecord
  else if s.queued (Work.isResetFor p) ∨ s.inFlight (Sent.isResetFor p) then s.reply r .busy
  else if s.queueFull then s.reply r .queueFull
  else s.placeTail (.posReset p r.requester)

/-- POSITION_RESET (R56). -/
def execPositionReset (m : Moment) (r : Request) (s : State) : Host.Outcome State Fault Refusal :=
  s.serve m .positionReset r fun t =>
    match posOfNumber (r.byte 1) with
    | none => t
    | some p => t.resetPosition r p

/-- ENUMERATE (R42, R45). -/
def execEnumerate (m : Moment) (r : Request) (s : State) : Host.Outcome State Fault Refusal :=
  s.serve m .enumerate r fun t => (t.reply r .done).requestEnumeration

end Sys2Proof.Machine
end

