-- ==== Sys2Proof/Machine/Service.lean ====
section
/-! DEFINITION. The requests on profiles, settings, counters, the Library and the part itself (chapters 4, 11, 12). -/

namespace Sys2Proof.Machine

/-! ### Profiles (R64, R65, R182) -/

/-- A tolerance override as PROFILE_STAGE carries it: 0 is absent (13.3), else clamped to 30 to 300 (R64). -/
def stagedTolerance (v : Nat) : Option Nat := if v = 0 then none else some (clampTo 30 300 v)

/-- The profile a PROFILE_STAGE writes, its fields clamped (R64). -/
def Request.stagedProfile (r : Request) : Profile where
  n := min 15 (r.byte 3)
  tech := if r.byte 4 = 1 then .led else .filament
  power := clampTo 1 100 (r.byte 5)
  tol := stagedTolerance (r.word 6)

/-- Some field of a PROFILE_STAGE is out of its range (R64). -/
def Request.stageClamped (r : Request) : Bool :=
  decide (15 < r.byte 3 ∨ r.byte 5 < 1 ∨ 100 < r.byte 5 ∨ (r.word 6 ≠ 0 ∧ (r.word 6 < 30 ∨ 300 < r.word 6)))

/-- PROFILE_STAGE of circuit (p, f) (R64). -/
def State.stage (s : State) (r : Request) (p : Pos) (f : Func) : State :=
  if (s.record p).isNone then s.reply r .noRecord
  else
    (s.reply r (if r.stageClamped then .clamped else .done)).changeRecord p fun x =>
      { x with staged := x.staged.set f (some r.stagedProfile), changed := x.changed.set f true }

/-- PROFILE_STAGE (R64). -/
def execProfileStage (m : Moment) (r : Request) (s : State) : Host.Outcome State Fault Refusal :=
  s.serve m .profileStage r fun t =>
    match posOfNumber (r.byte 1), funcOf (r.byte 2) with
    | some p, some f => t.stage r p f
    | _, _ => t

/-- The positions a PROFILE_APPLY names, that are mapped (R65). -/
def State.namedPositions (s : State) (r : Request) : List Pos :=
  positions.filter fun p => (byteOf (r.byte 1)).getLsbD p.val && (s.record p).isSome

/-- A request addressed to p is in the in-flight slot (R65). -/
def State.addressed (s : State) (p : Pos) : Bool := s.inFlight fun x => decide (x.pos = p)

/-- PROFILE_APPLY taken into the empty apply slot (R65, R67). DESIGN CHOICE (log entry 56): the named positions are handled
in ascending order. -/
def State.beginApply (s : State) (r : Request) : State :=
  let named := s.namedPositions r
  let t := s.withApply
    (some { waiting := named.filter s.addressed, persist := decide (r.byte 2 = 1), skipped := 0,
            who := r.requester })
  ((named.filter fun p => !s.addressed p).foldl (fun u p => u.applyAndPersist p) t).completeApply

/-- PROFILE_APPLY (R65). -/
def execProfileApply (m : Moment) (r : Request) (s : State) : Host.Outcome State Fault Refusal :=
  s.serve m .profileApply r fun t => if t.apply.isSome then t.reply r .busy else t.beginApply r

/-- Known flag, n, technology, P and override of a profile as PROFILE_READ carries them (13.4). -/
def profileBytes : Option Profile → List Byte
  | none => [0, 0, 0, 0, 0, 0]
  | some x => [1, byteOf x.n, byteOf x.tech.code, byteOf x.power] ++ twoBytes (x.tol.getD 0)

/-- The READ_DATA bytes of a circuit's profiles (R182, 13.4). -/
def PosRecord.profileData (x : PosRecord) (f : Func) : List Byte :=
  profileBytes x.applied[f] ++ profileBytes x.staged[f] ++
    [byteOf (boolCode x.changed[f]), byteOf x.source.code, byteOf (boolCode x.wanted)]

/-- PROFILE_READ (R182). -/
def execProfileRead (m : Moment) (r : Request) (s : State) : Host.Outcome State Fault Refusal :=
  s.serve m .profileRead r fun t =>
    match posOfNumber (r.byte 1), funcOf (r.byte 2) with
    | some p, some f =>
      match t.record p with
      | none => t.reply r .noRecord
      | some x => t.replyData r 3 (x.profileData f)
    | _, _ => t

/-- LIBRARY_DELETE (R72). -/
def execLibraryDelete (m : Moment) (r : Request) (s : State) : Host.Outcome State Fault Refusal :=
  s.serve m .libraryDelete r fun t =>
    let serial : Serial := BitVec.ofNat 32 (r.word 1 * 65536 + r.word 3)
    match t.ignition.library.lookup serial with
    | none => t.reply r .noRecord
    | some _ => (t.reply r .done).withLibrary (t.ignition.library.delete serial)

/-! ### Settings (R84, R95, R110, R140, R149, R189, R199, R200) -/

def State.withSettings (s : State) (x : Settings) : State := s.withIgnition { s.ignition with settings := x }

/-- The write of REPLY_BASE, RETRY_LIMIT or SPEED_LOCK is held: the in-flight slot is occupied (R95). -/
def State.writeHeld (s : State) (code : Nat) : Bool :=
  decide ((code = 1 ∨ code = 2 ∨ code = 3) ∧ s.scheduler.slot ≠ .empty)

/-- What follows the write of a setting: SPEED_LOCK by R189, Q_SET and Q_CLEAR by R149; the others act when read. -/
def State.settingWritten (s : State) (code : Nat) : State :=
  if code = 3 then s.lockWritten
  else if code = 9 then s.withCells (s.cells.change fun _ c => c.clampToSet s.ignition.settings.qSet)
  else if code = 10 then s.withCells (s.cells.change fun _ c => c.clampToClear s.ignition.settings.qClear)
  else s

/-- SETTING_WRITE of a code and value (R199). -/
def State.writeSetting (s : State) (r : Request) (code value : Nat) : State :=
  if s.writeHeld code then s.reply r .held
  else
    ((s.reply r (if settingValue code value = value then .done else .clamped)).withSettings
      (s.ignition.settings.write code (settingValue code value))).settingWritten code

/-- SETTING_WRITE (R199). -/
def execSettingWrite (m : Moment) (r : Request) (s : State) : Host.Outcome State Fault Refusal :=
  s.serve m .settingWrite r fun t => t.writeSetting r (r.byte 2) (r.word 3)

/-- SETTING_READ (R199). -/
def execSettingRead (m : Moment) (r : Request) (s : State) : Host.Outcome State Fault Refusal :=
  s.serve m .settingRead r fun t =>
    t.replyData r 1 (byteOf (r.byte 2) :: twoBytes (t.ignition.settings.read (r.byte 2)))

/-- SETTING_SAVE (R200): the reply waits for the end of the save. -/
def execSettingSave (m : Moment) (r : Request) (s : State) : Host.Outcome State Fault Refusal :=
  s.serve m .settingSave r fun t =>
    if t.ignition.save.isSome then t.reply r .busy
    else
      t.withIgnition
        { t.ignition with save := some ⟨⟨t.ignition.settings, t.ignition.library⟩, some r.requester⟩ }

/-! ### Counters (R192) -/

/-- The counter a request names. -/
def Request.counter (r : Request) : Option (Fin 4) := if h : r.byte 2 < 4 then some ⟨r.byte 2, h⟩ else none

/-- COUNTER_SETUP (R192). -/
def execCounterSetup (m : Moment) (r : Request) (s : State) : Host.Outcome State Fault Refusal :=
  s.serve m .counterSetup r fun t =>
    match r.counter with
    | none => t
    | some i =>
      (t.reply r .done).withCounters
        (t.counters.set i
          { selector := eventOfCode (r.byte 3), mask := byteOf (r.byte 4), value := 0, overflow := false })

/-- The READ_DATA bytes of a counter (13.4). -/
def Counter.bytes (c : Counter) : List Byte :=
  fourBytes c.value.toNat ++ [byteOf (boolCode c.overflow), byteOf c.selector.code, c.mask]

/-- COUNTER_READ (R192). -/
def execCounterRead (m : Moment) (r : Request) (s : State) : Host.Outcome State Fault Refusal :=
  s.serve m .counterRead r fun t =>
    match r.counter with
    | none => t
    | some i =>
      let u := t.replyData r 2 (t.counters[i]).bytes
      if r.byte 3 = 1 then u.withCounters (u.counters.set i (u.counters[i]).zeroed) else u

/-! ### The part (R183, R198) -/

/-- PART_RESET taken: its REPLY is placed, and no request is taken until it has been sent (R198). -/
def State.beginReset (s : State) (r : Request) (k : ResetKind) : State :=
  let t := s.withReport { s.report with reset := .replying }
  t.transmit [⟨.reply, replyBytes r.kind r.operation r.requester .done [0, 0, 0], some k⟩]

/-- PART_RESET(HARD) (R198). -/
def execPartResetHard (m : Moment) (r : Request) (s : State) : Host.Outcome State Fault Refusal :=
  s.serve m .partResetHard r fun t => t.beginReset r .hard

/-- PART_RESET(SOFT) (R198). -/
def execPartResetSoft (m : Moment) (r : Request) (s : State) : Host.Outcome State Fault Refusal :=
  s.serve m .partResetSoft r fun t => t.beginReset r .soft

/-- The READ_DATA bytes of IDENT_READ (R183, 13.4). -/
def Ignition.identBytes (x : Ignition) : List Byte :=
  twoBytes Config.partCode ++ [byteOf Config.partRevision, byteOf x.cause.code, byteOf x.status.code] ++
    twoBytes x.canBase

/-- IDENT_READ (R183). -/
def execIdentRead (m : Moment) (r : Request) (s : State) : Host.Outcome State Fault Refusal :=
  s.serve m .identRead r fun t => t.replyData r 2 t.ignition.identBytes

end Sys2Proof.Machine
end

