-- ==== Sys2Proof/Machine/Dispatch.lean ====
section
/-! DEFINITION. The effect of each command on everything but the queue: one arm per row of the table. -/

namespace Sys2Proof.Machine

def exec (i : Instr) (s : State) : Host.Outcome State Fault Refusal :=
  match i with
  | .powerOn m cause => Sys2Proof.Machine.execPowerOn m cause s
  | .hardReset m => Sys2Proof.Machine.execHardReset m s
  | .softReset m => Sys2Proof.Machine.execSoftReset m s
  | .ignitionChange m => Sys2Proof.Machine.execIgnitionChange m s
  | .standbyEntry m => Sys2Proof.Machine.execStandbyEntry m s
  | .requestReceive m frame => Sys2Proof.Machine.execRequestReceive m frame s
  | .lampCommand m r => Sys2Proof.Machine.execLampCommand m r s
  | .faultRead m r => Sys2Proof.Machine.execFaultRead m r s
  | .faultAck m r => Sys2Proof.Machine.execFaultAck m r s
  | .faultAckAll m r => Sys2Proof.Machine.execFaultAckAll m r s
  | .refresh m r => Sys2Proof.Machine.execRefresh m r s
  | .mapRead m r => Sys2Proof.Machine.execMapRead m r s
  | .siteClear m r => Sys2Proof.Machine.execSiteClear m r s
  | .siteClearChainBreak m r => Sys2Proof.Machine.execSiteClearChainBreak m r s
  | .siteClearModule m r => Sys2Proof.Machine.execSiteClearModule m r s
  | .siteClearLink m r => Sys2Proof.Machine.execSiteClearLink m r s
  | .profileStage m r => Sys2Proof.Machine.execProfileStage m r s
  | .profileApply m r => Sys2Proof.Machine.execProfileApply m r s
  | .profileRead m r => Sys2Proof.Machine.execProfileRead m r s
  | .positionReset m r => Sys2Proof.Machine.execPositionReset m r s
  | .settingWrite m r => Sys2Proof.Machine.execSettingWrite m r s
  | .settingRead m r => Sys2Proof.Machine.execSettingRead m r s
  | .settingSave m r => Sys2Proof.Machine.execSettingSave m r s
  | .saveEnd m checkPasses => Sys2Proof.Machine.execSaveEnd m checkPasses s
  | .counterSetup m r => Sys2Proof.Machine.execCounterSetup m r s
  | .counterRead m r => Sys2Proof.Machine.execCounterRead m r s
  | .libraryDelete m r => Sys2Proof.Machine.execLibraryDelete m r s
  | .enumerate m r => Sys2Proof.Machine.execEnumerate m r s
  | .partResetHard m r => Sys2Proof.Machine.execPartResetHard m r s
  | .partResetSoft m r => Sys2Proof.Machine.execPartResetSoft m r s
  | .identRead m r => Sys2Proof.Machine.execIdentRead m r s
  | .transmitterFree m => Sys2Proof.Machine.execTransmitterFree m s
  | .telltaleDue m => Sys2Proof.Machine.execTelltaleDue m s
  | .lampSummaryDue m => Sys2Proof.Machine.execLampSummaryDue m s
  | .commandLoss m => Sys2Proof.Machine.execCommandLoss m s
  | .socketDetectChange m => Sys2Proof.Machine.execSocketDetectChange m s
  | .drivenChange m f => Sys2Proof.Machine.execDrivenChange m f s
  | .settleTestPoint m f => Sys2Proof.Machine.execSettleTestPoint m f s
  | .scanRound m => Sys2Proof.Machine.execScanRound m s
  | .lampStateInterval m => Sys2Proof.Machine.execLampStateInterval m s
  | .linkIdle m => Sys2Proof.Machine.execLinkIdle m s
  | .wakePulseRelease m => Sys2Proof.Machine.execWakePulseRelease m s
  | .wakePulseHoldEnd m => Sys2Proof.Machine.execWakePulseHoldEnd m s
  | .frameTransmitEnd m => Sys2Proof.Machine.execFrameTransmitEnd m s
  | .speedHoldEnd m => Sys2Proof.Machine.execSpeedHoldEnd m s
  | .frameReceiveStart m => Sys2Proof.Machine.execFrameReceiveStart m s
  | .replyTimerEnd m => Sys2Proof.Machine.execReplyTimerEnd m s
  | .frameTruncated m => Sys2Proof.Machine.execFrameTruncated m s
  | .sample m w => Sys2Proof.Machine.execSample m w s
  | .busy m w => Sys2Proof.Machine.execBusy m w s
  | .reissueDue m => Sys2Proof.Machine.execReissueDue m s
  | .enumReply m w => Sys2Proof.Machine.execEnumReply m w s
  | .profileReply m w => Sys2Proof.Machine.execProfileReply m w s
  | .resetDone m w => Sys2Proof.Machine.execResetDone m w s
  | .crcFailure m w => Sys2Proof.Machine.execCrcFailure m w s
  | .strayFrame m w => Sys2Proof.Machine.execStrayFrame m w s
  | .collectionWindowEnd m => Sys2Proof.Machine.execCollectionWindowEnd m s
  | .probeInterval m => Sys2Proof.Machine.execProbeInterval m s
  | .recoveryHoldExpiry m => Sys2Proof.Machine.execRecoveryHoldExpiry m s
  | .attentionFall m => Sys2Proof.Machine.execAttentionFall m s
  | .attentionRise m => Sys2Proof.Machine.execAttentionRise m s
  | .pulseTaken m => Sys2Proof.Machine.execPulseTaken m s
  | .lineStuck m => Sys2Proof.Machine.execLineStuck m s
  | .stuckRaiseRetry m => Sys2Proof.Machine.execStuckRaiseRetry m s
  | .stuckRelease m => Sys2Proof.Machine.execStuckRelease m s

end Sys2Proof.Machine
end

