-- ==== Sys2Proof/Safety.lean ====
section
/-! DEFINITION. What counts as a safe run, and the terms in which statements about the part are made: its bounds, what
the end of every event settles, when a request is accepted, how a position is applied, and how a request to a position fails. -/

namespace Sys2Proof.Machine

/-! ### Bounds -/

/-- Every queue, buffer and list of the part is within its places: the receive buffer (R170), the transmit queue (R173),
the Query Queue (R78), the Fault List (R151), the health window and the clean run (R185). -/
structure State.Bounded (s : State) : Prop where
  received : s.report.received.length ≤ 8
  transmit : s.report.transmit.length ≤ 24
  queue : s.scheduler.queue.length ≤ 8
  faults : s.faults.records.length ≤ 24
  window : s.health.window.length ≤ 32
  cleanRun : s.health.cleanRun ≤ 256

/-- An outcome is safe: the part goes on, within its bounds. -/
def SafeOutcome : Host.Outcome State Fault Refusal → Prop
  | .next t => t.Bounded
  | .fault _ => False
  | .refused _ => False

/-- Nothing travels on the link of a sleeping part (R196, R30, R96): no frame is being sent, received or awaited, and
nothing waits to be sent. -/
structure State.Silent (s : State) : Prop where
  phase : s.link.phase = .free
  reception : s.link.reception = .none
  slot : s.scheduler.slot = .empty
  queue : s.scheduler.queue = []
  waiting : s.scheduler.enumerateWaiting = false

/-! ### What the end of an event settles -/

/-- t is s but for what the end of every event settles: a freed queue place given to a waiting ENUMERATE entry (R81),
waiting cells admitted into the list's free places (R158), the overflow flag and the revision (R159, R160), the
quiet-since time (R194), the probe interval (R46), and the reports that a change makes due (R177, R179). -/
structure SettledFrom (s t : State) : Prop where
  /-- Every field but those is as in s. -/
  rest : t =
    { s with
      scheduler := { s.scheduler with queue := t.scheduler.queue, enumerateWaiting := t.scheduler.enumerateWaiting }
      enumerator := { s.enumerator with probeFrom := t.enumerator.probeFrom }
      ignition := { s.ignition with quietSince := t.ignition.quietSince }
      report := { s.report with imageDue := t.report.imageDue, summaryDue := t.report.summaryDue }
      cells := t.cells
      faults := t.faults }
  /-- With no ENUMERATE entry waiting for a place, the Link Scheduler is as in s. -/
  scheduler : s.scheduler.enumerateWaiting = false → t.scheduler = s.scheduler
  /-- A cell can change in its listed flag alone. -/
  cells : ∀ k, t.cell k = { s.cell k with listed := (t.cell k).listed }
  /-- The records of s keep their places; admitted ones stand behind them. -/
  records : s.faults.records <+: t.faults.records
  /-- With no faulted cell unlisted, the cells and the records are as in s. -/
  listed : (∀ k, s.unlisted k = false) → t.cells = s.cells ∧ t.faults.records = s.faults.records
  /-- A report that was due stays due, and none falls due while the part is ASLEEP. -/
  due : (s.report.imageDue = true → t.report.imageDue = true) ∧
    (s.report.summaryDue = true → t.report.summaryDue = true)
  asleep : s.awake = false → t.report = s.report

/-! ### Requests -/

/-- The request that a command of a request row takes, with its moment and the row. -/
def asks : Instr → Option (Moment × RequestRow × Request)
  | .powerOn _ _ => none
  | .hardReset _ => none
  | .softReset _ => none
  | .ignitionChange _ => none
  | .standbyEntry _ => none
  | .requestReceive _ _ => none
  | .lampCommand m r => some (m, .lampCommand, r)
  | .faultRead m r => some (m, .faultRead, r)
  | .faultAck m r => some (m, .faultAck, r)
  | .faultAckAll m r => some (m, .faultAckAll, r)
  | .refresh m r => some (m, .refresh, r)
  | .mapRead m r => some (m, .mapRead, r)
  | .siteClear m r => some (m, .siteClear, r)
  | .siteClearChainBreak m r => some (m, .siteClearChainBreak, r)
  | .siteClearModule m r => some (m, .siteClearModule, r)
  | .siteClearLink m r => some (m, .siteClearLink, r)
  | .profileStage m r => some (m, .profileStage, r)
  | .profileApply m r => some (m, .profileApply, r)
  | .profileRead m r => some (m, .profileRead, r)
  | .positionReset m r => some (m, .positionReset, r)
  | .settingWrite m r => some (m, .settingWrite, r)
  | .settingRead m r => some (m, .settingRead, r)
  | .settingSave m r => some (m, .settingSave, r)
  | .saveEnd _ _ => none
  | .counterSetup m r => some (m, .counterSetup, r)
  | .counterRead m r => some (m, .counterRead, r)
  | .libraryDelete m r => some (m, .libraryDelete, r)
  | .enumerate m r => some (m, .enumerate, r)
  | .partResetHard m r => some (m, .partResetHard, r)
  | .partResetSoft m r => some (m, .partResetSoft, r)
  | .identRead m r => some (m, .identRead, r)
  | .transmitterFree _ => none
  | .telltaleDue _ => none
  | .lampSummaryDue _ => none
  | .commandLoss _ => none
  | .socketDetectChange _ => none
  | .drivenChange _ _ => none
  | .settleTestPoint _ _ => none
  | .scanRound _ => none
  | .lampStateInterval _ => none
  | .linkIdle _ => none
  | .wakePulseRelease _ => none
  | .wakePulseHoldEnd _ => none
  | .frameTransmitEnd _ => none
  | .speedHoldEnd _ => none
  | .frameReceiveStart _ => none
  | .replyTimerEnd _ => none
  | .frameTruncated _ => none
  | .sample _ _ => none
  | .busy _ _ => none
  | .reissueDue _ => none
  | .enumReply _ _ => none
  | .profileReply _ _ => none
  | .resetDone _ _ => none
  | .crcFailure _ _ => none
  | .strayFrame _ _ => none
  | .collectionWindowEnd _ => none
  | .probeInterval _ => none
  | .recoveryHoldExpiry _ => none
  | .attentionFall _ => none
  | .attentionRise _ => none
  | .pulseTaken _ => none
  | .lineStuck _ => none
  | .stuckRaiseRetry _ => none
  | .stuckRelease _ => none

/-- Request r of a row is taken from the receive buffer, leaving `rest` there, and passes the first three checks of R171:
its source is permitted, the part is awake, and it is well formed. -/
structure State.Accepts (s : State) (row : RequestRow) (r : Request) (rest : List Request) : Prop where
  row : r.row = row
  taken : s.report.afterTaking r = some rest
  permitted : permitted r.source r.row = true
  awake : s.awake = true
  formed : r.formed = true

/-- The state at the moment in which a request has left the receive buffer. -/
def State.taking (s : State) (m : Moment) (rest : List Request) : State :=
  (s.advance m).withReport { s.report with received := rest }

/-! ### Answers -/

/-- The characters just received are the answer, of the given content, to request x: the part is awake and receives them
while the attempt in the slot awaits its answer, the request's position has not gone, and kind, position and tag match
(R24, R27). -/
structure State.Receives (s : State) (x : Flight) (w : List WireChar) (body : UpBody) : Prop where
  awake : s.ignition.part ≠ .asleep
  reception : s.link.reception = .receiving false
  awaiting : ∃ timer, s.link.phase = .awaiting timer
  slot : s.scheduler.slot = .addressed x
  stage : x.stage = .onLink
  present : x.gone = false
  frame : parseFrame s.link.speed s.flightMask w = some ⟨x.sent.pos, x.tag, body⟩
  answers : body.answers x.sent = true

/-- The slot once a new epoch has been handed on: a QUERY in it carries the command-changed mark (R91). -/
def Slot.marked : Slot → Slot
  | .addressed x =>
    .addressed { x with
      commandChanged := match x.sent with
        | .query _ _ => true
        | .profileReq _ => x.commandChanged
        | .posReset _ _ => x.commandChanged }
  | .empty => .empty
  | .enumerating tag cancelled => .enumerating tag cancelled

/-! ### Outcomes of judgements -/

/-- The function of a cell's key (R1). -/
def CellKey.function : CellKey → Func
  | .lamp _ f => f
  | .line f => f
  | .segment _ f => f

/-- What a ruling makes of a cell's own fields: a hold sets its hold reason, a verdict moves it by the qualification
machine (R108, R109, R139, R143). -/
def Cell.ruled (c : Cell) (set : Settings) (now : Time) : Ruling → Cell
  | .hold r => { c with hold := some r }
  | .verdict j => (qualify set.qSet set.qClear now c j).1

/-- What a judgement makes of a cell's own fields: the resolvable flag where it sets it, and its ruling (R108, R109). -/
def Cell.judged (c : Cell) (set : Settings) (now : Time) (x : Judged) : Cell :=
  ({ c with resolvable := x.resolvable.getD c.resolvable } : Cell).ruled set now x.ruling

/-! ### What the blocks' data agree on -/

/-- A cell's fields agree: the confirmed verdict and the confirmed-at time are there exactly in FAULTED and RECOVERING,
and the count stays below the threshold it counts toward, 0 where nothing is counted (R2, R6). -/
structure Cell.Consistent (set : Settings) (c : Cell) : Prop where
  confirmed : c.confirmed.isSome = c.faulty
  confirmedAt : c.confirmedAt.isSome = c.faulty
  counting : match c.state with
    | .absent => c.candidate = none ∧ c.count = 0
    | .unverified => c.candidate = none ∧ c.count = 0
    | .clean => c.candidate = none ∧ c.count = 0
    | .suspect => c.candidate.isSome ∧ c.count < set.qSet
    | .faulted => match c.candidate with
      | none => c.count = 0
      | some _ => c.count < set.qSet
    | .recovering => c.candidate = none ∧ c.count < set.qClear

/-- The Cell Table, the Train Map and the Fault List agree with themselves and with each other. -/
structure State.Consistent (s : State) : Prop where
  /-- No two records share a key (R151). -/
  sites : (s.faults.records.map FaultRecord.site).Nodup
  /-- No two records share an id, and ids lie in 1 to 255 (R153). -/
  ids : (s.faults.records.map FaultRecord.id).Nodup
  idRange : ∀ r ∈ s.faults.records, 1 ≤ r.id ∧ r.id ≤ 255
  nextId : 1 ≤ s.faults.nextId ∧ s.faults.nextId ≤ 255
  /-- A cell is listed exactly while a record of it stands (R6). -/
  listed : ∀ k, (s.cell k).listed = (s.faultAt (.cell k)).isSome
  cells : ∀ k, (s.cell k).Consistent s.ignition.settings
  /-- An ABSENT cell has no record (R1); the lamp cells of an unmapped position, and in NO_TRAIN the line cells, are
  ABSENT (R1, R7). -/
  absent : ∀ k, (s.cell k).state = .absent → (s.cell k).listed = false
  unmapped : ∀ p f, s.record p = none → (s.cell (.lamp p f)).state = .absent
  noTrain : ∀ f, s.train.linkState = .noTrain → (s.cell (.line f)).state = .absent
  /-- The mapped positions are contiguous from position 1 (R40). -/
  contiguous : ∀ p q : Pos, p < q → (s.record q).isSome → (s.record p).isSome
  /-- Every mapped position beyond a LOST one is LOST (R50). -/
  tail : ∀ p q : Pos, p < q → s.posState p = some .lost → (s.record q).isSome → s.posState q = some .lost

/-! ### What stands once alone -/

/-- A Profile Library is within its 16 places, and no two of its entries carry the same serial (R69). -/
structure Library.Sound (l : Library) : Prop where
  places : l.entries.length ≤ 16
  serials : (l.entries.map LibraryEntry.serial).Nodup

/-- The Profile Libraries that the part holds: the working one, the stored one, and the snapshot of a save in progress
(R69, R200). -/
def Ignition.libraries (x : Ignition) : List Library :=
  x.library :: ((x.stored.map fun image => image.library).toList ++ (x.save.map fun save => save.snapshot.library).toList)

/-- What the manual lets stand once alone: a serial in the Train Map (R40), a serial in a Profile Library, which is within
its places (R69), and a QUERY and a PROFILE of one position in the Query Queue (R78). -/
structure State.Unique (s : State) : Prop where
  serials : ∀ (p q : Pos) (r r' : PosRecord) (z : Serial), s.record p = some r → s.record q = some r' →
    r.serial = some z → r'.serial = some z → p = q
  libraries : ∀ l ∈ s.ignition.libraries, l.Sound
  queries : ∀ p, (s.scheduler.queue.countP fun e => e.work.isQueryFor p) ≤ 1
  profiles : ∀ p, (s.scheduler.queue.countP fun e => e.work.isProfileFor p) ≤ 1

/-! ### Applying a position (R66 to R70) -/

/-- y is record x with its flagged entries carried out: each pending profile is the applied one, absent and unflagged, and
the source STAGED if there was one (R66). -/
structure PosRecord.CarriedOut (x y : PosRecord) : Prop where
  flagged : ∀ (f : Func) (q : Profile), x.changed[f] = true → x.staged[f] = some q →
    y.applied[f] = some q ∧ y.staged[f] = none ∧ y.changed[f] = false ∧ y.source = .staged
  others : ∀ f : Func, (x.changed[f] = false ∨ x.staged[f] = none) →
    y.applied[f] = x.applied[f] ∧ y.staged[f] = x.staged[f] ∧ y.changed[f] = x.changed[f]
  source : (∀ f : Func, x.changed[f] = false ∨ x.staged[f] = none) → y.source = x.source
  rest : y.serial = x.serial ∧ y.kind = x.kind ∧ y.coupledAt = x.coupledAt

/-- Function f of record x is flagged with a pending profile that differs from its applied one: its lamp cell is reset when
x is applied (R66, R68). -/
def PosRecord.Changes (x : PosRecord) (f : Func) (q : Profile) : Prop :=
  x.changed[f] = true ∧ x.staged[f] = some q ∧ x.applied[f] ≠ some q

/-- c is a lamp cell as the change of its profile to q leaves it, at a position in the state given (R68). -/
def Cell.ResetFor (set : Settings) (state : PosState) (q : Profile) (c : Cell) : Prop :=
  let tolerance := match q.tol with
    | some n => n
    | none => if q.tech = .filament then set.tolFilament else set.tolLed
  c = { state := .unverified, confirmed := none, candidate := none, count := 0, sample := none,
        hold := if state = .present then none else some .silent,
        resolvable := decide (1 ≤ q.n ∧ tolerance < 1000 / q.n), listed := c.listed, confirmedAt := none }

/-- A position with record y is skipped when it is to be persisted: it is anonymous or has an unknown profile (R70). -/
def PosRecord.Skipped (y : PosRecord) : Prop := y.serial = none ∨ ∃ f : Func, y.applied[f] = none

/-- The Library holds the profiles of record y under its serial (R70). -/
def Library.Holds (l : Library) (y : PosRecord) : Prop :=
  ∃ e ∈ l.entries, y.serial = some e.serial ∧ ∀ f : Func, y.applied[f] = some e.profiles[f]

/-- Position p, its record x before and y after, is applied from s to t, and persisted if it is to be (R66, R68, R70). -/
structure State.Applies (s t : State) (p : Pos) (x y : PosRecord) (persist : Bool) : Prop where
  record : x.CarriedOut y
  cells : ∀ f q, x.Changes f q → (s.cell (.lamp p f)).state ≠ .absent →
    t.faultAt (.cell (.lamp p f)) = none ∧ Cell.ResetFor s.ignition.settings y.state q (t.cell (.lamp p f))
  persisted : persist = true → ¬ y.Skipped → t.ignition.library.Holds y

/-- The REPLY that completes an apply, with its skipped count (R67, 13.4). -/
def Apply.reply (a : Apply) (skipped : Nat) : Message :=
  ⟨.reply, [BitVec.ofNat 8 (7 + 16 * a.who.source.code), a.who.number, 0, BitVec.ofNat 8 skipped, 0, 0], none⟩

/-- Position p, its record now y, has left the waiting set of apply a in t: the apply goes on with the others, or is
complete and answered, behind what u has to send (R67, R70). -/
def State.LeavesApply (u t : State) (a : Apply) (p : Pos) (y : PosRecord) : Prop :=
  let left := a.waiting.filter fun q => decide (q ≠ p)
  ∃ skipped : Nat,
    (a.persist = true ∧ y.Skipped → skipped = a.skipped + 1) ∧
    (¬ (a.persist = true ∧ y.Skipped) → skipped = a.skipped) ∧
    (left ≠ [] →
      t.apply = some { a with waiting := left, skipped := skipped } ∧ t.report.transmit = u.report.transmit ∧
        t.report.deferred = u.report.deferred) ∧
    (left = [] →
      t.apply = none ∧ t.report.transmit = (u.fallDue (a.reply skipped)).report.transmit ∧
        t.report.deferred = (u.fallDue (a.reply skipped)).report.deferred)

/-! ### A request that fails (R53, R54, R57, R89) -/

/-- t is u but for the failure of request x after its last attempt: the slot is empty; the silent streak of its position is
counted, and a PRESENT one falls SILENT at 3; the failure goes to its owner, and to an apply that waits (R53, R54, R57,
R67, R89, R138, R188). -/
structure State.RequestFails (u t : State) (x : Flight) : Prop where
  slot : t.scheduler.slot = .empty
  kept : t.intake = u.intake ∧ t.sense = u.sense ∧ t.attention = u.attention ∧ t.scheduler.tag = u.scheduler.tag ∧
    t.ignition.settings = u.ignition.settings
  counters : u.scheduler.queue.length < 8 → t.counters = u.counters
  others : ∀ q, q ≠ x.sent.pos → t.record q = u.record q
  unmapped : u.record x.sent.pos = none → t.record x.sent.pos = none
  /-- Only the failure of a QUERY reaches the link health logic, for its watch (R188). -/
  health : t.health = match x.sent, u.health.watch with
    | .query _ _, some _ => { u.health with watch := none, pending := some .reduced, hold := some (u.now + 30000) }
    | .query _ _, none => u.health
    | .profileReq _, _ => u.health
    | .posReset _ _, _ => u.health
  mapped : ∀ r, u.record x.sent.pos = some r →
    let p := x.sent.pos
    let falls : Prop := r.state = .present ∧ 2 ≤ r.streak
    let failed : State :=
      match x.sent with
      | .query _ _ => u
      | .profileReq _ => u
      | .posReset _ who => u.fallDue ⟨.reply, [BitVec.ofNat 8 (9 + 16 * who.source.code), who.number, 8, 0, 0, 0], none⟩
    ∃ r', t.record p = some r' ∧ r'.streak = min 3 (r.streak + 1) ∧ r'.serial = r.serial ∧
      r'.state = (if r.state = .present ∧ 2 ≤ r.streak then .silent else r.state) ∧
      ((falls ∨ r.state = .silent) → u.faults.records.length < 24 → u.faultAt (.module p) = none →
        ∃ y, y ∈ t.faults.records ∧ y.site = .module p ∧ y.kind = .silentModule ∧ y.severity = 3 ∧
          y.state = .activeUnack ∧ y.serial = r.serial) ∧
      (falls → u.ignition.part ≠ .asleep → u.enumerator.coupled = true →
        t.enumerator.phase = (if u.enumerator.phase = .idle then .pending else u.enumerator.phase)) ∧
      (falls → t.train.linkState = (if u.enumerator.coupled = true then
        (if ∃ q, t.posState q = some .present then .live else .down) else .noTrain)) ∧
      (¬ falls → t.enumerator.phase = u.enumerator.phase ∧ t.train.linkState = u.train.linkState) ∧
      (∀ a, u.apply = some a → p ∈ a.waiting →
        u.Applies t p r r' a.persist ∧ failed.LeavesApply t a p r' ∧
          (a.persist = false → t.ignition.library = u.ignition.library)) ∧
      ((∀ a, u.apply = some a → p ∉ a.waiting) →
        t.apply = u.apply ∧ r'.applied = r.applied ∧ r'.staged = r.staged ∧ r'.changed = r.changed ∧
        r'.source = r.source ∧ t.ignition.library = u.ignition.library ∧
        t.report.transmit = failed.report.transmit ∧ t.report.deferred = failed.report.deferred) ∧
      ∀ k, (falls → ∀ f, k ≠ .line f) →
        (∀ a f q, u.apply = some a → p ∈ a.waiting → k = .lamp p f → ¬ r.Changes f q) →
        let beside : Prop := ∃ f, k = .lamp p f ∨ k = .segment p.castSucc f ∨ k = .segment p.succ f
        (falls → beside → (u.cell k).state ≠ .absent →
          t.cell k = { u.cell k with hold := some .silent, listed := (t.cell k).listed }) ∧
        (¬ (falls ∧ beside ∧ (u.cell k).state ≠ .absent) →
          t.cell k = { u.cell k with listed := (t.cell k).listed })

/-! ### Starting afresh -/

/-- What power-on and HARD reset leave in every block but the Ignition Controller, the monitor's state and what the
entry to WAKING begins, with the socket-detect state after the reset (R8, R14, R18, R30, R58, R74, R96, R166, R184, R190,
R193). -/
structure State.StartedAfresh (t : State) (coupled : Bool) : Prop where
  states : ∀ f : Func, t.intake.states[f] = .unknown
  epoch : t.intake.epoch = 0
  moving : t.intake.moving = true
  lost : t.intake.lost = true
  lastCommand : t.intake.lastCommand = 0
  channels : ∀ f : Func, t.sense.channels[f] =
    ⟨t.inputs.driven[f], if t.inputs.driven[f] then some t.now else none, 0⟩
  socket : t.sense.coupled = coupled
  link : t.link = ⟨.full, .free, .none, none, none, none⟩
  health : t.health.window = [] ∧ t.health.cleanRun = 0 ∧ t.health.watch = none ∧ t.health.hold = none
  line : t.attention.high = t.inputs.attentionHigh ∧ t.attention.stuckMark = false
  slot : t.scheduler.slot = .empty
  waiting : t.scheduler.enumerateWaiting = false
  broadcast : t.scheduler.broadcastOwed = true ∧ t.scheduler.lastLampState = none
  tag : t.scheduler.tag = 0
  map : ∀ p, t.record p = none
  linkState : t.train.linkState = if coupled then .down else .noTrain
  endCertain : t.train.endCertain = false
  apply : t.apply = none
  cells : ∀ k, t.cell k =
    match k with
    | .line _ => if coupled then { Cell.absent with state := .unverified } else Cell.absent
    | .lamp _ _ => Cell.absent
    | .segment _ _ => Cell.absent
  faults : t.faults = ⟨[], 1, false, 0⟩
  report : t.report.received = [] ∧ t.report.transmit = [] ∧ t.report.deferred = [] ∧ t.report.lastImage = none ∧
    t.report.lastSummary = none ∧ t.report.reset = .none
  counters : t.counters = defaultCounters

end Sys2Proof.Machine
end

