-- ==== Sys2Proof/Certificates/Slice0/Obligations.lean ====
section
/-! DEFINITION. The statements about the part for the provers. -/

open Sys2Proof Sys2Proof.Machine

/-! ### The queue of commands, and what every command keeps -/

/-- A step takes the command at the front of the queue: it is the command's effect on the state with the queue's rest. -/
def Obligations.StepTakesTheFrontCommand : Prop :=
  ∀ (s : State) (i : Instr) (rest : List Instr), s.pending = i :: rest → step s = exec i (s.withPending rest)

/-- With no command waiting the block idles. The manual has no such step: it is the model's choice (log entry 1). -/
def Obligations.StepIdlesWithNothingWaiting : Prop :=
  ∀ s : State, s.pending = [] → step s = .next s

/-- Every command in every state is answered by a next state, and has no effect on the queue of commands that wait. That
no command stops the part is the model's choice (log entry 7). -/
def Obligations.EveryCommandIsAnswered : Prop :=
  ∀ (i : Instr) (s : State), ∃ t, exec i s = .next t ∧ t.pending = s.pending

/-- The state right after reset is within the bounds of every queue, buffer and list; its Cell Table, Train Map and Fault
List agree with each other; no serial and no queue entry of a kind stands twice; and it is silent: ASLEEP, with nothing
on the link. The input levels and the empty store of this reset are the model's choice (log entry 2). -/
def Obligations.ResetIsBoundedAndSilent : Prop :=
  State.reset.Bounded ∧ State.reset.Consistent ∧ State.reset.Unique ∧ State.reset.ignition.part = .asleep ∧
  State.reset.Silent

/-- Every step keeps every queue, buffer and list within its places (R78, R151, R170, R173, R185); and a step within
them keeps the Cell Table, the Train Map and the Fault List in agreement: no two records share a key or an id, and ids lie
in 1 to 255 (R151, R153); a cell is listed exactly while a record of it stands, and an ABSENT cell has none (R1, R6); a
cell has its confirmed verdict and confirmed-at time exactly in FAULTED and RECOVERING, and its count stays below the
threshold it counts toward, 0 where nothing is counted (R2, R6); the lamp cells of an unmapped position, and in NO_TRAIN the
line cells, are ABSENT (R1, R7); the mapped positions are contiguous from position 1, and every one beyond a LOST one is
LOST (R40, R50). From any state, a step keeps alone what the manual lets stand once: a serial in the Train Map (R40), a
serial in each Profile Library, working, stored and in a save, of at most 16 entries (R69), and a QUERY and a PROFILE of
each position in the Query Queue (R78). -/
def Obligations.EveryStepKeepsTheBounds : Prop :=
  ∀ s t : State, step s = .next t →
    (s.Bounded → t.Bounded ∧ (s.Consistent → t.Consistent)) ∧ (s.Unique → t.Unique)

/-- The part sends no frame while ASLEEP (R196): after every command, a part that is ASLEEP has nothing on the link and
no request in the slot and no entry in the queue, if that was so before the command, and LINK_IDLE hands nothing over
while ASLEEP. A broadcast-owed mark may be set meanwhile (log entry 41), and is not sent. -/
def Obligations.ASleepingPartStaysSilent : Prop :=
  (∀ (i : Instr) (s t : State), (s.ignition.part = .asleep → s.Silent) → exec i s = .next t →
    t.ignition.part = .asleep → t.Silent) ∧
  ∀ (s : State) (m : Moment), s.ignition.part = .asleep →
    ∃ t, exec (.linkIdle m) s = .next t ∧ SettledFrom (s.advance m) t

/-- State is changed by its owner alone (0.4): only LAMP_COMMAND, COMMAND_LOSS and the resets change Command Intake (R9,
R12, R14); only a SETTING_WRITE and a power-on change the working settings (R198, R199); only the end of a save and a
power-on change the stored image and the store status (R200). -/
def Obligations.StateIsChangedByItsOwnerAlone : Prop :=
  ∀ (i : Instr) (s t : State), exec i s = .next t →
    (match i with
      | .lampCommand _ _ => True
      | .commandLoss _ => True
      | .powerOn _ _ => True
      | .hardReset _ => True
      | .softReset _ => True
      | _ => t.intake = s.intake) ∧
    (match i with
      | .settingWrite _ _ => True
      | .powerOn _ _ => True
      | _ => t.ignition.settings = s.ignition.settings) ∧
    (match i with
      | .saveEnd _ _ => True
      | .powerOn _ _ => True
      | _ => t.ignition.stored = s.ignition.stored ∧ t.ignition.status = s.ignition.status)

/-- Every command leaves settled what follows from its effect: the overflow flag is set exactly while a faulted cell is
unlisted (R159); no faulted cell waits while the list has a free place (R158); the quiet-since time is there exactly
while the vehicle is quiet (R194); the probe interval runs exactly under its condition (R46); and an ENUMERATE entry
waits only while the queue is full (R81). That this is settled once at the end of a command is the model's choice (log
entries 20 and 22). -/
def Obligations.EveryCommandLeavesTheStateSettled : Prop :=
  ∀ (i : Instr) (s t : State), exec i s = .next t →
    (t.faults.overflow = true ↔ ∃ k, t.unlisted k = true) ∧
    (t.faults.records.length < 24 → ∀ k, t.unlisted k = true → (t.cell k).confirmed = none) ∧
    (t.ignition.quietSince.isSome = true ↔
      t.ignition.high = false ∧ ∀ f : Func, t.intake.states[f] = .off ∨ t.intake.states[f] = .unknown) ∧
    (t.enumerator.probeFrom.isSome = true ↔
      t.enumerator.phase = .idle ∧ t.ignition.part = .running ∧
        (t.train.linkState = .down ∨ ∃ p, t.posState p = some .lost)) ∧
    (t.scheduler.enumerateWaiting = true → 8 ≤ t.scheduler.queue.length)

/-- The list revision steps by 1 at a command that inserts, changes or removes a record or changes the overflow flag,
however many records it touches, and stands at any other (R160); power-on and HARD reset set it. A record that a
command inserts and removes again shows in the next id, which every insertion moves (R153). A command that takes
judgements (an answer, a line sample, a scan round) also steps it, by the same 1, when the flag is set and cleared
again within it: the flag is exact after each judgement (R157, R159), a change of it moves the revision, and the one
step of the command is made from that. That one command is one event is the model's reading (log entry 20). -/
def Obligations.RevisionStepsOnceWhenTheListChanges : Prop :=
  (∀ (i : Instr) (s t : State), exec i s = .next t →
    let same : Prop := t.faults.records = s.faults.records ∧ t.faults.overflow = s.faults.overflow ∧
      t.faults.nextId = s.faults.nextId
    let stands : Prop := t.faults.revision = s.faults.revision
    let steps : Prop := t.faults.revision = s.faults.revision + 1
    match i with
    | .powerOn _ _ => True
    | .hardReset _ => True
    | .settleTestPoint _ _ | .scanRound _ | .sample _ _ | .busy _ _ | .enumReply _ _ | .profileReply _ _
    | .resetDone _ _ | .crcFailure _ _ | .strayFrame _ _ => (stands ∨ steps) ∧ (¬ same → steps)
    | _ => (same → stands) ∧ (¬ same → steps)) ∧
  (∀ (s : State) (k : CellKey) (j : Judgement),
    let t := s.deliverVerdict k j
    (t.faults.overflow = true ↔ ∃ q, ((t.cell q).state = .faulted ∨ (t.cell q).state = .recovering) ∧
      (t.cell q).listed = false) ∧
    ((s.faults.overflow = true ↔ ∃ q, s.unlisted q = true) →
      t.faults.revision = if t.faults.overflow = s.faults.overflow then s.faults.revision
        else s.faults.revision + 1)) ∧
  ∀ (s : State) (before : FaultList),
    (s.settleRevision before).faults.revision =
      if s.faults = before then before.revision
      else before.revision + 1

/-! ### Resets and part states -/

/-- POWER_ON: time starts at 0, the part is WAKING or ASLEEP by the ignition level (RUNNING at once when it wakes with
the socket UNCOUPLED, which ends the wake enumeration), the stored image is loaded or replaced by defaults, and every
block starts afresh. The model's readings: QUIET while ASLEEP (log entry 15), RUNNING at once with the socket UNCOUPLED
(38), no image after a power-on that cuts a save short (32). -/
def Obligations.PowerOnStartsThePart : Prop :=
  ∀ (s : State) (m : Moment) (cause : PowerCause), ∃ t, exec (.powerOn m cause) s = .next t ∧
    t.clock = 0 ∧ t.inputs = m.inputs ∧ t.pending = s.pending ∧
    t.StartedAfresh m.inputs.socketCoupled ∧
    t.ignition.part =
      (if m.inputs.ignitionHigh then (if m.inputs.socketCoupled then .waking else .running) else .asleep) ∧
    t.ignition.high = m.inputs.ignitionHigh ∧
    t.ignition.quietSince = (if m.inputs.ignitionHigh then none else some 0) ∧
    t.ignition.cause = cause.cause ∧
    (match s.ignition.save, s.ignition.stored with
      | none, some image =>
        t.ignition.settings = image.settings ∧ t.ignition.library = image.library ∧
          t.ignition.stored = some image ∧ t.ignition.status = .valid ∧ t.ignition.canBase = image.settings.canBase
      | _, _ =>
        t.ignition.settings = Config.defaultSettings ∧ t.ignition.library = ⟨[], 0⟩ ∧
          t.ignition.stored = none ∧ t.ignition.status = .defaulted ∧ t.ignition.canBase = 0x500) ∧
    t.ignition.save = none ∧
    t.attention.monitor =
      (if m.inputs.ignitionHigh then (if m.inputs.attentionHigh then .idle else .measuring 0 false none) else .quiet) ∧
    t.scheduler.queue = (if m.inputs.ignitionHigh ∧ m.inputs.socketCoupled then [⟨.enumerate, 0⟩] else []) ∧
    t.report.imageDue = m.inputs.ignitionHigh ∧ t.report.summaryDue = m.inputs.ignitionHigh

/-- HARD_RESET, once the REPLY to PART_RESET(HARD) has been sent: every block starts afresh, the part enters WAKING
(RUNNING at once with the socket UNCOUPLED) whatever the ignition state, and settings, Library and store are kept; at
any other time it does nothing. The model's choices: RUNNING at once with the socket UNCOUPLED (log entry 38), the
reset cause HARD, although R200 names the cause among what is kept (61), and nothing at any other time (7). -/
def Obligations.HardResetStartsAllButTheStoreAfresh : Prop :=
  ∀ (s : State) (m : Moment),
    (s.report.reset = .due .hard →
      ∃ t, exec (.hardReset m) s = .next t ∧
        t.clock = s.clock + m.elapsed ∧ t.inputs = m.inputs ∧ t.pending = s.pending ∧
        t.StartedAfresh m.inputs.socketCoupled ∧
        t.ignition.part = (if m.inputs.socketCoupled then .waking else .running) ∧
        t.ignition.high = s.ignition.high ∧
        t.ignition.quietSince = (if s.ignition.high then none else some t.now) ∧
        t.ignition.cause = .hard ∧ t.ignition.settings = s.ignition.settings ∧
        t.ignition.library = s.ignition.library ∧ t.ignition.stored = s.ignition.stored ∧
        t.ignition.status = s.ignition.status ∧ t.ignition.canBase = s.ignition.settings.canBase ∧
        t.attention.monitor = (if m.inputs.attentionHigh then .idle else .measuring t.clock false none) ∧
        t.scheduler.queue = (if m.inputs.socketCoupled then [⟨.enumerate, t.now⟩] else []) ∧
        t.report.imageDue = true ∧ t.report.summaryDue = true) ∧
    (s.report.reset ≠ .due .hard → ∃ t, exec (.hardReset m) s = .next t ∧ SettledFrom (s.advance m) t)

/-- SOFT_RESET, once the REPLY to PART_RESET(SOFT) has been sent: Command Intake is back in command loss under a new
epoch, the link and its queue are cut off, staged edits, samples, reports and counts are cleared, and the cells, the
list (ATTENTION_STUCK apart), the map, settings and store are kept; an enumeration that was PENDING or RUNNING is asked
for again, the monitor starts afresh, QUIET in a part that is ASLEEP, and a part that is awake has both reports due; at
any other time it does nothing. The model's choices: the mark for the round that falls at once (log entry 45), the
monitor QUIET in a part that is ASLEEP, where R107 gives IDLE or MEASURING (15), the reset cause SOFT, although R200
names the cause among what is kept (61), a speed hold (63) or a wake pulse (75) in progress that ends at once, and
doing nothing at any other time (7). -/
def Obligations.SoftResetKeepsCellsAndList : Prop :=
  ∀ (s : State) (m : Moment),
    let awake : Prop := s.ignition.part ≠ .asleep
    let again : Prop := s.enumerator.phase ≠ .idle ∧ s.ignition.part ≠ .asleep ∧ s.enumerator.coupled = true
    (s.report.reset = .due .soft →
      ∃ t, exec (.softReset m) s = .next t ∧
        t.intake.epoch = s.intake.epoch + 1 ∧ (∀ f : Func, t.intake.states[f] = .unknown) ∧
        t.intake.moving = true ∧ t.intake.lost = true ∧ t.intake.lastCommand = s.intake.lastCommand ∧
        t.link.speed = s.link.speed ∧ t.link.phase = .free ∧ t.link.reception = .none ∧
        t.link.lastFrameSent = none ∧ t.health.window = [] ∧ t.health.cleanRun = 0 ∧ t.health.watch = none ∧
        t.health.hold = s.health.hold ∧ t.scheduler.slot = .empty ∧
        (again → t.scheduler.queue = [⟨.enumerate, t.now⟩] ∧ t.enumerator.phase = .pending) ∧
        (¬ again → t.scheduler.queue = [] ∧ t.enumerator.phase = .idle) ∧
        t.scheduler.broadcastOwed = true ∧ t.scheduler.lastLampState = none ∧ t.scheduler.tag = s.scheduler.tag ∧
        t.scheduler.roundAtOnce = s.running ∧ t.apply = none ∧
        (∀ p, t.record p = (s.record p).map fun r =>
          { r with staged := Vector.replicate 8 none, changed := Vector.replicate 8 false }) ∧
        t.train.linkState = s.train.linkState ∧ t.train.endCertain = s.train.endCertain ∧
        (∀ k, t.cell k = { s.cell k with sample := none, listed := (t.cell k).listed }) ∧
        (s.faults.records.filter fun x => decide (x.site ≠ .link)) <+: t.faults.records ∧
        t.faultAt .link = none ∧
        (awake → t.attention = ⟨m.inputs.attentionHigh,
          if m.inputs.attentionHigh then .idle else .measuring t.clock false none, false⟩) ∧
        (¬ awake → t.attention = ⟨m.inputs.attentionHigh, .quiet, false⟩) ∧
        t.report.received = [] ∧ t.report.transmit = [] ∧ t.report.deferred = [] ∧ t.report.reset = .none ∧
        (t.report.imageDue = true ↔ awake) ∧ (t.report.summaryDue = true ↔ awake) ∧
        (∀ i : Fin 4, (t.counters[i]).selector = (s.counters[i]).selector ∧
          (t.counters[i]).mask = (s.counters[i]).mask ∧ (t.counters[i]).value = 0 ∧
          (t.counters[i]).overflow = false) ∧
        t.ignition.part = s.ignition.part ∧ t.ignition.cause = .soft ∧
        t.ignition.settings = s.ignition.settings ∧ t.ignition.library = s.ignition.library ∧
        t.ignition.canBase = s.ignition.canBase ∧ t.ignition.stored = s.ignition.stored) ∧
    (s.report.reset ≠ .due .soft → ∃ t, exec (.softReset m) s = .next t ∧ SettledFrom (s.advance m) t)

/-- IGNITION_CHANGE, the input having held its level for 50 ms: HIGH wakes a part that is ASLEEP, and any other change
is the ignition state's alone (R194, R195); with the socket UNCOUPLED at the wake every position departs, the link
state is NO_TRAIN and the part is RUNNING at once (R45). A level that has not held, or is no new one, changes nothing.
The model's readings: a wake keeps the link state with the socket COUPLED (log entry 37); RUNNING at once, in the one
step, with the socket UNCOUPLED (38); from when a level counts as held (48). -/
def Obligations.IgnitionHighWakesThePart : Prop :=
  ∀ (s : State) (m : Moment),
    let held : Prop := m.inputs.ignitionHigh = s.inputs.ignitionHigh ∧
      s.steady.ignition + 50000 ≤ s.clock + m.elapsed
    let wakes : Prop := held ∧ m.inputs.ignitionHigh = true ∧ s.ignition.high = false ∧ s.ignition.part = .asleep ∧
      s.enumerator.phase = .idle
    (wakes → s.sense.coupled = true →
      ∃ t, exec (.ignitionChange m) s = .next t ∧
        t.ignition.part = .waking ∧ t.ignition.high = true ∧ t.ignition.quietSince = none ∧
        t.intake = s.intake ∧ t.train = s.train ∧ t.counters = s.counters ∧ t.apply = s.apply ∧
        (∀ f : Func, t.sense.channels[f] =
          ⟨m.inputs.driven[f], if m.inputs.driven[f] then some t.now else none, 0⟩) ∧
        t.link.speed = s.link.speed ∧ t.link.phase = .free ∧ t.link.lastFrameSent = s.link.lastFrameSent ∧
        t.health.window = [] ∧ t.health.cleanRun = 0 ∧ t.health.hold = s.health.hold ∧
        t.scheduler.queue = [⟨.enumerate, t.now⟩] ∧ t.scheduler.slot = .empty ∧ t.scheduler.broadcastOwed = true ∧
        t.scheduler.tag = s.scheduler.tag ∧ t.enumerator.phase = .pending ∧
        (s.attention.stuckMark = false →
          t.attention.monitor = if m.inputs.attentionHigh then .idle else .measuring t.clock false none) ∧
        (∀ k, t.cell k = { s.cell k with listed := (t.cell k).listed }) ∧ s.faults.records <+: t.faults.records ∧
        t.report.received = s.report.received ∧ t.report.transmit = s.report.transmit ∧
        t.report.imageDue = true ∧ t.report.summaryDue = true ∧ t.ignition.settings = s.ignition.settings) ∧
    (wakes → s.sense.coupled = false → s.apply = none →
      ∃ t, exec (.ignitionChange m) s = .next t ∧
        t.ignition.part = .running ∧ t.ignition.high = true ∧ t.ignition.quietSince = none ∧
        (∀ p, t.record p = none) ∧ t.train.linkState = .noTrain ∧ t.train.endCertain = false ∧
        t.enumerator.phase = .idle ∧ t.enumerator.coupled = false ∧
        (∀ p f, (s.record p).isSome = true → t.cell (.lamp p f) = Cell.absent) ∧
        (s.train.linkState ≠ .noTrain → ∀ f, t.cell (.line f) = Cell.absent) ∧
        t.scheduler.queue = [] ∧ t.scheduler.slot = .empty ∧ t.scheduler.broadcastOwed = true ∧
        t.scheduler.tag = s.scheduler.tag ∧ t.intake = s.intake ∧ t.counters = s.counters ∧
        t.link.speed = s.link.speed ∧ t.link.phase = .free ∧ t.report.received = s.report.received ∧
        t.report.transmit = s.report.transmit ∧ t.report.imageDue = true ∧ t.report.summaryDue = true ∧
        t.ignition.settings = s.ignition.settings ∧ t.ignition.library = s.ignition.library) ∧
    (held → (m.inputs.ignitionHigh = false ∨ s.ignition.part ≠ .asleep ∨ s.ignition.high = true) →
      ∃ t, exec (.ignitionChange m) s = .next t ∧
        SettledFrom ((s.advance m).withIgnition { s.ignition with high := m.inputs.ignitionHigh }) t) ∧
    ((¬ held ∨ m.inputs.ignitionHigh = s.ignition.high) →
      ∃ t, exec (.ignitionChange m) s = .next t ∧ SettledFrom (s.advance m) t)

/-- STANDBY_ENTRY, RUNNING and quiet for 2 s: an apply in progress is completed first, every waiting position applied
and persisted and its master answered DONE with the skipped count (R67); nothing is left on the link or in the queue,
the monitor is QUIET, the cells stand as R168 gives, and the map, the list, counters and settings are else kept;
otherwise it does nothing. A speed hold or a wake pulse in progress ends at once (log entries 63 and 75), and a command
that comes before its time does nothing (6 and 7): the model's choices. -/
def Obligations.StandbyEntryPutsThePartToSleep : Prop :=
  ∀ (s : State) (m : Moment),
    (s.ignition.part = .running → (s.advance m).passed s.ignition.quietSince 2000 = true →
      ∃ t, exec (.standbyEntry m) s = .next t ∧
        t.ignition.part = .asleep ∧ t.Silent ∧ t.scheduler.broadcastOwed = false ∧
        t.scheduler.lastLampState = s.scheduler.lastLampState ∧ t.scheduler.tag = s.scheduler.tag ∧
        t.link.speed = s.link.speed ∧ t.link.lastFrameSent = s.link.lastFrameSent ∧
        t.health.window = [] ∧ t.health.cleanRun = 0 ∧ t.health.pending = none ∧ t.health.watch = none ∧
        t.health.hold = s.health.hold ∧ t.attention.monitor = .quiet ∧
        t.attention.stuckMark = s.attention.stuckMark ∧ t.enumerator.phase = .idle ∧
        t.enumerator.probeFrom = none ∧
        let waits (p : Pos) : Prop := ∃ a, s.apply = some a ∧ p ∈ a.waiting
        (∀ k, (∀ p f x q, waits p → s.record p = some x → k = .lamp p f → ¬ x.Changes f q) → t.cell k =
          { (match (s.cell k).state with
              | .suspect => { s.cell k with state := .unverified, candidate := none, count := 0 }
              | .faulted => { s.cell k with candidate := none, count := 0 }
              | .recovering => { s.cell k with state := .faulted, count := 0 }
              | .absent => s.cell k
              | .unverified => s.cell k
              | .clean => s.cell k : Cell) with
            sample := none, listed := (t.cell k).listed }) ∧
        t.apply = none ∧ t.train.linkState = s.train.linkState ∧ t.train.endCertain = s.train.endCertain ∧
        (∀ p, (¬ waits p ∨ s.record p = none) → t.record p = s.record p) ∧
        (∀ p x a, s.apply = some a → p ∈ a.waiting → s.record p = some x →
          ∃ y, t.record p = some y ∧ y.state = x.state ∧ y.streak = x.streak ∧ y.wanted = x.wanted ∧
            s.Applies t p x y false ∧
            (a.persist = true → (∀ q z, q ≠ p → s.record q = some z → x.serial ≠ none → z.serial ≠ x.serial) →
              ¬ y.Skipped → t.ignition.library.Holds y)) ∧
        (∀ a, s.apply = some a → ∃ skipped : Nat,
          (a.persist = false → skipped = a.skipped) ∧
          (a.persist = true → ∀ l : List Pos, l.Nodup →
            (∀ p, p ∈ l ↔ p ∈ a.waiting ∧ ∃ y, t.record p = some y ∧ y.Skipped) → skipped = a.skipped + l.length) ∧
          t.report.transmit = ((s.advance m).fallDue (a.reply skipped)).report.transmit ∧
          t.report.deferred = ((s.advance m).fallDue (a.reply skipped)).report.deferred) ∧
        (s.apply = none →
          s.faults.records <+: t.faults.records ∧ t.train = s.train ∧ t.report.transmit = s.report.transmit ∧
          t.report.deferred = s.report.deferred) ∧
        ((∀ a, s.apply = some a → a.persist = false) → t.ignition.library = s.ignition.library) ∧ t.intake = s.intake ∧
        t.sense = s.sense ∧ t.counters = s.counters ∧ t.ignition.settings = s.ignition.settings ∧
        t.ignition.save = s.ignition.save ∧
        t.report.received = s.report.received ∧ t.report.imageDue = false ∧ t.report.summaryDue = false) ∧
    ((s.ignition.part ≠ .running ∨ (s.advance m).passed s.ignition.quietSince 2000 = false) →
      ∃ t, exec (.standbyEntry m) s = .next t ∧ SettledFrom (s.advance m) t)

/-! ### Requests -/

/-- What becomes of a request before its own rule: one that is not the oldest of the buffer, or finds no room, changes
nothing; one that is taken is answered REFUSED_SOURCE, BUSY or BAD_ARGUMENT by the first check that refuses it (R170,
R171); a malformed LAMP_COMMAND is discarded without reply. What each source may send is the table of R171, and what is
well formed, with the row it then belongs to, is R174 and R202 with the layouts of 13.2 and 13.3. That a request
finding the buffer empty arrives and is taken in one step, and that one that is not the row's or not the oldest changes
nothing, is the model's choice (log entries 8 and 10), and so is the row whose command brings a malformed request of a
shared code (9). -/
def Obligations.RequestsAreTurnedAwayInOrder : Prop :=
  ∀ (i : Instr) (s : State) (m : Moment) (row : RequestRow) (r : Request), asks i = some (m, row, r) →
    let long (n : Nat) : Prop := r.data.length = n
    let unit : Prop := 1 ≤ r.byte 1 ∧ r.byte 1 ≤ 6
    let wellFormed : Prop :=
      match r.kind with
      | 0 => long 3 ∧ r.byte 2 ≤ 1 ∧ ∀ f : Func, r.word 0 / 4 ^ f.val % 4 ≠ 3
      | 1 => long 2
      | 2 => long 5 ∧ (r.byte 1 = 0 ∨ (r.byte 2 ≤ 4 ∧ (r.byte 4 < 8 ∨ (r.byte 4 = 255 ∧ 2 ≤ r.byte 2))))
      | 3 => long 3 ∧ unit
      | 4 => long 2 ∧ r.byte 1 ≤ 6
      | 5 => long 4 ∧
          ((r.byte 1 = 0 ∧ 1 ≤ r.byte 2 ∧ r.byte 2 ≤ 6 ∧ r.byte 3 < 8) ∨
            (r.byte 1 = 1 ∧ r.byte 2 = 0 ∧ r.byte 3 < 8) ∨
            (r.byte 1 = 2 ∧ r.byte 2 ≤ 6 ∧ (r.byte 3 < 8 ∨ r.byte 3 = 255)) ∨
            (r.byte 1 = 3 ∧ 1 ≤ r.byte 2 ∧ r.byte 2 ≤ 6 ∧ r.byte 3 = 255) ∨
            (r.byte 1 = 4 ∧ r.byte 2 = 0 ∧ r.byte 3 = 255))
      | 6 => long 8 ∧ unit ∧ r.byte 2 < 8 ∧ r.byte 4 ≤ 1
      | 7 => long 3 ∧ 0 < r.byte 1 ∧ r.byte 1 < 64 ∧ r.byte 2 ≤ 1
      | 8 => long 3 ∧ unit ∧ r.byte 2 < 8
      | 9 => long 2 ∧ unit
      | 10 =>
        (r.byte 1 = 0 ∧ long 5 ∧ r.byte 2 ≤ 14 ∧ (r.byte 2 = 3 → r.word 3 ≤ 1)) ∨
          (r.byte 1 = 1 ∧ long 3 ∧ r.byte 2 ≤ 14) ∨ (r.byte 1 = 2 ∧ long 2)
      | 11 =>
        (r.byte 1 = 0 ∧ long 5 ∧ r.byte 2 ≤ 3 ∧ r.byte 3 ≤ 11 ∧ r.byte 4 < 128) ∨
          (r.byte 1 = 1 ∧ long 4 ∧ r.byte 2 ≤ 3 ∧ r.byte 3 ≤ 1)
      | 12 => long 5
      | 13 => long 1
      | 14 => long 2 ∧ r.byte 1 ≤ 1
      | _ => long 1
    let meant : RequestRow :=
      match r.kind with
      | 0 => .lampCommand
      | 1 => .faultRead
      | 2 => if r.byte 1 = 0 then .faultAckAll else .faultAck
      | 3 => .refresh
      | 4 => .mapRead
      | 5 =>
        if r.byte 1 = 2 ∧ r.byte 3 = 255 then .siteClearChainBreak
        else if r.byte 1 = 3 then .siteClearModule
        else if r.byte 1 = 4 then .siteClearLink
        else .siteClear
      | 6 => .profileStage
      | 7 => .profileApply
      | 8 => .profileRead
      | 9 => .positionReset
      | 10 => if r.byte 1 = 0 then .settingWrite else if r.byte 1 = 1 then .settingRead else .settingSave
      | 11 => if r.byte 1 = 0 then .counterSetup else .counterRead
      | 12 => .libraryDelete
      | 13 => .enumerate
      | 14 => if r.byte 1 = 0 then .partResetHard else .partResetSoft
      | _ => .identRead
    let clears : List RequestRow := [.siteClear, .siteClearChainBreak, .siteClearModule, .siteClearLink]
    let profiles : List RequestRow := [.profileStage, .profileApply, .profileRead, .positionReset]
    let allowed : List RequestRow :=
      match r.source with
      | .body => [.lampCommand, .faultRead, .mapRead] ++ clears ++ profiles
      | .cluster => [.faultRead, .mapRead, .faultAck, .faultAckAll, .refresh]
      | .service =>
        [.faultRead, .mapRead, .refresh] ++ clears ++ profiles ++
          [.settingWrite, .settingRead, .settingSave, .counterSetup, .counterRead, .libraryDelete, .enumerate,
            .partResetHard, .partResetSoft, .identRead]
    (permitted r.source row = true ↔ row ∈ allowed) ∧
    (r.kind < 16 → (r.formed = true ↔ wellFormed) ∧ (wellFormed → r.row = meant)) ∧
    ((r.row ≠ row ∨ s.report.afterTaking r = none) →
      ∃ t, exec i s = .next t ∧ SettledFrom (s.advance m) t) ∧
    ∀ rest, r.row = row → s.report.afterTaking r = some rest →
      (permitted r.source row = false →
        ∃ t, exec i s = .next t ∧ SettledFrom ((s.taking m rest).reply r .refusedSource) t) ∧
      (permitted r.source row = true → s.ignition.part = .asleep → row ≠ .lampCommand →
        ∃ t, exec i s = .next t ∧ SettledFrom ((s.taking m rest).reply r .busy) t) ∧
      (permitted r.source row = true → s.ignition.part ≠ .asleep → row ≠ .lampCommand → r.formed = false →
        ∃ t, exec i s = .next t ∧ SettledFrom ((s.taking m rest).reply r .badArgument) t) ∧
      (permitted r.source row = true → row = .lampCommand → r.formed = false →
        ∃ t, exec i s = .next t ∧ SettledFrom (s.taking m rest) t)

/-- The bytes of a REPLY and of the READ_DATA behind it (13.4): request kind, source and operation in the first byte,
the request number, then the status and, for a FAULT_READ, revision, count and overflow flag; or the message's index
and five bytes of data. The data of a FAULT_READ, of a MAP_READ of a position and of the socket, and of a PROFILE_READ,
field by field in the order and the codes of 13.4. -/
def Obligations.RepliesCarryRequestAndStatus : Prop :=
  (∀ (s : State) (r : Request) (status : Status) (n : Nat) (data : List Byte),
      let first : Byte := BitVec.ofNat 8 (r.kind + 16 * r.source.code + 64 * r.operation)
      let extra : List Byte :=
        if r.kind = 1 then
          [s.faults.revision, BitVec.ofNat 8 s.faults.records.length, if s.faults.overflow then 1 else 0]
        else [0, 0, 0]
      s.reply r status =
          s.withReport { s.report with
            transmit := s.report.transmit ++ [⟨.reply, [first, r.number, BitVec.ofNat 8 status.code] ++ extra, none⟩] } ∧
        ∃ ms : List Message, ms.length = n ∧
          s.replyData r n data =
            (s.reply r .done).withReport { (s.reply r .done).report with
              transmit := (s.reply r .done).report.transmit ++ ms } ∧
          ∀ (i : Nat) (h : i < ms.length),
            ms[i].kind = .readData ∧ ms[i].thenReset = none ∧
              ms[i].data.take 3 = [first, r.number, BitVec.ofNat 8 i] ∧
              ∀ j, j < 5 → ms[i].data[3 + j]? = some ((data[5 * i + j]?).getD 0)) ∧
  let b : Nat → Byte := BitVec.ofNat 8
  let bit (x : Bool) : Nat := if x then 1 else 0
  let two (n : Nat) : List Byte := [b (n / 256), b n]
  let four (n : Nat) : List Byte := [b (n / 16777216), b (n / 65536), b (n / 256), b n]
  let hold : Option HoldReason → Nat
    | none => 0
    | some h => h.code
  let profile : Option Profile → List Byte
    | none => [0, 0, 0, 0, 0, 0]
    | some x => [1, b x.n, b x.tech.code, b x.power] ++ two (x.tol.getD 0)
  (∀ x : FaultRecord, x.bytes =
    [b x.id, b x.site.kindCode, b x.site.number, (match x.site.function with | none => 0xFF | some f => b f.val),
      b x.kind.code, b x.severity, b x.state.code, b (x.lampsOut.getD 0)] ++ four x.firstRaised.toNat ++
      four x.lastChange.toNat ++ [b x.occurrences, b (bit x.serial.isSome)] ++ four (x.serial.getD 0).toNat) ∧
  (∀ (s : State) (p : Pos) (x : PosRecord), s.positionBytes p x =
    [b x.state.code, b (bit x.serial.isSome)] ++ four (x.serial.getD 0).toNat ++
      [b x.kind.code, b x.streak, b x.source.code] ++ four x.coupledAt.toNat ++
      ([0, 1, 2, 3, 4, 5, 6, 7] : List Func).flatMap fun f =>
        let lamp := s.cell (.lamp p f)
        let after := s.cell (.segment p.succ f)
        [b (lamp.state.code + 8 * bit lamp.resolvable + 16 * hold lamp.hold), b (after.state.code + 16 * hold after.hold)]) ∧
  (∀ s : State, s.socketBytes =
    (([0, 1, 2, 3, 4, 5, 6, 7] : List Func).flatMap fun f =>
      let line := s.cell (.line f)
      let first := s.cell (.segment 0 f)
      [b (line.state.code + 8 * bit line.resolvable + 16 * hold line.hold),
        b (first.state.code + 16 * hold first.hold)]) ++
      two (min 400 s.inputs.voltage) ++
      [b (bit s.sense.coupled), b s.train.linkState.code, b s.trainLength, b (bit s.train.endCertain)]) ∧
  (∀ (x : PosRecord) (f : Func), x.profileData f =
    profile x.applied[f] ++ profile x.staged[f] ++ [b (bit x.changed[f]), b x.source.code, b (bit x.wanted)]) ∧
  (∀ (p : Pos) (g : Seg) (f : Func),
    ([.cell (.lamp p f), .cell (.line f), .cell (.segment g f), .chainBreak g, .module p, .link] : List Site).map
        (fun x => (x.kindCode, x.number, x.function)) =
      [(0, p.val + 1, some f), (1, 0, some f), (2, g.val, some f), (2, g.val, none), (3, p.val + 1, none),
        (4, 0, none)]) ∧
  ([.done, .clamped, .held, .busy, .queueFull, .noRecord, .end_, .badArgument, .failed, .refusedSource] :
      List Status).map Status.code = [0, 1, 2, 3, 4, 5, 6, 7, 8, 9] ∧
  ([.powerOn, .supplyDip, .hard, .soft] : List ResetCause).map ResetCause.code = [0, 1, 2, 3] ∧
  ([.valid, .defaulted, .writeFailed] : List StoreStatus).map StoreStatus.code = [0, 1, 2] ∧
  ([.body, .cluster, .service] : List Master).map Master.code = [0, 1, 2] ∧
  ([.reply, .readData, .telltaleImage, .lampSummary] : List MessageKind).map MessageKind.code = [0, 1, 2, 3] ∧
  ([.openCircuit, .partialLoss, .overload, .unexpectedLoad, .leak, .senseConflict, .silentModule, .chainBreak,
      .attentionStuck] : List FaultKind).map FaultKind.code = [0, 1, 2, 3, 4, 5, 6, 7, 8] ∧
  ([.activeUnack, .activeAck, .healedUnack] : List RecordState).map RecordState.code = [0, 1, 2] ∧
  ([.present, .silent, .lost] : List PosState).map PosState.code = [0, 1, 2] ∧
  ([.trailer, .dolly] : List UnitKind).map UnitKind.code = [0, 1] ∧
  ([.filament, .led] : List Tech).map Tech.code = [0, 1] ∧
  ([.module, .library, .staged] : List ProfileSource).map ProfileSource.code = [0, 1, 2] ∧
  ([.noTrain, .down, .live] : List LinkState).map LinkState.code = [0, 1, 2] ∧
  ([.absent, .unverified, .clean, .suspect, .faulted, .recovering] : List CellState).map CellState.code =
    [0, 1, 2, 3, 4, 5] ∧
  ([.stale, .settling, .offPhase, .notDriven, .lowSupply, .saturatedUnusable, .commandLost, .notFitted, .silent] :
      List HoldReason).map HoldReason.code = [1, 2, 3, 4, 5, 6, 7, 8, 9]

/-- REQUEST_RECEIVE: a data frame on CAN_BASE + 4 × kind + source, kind 0 to 15, is a request of that kind from the
body controller (0), the cluster (1) or the service tool (2); it joins the receive buffer behind the others, and is
lost when the buffer holds 8. A frame with source code 3, a remote frame and a frame outside the 64 request identifiers
change nothing (R169, R170). -/
def Obligations.RequestsJoinTheReceiveBuffer : Prop :=
  ∀ (s : State) (m : Moment) (frame : CanFrame),
    let code (source : Master) : Nat :=
      match source with
      | .body => 0
      | .cluster => 1
      | .service => 2
    let base := s.ignition.canBase
    (∀ kind source, kind < 16 → frame.ident.toNat = base + kind * 4 + code source → frame.remote = false →
      s.report.received.length < 8 →
      ∃ t, exec (.requestReceive m frame) s = .next t ∧
        SettledFrom
          ((s.advance m).withReport { s.report with received := s.report.received ++ [⟨kind, source, frame.data⟩] }) t) ∧
    ((frame.remote = true ∨ frame.ident.toNat < base ∨ base + 64 ≤ frame.ident.toNat ∨
        (∃ kind, frame.ident.toNat = base + kind * 4 + 3) ∨ 8 ≤ s.report.received.length) →
      ∃ t, exec (.requestReceive m frame) s = .next t ∧ SettledFrom (s.advance m) t)

/-- LAMP_COMMAND, in any part state (R9): from the body controller its time and moving flag are recorded, its eight
states are in force, and if any of them differs from the one that was the epoch steps, a broadcast is owed and a QUERY
in the slot is marked (R10, R76, R91); command loss ends (R13), nothing is answered (with no apply left over from
before sleep), and one that lights a function wakes the part (R194); from another master it is answered REFUSED_SOURCE,
and a malformed one is discarded, with no other effect. How the request comes to be taken is log entry 8. -/
def Obligations.LampCommandTakesItsStates : Prop :=
  ∀ (s : State) (m : Moment) (r : Request) (rest : List Request),
    r.row = .lampCommand → s.report.afterTaking r = some rest →
    let wellFormed : Prop := r.data.length = 3 ∧ r.byte 2 ≤ 1 ∧ ∀ f : Func, r.commandCode f ≠ 3
    (r.source ≠ .body →
      ∃ t, exec (.lampCommand m r) s = .next t ∧ SettledFrom ((s.taking m rest).reply r .refusedSource) t) ∧
    (r.source = .body → ¬ wellFormed →
      ∃ t, exec (.lampCommand m r) s = .next t ∧ SettledFrom (s.taking m rest) t) ∧
    (r.source = .body → wellFormed →
      ∃ t, exec (.lampCommand m r) s = .next t ∧
        t.intake.lastCommand = (s.advance m).now ∧
        t.intake.moving = decide (r.byte 2 = 1) ∧
        (∀ f : Func, t.intake.states[f] = r.commandState f) ∧
        t.intake.epoch =
          (if ∀ f : Func, r.commandState f = s.intake.states[f] then s.intake.epoch else s.intake.epoch + 1) ∧
        t.intake.lost = false ∧
        ((¬ ∀ f : Func, r.commandState f = s.intake.states[f]) → t.scheduler.broadcastOwed = true) ∧
        ((∃ f : Func, r.commandState f = .on ∨ r.commandState f = .flash) → t.ignition.part ≠ .asleep) ∧
        (((∀ f : Func, r.commandState f = .off) ∨ s.ignition.part ≠ .asleep) →
          t.sense = s.sense ∧ t.link = s.link ∧ t.health = s.health ∧ t.attention = s.attention ∧ t.train = s.train ∧
            t.apply = s.apply ∧ t.counters = s.counters ∧ t.enumerator.phase = s.enumerator.phase ∧
            t.scheduler.slot = (if ∀ f : Func, r.commandState f = s.intake.states[f] then s.scheduler.slot
              else s.scheduler.slot.marked) ∧
            t.scheduler.tag = s.scheduler.tag ∧ t.ignition.part = s.ignition.part ∧
            (∀ k, t.cell k = { s.cell k with listed := (t.cell k).listed }) ∧
            s.faults.records <+: t.faults.records ∧
            t.report.received = rest ∧ t.report.transmit = s.report.transmit) ∧
        ((s.apply = none ∨ s.ignition.part ≠ .asleep) →
          t.report.transmit = s.report.transmit ∧ t.report.deferred = s.report.deferred) ∧
        t.ignition.settings = s.ignition.settings ∧ t.ignition.stored = s.ignition.stored)

/-- COMMAND_LOSS (R12): 500 ms after the last LAMP_COMMAND, with the flag clear, command loss is declared: the flag is
set, the epoch steps, every state is UNKNOWN, the moving flag is set, and every lamp and line cell that is not ABSENT
takes hold reason COMMAND_LOST, keeping its state, verdicts, count and sample; a broadcast is owed, and a QUERY in the
slot is marked (R10, R76, R91). At any other time nothing happens. A command that comes before its time does nothing:
the model's choice (log entries 6 and 7). -/
def Obligations.CommandLossIsDeclared : Prop :=
  ∀ (s : State) (m : Moment),
    (s.intake.lost = false → 500 ≤ (s.advance m).age s.intake.lastCommand →
      ∃ t, exec (.commandLoss m) s = .next t ∧
        t.intake.lost = true ∧ t.intake.epoch = s.intake.epoch + 1 ∧
        (∀ f : Func, t.intake.states[f] = .unknown) ∧ t.intake.moving = true ∧
        t.intake.lastCommand = s.intake.lastCommand ∧
        (∀ k, t.cell k =
          match k with
          | .segment _ _ => { s.cell k with listed := (t.cell k).listed }
          | .lamp _ _ =>
            if (s.cell k).state = .absent then { s.cell k with listed := (t.cell k).listed }
            else { s.cell k with hold := some .commandLost, listed := (t.cell k).listed }
          | .line _ =>
            if (s.cell k).state = .absent then { s.cell k with listed := (t.cell k).listed }
            else { s.cell k with hold := some .commandLost, listed := (t.cell k).listed }) ∧
        t.scheduler.slot = s.scheduler.slot.marked ∧
        t.scheduler.broadcastOwed = true ∧ t.scheduler.tag = s.scheduler.tag ∧
        t.sense = s.sense ∧ t.link = s.link ∧ t.health = s.health ∧ t.attention = s.attention ∧ t.train = s.train ∧
        t.apply = s.apply ∧ t.counters = s.counters ∧ t.ignition.part = s.ignition.part ∧
        s.faults.records <+: t.faults.records ∧ t.report.transmit = s.report.transmit ∧
        t.ignition.settings = s.ignition.settings) ∧
    ((s.intake.lost = true ∨ (s.advance m).age s.intake.lastCommand < 500) →
      ∃ t, exec (.commandLoss m) s = .next t ∧ SettledFrom (s.advance m) t)

/-- The reads of the Fault List, the Train Map, a profile, a setting and the part's identity: each is answered DONE with
its READ_DATA, END past the last item, NO_RECORD for the profile of a position that is not mapped, and changes nothing
else (R180 to R183, R199). -/
def Obligations.ReadsAnswerWithTheirData : Prop :=
  ∀ (s : State) (m : Moment) (r : Request) (rest : List Request),
    (s.Accepts .faultRead r rest →
      ∃ t, exec (.faultRead m r) s = .next t ∧
        match s.faults.records[r.byte 1]? with
        | none => SettledFrom ((s.taking m rest).reply r .end_) t
        | some x => SettledFrom ((s.taking m rest).replyData r 5 x.bytes) t) ∧
    (s.Accepts .mapRead r rest →
      ∃ t, exec (.mapRead m r) s = .next t ∧
        (r.byte 1 = 0 → SettledFrom ((s.taking m rest).replyData r 5 (s.taking m rest).socketBytes) t) ∧
        ∀ p : Pos, r.byte 1 = p.val + 1 →
          match s.record p with
          | none => SettledFrom ((s.taking m rest).reply r .end_) t
          | some x => SettledFrom ((s.taking m rest).replyData r 6 (s.positionBytes p x)) t) ∧
    (s.Accepts .profileRead r rest →
      ∃ t, exec (.profileRead m r) s = .next t ∧
        ∀ (p : Pos) (f : Func), r.byte 1 = p.val + 1 → r.byte 2 = f.val →
          match s.record p with
          | none => SettledFrom ((s.taking m rest).reply r .noRecord) t
          | some x => SettledFrom ((s.taking m rest).replyData r 3 (x.profileData f)) t) ∧
    (s.Accepts .settingRead r rest →
      ∃ t, exec (.settingRead m r) s = .next t ∧
        SettledFrom ((s.taking m rest).replyData r 1
          [BitVec.ofNat 8 (r.byte 2), BitVec.ofNat 8 (s.ignition.settings.read (r.byte 2) / 256),
            BitVec.ofNat 8 (s.ignition.settings.read (r.byte 2))]) t) ∧
    (s.Accepts .identRead r rest →
      ∃ t, exec (.identRead m r) s = .next t ∧
        SettledFrom ((s.taking m rest).replyData r 2
          [0x6C, 0x06, 1, BitVec.ofNat 8 s.ignition.cause.code, BitVec.ofNat 8 s.ignition.status.code,
            BitVec.ofNat 8 (s.ignition.canBase / 256), BitVec.ofNat 8 s.ignition.canBase]) t)

/-- FAULT_ACK of one id: NO_RECORD when no record has the id and the key; an ACTIVE_UNACK record becomes ACTIVE_ACK, a
HEALED_UNACK record leaves, an ACTIVE_ACK record stays as it is (R161). That the REPLY is placed before its effect is
the model's choice (log entry 26). -/
def Obligations.FaultAckActsByRecordState : Prop :=
  ∀ (s : State) (m : Moment) (r : Request) (rest : List Request), s.Accepts .faultAck r rest →
    ∃ t, exec (.faultAck m r) s = .next t ∧
      match s.faults.records.find? fun x =>
          decide (x.id = r.byte 1 ∧ siteOfCodes (r.byte 2) (r.byte 3) (r.byte 4) = some x.site) with
      | none => SettledFrom ((s.taking m rest).reply r .noRecord) t
      | some x =>
        match x.state with
        | .activeAck => SettledFrom ((s.taking m rest).reply r .done) t
        | .activeUnack =>
          SettledFrom (((s.taking m rest).reply r .done).withRecords
            (s.faults.records.map fun y =>
              if y.site = x.site then { y with state := .activeAck, lastChange := (s.advance m).now } else y)) t
        | .healedUnack =>
          SettledFrom (((s.taking m rest).reply r .done).removeFault x.site) t ∧
            (s.faults.records.filter fun y => decide (y.site ≠ x.site)) <+: t.faults.records

/-- FAULT_ACK with id 0, whatever its site fields, is answered DONE, with an empty list as with a full one, and
acknowledges every record present at that moment: what was ACTIVE_UNACK is ACTIVE_ACK with its time, what was
HEALED_UNACK has left, what was ACTIVE_ACK is as it was, and records admitted afterwards stand behind, ACTIVE_UNACK
(R162). Records are named by their keys, which no two share (R151). -/
def Obligations.FaultAckAllAcknowledgesEveryRecord : Prop :=
  ∀ (s : State) (m : Moment) (r : Request) (rest : List Request), s.Accepts .faultAckAll r rest →
    ∃ t, exec (.faultAckAll m r) s = .next t ∧
      SettledFrom (((s.taking m rest).reply r .done).acknowledgeAll) t ∧
      let acknowledged : List FaultRecord := (s.faults.records.filter fun x =>
          !s.faults.records.any fun y => decide (y.site = x.site ∧ y.state = .healedUnack)).map fun x =>
        if s.faults.records.any fun y => decide (y.site = x.site ∧ y.state = .activeUnack) then
          { x with state := .activeAck, lastChange := (s.advance m).now }
        else x
      ∃ admitted, t.faults.records = acknowledged ++ admitted ∧ ∀ x ∈ admitted, x.state = .activeUnack

/-- REFRESH, by the state of the position and of the queue (R86). -/
def Obligations.RefreshQueuesAQuery : Prop :=
  ∀ (s : State) (m : Moment) (r : Request) (rest : List Request) (p : Pos),
    s.Accepts .refresh r rest → r.byte 1 = p.val + 1 →
    let mask : Mask := BitVec.ofNat 8 (r.byte 2)
    let mapped : Prop := s.posState p = some .present ∨ s.posState p = some .silent
    let isFor : Entry → Prop := fun e => ∃ m o, e.work = .query p m o
    ∃ t, exec (.refresh m r) s = .next t ∧
      (¬ mapped → SettledFrom ((s.taking m rest).reply r .noRecord) t) ∧
      (mapped → mask = 0 → SettledFrom ((s.taking m rest).reply r .done) t) ∧
      (mapped → mask ≠ 0 → (∃ e ∈ s.scheduler.queue, isFor e) →
        SettledFrom (((s.taking m rest).reply r .done).withQueue
          (s.scheduler.queue.map fun e =>
            match e.work with
            | .query q old _ => if q = p then { e with work := .query q (old ||| mask) .refresh } else e
            | .profile _ => e
            | .posReset _ _ => e
            | .enumerate => e)) t) ∧
      (mapped → mask ≠ 0 → (¬ ∃ e ∈ s.scheduler.queue, isFor e) → s.scheduler.queue.length < 8 →
        SettledFrom (((s.taking m rest).reply r .done).withQueue
          (s.scheduler.queue ++ [⟨.query p mask .refresh, (s.advance m).now⟩])) t) ∧
      (mapped → mask ≠ 0 → (¬ ∃ e ∈ s.scheduler.queue, isFor e) → 8 ≤ s.scheduler.queue.length →
        SettledFrom ((s.taking m rest).reply r .queueFull) t)

/-- SITE_CLEAR of a cell's key: with a record, or with the cell faulted and unlisted, the record leaves and the cell is
UNVERIFIED afresh, held with NOT_FITTED when it is a lamp cell without a known profile; otherwise NO_RECORD (R163). -/
def Obligations.SiteClearResetsTheCell : Prop :=
  ∀ (s : State) (m : Moment) (r : Request) (rest : List Request) (k : CellKey),
    s.Accepts .siteClear r rest → siteOfCodes (r.byte 1) (r.byte 2) (r.byte 3) = some (.cell k) →
    ∃ t, exec (.siteClear m r) s = .next t ∧
      (((s.faultAt (.cell k)).isSome = true ∨ (s.cell k).state = .faulted ∨ (s.cell k).state = .recovering) →
        SettledFrom ((((s.taking m rest).reply r .done).removeFault (.cell k)).resetCell k) t ∧
        ((s.cell k).state ≠ .absent →
          t.cell k =
            { state := .unverified, confirmed := none, candidate := none, count := 0, sample := none,
              hold := (match k with
                | .lamp p f => if (s.appliedProfile p f).isNone then some .notFitted else none
                | .line _ => none
                | .segment _ _ => none),
              resolvable := (s.cell k).resolvable, listed := (t.cell k).listed, confirmedAt := none }) ∧
        (∀ j, j ≠ k → t.cell j = { s.cell j with listed := (t.cell j).listed }) ∧
        (s.faults.records.filter fun x => decide (x.site ≠ .cell k)) <+: t.faults.records) ∧
      ((s.faultAt (.cell k)).isSome = false → (s.cell k).state ≠ .faulted → (s.cell k).state ≠ .recovering →
        SettledFrom ((s.taking m rest).reply r .noRecord) t)

/-- SITE_CLEAR of a record without a function: NO_RECORD when there is none; a CHAIN_BREAK record leaves, and unless it
was healed every LOST position departs with it: its record, lamp cells and SILENT_MODULE and CHAIN_BREAK records are
gone, the segment cells beside it start afresh or, their segment gone, are ABSENT, its queue entries are discarded, a
POS_RESET among them answered FAILED, its request in the slot runs out or is dropped, an apply waits for it no more,
and the link state is set afresh, with the end as certain as it was (R41, R49, R52, R67, R82); a SILENT_MODULE record
leaves and a SILENT position is PRESENT; an ATTENTION_STUCK record leaves and the monitor starts afresh (R55, R103,
R163). That the REPLY is placed before its effect is the model's choice (log entry 26). -/
def Obligations.SiteClearActsForItsOwner : Prop :=
  ∀ (s : State) (m : Moment) (r : Request) (rest : List Request),
    (∀ g : Seg, s.Accepts .siteClearChainBreak r rest → r.byte 2 = g.val →
      let lost (p : Pos) : Prop := s.posState p = some .lost
      ∃ t, exec (.siteClearChainBreak m r) s = .next t ∧
        (s.faultAt (.chainBreak g) = none → SettledFrom ((s.taking m rest).reply r .noRecord) t) ∧
        ∀ x, s.faultAt (.chainBreak g) = some x →
          (x.state = .healedUnack →
            SettledFrom (((s.taking m rest).reply r .done).removeFault (.chainBreak g)) t) ∧
          (x.state ≠ .healedUnack →
            let stands (h : Seg) : Prop := ∃ q, (t.record q).isSome = true ∧ h.val ≤ q.val + 1
            let beside (h : Seg) : Prop := ∃ p, lost p ∧ (h = p.castSucc ∨ h = p.succ)
            let failed (who : Requester) : Message :=
              ⟨.reply, [BitVec.ofNat 8 (9 + 16 * who.source.code), who.number, 8, 0, 0, 0], none⟩
            t.faultAt (.chainBreak g) = none ∧
              (∀ p, t.record p = if s.posState p = some .lost then none else s.record p) ∧
              (∀ p, lost p → t.faultAt (.module p) = none ∧ t.faultAt (.chainBreak p.castSucc) = none ∧
                t.faultAt (.chainBreak p.succ) = none) ∧
              (∀ p f, lost p → t.cell (.lamp p f) = Cell.absent ∧
                ((s.cell (.lamp p f)).state ≠ .absent → t.faultAt (.cell (.lamp p f)) = none)) ∧
              (∀ p f, ¬ lost p →
                t.cell (.lamp p f) = { s.cell (.lamp p f) with listed := (t.cell (.lamp p f)).listed }) ∧
              (∀ h f, beside h → stands h → (t.cell (.segment h f)).state = .unverified ∧
                (t.cell (.segment h f)).count = 0 ∧ (t.cell (.segment h f)).confirmed = none ∧
                (t.cell (.segment h f)).candidate = none ∧ (t.cell (.segment h f)).sample = none ∧
                (t.cell (.segment h f)).hold = none ∧
                ((s.cell (.segment h f)).state ≠ .absent → t.faultAt (.cell (.segment h f)) = none)) ∧
              (∀ h f, (∃ p, lost p) → ¬ stands h → t.cell (.segment h f) = Cell.absent ∧
                ((s.cell (.segment h f)).state ≠ .absent → t.faultAt (.cell (.segment h f)) = none)) ∧
              (∀ h f, ¬ beside h → (stands h ∨ ∀ p, ¬ lost p) →
                t.cell (.segment h f) = { s.cell (.segment h f) with listed := (t.cell (.segment h f)).listed }) ∧
              (t.train.linkState = if s.enumerator.coupled = true then
                (if ∃ q, t.posState q = some .present then .live else .down) else .noTrain) ∧
              t.train.endCertain = s.train.endCertain ∧
              (s.scheduler.enumerateWaiting = false →
                t.scheduler.queue = s.scheduler.queue.filter fun e =>
                  match e.work.pos with
                  | none => true
                  | some p => decide (s.posState p ≠ some .lost)) ∧
              (∀ p who at_, lost p → ⟨.posReset p who, at_⟩ ∈ s.scheduler.queue →
                failed who ∈ t.report.transmit ++ t.report.deferred) ∧
              (∀ y, s.scheduler.slot = .addressed y → lost y.sent.pos →
                (y.stage = .onLink → t.scheduler.slot = .addressed { y with gone := true }) ∧
                (y.stage ≠ .onLink → t.scheduler.slot = .empty ∧
                  ∀ p who, y.sent = .posReset p who → failed who ∈ t.report.transmit ++ t.report.deferred)) ∧
              ((∀ y, s.scheduler.slot = .addressed y → ¬ lost y.sent.pos) →
                t.scheduler.slot = s.scheduler.slot) ∧
              (∀ a, s.apply = some a → (∃ p ∈ a.waiting, lost p) →
                let left := a.waiting.filter fun p => decide (s.posState p ≠ some .lost)
                (left ≠ [] → t.apply = some { a with waiting := left }) ∧
                (left = [] → t.apply = none ∧ a.reply a.skipped ∈ t.report.transmit ++ t.report.deferred)) ∧
              ((∀ p, ¬ lost p) → t.apply = s.apply) ∧
              ((s.taking m rest).reply r .done).report.transmit <+: t.report.transmit ∧
              t.intake = s.intake ∧ t.sense = s.sense ∧ t.link = s.link ∧ t.health = s.health ∧
              t.ignition.library = s.ignition.library ∧ t.ignition.settings = s.ignition.settings)) ∧
    (∀ p : Pos, s.Accepts .siteClearModule r rest → r.byte 2 = p.val + 1 →
      ∃ t, exec (.siteClearModule m r) s = .next t ∧
        (s.faultAt (.module p) = none → SettledFrom ((s.taking m rest).reply r .noRecord) t) ∧
        ((s.faultAt (.module p)).isSome = true →
          (s.posState p ≠ some .silent →
            SettledFrom (((s.taking m rest).reply r .done).removeFault (.module p)) t) ∧
          (s.posState p = some .silent →
            t.faultAt (.module p) = none ∧
              t.record p = (s.record p).map (fun x => { x with state := .present, streak := 0 }) ∧
              (∀ q, q ≠ p → t.record q = s.record q) ∧
              (s.enumerator.coupled = true → t.train.linkState = .live) ∧
              t.report.transmit = ((s.taking m rest).reply r .done).report.transmit ∧
              t.intake = s.intake ∧ t.ignition.settings = s.ignition.settings))) ∧
    (s.Accepts .siteClearLink r rest →
      ∃ t, exec (.siteClearLink m r) s = .next t ∧
        (s.faultAt .link = none → SettledFrom ((s.taking m rest).reply r .noRecord) t) ∧
        ((s.faultAt .link).isSome = true →
          SettledFrom ((((s.taking m rest).reply r .done).removeFault .link).withAttention
            (match s.attention.monitor with
              | .stuck _ =>
                { s.attention with monitor := .measuring (s.clock + m.elapsed) false none, stuckMark := false }
              | .releasing _ => { s.attention with monitor := .idle, stuckMark := false }
              | .idle => s.attention
              | .measuring _ _ _ => s.attention
              | .ownDrive => s.attention
              | .quiet => s.attention)) t))

/-- PROFILE_STAGE: NO_RECORD for a position that is not mapped; else the profile, each field brought into range, is the
circuit's pending profile, its change flag is set, and the answer is DONE, or CLAMPED when a field was out of range
(R64). -/
def Obligations.ProfileStageWritesThePendingProfile : Prop :=
  ∀ (s : State) (m : Moment) (r : Request) (rest : List Request) (p : Pos) (f : Func),
    s.Accepts .profileStage r rest → r.byte 1 = p.val + 1 → r.byte 2 = f.val →
    ∃ t, exec (.profileStage m r) s = .next t ∧
      match s.record p with
      | none => SettledFrom ((s.taking m rest).reply r .noRecord) t
      | some x =>
        let tolerance := r.word 6
        let inRange : Prop := r.byte 3 ≤ 15 ∧ 1 ≤ r.byte 5 ∧ r.byte 5 ≤ 100 ∧
          (tolerance = 0 ∨ (30 ≤ tolerance ∧ tolerance ≤ 300))
        let profile : Profile :=
          { n := min 15 (r.byte 3)
            tech := if r.byte 4 = 1 then .led else .filament
            power := max 1 (min 100 (r.byte 5))
            tol := if tolerance = 0 then none else some (max 30 (min 300 tolerance)) }
        ∃ status, (inRange → status = .done) ∧ (¬ inRange → status = .clamped) ∧
          SettledFrom (((s.taking m rest).reply r status).setRecord p
            (some { x with staged := x.staged.set f (some profile), changed := x.changed.set f true })) t

/-- PROFILE_APPLY: BUSY while an apply is in progress; else, at every named mapped position with no request addressed
to it in the slot, every flagged entry is carried out, the position's source becomes STAGED if there was one, a lamp
cell whose profile changes is reset, one whose pending profile equals the applied one is left as it is, and with
persistence the position is in the Library under its applied profiles when it has a serial of its own and every profile
known, and is counted as skipped when not; a new entry in a Library of 16 takes the place of the entry of largest age,
of equal ages the one of lowest serial, whose serial no record of the map bears (R71). A named position whose request
is in the slot waits, as it is; then the apply, unanswered, holds it, the persist flag and the skipped count so far;
with none waiting it completes at once, answered DONE with that count (R65 to R68, R70). The order of the positions is
the model's (log entry 56). -/
def Obligations.ProfileApplyCarriesOutFlaggedEntries : Prop :=
  ∀ (s : State) (m : Moment) (r : Request) (rest : List Request), s.Accepts .profileApply r rest →
    let named (p : Pos) : Prop := (BitVec.ofNat 8 (r.byte 1) : Byte).getLsbD p.val = true
    let waits : Option Pos :=
      match s.scheduler.slot with
      | .addressed x =>
        if (BitVec.ofNat 8 (r.byte 1) : Byte).getLsbD x.sent.pos.val = true ∧ (s.record x.sent.pos).isSome = true
          then some x.sent.pos else none
      | .empty => none
      | .enumerating _ _ => none
    let applied (p : Pos) : Prop := named p ∧ waits ≠ some p
    let free : Prop := s.apply = none
    ∃ t, exec (.profileApply m r) s = .next t ∧
      (s.apply.isSome = true → SettledFrom ((s.taking m rest).reply r .busy) t) ∧
      (free →
        (∀ p, ¬ applied p → t.record p = s.record p) ∧
        (∀ p x, applied p → s.record p = some x →
          ∃ y, t.record p = some y ∧
            (∀ f : Func, ∀ q, x.changed[f] = true → x.staged[f] = some q →
              y.applied[f] = some q ∧ y.staged[f] = none ∧ y.changed[f] = false ∧ y.source = .staged ∧
              (x.applied[f] ≠ some q → (s.cell (.lamp p f)).state ≠ .absent →
                let tolerance := match q.tol with
                  | some n => n
                  | none => if q.tech = .filament then s.ignition.settings.tolFilament else s.ignition.settings.tolLed
                t.faultAt (.cell (.lamp p f)) = none ∧
                t.cell (.lamp p f) =
                  { state := .unverified, confirmed := none, candidate := none, count := 0, sample := none,
                    hold := if x.state = .present then none else some .silent,
                    resolvable := decide (1 ≤ q.n ∧ tolerance < 1000 / q.n), listed := (t.cell (.lamp p f)).listed,
                    confirmedAt := none }) ∧
              (x.applied[f] = some q →
                t.cell (.lamp p f) = { s.cell (.lamp p f) with listed := (t.cell (.lamp p f)).listed } ∧
                ∀ z, s.faultAt (.cell (.lamp p f)) = some z → t.faultAt (.cell (.lamp p f)) = some z)) ∧
            (∀ f : Func, (x.changed[f] = false ∨ x.staged[f] = none) →
              y.applied[f] = x.applied[f] ∧ y.staged[f] = x.staged[f] ∧ y.changed[f] = x.changed[f] ∧
              t.cell (.lamp p f) = { s.cell (.lamp p f) with listed := (t.cell (.lamp p f)).listed }) ∧
            y.state = x.state ∧ y.serial = x.serial ∧ y.streak = x.streak ∧ y.wanted = x.wanted) ∧
        (∀ k, (∀ p f, k = .lamp p f → ¬ applied p) → t.cell k = { s.cell k with listed := (t.cell k).listed }) ∧
        t.intake = s.intake ∧ t.sense = s.sense ∧ t.link = s.link ∧ t.health = s.health ∧
        t.attention = s.attention ∧ t.counters = s.counters ∧ t.train.linkState = s.train.linkState ∧
        t.ignition.settings = s.ignition.settings ∧ t.scheduler.slot = s.scheduler.slot) ∧
      (free →
        let skipped : Nat := if r.byte 2 = 1 then
          (positions.filter fun p => (BitVec.ofNat 8 (r.byte 1) : Byte).getLsbD p.val && decide (waits ≠ some p) &&
            match t.record p with
            | none => false
            | some y => decide (y.serial = none ∨ ∃ f : Func, y.applied[f] = none)).length
          else 0
        let answered := (s.taking m rest).fallDue
          ⟨.reply, [BitVec.ofNat 8 (7 + 16 * r.source.code), r.number, 0, BitVec.ofNat 8 skipped, 0, 0], none⟩
        (waits = none →
          t.apply = none ∧ t.report.transmit = answered.report.transmit ∧
            t.report.deferred = answered.report.deferred) ∧
        (∀ w, waits = some w →
          t.apply = some ⟨[w], decide (r.byte 2 = 1), skipped, ⟨r.source, r.number⟩⟩ ∧
            t.report.transmit = s.report.transmit ∧ t.report.deferred = s.report.deferred)) ∧
      (free → r.byte 2 = 0 → t.ignition.library = s.ignition.library) ∧
      (free → r.byte 2 = 1 →
        ∀ p x serial, applied p → s.record p = some x →
          x.serial = some serial →
          (∀ q y, q ≠ p → s.record q = some y → y.serial ≠ some serial) →
          ∃ y, t.record p = some y ∧
            ((∀ f : Func, (y.applied[f]).isSome = true) →
              ∃ e ∈ t.ignition.library.entries, e.serial = serial ∧
                ∀ f : Func, y.applied[f] = some e.profiles[f])) ∧
      (free → r.byte 2 = 1 →
        ∀ p x serial y (gone : LibraryEntry), (∀ q, applied q ↔ q = p) → s.record p = some x →
          x.serial = some serial → t.record p = some y → (∀ f : Func, (y.applied[f]).isSome = true) →
          let held := s.ignition.library
          let age (e : LibraryEntry) : Nat := (held.counter - e.ordinal).toNat
          let inMap (z : Serial) : Prop := ∃ q w, s.record q = some w ∧ w.serial = some z
          held.Sound → held.entries.length = 16 → (∀ e ∈ held.entries, e.serial ≠ serial) →
          gone ∈ held.entries → ¬ inMap gone.serial →
          (∀ e ∈ held.entries, e ≠ gone → ¬ inMap e.serial →
            age e < age gone ∨ (age e = age gone ∧ gone.serial.toNat < e.serial.toNat)) →
          t.ignition.library =
            ⟨(held.entries.filter fun e => decide (e.serial ≠ gone.serial)) ++
              [⟨serial, Vector.ofFn fun f => (y.applied[f]).getD ⟨0, .filament, 1, none⟩, held.counter + 1⟩],
              held.counter + 1⟩)

/-- LIBRARY_DELETE: the entry of the serial leaves the Library and the answer is DONE; with no such entry the answer is
NO_RECORD; the coupling counter, the applied profiles and the profile sources stay (R72). -/
def Obligations.LibraryDeleteRemovesTheEntry : Prop :=
  ∀ (s : State) (m : Moment) (r : Request) (rest : List Request), s.Accepts .libraryDelete r rest →
    let serial : Serial := BitVec.ofNat 32 (r.word 1 * 65536 + r.word 3)
    ∃ t, exec (.libraryDelete m r) s = .next t ∧
      ((∃ e ∈ s.ignition.library.entries, e.serial = serial) →
        SettledFrom (((s.taking m rest).reply r .done).withLibrary
          { entries := s.ignition.library.entries.filter fun e => decide (e.serial ≠ serial)
            counter := s.ignition.library.counter }) t) ∧
      ((¬ ∃ e ∈ s.ignition.library.entries, e.serial = serial) →
        SettledFrom ((s.taking m rest).reply r .noRecord) t)

/-- POSITION_RESET by the state of the position: NO_RECORD when it is not mapped or LOST, BUSY when a reset of it is
queued or in the in-flight slot, QUEUE_FULL, or an entry at the tail whose REPLY waits for the outcome (R56). -/
def Obligations.PositionResetIsQueued : Prop :=
  ∀ (s : State) (m : Moment) (r : Request) (rest : List Request) (p : Pos),
    s.Accepts .positionReset r rest → r.byte 1 = p.val + 1 →
    let mapped : Prop := s.posState p = some .present ∨ s.posState p = some .silent
    let wanted : Prop := (∃ e ∈ s.scheduler.queue, ∃ who, e.work = .posReset p who) ∨
      ∃ x who, s.scheduler.slot = .addressed x ∧ x.sent = .posReset p who
    ∃ t, exec (.positionReset m r) s = .next t ∧
      (¬ mapped → SettledFrom ((s.taking m rest).reply r .noRecord) t) ∧
      (mapped → wanted → SettledFrom ((s.taking m rest).reply r .busy) t) ∧
      (mapped → ¬ wanted → 8 ≤ s.scheduler.queue.length → SettledFrom ((s.taking m rest).reply r .queueFull) t) ∧
      (mapped → ¬ wanted → s.scheduler.queue.length < 8 →
        SettledFrom ((s.taking m rest).withQueue
          (s.scheduler.queue ++ [⟨.posReset p ⟨r.source, r.number⟩, (s.advance m).now⟩])) t)

/-- SETTING_WRITE: REPLY_BASE, RETRY_LIMIT and SPEED_LOCK are HELD while the in-flight slot is occupied; else the
value, brought into range and down to its step, is the working setting, answered DONE or CLAMPED; a write of Q_SET sets
each SUSPECT count and each escalation candidate's that stands at or above the new value to the value minus 1, a
candidate whose count falls to 0 being dropped, and one of Q_CLEAR each RECOVERING count; a write of SPEED_LOCK decides
a drop, withdraws a return that is not handed over, or makes the return test; and of the cells and the link health
logic every other write changes nothing (R95, R149, R189, R199). That a return already handed over goes ahead is the
model's reading (log entry 59). -/
def Obligations.SettingWriteChangesTheWorkingSetting : Prop :=
  ∀ (s : State) (m : Moment) (r : Request) (rest : List Request), s.Accepts .settingWrite r rest →
    let code := r.byte 2
    let value := settingValue code (r.word 3)
    ∃ t, exec (.settingWrite m r) s = .next t ∧
      (s.scheduler.slot ≠ .empty → (code = 1 ∨ code = 2 ∨ code = 3) →
        SettledFrom ((s.taking m rest).reply r .held) t) ∧
      ((s.scheduler.slot = .empty ∨ ¬ (code = 1 ∨ code = 2 ∨ code = 3)) →
        t.ignition.settings = s.ignition.settings.write code value ∧
        t.report.transmit =
          ((s.taking m rest).reply r (if value = r.word 3 then .done else .clamped)).report.transmit ∧
        (code ≠ 3 → t.health = s.health) ∧
        (code = 3 → value = 1 →
          (s.link.speed = .full → s.health.pending = none →
            t.health = { s.health with pending := some .reduced, watch := none }) ∧
          (s.health.pending = some .full → s.link.phase.carriesSpeed = false →
            t.health = { s.health with pending := none }) ∧
          (((s.link.speed = .reduced ∧ s.health.pending = none) ∨ s.health.pending = some .reduced ∨
              (s.health.pending = some .full ∧ s.link.phase.carriesSpeed = true)) → t.health = s.health)) ∧
        (code = 3 → value = 0 →
          let returns : Prop := s.link.speed = .reduced ∧ s.health.cleanRun = 256 ∧ s.health.hold = none ∧
            s.health.pending = none
          (returns → t.health = { s.health with pending := some .full }) ∧
          (¬ returns → t.health = s.health)) ∧
        (code = 9 → ∀ k, t.cell k =
          { (match (s.cell k).state with
              | .suspect => if value ≤ (s.cell k).count then { s.cell k with count := value - 1 } else s.cell k
              | .faulted =>
                if (s.cell k).candidate = none ∨ (s.cell k).count < value then s.cell k
                else if value = 1 then { s.cell k with candidate := none, count := 0 }
                else { s.cell k with count := value - 1 }
              | .absent => s.cell k
              | .unverified => s.cell k
              | .clean => s.cell k
              | .recovering => s.cell k : Cell) with
            listed := (t.cell k).listed }) ∧
        (code = 10 → ∀ k, t.cell k =
          { (if (s.cell k).state = .recovering ∧ value ≤ (s.cell k).count then { s.cell k with count := value - 1 }
              else s.cell k : Cell) with
            listed := (t.cell k).listed }) ∧
        (code ≠ 9 → code ≠ 10 → ∀ k, t.cell k = { s.cell k with listed := (t.cell k).listed }) ∧
        s.faults.records <+: t.faults.records ∧ t.ignition.canBase = s.ignition.canBase ∧
        t.ignition.stored = s.ignition.stored ∧ t.ignition.library = s.ignition.library ∧
        t.intake = s.intake ∧ t.sense = s.sense ∧ t.link = s.link ∧ t.attention = s.attention ∧
        t.train = s.train ∧ t.counters = s.counters)

/-- A setting written is read back, and no other setting is changed by it; the value in force lies in its range, on its
step. Table 12.4 in numbers: which setting each code names, and its default, range and step; a value written is clamped
to the range and then rounded down to the step (R199, 13.3). -/
def Obligations.SettingsReadBackInRange : Prop :=
  ∀ (x : Settings) (code v : Nat), code ≤ 14 →
    (x.write code (settingValue code v)).read code = settingValue code v ∧
    (∀ other, other ≤ 14 → other ≠ code → (x.write code (settingValue code v)).read other = x.read other) ∧
    (settingRange code).1 ≤ settingValue code v ∧ settingValue code v ≤ (settingRange code).2.1 ∧
    settingValue code v % (settingRange code).2.2 = 0 ∧
    (List.range 15).map x.read =
      [x.scanPeriod, x.replyBase, x.retryLimit, match x.speedLock with | .fullAllowed => 0 | .reducedOnly => 1,
        x.openFloor, x.overLimit, x.tolFilament, x.tolLed, x.minJudgeV, x.qSet, x.qClear, x.harnessFloor,
        x.harnessPct, x.pairWindow, x.canBase] ∧
    let table : List (Nat × Nat × Nat × Nat) :=
      [(200, 50, 2000, 10), (3, 1, 20, 1), (2, 0, 3, 1), (0, 0, 1, 1), (40, 10, 200, 1), (1400, 1100, 2500, 1),
        (120, 30, 300, 1), (200, 30, 300, 1), (180, 160, 240, 1), (3, 1, 15, 1), (5, 1, 15, 1), (150, 50, 1000, 1),
        (60, 20, 200, 1), (600, 100, 2000, 1), (0x500, 0x000, 0x7A0, 0x20)]
    ∀ start lo hi step, table[code]? = some (start, lo, hi, step) →
      settingRange code = (lo, hi, step) ∧ settingValue code v = max lo (min hi v) / step * step ∧
        Config.defaultSettings.read code = start

/-- SETTING_SAVE and SAVE_END: a save takes a snapshot of the working settings and Library, or is answered BUSY while
one is in progress; at its end the checked image is the stored one, or the store holds none that passes its check, and
the REPLY falls due (R200). What a failed check leaves in the store is the model's reading (log entry 16), and so is
the status WRITE_FAILED after a failed save whatever the status was, DEFAULTED included, which R200's text would keep
(60); that SAVE_END with no save in progress changes nothing is its choice (7). -/
def Obligations.SettingSaveStoresASnapshot : Prop :=
  ∀ (s : State) (m : Moment) (r : Request) (rest : List Request) (passes : Bool),
    (s.Accepts .settingSave r rest →
      ∃ t, exec (.settingSave m r) s = .next t ∧
        match s.ignition.save with
        | some _ => SettledFrom ((s.taking m rest).reply r .busy) t
        | none =>
          SettledFrom ((s.taking m rest).withIgnition
            { s.ignition with
              save := some ⟨⟨s.ignition.settings, s.ignition.library⟩, some ⟨r.source, r.number⟩⟩ }) t) ∧
    ∃ t, exec (.saveEnd m passes) s = .next t ∧
      match s.ignition.save with
      | none => SettledFrom (s.advance m) t
      | some x =>
        let ended := (s.advance m).withIgnition
          { s.ignition with
            save := none
            stored := if passes then some x.snapshot else none
            status := if passes then .valid else .writeFailed }
        match x.who with
        | none => SettledFrom ended t
        | some who =>
          SettledFrom (ended.fallDue ⟨.reply,
            [BitVec.ofNat 8 (10 + 16 * who.source.code + 128), who.number, if passes then 0 else 8, 0, 0, 0], none⟩) t

/-- Counting: while the part is awake, an event adds to each counter that selects it and whose mask holds its position,
the value wrapping past 2^32 with the overflow flag then set, and changes no other counter and nothing else; ASLEEP,
nothing counts (R191). COUNTER_SETUP sets a counter's selector and mask and clears its value and overflow flag;
COUNTER_READ answers with the counter as it stands and, with clear, then sets value and flag to 0 and keeps selector
and mask (R192). The counter's bytes are the value, most significant byte first, the overflow flag, the event code and
the mask (13.4), and the event codes are those of 13.3, 0 to 11. -/
def Obligations.CountersCountAndAreRead : Prop :=
  (∀ c : Counter, c.bytes =
    [BitVec.ofNat 8 (c.value.toNat / 16777216), BitVec.ofNat 8 (c.value.toNat / 65536),
      BitVec.ofNat 8 (c.value.toNat / 256), BitVec.ofNat 8 c.value.toNat, if c.overflow then 1 else 0,
      BitVec.ofNat 8 (match c.selector with
        | .frameSent => 0
        | .replyValid => 1
        | .replyCrcFail => 2
        | .replyTimeout => 3
        | .replyBusy => 4
        | .sampleStale => 5
        | .attentionShort => 6
        | .attentionAmbiguous => 7
        | .attentionLong => 8
        | .scanSkipped => 9
        | .judgementNonOk => 10
        | .queueOccupancy => 11),
      c.mask]) ∧
  (List.range 12).map eventOfCode =
    [.frameSent, .replyValid, .replyCrcFail, .replyTimeout, .replyBusy, .sampleStale, .attentionShort,
      .attentionAmbiguous, .attentionLong, .scanSkipped, .judgementNonOk, .queueOccupancy] ∧

  (∀ (s : State) (e : CountedEvent) (position : Option Nat) (amount : Nat),
    ∃ counters, s.countBy e position amount = s.withCounters counters ∧
      (s.ignition.part = .asleep → counters = s.counters) ∧
      (s.ignition.part ≠ .asleep → ∀ i : Fin 4,
        let c := s.counters[i]
        let counts : Prop := c.selector = e ∧ ∀ q, position = some q → c.mask.getLsbD q = true
        (¬ counts → counters[i] = c) ∧
        (counts → counters[i] = ⟨c.selector, c.mask, c.value + BitVec.ofNat 32 amount,
          c.overflow || decide (2 ^ 32 ≤ c.value.toNat + amount)⟩))) ∧
  ∀ (s : State) (m : Moment) (r : Request) (rest : List Request) (i : Fin 4), r.byte 2 = i.val →
    (s.Accepts .counterSetup r rest →
      ∃ t, exec (.counterSetup m r) s = .next t ∧
        SettledFrom (((s.taking m rest).reply r .done).withCounters
          (s.counters.set i ⟨eventOfCode (r.byte 3), BitVec.ofNat 8 (r.byte 4), 0, false⟩)) t) ∧
    (s.Accepts .counterRead r rest →
      ∃ t, exec (.counterRead m r) s = .next t ∧
        SettledFrom (((s.taking m rest).replyData r 2 (s.counters[i]).bytes).withCounters
          (if r.byte 3 = 1 then
            s.counters.set i { s.counters[i] with value := 0, overflow := false }
          else s.counters)) t)

/-- ENUMERATE from the service tool is answered DONE; with the socket COUPLED and the Enumerator IDLE the enumeration is
PENDING with its entry at the head of the queue, in a full queue in place of the youngest QUERY of origin SCAN, and with
none of those waiting for a place; one already wanted takes the request in, and with the socket UNCOUPLED nothing is
wanted (R42, R45, R81). -/
def Obligations.EnumerateRequestWantsAnEnumeration : Prop :=
  ∀ (s : State) (m : Moment) (r : Request) (rest : List Request), s.Accepts .enumerate r rest →
    ∃ t, exec (.enumerate m r) s = .next t ∧
      ((s.enumerator.coupled = false ∨ s.enumerator.phase ≠ .idle) →
        SettledFrom ((s.taking m rest).reply r .done) t) ∧
      (s.enumerator.coupled = true → s.enumerator.phase = .idle → s.scheduler.queue.length < 8 →
        SettledFrom ((((s.taking m rest).reply r .done).withEnumerator
          { s.enumerator with phase := .pending }).withQueue
            (⟨.enumerate, (s.advance m).now⟩ :: s.scheduler.queue)) t) ∧
      (s.enumerator.coupled = true → s.enumerator.phase = .idle → 8 ≤ s.scheduler.queue.length →
        let wanted := ((s.taking m rest).reply r .done).withEnumerator { s.enumerator with phase := .pending }
        let scan : Entry → Prop := fun e => ∃ p mask, e.work = .query p mask .scan
        ((¬ ∃ e ∈ s.scheduler.queue, scan e) →
          SettledFrom (wanted.withScheduler { s.scheduler with enumerateWaiting := true }) t) ∧
        ∀ before p mask at_ after, s.scheduler.queue = before ++ ⟨.query p mask .scan, at_⟩ :: after →
          (∀ e ∈ after, ¬ scan e) →
          SettledFrom ((wanted.withQueue (⟨.enumerate, (s.advance m).now⟩ :: (before ++ after))).countEvent
            .scanSkipped (some (p.val + 1))) t)

/-- PART_RESET: its REPLY, DONE, is placed and marked with the reset that follows it, and no further request is taken
until it has been sent (R198). -/
def Obligations.PartResetWaitsForItsReply : Prop :=
  ∀ (s : State) (m : Moment) (r : Request) (rest : List Request),
    (s.Accepts .partResetHard r rest →
      ∃ t, exec (.partResetHard m r) s = .next t ∧
        SettledFrom ((s.taking m rest).withReport
          { s.report with
            received := rest
            reset := .replying
            transmit := s.report.transmit ++
              [⟨.reply, [BitVec.ofNat 8 (r.kind + 16 * r.source.code + 64 * r.operation), r.number, 0, 0, 0, 0],
                some .hard⟩] }) t ∧
        ∀ q, t.report.afterTaking q = none) ∧
    (s.Accepts .partResetSoft r rest →
      ∃ t, exec (.partResetSoft m r) s = .next t ∧
        SettledFrom ((s.taking m rest).withReport
          { s.report with
            received := rest
            reset := .replying
            transmit := s.report.transmit ++
              [⟨.reply, [BitVec.ofNat 8 (r.kind + 16 * r.source.code + 64 * r.operation), r.number, 0, 0, 0, 0],
                some .soft⟩] }) t ∧
        ∀ q, t.report.afterTaking q = none)

/-! ### Reports -/

/-- TRANSMITTER_FREE: the message on the bus has been sent, and one from the queue leaves it, a waiting deferred REPLY
taking the place; after a report, and with nothing on the bus, queue and deferred REPLYs stand; the REPLY to a
PART_RESET lets the reset be taken, and the controller takes no further message before it; else it takes the head of
the queue, then a due image, then a due summary (R173, R177, R179, R198). That a report counts as sent when the
controller takes it is the model's reading (log entry 25). What the image holds: the telltale of each function and of
TRAIN, mode, overflow flag, count, revision and worst site (R175, R176); what the summary holds: the class of each
function, the two flags and the link state (R178, R179, 13.4). -/
def Obligations.TransmitterTakesTheNextMessage : Prop :=
  (∀ (s : State) (m : Moment),
      ∃ t, exec (.transmitterFree m) s = .next t ∧
        ∀ x : Report, x = s.report.finish →
          (∀ h tail b, s.report.transmit = h :: tail → s.report.onBus = some b → b.fromQueue = true →
            x = { s.report with
              onBus := none, transmit := tail ++ s.report.deferred.take 1, deferred := s.report.deferred.drop 1
              reset := match h.thenReset with
                | some k => .due k
                | none => s.report.reset }) ∧
          ((s.report.transmit = [] ∨ ∀ b, s.report.onBus = some b → b.fromQueue = false) →
            x = { s.report with onBus := none }) ∧
          ((∃ k, x.reset = .due k) → SettledFrom ((s.advance m).withReport x) t) ∧
          ((∀ k, x.reset ≠ .due k) →
            (∀ h tail, x.transmit = h :: tail →
              let frame : CanFrame := ⟨BitVec.ofNat 11 (s.ignition.canBase + 64 + h.kind.code), false, h.data⟩
              SettledFrom ((s.advance m).withReport { x with onBus := some ⟨frame, true⟩ }) t) ∧
            (x.transmit = [] → x.imageDue = true →
              t.report.onBus = some ⟨⟨BitVec.ofNat 11 (s.ignition.canBase + 64 + 2), false, s.imageNow⟩, false⟩ ∧
                t.report.lastImage = some (s.imageNow, (s.advance m).now) ∧ t.report.imageDue = false ∧
                t.report.transmit = [] ∧ t.report.deferred = x.deferred ∧ t.report.received = x.received) ∧
            (x.transmit = [] → x.imageDue = false → x.summaryDue = true →
              t.report.onBus = some ⟨⟨BitVec.ofNat 11 (s.ignition.canBase + 64 + 3), false, s.summaryNow⟩, false⟩ ∧
                t.report.lastSummary = some (s.summaryNow, (s.advance m).now) ∧ t.report.summaryDue = false ∧
                t.report.transmit = [] ∧ t.report.deferred = x.deferred ∧ t.report.received = x.received) ∧
            (x.transmit = [] → x.imageDue = false → x.summaryDue = false →
              SettledFrom ((s.advance m).withReport x) t))) ∧
  (∀ s : State,
    let rs := s.faults.records
    let image (i : Nat) : Nat := ((s.imageNow[i]?).getD 0).toNat
    let telltale (g : FaultRecord → Prop) (code : Nat) : Prop :=
      ((∃ r ∈ rs, g r ∧ r.state ≠ .activeAck) → code = 2) ∧
        ((∃ r ∈ rs, g r) → (∀ r ∈ rs, g r → r.state = .activeAck) → code = 1) ∧ ((∀ r ∈ rs, ¬ g r) → code = 0)
    let counts (r : FaultRecord) : Prop := r.state ≠ .activeAck ∨ ∀ x ∈ rs, x.state = .activeAck
    s.imageNow.length = 8 ∧
    (∀ f : Func, telltale (fun r => r.site.function = some f) ((image 0 * 256 + image 1) / 4 ^ f.val % 4)) ∧
    telltale (fun r => r.site.function = none) (image 2 % 4) ∧
    (s.ignition.part = .waking → image 2 / 4 % 8 = 0) ∧
    (s.ignition.part = .running → image 2 / 4 % 8 =
      if s.intake.lost then 2
      else match s.train.linkState with
        | .noTrain => 4
        | .down => 3
        | .live => 1) ∧
    image 2 / 32 % 2 = (if s.faults.overflow then 1 else 0) ∧ image 2 / 64 = (if rs = [] then 0 else 1) ∧
    image 3 = rs.length % 256 ∧ image 4 = s.faults.revision.toNat ∧
    (rs = [] → image 5 = 0 ∧ image 6 = 0 ∧ image 7 = 0) ∧
    ∀ before r after, rs = before ++ r :: after → counts r → (∀ x ∈ before, counts x → x.severity < r.severity) →
      (∀ x ∈ after, counts x → x.severity ≤ r.severity) →
      image 5 = r.site.kindCode + 8 * r.site.number ∧
      image 6 = (match r.site.function with | none => 15 | some f => f.val) + 16 * r.kind.code ∧
      image 7 = r.severity % 256) ∧
  ∀ s : State,
    let summary (i : Nat) : Nat := ((s.summaryNow[i]?).getD 0).toNat
    let cellOf (f : Func) (c : Cell) : Prop := (∃ p, c = s.cell (.lamp p f)) ∨ c = s.cell (.line f)
    let faulty (c : Cell) : Prop := c.state = .faulted ∨ c.state = .recovering
    let confirmed (f : Func) (g : FaultKind → Prop) : Prop :=
      ∃ c v, cellOf f c ∧ faulty c ∧ c.confirmed = some v ∧ g v.faultKind
    let open_ (k : FaultKind) : Prop := k = .openCircuit
    let tooMuch (k : FaultKind) : Prop := k = .overload ∨ k = .unexpectedLoad
    s.summaryNow.length = 4 ∧
    (∀ f : Func,
      let class_ := (summary 0 * 65536 + summary 1 * 256 + summary 2) / 8 ^ f.val % 8
      (confirmed f open_ → class_ = 2) ∧
      (¬ confirmed f open_ → confirmed f tooMuch → class_ = 3) ∧
      (¬ confirmed f open_ → ¬ confirmed f tooMuch → confirmed f (fun k => k = .partialLoss) → class_ = 1) ∧
      ((∀ c, cellOf f c → ¬ faulty c) → (∃ c, cellOf f c ∧ c.state = .clean) → class_ = 0) ∧
      ((∀ c, cellOf f c → ¬ faulty c) → (∀ c, cellOf f c → c.state ≠ .clean) → class_ = 4)) ∧
    (summary 3 % 2 = 1 ↔ confirmed 2 fun k => k = .partialLoss ∨ k = .openCircuit) ∧
    (summary 3 / 2 % 2 = 1 ↔ confirmed 3 fun k => k = .partialLoss ∨ k = .openCircuit) ∧
    summary 3 / 4 = (match s.train.linkState with | .noTrain => 0 | .down => 1 | .live => 2)

/-- TELLTALE_DUE and LAMP_SUMMARY_DUE, in every state: while the part is awake, the image falls due 200 ms after the last
one was sent and the summary 500 ms after its last one, or 50 ms after it when it has changed; a report that was due stays
due, and otherwise none falls due: not before its time, not before a first one has been sent, and not while ASLEEP (R177,
R179). A command that comes before its time does nothing else: the model's choice (log entries 6 and 7). -/
def Obligations.ReportsFallDueByTheirPeriods : Prop :=
  ∀ (s : State) (m : Moment),
    let now := s.advance m
    let period (last : Option (List Byte × Time)) (ms : Nat) : Prop :=
      s.ignition.part ≠ .asleep ∧ ∃ sent at_, last = some (sent, at_) ∧ ms ≤ now.age at_
    let changed (last : Option (List Byte × Time)) (present : List Byte) : Prop :=
      s.ignition.part ≠ .asleep ∧ ∃ sent at_, last = some (sent, at_) ∧ present ≠ sent ∧ 50 ≤ now.age at_
    (∃ t, exec (.telltaleDue m) s = .next t ∧
      let falls : Prop := period s.report.lastImage 200 ∨ changed s.report.lastImage s.imageNow
      (falls → SettledFrom (now.withReport { s.report with imageDue := true }) t) ∧
      (¬ falls → SettledFrom now t) ∧
      (t.report.imageDue = true ↔ s.report.imageDue = true ∨ falls ∨ changed s.report.lastImage t.imageNow) ∧
      (t.report.summaryDue = true ↔ s.report.summaryDue = true ∨ changed s.report.lastSummary t.summaryNow)) ∧
    (∃ t, exec (.lampSummaryDue m) s = .next t ∧
      let falls : Prop := period s.report.lastSummary 500 ∨ changed s.report.lastSummary s.summaryNow
      (falls → SettledFrom (now.withReport { s.report with summaryDue := true }) t) ∧
      (¬ falls → SettledFrom now t) ∧
      (t.report.summaryDue = true ↔ s.report.summaryDue = true ∨ falls ∨ changed s.report.lastSummary t.summaryNow) ∧
      (t.report.imageDue = true ↔ s.report.imageDue = true ∨ changed s.report.lastImage t.imageNow))

/-! ### Socket, lines and timers -/

/-- SOCKET_DETECT_CHANGE, the input having held its level for 200 ms; one that has not changes nothing (R15). ASLEEP,
the sensed state alone changes. Awake: COUPLED out of NO_TRAIN opens the line cells, sets the link state and wants an
enumeration (R7, R41, R42); UNCOUPLED ends a wanted enumeration, and every position departs (R44, R45, R49). That the
link state is set once from what the command leaves is the model's reading (log entry 36), and so is from when a level
counts as held (48). -/
def Obligations.SocketDetectSetsMapAndLink : Prop :=
  ∀ (s : State) (m : Moment),
    let held : Prop := m.inputs.socketCoupled = s.inputs.socketCoupled ∧
      s.steady.socket + 200000 ≤ s.clock + m.elapsed
    ((¬ held ∨ m.inputs.socketCoupled = s.sense.coupled) →
      ∃ t, exec (.socketDetectChange m) s = .next t ∧ SettledFrom (s.advance m) t) ∧
    (held → m.inputs.socketCoupled ≠ s.sense.coupled → s.ignition.part = .asleep →
      ∃ t, exec (.socketDetectChange m) s = .next t ∧
        SettledFrom ((s.advance m).withSense { s.sense with coupled := m.inputs.socketCoupled }) t) ∧
    (held → m.inputs.socketCoupled = true → s.sense.coupled = false → s.ignition.part ≠ .asleep →
        s.train.linkState = .noTrain → s.enumerator.phase = .idle → s.scheduler.queue.length < 8 →
        s.scheduler.enumerateWaiting = false →
      ∃ t, exec (.socketDetectChange m) s = .next t ∧
        t.sense = { s.sense with coupled := true } ∧ t.enumerator.coupled = true ∧
        t.train.records = s.train.records ∧ t.train.endCertain = s.train.endCertain ∧
        ((∃ p, s.posState p = some .present) → t.train.linkState = .live) ∧
        ((¬ ∃ p, s.posState p = some .present) → t.train.linkState = .down) ∧
        (∀ f : Func, t.cell (.line f) = { Cell.absent with state := .unverified }) ∧
        (∀ p f, t.cell (.lamp p f) = { s.cell (.lamp p f) with listed := (t.cell (.lamp p f)).listed }) ∧
        t.enumerator.phase = .pending ∧
        t.scheduler = { s.scheduler with queue := ⟨.enumerate, (s.advance m).now⟩ :: s.scheduler.queue } ∧
        s.faults.records <+: t.faults.records ∧ t.intake = s.intake ∧ t.link = s.link ∧ t.health = s.health ∧
        t.attention = s.attention ∧ t.apply = s.apply ∧ t.counters = s.counters ∧
        t.ignition.part = s.ignition.part ∧ t.ignition.settings = s.ignition.settings) ∧
    (held → m.inputs.socketCoupled = false → s.sense.coupled = true → s.ignition.part ≠ .asleep →
        s.train.linkState ≠ .noTrain →
      ∃ t, exec (.socketDetectChange m) s = .next t ∧
        t.sense = { s.sense with coupled := false } ∧ t.enumerator.coupled = false ∧ t.enumerator.phase = .idle ∧
        (∀ p, t.record p = none) ∧ t.train.linkState = .noTrain ∧ t.train.endCertain = false ∧
        (∀ f : Func, t.cell (.line f) = Cell.absent) ∧
        (∀ p f, (s.record p).isSome = true → t.cell (.lamp p f) = Cell.absent) ∧
        (∀ f, s.enumerator.phase ≠ .idle → ⟨.enumerate, f⟩ ∉ t.scheduler.queue) ∧
        s.report.transmit <+: t.report.transmit ∧ t.report.received = s.report.received ∧
        t.intake = s.intake ∧ t.link = s.link ∧ t.health = s.health ∧ t.attention = s.attention ∧
        t.counters = s.counters ∧ t.scheduler.tag = s.scheduler.tag ∧
        t.ignition.part = (if s.enumerator.phase = .idle then s.ignition.part else .running) ∧
        t.ignition.settings = s.ignition.settings ∧ t.ignition.library = s.ignition.library)

/-- DRIVEN_CHANGE: the driven flag of f follows the driver's indication; driven-since is set at a change from false to
true and is absent while the flag is false (R15). SETTLE_TEST_POINT: 30 ms, and then 100 ms, after driven-since with
the line still driven, a line sample is taken while RUNNING for a line cell that is not ABSENT. It is held under
command loss, not taken for a function commanded OFF, held with SETTLING before the settle time, and accepted
otherwise: in LIVE it is stored unjudged and segment 0 is checked, in DOWN it is stored and judged by line-only
judgement (R16, R17, R121, R131). That a sample accepted unjudged leaves the hold reason is log entry 55; the
saturation mark of the sample, the clipping of readings and the screening of UNKNOWN are log entries 34, 47 and 39; a
test point that comes before its time, or without a driven-since, does nothing (6 and 7). -/
def Obligations.LineSamplesAreScreened : Prop :=
  ∀ (s : State) (m : Moment) (f : Func),
    (∃ t, exec (.drivenChange m f) s = .next t ∧
      SettledFrom ((s.advance m).withSense
        { s.sense with
          channels := s.sense.channels.set f
            (if m.inputs.driven[f] = (s.sense.channels[f]).driven then s.sense.channels[f]
            else ⟨m.inputs.driven[f], if m.inputs.driven[f] then some (s.advance m).now else none, 0⟩) }) t) ∧
    let now := s.advance m
    let channel := s.sense.channels[f]
    let passed := now.withSense
      { s.sense with channels := s.sense.channels.set f { channel with testPoints := channel.testPoints + 1 } }
    let slow : Prop := (∀ p, s.record p = none) ∨
      ∃ p r, s.record p = some r ∧
        (r.applied[f] = none ∨ ∃ x, r.applied[f] = some x ∧ x.tech = .filament ∧ 1 ≤ x.n)
    let sample : Sample :=
      { inCurrent := min 16000 m.inputs.current[f], loadCurrent := 0, voltage := min 400 m.inputs.voltage,
        epoch := s.intake.epoch, onPhase := true, takenAt := now.now,
        inSaturated := decide (16000 ≤ m.inputs.current[f]), loadSaturated := false }
    ∃ t, exec (.settleTestPoint m f) s = .next t ∧
      (∀ since, channel.since = some since →
        let reached : Prop := channel.driven = true ∧
          ((channel.testPoints = 0 ∧ 30 ≤ now.age since) ∨ (channel.testPoints = 1 ∧ 100 ≤ now.age since))
        (¬ reached → SettledFrom now t) ∧
        (reached → (s.ignition.part ≠ .running ∨ (s.cell (.line f)).state = .absent) → SettledFrom passed t) ∧
        (reached → s.ignition.part = .running → (s.cell (.line f)).state ≠ .absent →
          (s.intake.lost = true →
            SettledFrom (passed.setCell (.line f) { s.cell (.line f) with hold := some .commandLost }) t) ∧
          (s.intake.lost = false → s.intake.states[f] = .off → SettledFrom passed t) ∧
          (s.intake.lost = false → s.intake.states[f] ≠ .off → slow → now.age since < 100 →
            SettledFrom (passed.setCell (.line f) { s.cell (.line f) with hold := some .settling }) t) ∧
          (s.intake.lost = false → s.intake.states[f] ≠ .off → (slow → 100 ≤ now.age since) →
            (s.train.linkState ≠ .noTrain → (t.cell (.line f)).sample = some sample) ∧
            (s.train.linkState = .live →
              t.cell (.line f) =
                  { s.cell (.line f) with sample := some sample, listed := (t.cell (.line f)).listed } ∧
                ((s.cell (.segment 0 f)).state ≠ .absent → ∀ x,
                  (passed.storeSample (.line f) sample).harnessRuling 0 f true = some x →
                  t.cell (.segment 0 f) =
                    { (s.cell (.segment 0 f)).ruled s.ignition.settings now.now x with
                      listed := (t.cell (.segment 0 f)).listed })) ∧
            (s.train.linkState = .down →
              t.cell (.line f) =
                { ({ s.cell (.line f) with sample := some sample } : Cell).judged s.ignition.settings now.now
                    (s.judgeLine f sample) with
                  listed := (t.cell (.line f)).listed }) ∧
            (s.train.linkState = .down → sample.voltage < s.ignition.settings.minJudgeV →
              SettledFrom (passed.setCell (.line f)
                { s.cell (.line f) with sample := some sample, hold := some .lowSupply }) t) ∧
            t.sense = passed.sense ∧ t.intake = s.intake ∧ t.link = s.link ∧ t.health = s.health ∧
            t.attention = s.attention ∧ t.train = s.train ∧ t.apply = s.apply ∧
            t.ignition.settings = s.ignition.settings))) ∧
      (channel.since = none → SettledFrom now t)

/-- SCAN_ROUND falls while RUNNING, at once on entry or SCAN_PERIOD after the last one, and at no other time. A QUERY
of the lit functions is offered for each PRESENT or SILENT position: it joins the mask of a queued one, or stands at
the tail while a place is free, or is counted SCAN_SKIPPED; then a PROFILE for each of them that wants a description,
has none queued and none in the slot; no offer is made with no function lit, as under command loss (R61, R79, R80, R83,
R84). A line sample of each function is taken for a line cell that is not ABSENT: held with COMMAND_LOST, not taken for
a function commanded OFF, held with NOT_DRIVEN or OFF_PHASE while not driven, held with SETTLING before the settle
time, and accepted otherwise: judged in DOWN, and in LIVE checked at segment 0 (R16, R17). The queue length is counted
QUEUE_OCCUPANCY, and the round counts for the watch (R188, R191). The mark for a round that falls at once is the
model's own (log entry 45); what a sample accepted unjudged does to the hold reason is log entry 55, its marks and
readings 34, 47 and 39; a SCAN_ROUND when none falls changes nothing (6 and 7). -/
def Obligations.ScanRoundsQueueQueries : Prop :=
  ∀ (s : State) (m : Moment),
    let now := s.advance m
    let falls : Prop := s.ignition.part = .running ∧
      (s.scheduler.roundAtOnce = true ∨
        ∃ at_, s.scheduler.lastRound = some at_ ∧ s.ignition.settings.scanPeriod ≤ now.age at_)
    let lit : Func → Prop := fun f => s.intake.states[f] = .on ∨ s.intake.states[f] = .flash
    let queried (p : Pos) : Bool := decide (s.posState p = some .present ∨ s.posState p = some .silent)
    let hasQuery (p : Pos) : Bool := s.scheduler.queue.any fun e =>
      match e.work with
      | .query q _ _ => decide (q = p)
      | .profile _ => false
      | .posReset _ _ => false
      | .enumerate => false
    let hasProfile (p : Pos) : Bool := s.scheduler.queue.any fun e => decide (e.work = .profile p)
    let inSlot (p : Pos) : Prop := ∃ x, s.scheduler.slot = .addressed x ∧ x.sent = .profileReq p
    let wants (p : Pos) : Prop := ∃ r, s.record p = some r ∧ r.wanted = true
    let same (t : State) (k : CellKey) (c : Cell) : Prop := t.cell k = { c with listed := (t.cell k).listed }
    ∃ t, exec (.scanRound m) s = .next t ∧
      (¬ falls → SettledFrom now t) ∧
      (falls →
        t.scheduler.roundAtOnce = false ∧ t.scheduler.lastRound = some now.now ∧
        t.scheduler.tag = s.scheduler.tag ∧ t.scheduler.slot = s.scheduler.slot ∧
        (∀ (mask : Mask) (profiles : List Pos), (∀ f : Func, mask.getLsbD f.val = true ↔ lit f) →
          profiles.Pairwise (· < ·) →
          (∀ p, p ∈ profiles ↔ queried p = true ∧ wants p ∧ hasProfile p = false ∧ ¬ inSlot p) →
          s.scheduler.enumerateWaiting = false →
          let offered := if mask = 0 then [] else positions.filter fun p => queried p && !hasQuery p
          let places := 8 - s.scheduler.queue.length
          let queries : List Entry :=
            (s.scheduler.queue.map fun e =>
              match e.work with
              | .query p old o => if queried p then { e with work := .query p (old ||| mask) o } else e
              | .profile _ => e
              | .posReset _ _ => e
              | .enumerate => e) ++
            (offered.take places).map fun p => ⟨.query p mask .scan, now.now⟩
          t.scheduler.queue =
            queries ++ (profiles.take (8 - queries.length)).map (fun p => ⟨.profile p, now.now⟩) ∧
          ∀ i : Fin 4,
            ((s.counters[i]).selector = .scanSkipped → t.counters[i] =
              (((offered.drop places).foldl (fun u p => u.countEvent .scanSkipped (some (p.val + 1))) now).counters)[i]) ∧
            ((s.counters[i]).selector = .queueOccupancy →
              t.counters[i] = ((now.countBy .queueOccupancy none t.scheduler.queue.length).counters)[i])) ∧
        (∀ p f, same t (.lamp p f) (s.cell (.lamp p f))) ∧
        (∀ g f, (g ≠ 0 ∨ s.train.linkState ≠ .live) → same t (.segment g f) (s.cell (.segment g f))) ∧
        (s.intake.lost = true → ∀ k, t.cell k =
          match k with
          | .line _ =>
            if (s.cell k).state = .absent then { s.cell k with listed := (t.cell k).listed }
            else { s.cell k with hold := some .commandLost, listed := (t.cell k).listed }
          | .lamp _ _ => { s.cell k with listed := (t.cell k).listed }
          | .segment _ _ => { s.cell k with listed := (t.cell k).listed }) ∧
        (s.intake.lost = false → ∀ f : Func,
          let line := s.cell (.line f)
          let channel := s.sense.channels[f]
          let held (h : HoldReason) : Prop := same t (.line f) { line with hold := some h }
          let slow : Prop := (∀ p, s.record p = none) ∨
            ∃ p r, s.record p = some r ∧
              (r.applied[f] = none ∨ ∃ x, r.applied[f] = some x ∧ x.tech = .filament ∧ 1 ≤ x.n)
          let sample : Sample :=
            { inCurrent := min 16000 m.inputs.current[f], loadCurrent := 0, voltage := min 400 m.inputs.voltage,
              epoch := s.intake.epoch, onPhase := true, takenAt := now.now,
              inSaturated := decide (16000 ≤ m.inputs.current[f]), loadSaturated := false }
          ((line.state = .absent ∨ s.intake.states[f] = .off) →
            same t (.line f) line ∧ same t (.segment 0 f) (s.cell (.segment 0 f))) ∧
          (line.state ≠ .absent → s.intake.states[f] ≠ .off →
            (channel.driven = false → s.intake.states[f] = .flash → held .offPhase) ∧
            (channel.driven = false → s.intake.states[f] ≠ .flash → held .notDriven) ∧
            ∀ since, channel.driven = true → channel.since = some since →
              (now.age since < 30 → held .settling) ∧ (slow → now.age since < 100 → held .settling) ∧
              (30 ≤ now.age since → (slow → 100 ≤ now.age since) →
                (s.train.linkState = .live →
                  same t (.line f) { line with sample := some sample } ∧
                  ((s.cell (.segment 0 f)).state ≠ .absent → ∀ x,
                    (now.storeSample (.line f) sample).harnessRuling 0 f true = some x →
                    same t (.segment 0 f) ((s.cell (.segment 0 f)).ruled s.ignition.settings now.now x))) ∧
                (s.train.linkState = .down →
                  same t (.line f) (({ line with sample := some sample } : Cell).judged s.ignition.settings now.now
                    (s.judgeLine f sample)))))) ∧
        t.health =
          { s.health with
            watch := match s.health.watch with
              | none => none
              | some n => if 3 ≤ n then none else some (n + 1) } ∧
        t.intake = s.intake ∧ t.sense = s.sense ∧ t.link = s.link ∧ t.attention = s.attention ∧ t.train = s.train ∧
        t.apply = s.apply ∧ t.ignition.settings = s.ignition.settings ∧ t.report.transmit = s.report.transmit)

/-- The timers that set one mark each: 250 ms after the last LAMP_STATE a broadcast is owed while the part is awake
(R76); the wait after BUSY ends with the reissue due (R88); the hold after a speed switch ends with the link free (R29);
the recovery hold ends at its time, and the return test is made (R187); the probe interval ends with an enumeration
wanted (R46). Before its time, each changes nothing. A command that comes before its time does nothing: the model's
choice (log entries 6 and 7). -/
def Obligations.TimersSetTheirMarks : Prop :=
  ∀ (s : State) (m : Moment),
    let now := s.advance m
    (∃ t, exec (.lampStateInterval m) s = .next t ∧
      let passed : Prop := ∃ at_, s.scheduler.lastLampState = some at_ ∧ 250 ≤ now.age at_
      (s.ignition.part ≠ .asleep ∧ passed →
        SettledFrom (now.withScheduler { s.scheduler with broadcastOwed := true }) t) ∧
      (¬ (s.ignition.part ≠ .asleep ∧ passed) → SettledFrom now t)) ∧
    (∃ t, exec (.reissueDue m) s = .next t ∧
      ∀ x due, s.scheduler.slot = .addressed x → x.stage = .reissueAt due →
        (due ≤ now.clock →
          SettledFrom (now.withScheduler { s.scheduler with slot := .addressed { x with stage := .due } }) t) ∧
        (now.clock < due → SettledFrom now t)) ∧
    (∃ t, exec (.speedHoldEnd m) s = .next t ∧
      ∀ end_, s.link.phase = .speedHold end_ →
        (end_ ≤ now.clock → SettledFrom (now.withLink { s.link with phase := .free }) t) ∧
        (now.clock < end_ → SettledFrom now t)) ∧
    (∃ t, exec (.recoveryHoldExpiry m) s = .next t ∧
      (s.health.hold = none → SettledFrom now t) ∧
      ∀ expiry, s.health.hold = some expiry →
        let return_ : Prop := s.ignition.part ≠ .asleep ∧ s.link.speed = .reduced ∧ s.health.cleanRun = 256 ∧
          s.ignition.settings.speedLock = .fullAllowed ∧ s.health.pending = none
        (2 ^ 31 ≤ now.age expiry → SettledFrom now t) ∧
        (now.age expiry < 2 ^ 31 → ¬ return_ → SettledFrom (now.withHealth { s.health with hold := none }) t) ∧
        (now.age expiry < 2 ^ 31 → return_ →
          SettledFrom (now.withHealth { s.health with hold := none, pending := some .full }) t)) ∧
    (∃ t, exec (.probeInterval m) s = .next t ∧
      (s.enumerator.probeFrom = none → SettledFrom now t) ∧
      ∀ from_, s.enumerator.probeFrom = some from_ →
        (now.age from_ < 5000 → SettledFrom now t) ∧
        (5000 ≤ now.age from_ → s.enumerator.phase = .idle → s.ignition.part = .running →
          s.enumerator.coupled = true → (s.train.linkState = .down ∨ ∃ p, s.posState p = some .lost) →
          s.scheduler.queue.length < 8 →
          SettledFrom ((now.withEnumerator { s.enumerator with phase := .pending }).withQueue
            (⟨.enumerate, now.now⟩ :: s.scheduler.queue)) t))

/-! ### The train link -/

/-- LINK_IDLE, less than 1 s after the last frame: the idle link takes a pending speed change first, then an owed
LAMP_STATE, then a due attempt of the request in the slot, then the ENUMERATE at the head of the queue, then the entry
at its head; each answer-bearing frame takes the next tag, and FRAME_SENT is counted. While WAKING a QUERY is passed
over and keeps its place; while RUNNING one whose mask holds no lit function is discarded on the way to the entry sent,
and nothing is sent when no entry is left (R82). A link that is not idle takes nothing (R26, R29, R75, R77, R82, R87).
The gap before the link is idle and the moment FRAME_SENT is counted are the model's readings (log entries 27 and 23).
-/
def Obligations.AnIdleLinkTakesTheFirstFrame : Prop :=
  ∀ (s : State) (m : Moment),
    let now := s.advance m
    let idle : Prop := s.ignition.part ≠ .asleep ∧ s.link.phase = .free ∧ s.link.reception = .none ∧
      ∀ at_, s.link.lineActive = some at_ → at_ + 3 * charTime s.link.speed ≤ now.clock
    let sending (b : State) (f : DownFrame) : State :=
      (b.countEvent .frameSent (some f.target.toNat)).withLink
        { s.link with
          phase := .sending f (now.clock + (5 + f.payload.length) * charTime s.link.speed), reception := .none }
    let codes : Nat := ∑ f : Func, (s.intake.states[f]).code * 4 ^ f.val
    let tag := s.scheduler.tag + 1
    let taken (q : List Entry) (x : Sent) : State := now.withScheduler
      { s.scheduler with queue := q, tag := tag, slot := .addressed ⟨x, 1, 0, tag, false, false, .onLink⟩ }
    ∃ t, exec (.linkIdle m) s = .next t ∧
      (¬ idle → SettledFrom now t) ∧
      (idle → (∃ at_, s.link.lastFrameSent = some at_ ∧ now.age at_ < 1000) →
        (∀ v, s.health.pending = some v →
          SettledFrom (sending now ⟨.speed, 0, 0, [if v = .full then 0 else 1]⟩) t) ∧
        (s.health.pending = none →
          (s.scheduler.broadcastOwed = true →
            SettledFrom (sending (now.withScheduler { s.scheduler with broadcastOwed := false })
              ⟨.lampState, 0, 0, [s.intake.epoch, BitVec.ofNat 8 (codes / 256), BitVec.ofNat 8 codes]⟩) t) ∧
          (s.scheduler.broadcastOwed = false →
            (∀ x, s.scheduler.slot = .addressed x →
              (x.stage = .due →
                SettledFrom (sending
                  (now.withScheduler
                    { s.scheduler with tag := tag, slot := .addressed { x with tag := tag, stage := .onLink } })
                  (x.sent.frame tag)) t) ∧
              (x.stage ≠ .due → SettledFrom now t)) ∧
            (∀ x c, s.scheduler.slot = .enumerating x c → SettledFrom now t) ∧
            (s.scheduler.slot = .empty →
              (s.scheduler.queue = [] → SettledFrom now t) ∧
              (∀ n at_ rest, s.scheduler.queue = ⟨.enumerate, at_⟩ :: rest →
                ((s.enumerator.phase = .pending ∧ n = 1) ∨ ∃ a, s.enumerator.phase = .running n a) →
                SettledFrom (sending
                  ((now.withScheduler { s.scheduler with tag := tag, slot := .enumerating tag false }).withEnumerator
                    { s.enumerator with phase := .running n (Vector.replicate 6 none) })
                  ⟨.enumerate, 0, tag, []⟩) t) ∧
              (∀ p at_ rest, s.scheduler.queue = ⟨.profile p, at_⟩ :: rest →
                SettledFrom (sending (taken rest (.profileReq p)) ⟨.profileReq, BitVec.ofNat 8 (p.val + 1), tag, []⟩) t) ∧
              (∀ p who at_ rest, s.scheduler.queue = ⟨.posReset p who, at_⟩ :: rest →
                SettledFrom (sending (taken rest (.posReset p who))
                  ⟨.posReset, BitVec.ofNat 8 (p.val + 1), tag, []⟩) t) ∧
              (∀ p mask lit o at_ rest, s.scheduler.queue = ⟨.query p mask o, at_⟩ :: rest →
                s.ignition.part = .running →
                (∀ f : Func, lit.getLsbD f.val = true ↔ s.intake.states[f] = .on ∨ s.intake.states[f] = .flash) →
                mask &&& lit ≠ 0 →
                SettledFrom (sending (taken rest (.query p (mask &&& lit)))
                  ⟨.query, BitVec.ofNat 8 (p.val + 1), tag, [mask &&& lit]⟩) t) ∧
              (∀ (lit : Mask) (before : List Entry),
                (∀ f : Func, lit.getLsbD f.val = true ↔ s.intake.states[f] = .on ∨ s.intake.states[f] = .flash) →
                (∀ e ∈ before, ∃ p mask o, e.work = .query p mask o ∧
                  (s.ignition.part = .running → mask &&& lit = 0)) →
                s.scheduler.enumerateWaiting = false →
                (s.scheduler.queue = before →
                  SettledFrom (now.withQueue (if s.ignition.part = .running then [] else before)) t) ∧
                ∀ e after, s.scheduler.queue = before ++ e :: after →
                  let left := if s.ignition.part = .running then after else before ++ after
                  (∀ p, e.work = .profile p →
                    SettledFrom (sending (taken left (.profileReq p))
                      ⟨.profileReq, BitVec.ofNat 8 (p.val + 1), tag, []⟩) t) ∧
                  (∀ p who, e.work = .posReset p who →
                    SettledFrom (sending (taken left (.posReset p who))
                      ⟨.posReset, BitVec.ofNat 8 (p.val + 1), tag, []⟩) t) ∧
                  (∀ p mask o, e.work = .query p mask o → s.ignition.part = .running → mask &&& lit ≠ 0 →
                    SettledFrom (sending (taken left (.query p (mask &&& lit)))
                      ⟨.query, BitVec.ofNat 8 (p.val + 1), tag, [mask &&& lit]⟩) t))))))

/-- The wake pulse (R28, R104): before a frame that follows 1 s of silence, whichever an idle link takes first (a
pending SPEED, an owed LAMP_STATE, a due attempt of the request in the slot, the ENUMERATE or the entry that may be
sent first of the queue: R75, R76, R82, R96, R189), the part drives the line low for 2 ms, from IDLE in OWN_DRIVE, and
waits first for a pulse being measured; at the release the monitor takes the line as it finds it, and 5 ms later the
frame is sent. The model's readings and choices: FRAME_SENT is counted when the frame is handed over (log entry 23);
the gap before the link is idle (27); what the monitor makes of the line at the release in each state (28); a frame
under reception at the end of the hold is dropped with no outcome (19); WAKE_PULSE_RELEASE and WAKE_PULSE_HOLD_END
before their time do nothing (6 and 7). -/
def Obligations.AWakePulsePrecedesTheFrame : Prop :=
  ∀ (s : State) (m : Moment),
    let now := s.advance m
    let codes : Nat := ∑ f : Func, (s.intake.states[f]).code * 4 ^ f.val
    let tag := s.scheduler.tag + 1
    let taken (q : List Entry) (x : Sent) : State := now.withScheduler
      { s.scheduler with queue := q, tag := tag, slot := .addressed ⟨x, 1, 0, tag, false, false, .onLink⟩ }
    (∃ t, exec (.linkIdle m) s = .next t ∧
      let precedes (b : State) (f : DownFrame) : Prop :=
        let offered := b.countEvent .frameSent (some f.target.toNat)
        let driven : State := offered.withLink { s.link with phase := .wakeDrive f (now.clock + 2000) }
        (s.attention.monitor = .idle →
          SettledFrom (driven.withAttention { s.attention with monitor := .ownDrive }) t) ∧
        (∀ start known rise, s.attention.monitor = .measuring start known rise →
          SettledFrom (offered.withLink { s.link with phase := .waitPulse f }) t) ∧
        (∀ x, (s.attention.monitor = .stuck x ∨ ∃ since, s.attention.monitor = .releasing since) →
          SettledFrom driven t)
      (s.ignition.part ≠ .asleep → s.link.phase = .free → s.link.reception = .none →
        (∀ at_, s.link.lineActive = some at_ → at_ + 3 * charTime s.link.speed ≤ now.clock) →
        (∀ at_, s.link.lastFrameSent = some at_ → 1000 ≤ now.age at_) →
        (∀ v, s.health.pending = some v → precedes now ⟨.speed, 0, 0, [if v = .full then 0 else 1]⟩) ∧
        (s.health.pending = none → s.scheduler.broadcastOwed = true →
          precedes (now.withScheduler { s.scheduler with broadcastOwed := false })
            ⟨.lampState, 0, 0, [s.intake.epoch, BitVec.ofNat 8 (codes / 256), BitVec.ofNat 8 codes]⟩) ∧
        (s.health.pending = none → s.scheduler.broadcastOwed = false →
          (∀ x, s.scheduler.slot = .addressed x → x.stage = .due →
            precedes
              (now.withScheduler
                { s.scheduler with tag := tag, slot := .addressed { x with tag := tag, stage := .onLink } })
              (x.sent.frame tag)) ∧
          (∀ n at_ rest, s.scheduler.slot = .empty → s.scheduler.queue = ⟨.enumerate, at_⟩ :: rest →
            ((s.enumerator.phase = .pending ∧ n = 1) ∨ ∃ a, s.enumerator.phase = .running n a) →
            precedes
              ((now.withScheduler { s.scheduler with tag := tag, slot := .enumerating tag false }).withEnumerator
                { s.enumerator with phase := .running n (Vector.replicate 6 none) })
              ⟨.enumerate, 0, tag, []⟩) ∧
          (∀ (lit : Mask) (before : List Entry) (e : Entry) (after : List Entry), s.scheduler.slot = .empty →
            s.scheduler.queue = before ++ e :: after →
            (before = [] ∨ s.scheduler.enumerateWaiting = false) →
            (∀ f : Func, lit.getLsbD f.val = true ↔ s.intake.states[f] = .on ∨ s.intake.states[f] = .flash) →
            (∀ e ∈ before, ∃ p mask o, e.work = .query p mask o ∧
              (s.ignition.part = .running → mask &&& lit = 0)) →
            let left := if s.ignition.part = .running then after else before ++ after
            (∀ p, e.work = .profile p →
              precedes (taken left (.profileReq p)) ⟨.profileReq, BitVec.ofNat 8 (p.val + 1), tag, []⟩) ∧
            (∀ p who, e.work = .posReset p who →
              precedes (taken left (.posReset p who)) ⟨.posReset, BitVec.ofNat 8 (p.val + 1), tag, []⟩) ∧
            (∀ p mask o, e.work = .query p mask o → s.ignition.part = .running → mask &&& lit ≠ 0 →
              precedes (taken left (.query p (mask &&& lit)))
                ⟨.query, BitVec.ofNat 8 (p.val + 1), tag, [mask &&& lit]⟩))))) ∧
    (∃ t, exec (.wakePulseRelease m) s = .next t ∧
      ∀ f end_, s.link.phase = .wakeDrive f end_ →
        let line := now.withLink { s.link with phase := .wakeHold f (now.clock + 5000) }
        let found (x : Monitor) : State := line.withAttention ⟨m.inputs.attentionHigh, x, s.attention.stuckMark⟩
        (now.clock < end_ → SettledFrom now t) ∧
        (end_ ≤ now.clock →
          (s.attention.monitor = .ownDrive → m.inputs.attentionHigh = true → SettledFrom (found .idle) t) ∧
          (s.attention.monitor = .ownDrive → m.inputs.attentionHigh = false →
            SettledFrom (found (.measuring now.clock true none)) t) ∧
          (∀ since, s.attention.monitor = .releasing since → m.inputs.attentionHigh = true →
            SettledFrom (found (.releasing since)) t) ∧
          (∀ since, s.attention.monitor = .releasing since → m.inputs.attentionHigh = false →
            SettledFrom
              (found (.stuck (if (s.faultAt .link).isNone then some (now.clock + 500000) else none))) t) ∧
          (∀ due, s.attention.monitor = .stuck due → m.inputs.attentionHigh = false →
            SettledFrom (found (.stuck due)) t))) ∧
    (∃ t, exec (.wakePulseHoldEnd m) s = .next t ∧
      ∀ f end_, s.link.phase = .wakeHold f end_ →
        (now.clock < end_ → SettledFrom now t) ∧
        (end_ ≤ now.clock →
          SettledFrom (now.withLink
            { s.link with
              phase := .sending f (now.clock + (5 + f.payload.length) * charTime s.link.speed)
              reception := .none }) t))

/-- FRAME_TRANSMIT_END: the time of the last character is recorded; a LAMP_STATE leaves the link free, an addressed
frame awaits its answer for REPLY_BASE + p ms (four times that at REDUCED), an ENUMERATE opens its window of 22 or 88
ms, and a SPEED frame switches the link, with the line held for 36 character times at the old speed (R26, R29, R43),
and the health logic afresh, the watch begun by a return (R185 to R188); no timer starts when the attempt has failed
during its frame (R99). The model's readings: the time of a LAMP_STATE is that of its last character (log entry 24);
the part's own frame counts for the gap (17). A command that comes before the frame's end does nothing (6 and 7). -/
def Obligations.TheFrameSentDecidesWhatFollows : Prop :=
  ∀ (s : State) (m : Moment) (f : DownFrame) (end_ : Nat), s.link.phase = .sending f end_ →
    let now := s.advance m
    let sent (x : LinkPhase) : Link :=
      { s.link with
        phase := x, lastFrameSent := some now.now, lineActive := some now.clock
        received := some (now.clock, false) }
    let factor := if s.link.speed = .full then 1 else 4
    ∃ t, exec (.frameTransmitEnd m) s = .next t ∧
      (now.clock < end_ → SettledFrom now t) ∧
      (end_ ≤ now.clock →
        (f.kind = .lampState →
          SettledFrom ((now.withLink (sent .free)).withScheduler
            { s.scheduler with lastLampState := some now.now }) t) ∧
        ((f.kind = .query ∨ f.kind = .profileReq ∨ f.kind = .posReset) →
          (∀ x, s.scheduler.slot = .addressed x → x.stage = .onLink →
            SettledFrom (now.withLink (sent (.awaiting (.running
              (now.clock + factor * ((s.ignition.settings.replyBase + (x.sent.pos.val + 1)) * 1000)))))) t) ∧
          ((∀ x, s.scheduler.slot = .addressed x → x.stage ≠ .onLink) →
            SettledFrom (now.withLink (sent .free)) t)) ∧
        (f.kind = .enumerate → SettledFrom (now.withLink (sent (.collecting (now.clock + factor * 22000)))) t) ∧
        (f.kind = .speed →
          let v : Speed := if f.payload = [0] then .full else .reduced
          SettledFrom
            ((now.withLink { sent (.speedHold (now.clock + 36 * charTime s.link.speed)) with speed := v }).withHealth
              { s.health with
                window := [], cleanRun := 0, pending := none
                watch := if v = .full then some 0 else s.health.watch }) t))

/-- Receiving: the first character stops the reply timer with what it has left, and a part that is ASLEEP or sending
receives nothing; a frame cut short by a pause of 2 character times, or one that does not decode, match its check byte
and pass R25, is a CRC failure: counted, recorded as failed by the health logic, and the end of the awaiting attempt,
which the next attempt follows, or after the last one the failed request (R53, R88); in a collection window it is
counted with no position and the window runs on; a whole frame ends with the payload its header gives, and what follows
it begins a frame inside the gap (R21, R26, R27, R89). A failed frame joins the window at FULL, and the fourth failure
decides a drop, which ends a running watch and starts the recovery hold; at REDUCED it ends the clean run and withdraws
a return not yet handed over (R185 to R188). The model's readings and choices: characters that come ASLEEP or while
sending change nothing (log entry 14); the gap after the part's own frame (17); the truncated frame as a failed one
(18); the pause counts from the end of the first character (62); FRAME_TRUNCATED before its pause or with nothing
received does nothing (6 and 7). -/
def Obligations.AFailedFrameEndsTheAttempt : Prop :=
  ∀ (s : State) (m : Moment) (w : List WireChar),
    let now := s.advance m
    let unit := charTime s.link.speed
    let window := (s.health.window ++ [true]).drop (s.health.window.length + 1 - 32)
    let failed : Health :=
      match s.link.speed with
      | .full =>
        if 4 ≤ window.count true ∧ s.health.pending = none then
          { s.health with
            window := window, pending := some .reduced, watch := none
            hold := if s.health.watch = none then s.health.hold else some (now.now + 30000) }
        else { s.health with window := window }
      | .reduced =>
        { s.health with
          cleanRun := 0
          pending := if s.health.pending = some .full ∧ s.link.phase.carriesSpeed = false then none
            else s.health.pending }
    let stands (t : State) : Prop :=
      t.train = s.train ∧ t.intake = s.intake ∧ t.attention = s.attention ∧
        (∀ k, t.cell k = { s.cell k with listed := (t.cell k).listed }) ∧ s.faults.records <+: t.faults.records
    let attempts (x : Flight) : Prop := s.scheduler.slot = .addressed x ∧ x.stage = .onLink ∧ x.gone = false ∧
      x.attempt ≤ s.ignition.settings.retryLimit
    let lastAttempt (x : Flight) : Prop := s.scheduler.slot = .addressed x ∧ x.stage = .onLink ∧ x.gone = false ∧
      s.ignition.settings.retryLimit < x.attempt
    let counted (x : Flight) : State :=
      (now.countEvent .replyCrcFail (some (x.sent.pos.val + 1))).withHealth failed
    let nextAttempt (x : Flight) (t : State) : Prop :=
      t.counters = (now.countEvent .replyCrcFail (some (x.sent.pos.val + 1))).counters ∧
        t.scheduler.slot = .addressed { x with attempt := x.attempt + 1, busyCount := 0, stage := .due }
    (∃ t, exec (.frameReceiveStart m) s = .next t ∧
      ((s.ignition.part = .asleep ∨ (∃ f end_, s.link.phase = .sending f end_)) → SettledFrom now t) ∧
      ∀ deadline last, s.ignition.part ≠ .asleep → s.link.phase = .awaiting (.running deadline) →
        s.link.reception = .none → s.link.received = some (last, false) →
        SettledFrom (now.withLink
          { s.link with
            reception := .receiving (decide (now.clock < last + 3 * unit))
            lineActive := some now.clock, phase := .awaiting (.stopped (deadline - now.clock)) }) t) ∧
    let paused : Prop := ∀ at_, s.link.lineActive = some at_ → at_ + 3 * unit ≤ now.clock
    (∃ t, exec (.frameTruncated m) s = .next t ∧
      ((s.link.reception = .none ∨ ¬ paused) → SettledFrom now t) ∧
      ∀ doomed, s.link.reception = .receiving doomed → paused →
        let last := now.clock - 2 * unit
        let cut (x : LinkPhase) : Link :=
          { s.link with phase := x, reception := .none, lineActive := some last, received := some (last, true) }
        (s.link.phase = .free →
          t.link = cut .free ∧ t.counters = (now.countEvent .replyCrcFail none).counters ∧ t.health = failed ∧
            t.scheduler.slot = s.scheduler.slot ∧ stands t) ∧
        (∀ end_, s.link.phase = .collecting end_ →
          t.link = cut (.collecting end_) ∧ t.counters = (now.countEvent .replyCrcFail none).counters ∧
            t.health = failed ∧ t.scheduler.slot = s.scheduler.slot ∧ t.enumerator.phase = s.enumerator.phase ∧
            stands t) ∧
        ∀ x timer, s.link.phase = .awaiting timer →
          (attempts x → t.link = cut .free ∧ t.health = failed ∧ nextAttempt x t ∧ stands t) ∧
          (lastAttempt x → t.link = cut .free ∧ (counted x).RequestFails t x)) ∧
    (∃ t, exec (.crcFailure m w) s = .next t ∧
      ∀ doomed, s.ignition.part ≠ .asleep → s.link.reception = .receiving doomed →
        let frame := w.take (frameLength s.link.speed w)
        let received (x : LinkPhase) : Prop :=
          t.link.phase = x ∧ t.link.lineActive = some now.clock ∧ t.link.speed = s.link.speed ∧
            t.link.reception = (if w.length ≤ frame.length then .none else .receiving true)
        (doomed = true ∨ parseFrame s.link.speed s.flightMask frame = none) →
        (∀ end_, s.link.phase = .collecting end_ →
          received (.collecting end_) ∧ t.counters = (now.countEvent .replyCrcFail none).counters ∧
            t.health = failed ∧ t.scheduler.slot = s.scheduler.slot ∧ t.enumerator.phase = s.enumerator.phase ∧
            stands t) ∧
        ∀ x timer, s.link.phase = .awaiting timer →
          (attempts x → received .free ∧ t.health = failed ∧ nextAttempt x t ∧ stands t) ∧
          (lastAttempt x → received .free ∧ (counted x).RequestFails t x))

/-- REPLY_TIMER_END: the attempt ends by timeout and is counted; the next attempt falls due while the attempt number is
at most RETRY_LIMIT, and after the last one the request leaves the slot and the silent streak of its position is
counted: a PRESENT position becomes SILENT at 3, with its record raised, its lamp cells and the segment cells beside it
held with SILENT where they are not ABSENT, an enumeration requested and the link state set afresh; a SILENT one whose
record is missing has it raised again; and otherwise no cell changes (R53, R54, R88, R89, R138). The failure then goes
to its owner: a POS_RESET is answered FAILED (R57), and a QUERY's failure while the watch runs ends it, makes REDUCED
pending and starts the 30 s hold (R188); and last to an apply that waits on the position: its flagged entries are
carried out, it is persisted if the apply persists, and the apply goes on, or is complete and answered DONE with its
skipped count (R66 to R68, R70). That a timer which is stopped, or not yet at its end, changes nothing is the model's
choice (log entries 7 and 6). -/
def Obligations.ASilentPositionIsCountedAfterItsRetries : Prop :=
  ∀ (s : State) (m : Moment),
    let now := s.advance m
    ∃ t, exec (.replyTimerEnd m) s = .next t ∧
      (∀ left, s.link.phase = .awaiting (.stopped left) → SettledFrom now t) ∧
      ∀ deadline x, s.link.phase = .awaiting (.running deadline) → s.scheduler.slot = .addressed x →
        x.stage = .onLink → x.gone = false →
        (now.clock < deadline → SettledFrom now t) ∧
        (deadline ≤ now.clock → x.attempt ≤ s.ignition.settings.retryLimit →
          SettledFrom (((now.countEvent .replyTimeout (some (x.sent.pos.val + 1))).withLink
              { s.link with phase := .free }).withScheduler
            { s.scheduler with
              slot := .addressed { x with attempt := x.attempt + 1, busyCount := 0, stage := .due } }) t) ∧
        (deadline ≤ now.clock → s.ignition.settings.retryLimit < x.attempt →
          t.link = { s.link with phase := .free } ∧
          (now.countEvent .replyTimeout (some (x.sent.pos.val + 1))).RequestFails t x)

/-! ### Answers -/

/-- SAMPLE taken as the answer to a QUERY: the request leaves the slot, REPLY_VALID is counted, the streak of p goes to
0 and a SILENT p is PRESENT; each entry is screened in function order: held under command loss, discarded for a
function commanded OFF, held as stale under another epoch, none, or after a command change, held by its status, and
else stored as the latest accepted sample, judged by circuit judgement, and checked against the segment before p and
the segment after it (R53, R55, R90, R92, R93, R108, R128, R131). An apply that waits on p follows the answer: the
sample has been judged under the old profile, p's flagged entries are carried out, lamp cells whose profile changes are
reset, p is persisted if the apply persists, and the apply goes on, or is complete and answered DONE with its skipped
count (R66 to R68, R70). The saturation statuses of the stored sample are log entry 34, the order of the two checks 58.
-/
def Obligations.ASampleIsScreenedEntryByEntry : Prop :=
  ∀ (s : State) (m : Moment) (w : List WireChar) (x : Flight) (p : Pos) (mask : Mask) (voltage : Nat) (epoch : Byte)
    (entries : List SampleEntry) (r : PosRecord),
    x.sent = .query p mask → s.Receives x w (.sample voltage epoch entries) → s.record p = some r →
    ∃ t, exec (.sample m w) s = .next t ∧
      t.scheduler.slot = .empty ∧ t.link.phase = .free ∧ t.link.reception = .none ∧ t.link.speed = s.link.speed ∧
      (∀ i : Fin 4, (s.counters[i]).selector = .replyValid →
        t.counters[i] = (((s.advance m).countEvent .replyValid (some (p.val + 1))).counters)[i]) ∧
      (s.link.speed = .full →
        t.health.window = (s.health.window ++ [false]).drop (s.health.window.length + 1 - 32)) ∧
      (∃ y, t.record p = some y ∧ y.streak = 0 ∧ y.state = (if r.state = .silent then .present else r.state) ∧
        (∀ a, s.apply = some a → p ∈ a.waiting →
          s.Applies t p r y a.persist ∧ (s.advance m).LeavesApply t a p y ∧
            (a.persist = false → t.ignition.library = s.ignition.library)) ∧
        ((∀ a, s.apply = some a → p ∉ a.waiting) →
          y = { r with streak := 0, state := if r.state = .silent then .present else r.state } ∧ t.apply = s.apply ∧
          t.ignition.library = s.ignition.library ∧ t.report.transmit = s.report.transmit ∧
          t.report.deferred = s.report.deferred)) ∧
      (∀ q, q ≠ p → t.record q = s.record q) ∧
      t.intake = s.intake ∧ t.sense = s.sense ∧ t.attention = s.attention ∧ t.ignition.settings = s.ignition.settings ∧
      (s.scheduler.enumerateWaiting = false → t.scheduler.queue = s.scheduler.queue) ∧
      t.scheduler.tag = s.scheduler.tag ∧
      (∀ q f, q ≠ p → t.cell (.lamp q f) = { s.cell (.lamp q f) with listed := (t.cell (.lamp q f)).listed }) ∧
      (∀ f : Func, mask.getLsbD f.val = false →
        (∀ a q, s.apply = some a → p ∈ a.waiting → ¬ r.Changes f q) →
        t.cell (.lamp p f) = { s.cell (.lamp p f) with listed := (t.cell (.lamp p f)).listed }) ∧
      ∀ (i : Nat) (f : Func) (e : SampleEntry), (functions.filter fun g => mask.getLsbD g.val)[i]? = some f →
        entries[i]? = some e → (s.cell (.lamp p f)).state ≠ .absent →
        let held (h : HoldReason) : Prop :=
          t.cell (.lamp p f) = { s.cell (.lamp p f) with hold := some h, listed := (t.cell (.lamp p f)).listed }
        let stale : Prop := x.commandChanged = true ∨ epoch ≠ s.intake.epoch ∨ e.noEpoch = true
        let kept : Prop := ∀ a q, s.apply = some a → p ∈ a.waiting → ¬ r.Changes f q
        (s.intake.lost = true → kept → held .commandLost) ∧
        (s.intake.lost = false → s.intake.states[f] = .off → kept →
          t.cell (.lamp p f) = { s.cell (.lamp p f) with listed := (t.cell (.lamp p f)).listed }) ∧
        (s.intake.lost = false → s.intake.states[f] ≠ .off →
          (stale → kept → held .stale) ∧
          (¬ stale →
            (e.status = .settling → kept → held .settling) ∧
            (e.status = .offPhase → kept → held .offPhase) ∧
            (e.status = .notDriven → kept → held .notDriven) ∧
            (e.status = .valid →
              let now := s.advance m
              let sample : Sample :=
                { inCurrent := e.inCurrent, loadCurrent := e.loadCurrent, voltage := voltage,
                  epoch := s.intake.epoch, onPhase := e.onPhase, takenAt := now.now,
                  inSaturated := e.inSaturated, loadSaturated := e.loadSaturated }
              let set := s.ignition.settings
              let offered := (now.answered p).storeSample (.lamp p f) sample
              let checked (g : Seg) (upNew : Bool) : Prop :=
                t.cell (.segment g f) = { s.cell (.segment g f) with listed := (t.cell (.segment g f)).listed } ∧
                    ((s.cell (.segment g f)).state = .absent ∨ offered.harnessRuling g f upNew = none) ∨
                  (s.cell (.segment g f)).state ≠ .absent ∧
                    ∃ x, offered.harnessRuling g f upNew = some x ∧
                      t.cell (.segment g f) =
                        { (s.cell (.segment g f)).ruled set now.now x with
                          listed := (t.cell (.segment g f)).listed }
              (kept →
                (t.cell (.lamp p f)).sample = some sample ∧
                t.cell (.lamp p f) =
                  { ({ s.cell (.lamp p f) with sample := some sample } : Cell).judged set now.now
                      (judgeCircuit set r.applied[f] sample) with
                    listed := (t.cell (.lamp p f)).listed }) ∧
              checked p.castSucc false ∧ checked p.succ true)))

/-- BUSY taken: while the BUSY count is below 4 a reissue of the same attempt falls due 5 ms later; the fifth BUSY
fails the attempt, and the next one is due while RETRY_LIMIT allows, the streak and the cells standing; at the last
attempt the request fails (R53, R88, R89). BUSY is a valid frame to the link health logic (R185, R187). -/
def Obligations.BusyIsReissuedFourTimes : Prop :=
  ∀ (s : State) (m : Moment) (w : List WireChar) (x : Flight), s.Receives x w .busy →
    let now := s.advance m
    let run := min 256 (s.health.cleanRun + 1)
    let returns : Prop := run = 256 ∧ s.health.hold = none ∧ s.ignition.settings.speedLock = .fullAllowed ∧
      s.health.pending = none
    let clean : Health :=
      match s.link.speed with
      | .full => { s.health with window := (s.health.window ++ [false]).drop (s.health.window.length + 1 - 32) }
      | .reduced => { s.health with cleanRun := run, pending := if returns then some .full else s.health.pending }
    let counted : State := (now.countEvent .replyValid (some (x.sent.pos.val + 1))).countEvent .replyBusy
      (some (x.sent.pos.val + 1))
    ∃ t, exec (.busy m w) s = .next t ∧
      (x.busyCount < 4 →
        t.scheduler.slot = .addressed
          { x with busyCount := x.busyCount + 1, stage := .reissueAt (now.clock + 5000) }) ∧
      (4 ≤ x.busyCount → x.attempt ≤ s.ignition.settings.retryLimit →
        t.scheduler.slot = .addressed { x with attempt := x.attempt + 1, busyCount := 0, stage := .due }) ∧
      ((x.busyCount < 4 ∨ x.attempt ≤ s.ignition.settings.retryLimit) →
        t.counters = counted.counters ∧ t.health = clean ∧
        t.link.phase = .free ∧ t.link.reception = .none ∧ t.train = s.train ∧ t.intake = s.intake ∧
        t.sense = s.sense ∧ t.attention = s.attention ∧ t.apply = s.apply ∧
        (s.scheduler.enumerateWaiting = false → t.scheduler.queue = s.scheduler.queue) ∧
        (∀ k, t.cell k = { s.cell k with listed := (t.cell k).listed }) ∧ s.faults.records <+: t.faults.records ∧
        t.report.transmit = s.report.transmit) ∧
      (4 ≤ x.busyCount → s.ignition.settings.retryLimit < x.attempt →
        t.link.phase = .free ∧ t.link.reception = .none ∧ (counted.withHealth clean).RequestFails t x)

/-- PROFILE_REPLY taken: a description under the record's serial, or for an anonymous record, is applied function by
function, in range, to unknown profiles and under source MODULE to known ones; an applied profile that changes resets its
lamp cell. One under another serial is discarded and an enumeration is wanted (R62, R63, R68, R90). -/
def Obligations.ADescriptionIsAppliedInRange : Prop :=
  ∀ (s : State) (m : Moment) (w : List WireChar) (x : Flight) (p : Pos) (serial : Serial) (ds : List Described)
    (r : PosRecord),
    x.sent = .profileReq p → s.Receives x w (.profileReply serial ds) → s.record p = some r → s.apply = none →
    ∃ t, exec (.profileReply m w) s = .next t ∧
      t.scheduler.slot = .empty ∧ t.link.phase = .free ∧ t.link.reception = .none ∧
      (∀ q, q ≠ p → t.record q = s.record q) ∧ t.intake = s.intake ∧ t.sense = s.sense ∧
      t.attention = s.attention ∧ t.ignition.settings = s.ignition.settings ∧
      t.ignition.library = s.ignition.library ∧ t.scheduler.tag = s.scheduler.tag ∧
      ∃ r', t.record p = some r' ∧ r'.streak = 0 ∧ r'.serial = r.serial ∧ r'.source = r.source ∧
        r'.staged = r.staged ∧ r'.changed = r.changed ∧
        ((r.serial = none ∨ r.serial = some serial) →
          r'.wanted = false ∧ t.enumerator.phase = s.enumerator.phase ∧
          ∀ (f : Func) (d : Described), ds[f.val]? = some d →
            let described : Profile :=
              { n := min 15 d.n, tech := if d.tech = 1 then .led else .filament, power := max 1 (min 100 d.power),
                tol := none }
            ((r.applied[f] = none ∨ r.source = .module) → r'.applied[f] = some described ∧
              (r.applied[f] ≠ some described → (s.cell (.lamp p f)).state ≠ .absent →
                (t.cell (.lamp p f)).state = .unverified ∧ (t.cell (.lamp p f)).confirmed = none ∧
                (t.cell (.lamp p f)).sample = none ∧ (t.cell (.lamp p f)).count = 0)) ∧
            (r.applied[f] ≠ none → r.source ≠ .module → r'.applied[f] = r.applied[f])) ∧
        (∀ other, r.serial = some other → other ≠ serial →
          r'.wanted = r.wanted ∧ r'.applied = r.applied ∧
          (s.enumerator.coupled = true → t.enumerator.phase ≠ .idle))

/-- RESET_DONE taken: the lamp cells of p and the segment cells beside it start afresh, lamp cells without a known
profile held with NOT_FITTED; staged edits are cleared and a description is wanted; a broadcast is owed; and the master
is answered DONE (R53, R57, R76). That a queued PROFILE entry is not placed twice is the model's reading (log entry 35).
-/
def Obligations.APositionResetStartsItsCellsAfresh : Prop :=
  ∀ (s : State) (m : Moment) (w : List WireChar) (x : Flight) (p : Pos) (who : Requester) (r : PosRecord),
    x.sent = .posReset p who → s.Receives x w .resetDone → s.record p = some r → s.apply = none →
    ∃ t, exec (.resetDone m w) s = .next t ∧
      t.scheduler.slot = .empty ∧ t.scheduler.broadcastOwed = true ∧ t.link.phase = .free ∧
      (∃ r', t.record p = some r' ∧ r'.streak = 0 ∧ r'.state = (if r.state = .silent then .present else r.state) ∧
        r'.serial = r.serial ∧ r'.applied = r.applied ∧ r'.source = r.source ∧ r'.wanted = true ∧
        (∀ f : Func, r'.staged[f] = none ∧ r'.changed[f] = false)) ∧
      (∀ q, q ≠ p → t.record q = s.record q) ∧
      (∀ k, (s.cell k).state ≠ .absent → ((∃ f, k = .lamp p f) ∨ ∃ f, k = .segment p.castSucc f ∨ k = .segment p.succ f) →
        t.cell k =
          { state := .unverified, confirmed := none, candidate := none, count := 0, sample := none,
            hold := (match k with
              | .lamp _ f => if (r.applied[f]).isNone then some .notFitted else none
              | .line _ => none
              | .segment _ _ => none),
            resolvable := (s.cell k).resolvable, listed := (t.cell k).listed, confirmedAt := none }) ∧
      (∀ q f, q ≠ p → t.cell (.lamp q f) = { s.cell (.lamp q f) with listed := (t.cell (.lamp q f)).listed }) ∧
      (s.scheduler.queue.length < 8 → s.scheduler.enumerateWaiting = false →
        (∀ e ∈ s.scheduler.queue, e.work ≠ .profile p) →
        t.scheduler.queue = s.scheduler.queue ++ [⟨.profile p, (s.advance m).now⟩]) ∧
      (s.report.transmit.length < 24 → s.report.deferred = [] →
        t.report.transmit = s.report.transmit ++
          [⟨.reply, [BitVec.ofNat 8 (9 + 16 * who.source.code), who.number, 0, 0, 0, 0], none⟩]) ∧
      t.intake = s.intake ∧ t.sense = s.sense ∧ t.attention = s.attention ∧
      t.ignition.settings = s.ignition.settings ∧ t.ignition.library = s.ignition.library

/-- STRAY_FRAME: a valid frame that does not answer the awaited request resumes the reply timer with the time it had
left, and one that comes with nothing awaited, or in the collection window without being an ENUM_REPLY of its tag, is
discarded; the health logic records it as clean, in the window at FULL, and at REDUCED in the clean run, where the return
is decided once the run is 256, no recovery hold runs, SPEED_LOCK allows it and no change is pending; nothing else changes
(R27, R185, R187). A row takes a frame by what its characters hold (log entry 11). -/
def Obligations.AStrayFrameResumesTheTimer : Prop :=
  ∀ (s : State) (m : Moment) (w : List WireChar) (f : UpFrame),
    s.ignition.part ≠ .asleep → s.link.reception = .receiving false →
    parseFrame s.link.speed s.flightMask w = some f →
    let now := s.advance m
    let run := min 256 (s.health.cleanRun + 1)
    let returns : Prop := run = 256 ∧ s.health.hold = none ∧ s.ignition.settings.speedLock = .fullAllowed ∧
      s.health.pending = none
    let clean : Health :=
      match s.link.speed with
      | .full => { s.health with window := (s.health.window ++ [false]).drop (s.health.window.length + 1 - 32) }
      | .reduced => { s.health with cleanRun := run, pending := if returns then some .full else s.health.pending }
    let stray (x : LinkPhase) : State :=
      (now.withLink
        { s.link with
          phase := x, reception := .none, lineActive := some now.clock
          received := some (now.clock, false) }).withHealth clean
    ∃ t, exec (.strayFrame m w) s = .next t ∧
      (∀ x left, s.link.phase = .awaiting (.stopped left) → s.scheduler.slot = .addressed x → x.stage = .onLink →
        (f.body.answers x.sent = false ∨ f.p ≠ x.sent.pos ∨ f.tag ≠ x.tag) →
        SettledFrom (stray (.awaiting (.running (now.clock + left)))) t) ∧
      (s.link.phase = .free → SettledFrom (stray .free) t) ∧
      ∀ end_ tag cancelled, s.link.phase = .collecting end_ → s.scheduler.slot = .enumerating tag cancelled →
        ((∀ answer, f.body ≠ .enumReply answer) ∨ f.tag ≠ tag) → SettledFrom (stray (.collecting end_)) t

/-- ENUM_REPLY within the collection window, with the attempt's tag, is counted and entered in the answer set unless
its position has answered (R27, R43); the health logic records it as clean, in the window at FULL, and at REDUCED in the
clean run, where the return is decided by R187 (R185). -/
def Obligations.AnEnumReplyIsEnteredOnce : Prop :=
  ∀ (s : State) (m : Moment) (w : List WireChar) (p : Pos) (tag : Byte) (answer : EnumAnswer) (end_ n : Nat)
    (a : Vector (Option EnumAnswer) 6),
    s.ignition.part ≠ .asleep → s.link.reception = .receiving false →
    s.link.phase = .collecting end_ → s.scheduler.slot = .enumerating tag false →
    s.enumerator.phase = .running n a → parseFrame s.link.speed none w = some ⟨p, tag, .enumReply answer⟩ →
    let now := s.advance m
    let run := min 256 (s.health.cleanRun + 1)
    let returns : Prop := run = 256 ∧ s.health.hold = none ∧ s.ignition.settings.speedLock = .fullAllowed ∧
      s.health.pending = none
    let clean : Health :=
      match s.link.speed with
      | .full => { s.health with window := (s.health.window ++ [false]).drop (s.health.window.length + 1 - 32) }
      | .reduced => { s.health with cleanRun := run, pending := if returns then some .full else s.health.pending }
    ∃ t, exec (.enumReply m w) s = .next t ∧
      SettledFrom ((((now.countEvent .replyValid (some (p.val + 1))).withLink
          { s.link with
            reception := .none, lineActive := some now.clock, received := some (now.clock, false) }).withHealth
          clean).withEnumerator
          { s.enumerator with phase := .running n (if a[p] = none then a.set p (some answer) else a) }) t

/-- COLLECTION_WINDOW_END: a cancelled attempt is dropped; an incomplete one of the first two is followed by the next;
a complete one, or the third, ends the enumeration, and its result is read against the map. An answer without a record
of its serial at its position makes a PRESENT record; one with it keeps the record and finds a LOST position again; a
gap keeps a record as unanswered and makes an anonymous one; beyond the result a position becomes LOST while the
vehicle moves and no serial has moved, and else departs. A created position takes the profiles of the Library's entry
of its serial, or wants its description, with a PROFILE entry queued; its lamp cells open UNVERIFIED, held NOT_FITTED
without a profile, and the segment cells beside it start afresh (R48). A LOST position raises CHAIN_BREAK on the
segment before the first of them; one active on that segment stands, one on a lower segment heals, one on a higher
segment is removed; in a full list the raise displaces the latest of the cell records of lowest severity; and with none
LOST an active one is healed (R43, R44, R47 to R51, R195). A position that becomes LOST holds its lamp cells and the
segment cells beside it with SILENT, where they are not ABSENT (R138). The model's choices: the order in which a result
is read (log entry 43), and that a duplicate serial at the highest position is a gap without a last flag, so that the
end is then not certain (42); a command before the window's end does nothing (6 and 7). -/
def Obligations.TheWindowEndsItsAttempt : Prop :=
  ∀ (s : State) (m : Moment) (end_ : Nat), s.link.phase = .collecting end_ →
    let now := s.advance m
    let closed := (now.withLink { s.link with phase := .free }).withScheduler { s.scheduler with slot := .empty }
    (∀ tag, s.scheduler.slot = .enumerating tag true →
      ∃ t, exec (.collectionWindowEnd m) s = .next t ∧
        (now.clock < end_ → SettledFrom now t) ∧ (end_ ≤ now.clock → SettledFrom closed t)) ∧
    ∀ (n : Nat) (tag : Byte) (a : Vector (Option EnumAnswer) 6),
      s.scheduler.slot = .enumerating tag false → s.enumerator.phase = .running n a →
      let complete (q : Pos) : Prop :=
        (∃ x, a[q] = some x ∧ x.last = true) ∧ (∀ p : Pos, q < p → a[p] = none) ∧
          (∀ p : Pos, p < q → ∃ x, a[p] = some x ∧ x.last = false) ∧
          ∀ (p p' : Pos) (x y : EnumAnswer), p ≠ p' → a[p] = some x → a[p'] = some y → x.serial ≠ y.serial
      let within (p : Pos) : Prop := ∃ q : Pos, p ≤ q ∧ (a[q]).isSome = true
      let moved (p : Pos) : Prop := ∃ r z q y, s.record p = some r ∧ r.serial = some z ∧ q ≠ p ∧
        resultAt a q = some y ∧ y.serial = z
      let active (g : Seg) : Prop := ∃ x, s.faultAt (.chainBreak g) = some x ∧ x.state ≠ .healedUnack
      let departs (p : Pos) : Prop := ∃ r, s.record p = some r ∧
        (moved p ∨ (∃ x, resultAt a p = some x ∧ r.serial ≠ some x.serial) ∨
          (¬ within p ∧ (s.intake.moving = false ∨ ∃ q, moved q)))
      ∃ t, exec (.collectionWindowEnd m) s = .next t ∧
        let opened (p : Pos) (f : Func) (known : Bool) : Prop := t.cell (.lamp p f) =
          { state := .unverified, confirmed := none, candidate := none, count := 0, sample := none,
            hold := if known then none else some .notFitted, resolvable := false,
            listed := (t.cell (.lamp p f)).listed, confirmedAt := none }
        let beside (g : Seg) (f : Func) : Prop :=
          (t.cell (.segment g f)).state = .unverified ∧ (t.cell (.segment g f)).confirmed = none ∧
            (t.cell (.segment g f)).candidate = none ∧ (t.cell (.segment g f)).count = 0 ∧
            (t.cell (.segment g f)).sample = none ∧
            ((s.cell (.segment g f)).state ≠ .absent ∨ s.faultAt (.cell (.segment g f)) = none →
              t.faultAt (.cell (.segment g f)) = none)
        let created (p : Pos) (r : PosRecord) (entry : Option LibraryEntry) : Prop :=
          r.wanted = entry.isNone ∧
          (∀ f : Func, r.staged[f] = none ∧ r.changed[f] = false ∧ r.applied[f] = entry.map (fun e => e.profiles[f]) ∧
            opened p f entry.isSome ∧ beside p.castSucc f ∧ beside p.succ f) ∧
          (entry = none → s.scheduler.queue.length ≤ 2 → ∃ at_, ⟨.profile p, at_⟩ ∈ t.scheduler.queue)
        let raised (g : Seg) : Prop := ∃ x, t.faultAt (.chainBreak g) = some x ∧ x.kind = .chainBreak ∧
          x.severity = 4 ∧ x.state = .activeUnack ∧ x.lastChange = now.now
        let firstLost (p : Pos) : Prop := t.posState p = some .lost ∧ ∀ q : Pos, q < p → t.posState q ≠ some .lost
        (now.clock < end_ → SettledFrom now t) ∧
        (end_ ≤ now.clock → n < 3 → (¬ ∃ q, complete q) →
          SettledFrom (closed.withEnumerator
            { s.enumerator with phase := .running (n + 1) (Vector.replicate 6 none) }) t) ∧
        (end_ ≤ now.clock → ((∃ q, complete q) ∨ 3 ≤ n) →
          t.enumerator.phase = .idle ∧ t.scheduler.slot = .empty ∧ t.link = { s.link with phase := .free } ∧
          t.ignition.part = (if s.ignition.part = .waking then .running else s.ignition.part) ∧
          t.intake = s.intake ∧ t.sense = s.sense ∧ t.attention = s.attention ∧
          t.ignition.settings = s.ignition.settings ∧
          (∀ f, ⟨.enumerate, f⟩ ∉ t.scheduler.queue) ∧
          (∀ p, within p →
            (∀ x, resultAt a p = some x → (∀ r, s.record p = some r → r.serial ≠ some x.serial) →
              ∃ r, t.record p = some r ∧ r.state = .present ∧ r.serial = some x.serial ∧ r.kind = x.kind ∧
                r.streak = 0 ∧ r.coupledAt = now.now ∧ created p r (s.ignition.library.entries.find? fun e =>
                  decide (e.serial = x.serial)) ∧
                r.source = (if ∃ e ∈ s.ignition.library.entries, e.serial = x.serial then .library else .module)) ∧
            (∀ x r, resultAt a p = some x → s.record p = some r → r.serial = some x.serial →
              t.record p = some (if r.state = .lost then { r with state := .present, streak := 0, kind := x.kind }
                else { r with kind := x.kind })) ∧
            (resultAt a p = none → (s.record p = none ∨ moved p) →
              ∃ r, t.record p = some r ∧ r.state = .present ∧ r.serial = none ∧ r.kind = .trailer ∧ r.streak = 3 ∧
                r.coupledAt = now.now ∧ r.source = .module ∧ r.wanted = true ∧ created p r none) ∧
            (∀ r, resultAt a p = none → s.record p = some r → ¬ moved p →
              t.record p = some (match r.state with
                | .silent => r
                | .lost => { r with state := .present, streak := 3 }
                | .present => if r.serial.isSome then { r with streak := 3 } else r))) ∧
          (∀ p, ¬ within p →
            (s.intake.moving = true → (∀ q, ¬ moved q) →
              t.record p = (s.record p).map fun r => { r with state := .lost }) ∧
            ((s.intake.moving = false ∨ ∃ q, moved q) → t.record p = none) ∧
            ∀ r f, s.intake.moving = true → (∀ q, ¬ moved q) → s.record p = some r → r.state ≠ .lost →
              s.apply = none →
              let heldSilent (k : CellKey) : Prop := t.cell k =
                if (s.cell k).state = .absent then { s.cell k with listed := (t.cell k).listed }
                else { s.cell k with hold := some .silent, listed := (t.cell k).listed }
              heldSilent (.lamp p f) ∧ heldSilent (.segment p.succ f) ∧
                ((t.cell (.segment p.castSucc f)).state ≠ .absent →
                  (t.cell (.segment p.castSucc f)).hold = some .silent)) ∧
          (t.train.endCertain = true ↔ (∀ p, t.posState p ≠ some .lost) ∧
            ∃ q x, resultAt a q = some x ∧ x.last = true ∧ ∀ p : Pos, q < p → a[p] = none) ∧
          t.train.linkState = (if s.enumerator.coupled = true then
            (if ∃ p, t.posState p = some .present then .live else .down) else .noTrain) ∧
          ((∀ g, ¬ active g) → s.faults.records.length < 24 → ∀ p : Pos, firstLost p → raised p.castSucc) ∧
          (∀ g x (p : Pos), s.faultAt (.chainBreak g) = some x → x.state ≠ .healedUnack →
            (∀ g', active g' → g' = g) → (∀ q, departs q → g ≠ q.castSucc ∧ g ≠ q.succ) →
            s.faults.records.length < 24 → firstLost p →
            (p.castSucc = g → t.faultAt (.chainBreak g) = some x) ∧
            (g < p.castSucc → raised p.castSucc ∧
              (x.state = .activeUnack → t.faultAt (.chainBreak g) =
                some { x with state := .healedUnack, lastChange := now.now }) ∧
              (x.state = .activeAck → t.faultAt (.chainBreak g) = none)) ∧
            (p.castSucc < g → raised p.castSucc ∧ t.faultAt (.chainBreak g) = none)) ∧
          (∀ (p : Pos) before d after, firstLost p → s.faults.records = before ++ d :: after →
            s.faults.records.length = 24 → (∀ r ∈ s.faults.records, r.state ≠ .healedUnack ∧ r.site.isCell = true) →
            (∀ r ∈ before, d.severity ≤ r.severity) → (∀ r ∈ after, d.severity < r.severity) →
            (∀ r ∈ before ++ after, r.site ≠ d.site) →
            (∀ q, ¬ departs q ∧ (within q → s.record q ≠ none)) → t.train.linkState = s.train.linkState →
            raised p.castSucc ∧ (∃ y, t.faults.records = before ++ after ++ [y]) ∧
              ∀ k, d.site = .cell k → (t.cell k).listed = false ∧
                ((s.cell k).state = .faulted ∨ (s.cell k).state = .recovering → t.faults.overflow = true)) ∧
          ((∀ g g', active g → active g' → g = g') → (∀ p, t.posState p ≠ some .lost) →
            ∀ g x, t.faultAt (.chainBreak g) = some x → x.state = .healedUnack))

/-! ### The attention line -/

/-- ATTENTION_FALL, ATTENTION_RISE and PULSE_TAKEN: a pulse is measured from its falling edge to the last rising edge
before 0.5 ms of high level; when it is taken, SHORT fails the attempt that awaits its answer, or the one whose frame
is being sent or waits for its wake pulse and runs on to its end, the last attempt with its request, or else owes a
broadcast; LONG, below 500 ms, sweeps the PRESENT positions: a queued QUERY takes the lit functions into its mask and
SWEEP in place of SCAN, and the others are placed while there are places; AMBIGUOUS does both, each counted once, a
glitch or a pulse of unknown start does nothing, and a frame that waited behind the pulse gets its own (R53, R79, R80,
R85, R88, R97 to R100, R104). A fall before a released line has been high for 1 s makes it STUCK again, with the raise
due in 500 ms when no record of it is in the list (R102). A command that comes before its time does nothing; an attempt
whose frame waits for its wake pulse is in flight, between attempts nothing is, nor is an ENUMERATE whose frame is not
out; the SHORT action comes before the sweep: the model's choices (log entries 6, 29, 82 and 57). -/
def Obligations.PulsesActByTheirWidth : Prop :=
  ∀ (s : State) (m : Moment),
    let now := s.advance m
    let line (high : Bool) (x : Monitor) : State := now.withAttention ⟨high, x, s.attention.stuckMark⟩
    (∃ t, exec (.attentionFall m) s = .next t ∧
      (s.attention.monitor = .idle → SettledFrom (line false (.measuring now.clock true none)) t) ∧
      (∀ start known rise, s.attention.monitor = .measuring start known (some rise) → now.clock < rise + 500 →
        SettledFrom (line false (.measuring start known none)) t) ∧
      (∀ since, s.attention.monitor = .releasing since → now.clock < since + 1000000 →
        (∀ f end_, s.link.phase ≠ .wakeDrive f end_) →
        SettledFrom
          (line false (.stuck (if s.faultAt .link = none then some (now.clock + 500000) else none))) t)) ∧
    (∃ t, exec (.attentionRise m) s = .next t ∧
      (∀ start known, s.attention.monitor = .measuring start known none → now.clock < start + 500000 →
        SettledFrom (line true (.measuring start known (some now.clock))) t) ∧
      (∀ due, s.attention.monitor = .stuck due → SettledFrom (line true (.releasing now.clock)) t)) ∧
    (∃ t, exec (.pulseTaken m) s = .next t ∧
      ∀ start known rise, s.attention.monitor = .measuring start known (some rise) → s.ignition.part ≠ .asleep →
        let width := rise - start
        let idle : State :=
          match s.link.phase with
          | .waitPulse f =>
            (line s.attention.high .ownDrive).withLink { s.link with phase := .wakeDrive f (now.clock + 2000) }
          | .free | .wakeDrive _ _ | .wakeHold _ _ | .sending _ _ | .awaiting _ | .collecting _ | .speedHold _ =>
            line s.attention.high .idle
        let failing : State :=
          match s.link.phase with
          | .awaiting _ => idle.withLink { s.link with phase := .free }
          | .free | .waitPulse _ | .wakeDrive _ _ | .wakeHold _ _ | .sending _ _ | .collecting _ | .speedHold _ => idle
        let onLink (x : Flight) : Prop := s.scheduler.slot = .addressed x ∧ x.stage = .onLink
        let hasQuery (p : Pos) : Bool := s.scheduler.queue.any fun e =>
          match e.work with
          | .query q _ _ => decide (q = p)
          | .profile _ => false
          | .posReset _ _ => false
          | .enumerate => false
        let joined (mask : Mask) (e : Entry) : Entry :=
          match e.work with
          | .query p old o =>
            if s.posState p = some .present then
              ⟨.query p (old ||| mask) (if o = .scan then .sweep else o), e.placedAt⟩
            else e
          | .profile _ => e
          | .posReset _ _ => e
          | .enumerate => e
        let swept (mask : Mask) : List Entry :=
          if mask = 0 then s.scheduler.queue
          else
            s.scheduler.queue.map (joined mask) ++
              ((positions.filter fun p => decide (s.posState p = some .present) && !hasQuery p).map fun p =>
                (⟨.query p mask .sweep, now.now⟩ : Entry)).take (8 - s.scheduler.queue.length)
        let lit (mask : Mask) : Prop :=
          ∀ f : Func, mask.getLsbD f.val = true ↔ s.intake.states[f] = .on ∨ s.intake.states[f] = .flash
        let acts (event : CountedEvent) (queue : List Entry) : Prop :=
          ((∀ x, ¬ onLink x) →
            SettledFrom ((idle.countEvent event none).withScheduler
              { s.scheduler with queue := queue, broadcastOwed := true }) t) ∧
          (∀ x, onLink x → x.gone = false → x.attempt ≤ s.ignition.settings.retryLimit →
            SettledFrom ((failing.countEvent event none).withScheduler
              { s.scheduler with
                queue := queue
                slot := .addressed { x with attempt := x.attempt + 1, busyCount := 0, stage := .due } }) t) ∧
          (∀ x, onLink x → x.gone = false → s.ignition.settings.retryLimit < x.attempt →
            t.link = failing.link ∧ (idle.countEvent event none).RequestFails t x) ∧
          (∀ x, onLink x → x.gone = true →
            t.link = failing.link ∧ t.scheduler.slot = .empty ∧ ∀ q, x.sent.pos ≠ q → t.record q = s.record q)
        (now.clock < rise + 500 → SettledFrom now t) ∧
        (rise + 500 ≤ now.clock →
          ((known = false ∨ width < 500) → SettledFrom idle t) ∧
          (known = true → 500 ≤ width → width < 10000 → acts .attentionShort s.scheduler.queue) ∧
          (∀ mask, lit mask → known = true → 10000 ≤ width → width < 40000 →
            acts .attentionAmbiguous (swept mask)) ∧
          (∀ mask, lit mask → known = true → 40000 ≤ width → width < 500000 →
            SettledFrom ((idle.countEvent .attentionLong none).withScheduler
              { s.scheduler with queue := swept mask }) t)))

/-- LINE_STUCK, STUCK_RAISE_RETRY and STUCK_RELEASE: a pulse still low after 500 ms raises ATTENTION_STUCK; a raise that
finds the list full is offered again 500 ms later; 1 s of high level heals the record and returns the monitor to IDLE
(R101, R102, R154, R156). A command that comes before its time does nothing: the model's choice (log entries 6 and 7).
-/
def Obligations.AStuckLineIsRaisedAndReleased : Prop :=
  ∀ (s : State) (m : Moment),
    let now := s.advance m
    let line (x : Monitor) (mark : Bool) : State := now.withAttention ⟨s.attention.high, x, mark⟩
    let full : Prop := 24 ≤ s.faults.records.length ∧ s.faultAt .link = none ∧
      ∀ r ∈ s.faults.records, r.state ≠ .healedUnack
    let raised (t : State) (mark : Bool) : Prop :=
      t.attention = ⟨s.attention.high, .stuck none, mark⟩ ∧ t.scheduler.slot = s.scheduler.slot ∧
        t.link = s.link ∧ t.train = s.train ∧ t.intake = s.intake ∧ t.counters = s.counters ∧
        (∀ k, t.cell k = { s.cell k with listed := (t.cell k).listed }) ∧
        ∃ y : FaultRecord, (s.faults.records ++ [y]) <+: t.faults.records ∧ y.site = .link ∧
          y.kind = .attentionStuck ∧ y.severity = 2 ∧ y.state = .activeUnack ∧ y.occurrences = 1 ∧
          y.firstRaised = now.now ∧ y.serial = none
    (∃ t, exec (.lineStuck m) s = .next t ∧
      ∀ start known, s.attention.monitor = .measuring start known none → (∀ f, s.link.phase ≠ .waitPulse f) →
        (now.clock < start + 500000 → SettledFrom now t) ∧
        (start + 500000 ≤ now.clock →
          (s.faultAt .link = none → s.faults.records.length < 24 → raised t true) ∧
          (full → SettledFrom (line (.stuck (some (now.clock + 500000))) true) t) ∧
          (∀ x, s.faultAt .link = some x → x.state = .healedUnack →
            ∃ y, t.faultAt .link = some y ∧ y.id = x.id ∧ y.state = .activeUnack ∧
              y.occurrences = min 255 (x.occurrences + 1) ∧ t.attention = ⟨s.attention.high, .stuck none, true⟩))) ∧
    (∃ t, exec (.stuckRaiseRetry m) s = .next t ∧
      ∀ due, s.attention.monitor = .stuck (some due) →
        (now.clock < due → SettledFrom now t) ∧
        (due ≤ now.clock →
          (s.faultAt .link = none → s.faults.records.length < 24 → raised t s.attention.stuckMark) ∧
          (full → SettledFrom (line (.stuck (some (now.clock + 500000))) s.attention.stuckMark) t))) ∧
    (∃ t, exec (.stuckRelease m) s = .next t ∧
      ∀ since, s.attention.monitor = .releasing since →
        (now.clock < since + 1000000 → SettledFrom now t) ∧
        (since + 1000000 ≤ now.clock →
          t.attention = ⟨s.attention.high, .idle, false⟩ ∧
          (s.faultAt .link = none → SettledFrom (line .idle false) t) ∧
          ∀ x, s.faultAt .link = some x →
            (x.state = .activeUnack →
              SettledFrom ((line .idle false).withRecords (s.faults.records.map fun y =>
                if y.site = .link then { y with state := .healedUnack, lastChange := now.now } else y)) t) ∧
            (x.state = .activeAck →
              SettledFrom ((line .idle false).withRecords
                (s.faults.records.filter fun y => decide (y.site ≠ .link))) t)))

/-! ### Wire format -/

/-- Every frame of a four-byte header and at most 48 payload bytes is restored from its characters, at the speed at
which they were sent, to exactly its bytes, and not at the other; it takes five characters and one for each payload
byte, and ends there whatever follows (R19 to R22). -/
def Obligations.FramesAreRestoredFromTheirCharacters : Prop :=
  ∀ (v : Speed) (kind target tag : Byte) (payload : List Byte), payload.length ≤ 48 →
    let bytes := [kind, target, tag, BitVec.ofNat 8 payload.length] ++ payload
    (wireOf v bytes).length = 5 + payload.length ∧ restoreFrame v (wireOf v bytes) = some bytes ∧
      (∀ other, other ≠ v → restoreFrame other (wireOf v bytes) = none) ∧
      ∀ after : List WireChar, (wireOf v bytes ++ after).take (frameLength v (wireOf v bytes ++ after)) = wireOf v bytes

/-- R20: a byte with five or more 0 bits travels inverted under flag 1, any other as it stands under flag 0, in every
character of a frame, its check byte included; so a character carries at most four 0 bits; a flag that does not suit the
restored byte is an encoding error, and a frame that holds one is not taken but counted as a CRC failure; the check byte
and what follows it are worked out on the restored bytes. A
character sent at the other speed does not decode (R19). -/
def Obligations.CharactersCarryTheirFlag : Prop :=
  (∀ (v : Speed) (b : Byte),
    (5 ≤ zeroBits b → encodeChar v b = ⟨~~~b, true, true, v⟩) ∧
      (zeroBits b ≤ 4 → encodeChar v b = ⟨b, false, true, v⟩) ∧
      zeroBits (encodeChar v b).bits ≤ 4 ∧ decodeChar v (encodeChar v b) = some b) ∧
  (∀ (v : Speed) (bits : Byte),
    (decodeChar v ⟨bits, true, true, v⟩ = if zeroBits (~~~bits) ≤ 4 then none else some (~~~bits)) ∧
      (decodeChar v ⟨bits, false, true, v⟩ = if 5 ≤ zeroBits bits then none else some bits)) ∧
  (∀ (v : Speed) (c : WireChar), c.speed ≠ v → decodeChar v c = none) ∧
  (∀ (v : Speed) (bytes : List Byte), wireOf v bytes = bytes.map (encodeChar v) ++ [encodeChar v (crc8 bytes)]) ∧
  (∀ (v : Speed) (mask : Option Mask) (w : List WireChar) (c : WireChar), c ∈ w → decodeChar v c = none →
    parseFrame v mask w = none) ∧
  (∀ (v : Speed) (mask : Option Mask) (w w' : List WireChar), decodeAll v w = decodeAll v w' →
    parseFrame v mask w = parseFrame v mask w') ∧
  (∀ (s : State) (m : Moment) (w : List WireChar) (c : WireChar) (doomed : Bool),
    s.ignition.part ≠ .asleep → s.link.reception = .receiving doomed → s.link.phase = .free →
    c ∈ w.take (frameLength s.link.speed w) → decodeChar s.link.speed c = none →
    ∃ t, exec (.crcFailure m w) s = .next t ∧
      t.counters = ((s.advance m).countEvent .replyCrcFail none).counters ∧
      t.scheduler.slot = s.scheduler.slot ∧ t.train = s.train ∧ t.intake = s.intake ∧
      (∀ k, t.cell k = { s.cell k with listed := (t.cell k).listed }))

/-! ### Judgement and qualification -/

/-- Circuit judgement and line-only judgement: the stages in their order, the expected current from power, technology,
voltage and lamp count, the ratio, and the lamps-out estimate; a PARTIAL of at most 15 lamps carries 1 to 14 (R111 to
R120). The line is judged by its totals over the mapped positions, with the largest tolerance and k carried as at most
14; with the map empty it is OPEN at the floor and else held (R122 to R125). -/
def Obligations.CircuitJudgementFollowsItsStages : Prop :=
  let lampAt (y : Profile) (voltage : Nat) : Nat :=
    let v := max 160 (min 320 voltage)
    let nominal := (2 * (y.power * 500) + 24) / 48
    if y.tech = .filament then (2 * (nominal * (v + 240)) + 480) / 960 else (2 * (nominal * 240) + v) / (2 * v)
  let tolerance (set : Settings) (y : Profile) : Nat :=
    match y.tol with
    | some t => t
    | none => if y.tech = .filament then set.tolFilament else set.tolLed
  let unfitted (set : Settings) (i : Nat) (judged : Judged) : Prop :=
    (set.openFloor < i → judged = ⟨.verdict (.bad .unexpectedLoad), none⟩) ∧
      (i ≤ set.openFloor → judged = ⟨.hold .notFitted, some false⟩)
  let fitted (set : Settings) (n e tol i : Nat) (saturated : Bool) (judged : Judged) : Prop :=
    let ratio := min 4000 (i * 1000 / e)
    let k := max 1 ((n * (1000 - ratio) + 500) / 1000)
    let shows := decide (tol < 1000 / n)
    (i ≤ set.openFloor → judged = ⟨.verdict (.bad .openCircuit), none⟩) ∧
      (set.openFloor < i → saturated = true →
        (e * set.overLimit ≤ 16000000 → judged = ⟨.verdict (.bad .overload), none⟩) ∧
        (16000000 < e * set.overLimit → judged = ⟨.hold .saturatedUnusable, none⟩)) ∧
      (set.openFloor < i → saturated = false →
        (set.overLimit ≤ ratio → judged = ⟨.verdict (.bad .overload), none⟩) ∧
        (ratio < set.overLimit → 1000 ≤ ratio + tol → judged = ⟨.verdict .good, some shows⟩) ∧
        (ratio < set.overLimit → ratio + tol < 1000 →
          (n ≤ k → judged = ⟨.verdict (.bad .openCircuit), some shows⟩) ∧
          (k < n → judged = ⟨.verdict (.bad (.partialLoss (min 14 k))), some shows⟩ ∧ 1 ≤ k ∧ (n ≤ 15 → k ≤ 14))))
  (∀ (set : Settings) (profile : Option Profile) (x : Sample),
    (profile = none → judgeCircuit set profile x = ⟨.hold .notFitted, some false⟩) ∧
    ∀ y, profile = some y →
      let judged := judgeCircuit set profile x
      (x.voltage < set.minJudgeV → judged = ⟨.hold .lowSupply, none⟩) ∧
      (set.minJudgeV ≤ x.voltage → y.n = 0 → unfitted set x.loadCurrent judged) ∧
      (set.minJudgeV ≤ x.voltage → 1 ≤ y.n →
        fitted set y.n (y.n * lampAt y x.voltage) (tolerance set y) x.loadCurrent x.loadSaturated judged) ∧
      (1 ≤ y.power → y.power ≤ 100 → 16 ≤ lampAt y x.voltage ∧ lampAt y x.voltage ≤ 3125)) ∧
  ∀ (s : State) (f : Func) (x : Sample),
    let set := s.ignition.settings
    let judged := s.judgeLine f x
    let known : List Profile := positions.filterMap fun p => (s.record p).bind fun r => r.applied[f]
    let n := (known.map Profile.n).sum
    (x.voltage < set.minJudgeV → judged = ⟨.hold .lowSupply, none⟩) ∧
    (set.minJudgeV ≤ x.voltage → (∀ p, s.record p = none) →
      (x.inCurrent ≤ set.openFloor → judged = ⟨.verdict (.bad .openCircuit), none⟩) ∧
      (set.openFloor < x.inCurrent → judged = ⟨.hold .notFitted, some false⟩)) ∧
    (set.minJudgeV ≤ x.voltage → (∃ p, (s.record p).isSome = true) → n = 0 → unfitted set x.inCurrent judged) ∧
    (set.minJudgeV ≤ x.voltage → 1 ≤ n →
      ∀ tol, (∃ y ∈ known, 1 ≤ y.n ∧ tolerance set y = tol) →
        (∀ y ∈ known, 1 ≤ y.n → tolerance set y ≤ tol) →
        fitted set n ((known.map fun y => y.n * lampAt y x.voltage).sum) tol x.inCurrent x.inSaturated judged)

/-- The qualification machine: how a judgement moves a cell out of each state, and what it hands to the Fault List
(R144 to R147); the judgement clears the hold reason (R4). And what the list does with it for a cell: a raise inserts a
record at the tail with kind, severity and the first id from the next id on that is free, 255 stepping to 1, takes up
the HEALED_UNACK record of its key, displaces the oldest HEALED_UNACK record of a full list, or leaves the cell
unlisted; an escalation and a change of k renew the record of a listed cell in its place; a heal marks or removes it
(R148, R153 to R157). `takeJudgement` leaves the overflow flag of R157 and R159 as it was: the model settles it around
each judgement that is handed on, and at the end of the command (log entry 20). -/
def Obligations.JudgementsMoveTheCell : Prop :=
  (∀ (qSet qClear : Nat) (now : Time) (c : Cell) (j : Judgement),
      let next := (qualify qSet qClear now c j).1
      let handed := (qualify qSet qClear now c j).2
      let clean : Cell := { c with state := .clean, confirmed := none, candidate := none, count := 0, hold := none,
                                   confirmedAt := none }
      let counting (v : Verdict) (n : Nat) : Prop :=
        (n < qSet → next = { c with state := .suspect, candidate := some v, count := n, hold := none } ∧
          handed = .nothing) ∧
        (qSet ≤ n → next = { c with state := .faulted, confirmed := some v, candidate := none, count := 0, hold := none,
                                    confirmedAt := some now } ∧ handed = .raise)
      let escalating (w : Verdict) (n : Nat) : Prop :=
        (n < qSet → next = { c with state := .faulted, candidate := some w, count := n, hold := none } ∧
          handed = .nothing) ∧
        (qSet ≤ n → next = { c with state := .faulted, confirmed := some w, candidate := none, count := 0,
                                    hold := none } ∧ handed = .escalate)
      let sameAgain (v w : Verdict) : Prop :=
        next = { c with state := .faulted, confirmed := some w, candidate := none, count := 0, hold := none } ∧
          handed = if v = w then .nothing else .renewK
      (c.state = .absent → next = c ∧ handed = .nothing) ∧
      ((c.state = .unverified ∨ c.state = .clean) →
        (j = .good → next = clean ∧ handed = .nothing) ∧ ∀ v, j = .bad v → counting v 1) ∧
      (c.state = .suspect →
        (j = .good → next = clean ∧ handed = .nothing) ∧
        ∀ v u, c.candidate = some u → j = .bad v →
          (u.faultKind = v.faultKind → counting v (c.count + 1)) ∧ (u.faultKind ≠ v.faultKind → counting v 1)) ∧
      (∀ v, c.confirmed = some v → c.state = .faulted →
        (j = .good → qClear ≤ 1 → next = clean ∧ handed = .heal) ∧
        (j = .good → 1 < qClear → next = { c with state := .recovering, candidate := none, count := 1, hold := none } ∧
          handed = .nothing) ∧
        ∀ w, j = .bad w →
          (v.faultKind = w.faultKind → sameAgain v w) ∧
          (v.faultKind ≠ w.faultKind →
            (c.candidate = none → escalating w 1) ∧
            ∀ u, c.candidate = some u →
              (u.faultKind = w.faultKind → escalating w (c.count + 1)) ∧ (u.faultKind ≠ w.faultKind → escalating w 1))) ∧
      (∀ v, c.confirmed = some v → c.state = .recovering →
        (j = .good → qClear ≤ c.count + 1 → next = clean ∧ handed = .heal) ∧
        (j = .good → c.count + 1 < qClear → next = { c with count := c.count + 1, hold := none } ∧
          handed = .nothing) ∧
        ∀ w, j = .bad w →
          (v.faultKind = w.faultKind → sameAgain v w) ∧ (v.faultKind ≠ w.faultKind → escalating w 1))) ∧
  ∀ (s : State) (k : CellKey) (j : Judgement),
    let c := s.cell k
    let set := s.ignition.settings
    let next := (qualify set.qSet set.qClear s.now c j).1
    let handed := (qualify set.qSet set.qClear s.now c j).2
    let rs := s.faults.records
    let at_ := s.faultAt (.cell k)
    let t := s.takeJudgement k j
    let renewed (g : FaultRecord → FaultRecord) : List FaultRecord :=
      rs.map fun x => if x.site = .cell k then g x else x
    let severity (v : Verdict) : Nat :=
      match v with
      | .openCircuit => if k.function = 1 ∨ k.function = 2 ∨ k.function = 3 then 4 else 3
      | .overload => 3
      | .leak => 3
      | .partialLoss _ => 2
      | .unexpectedLoad => 2
      | .senseConflict => 1
    let lamps (v : Verdict) : Option Nat :=
      match v with
      | .partialLoss n => some n
      | _ => none
    let following (id : Nat) : Nat := if id = 255 then 1 else id + 1
    let inserted (kept : List FaultRecord) (v : Verdict) : Prop :=
      ∃ id, (∀ x ∈ kept, x.id ≠ id) ∧
        (∃ n : Nat, id = following^[n] s.faults.nextId ∧ ∀ j < n, ∃ x ∈ kept, x.id = following^[j] s.faults.nextId) ∧
        t.faults.nextId = following id ∧ (t.cell k).listed = true ∧
        t.faults.records = kept ++
          [{ id := id, site := .cell k, kind := v.faultKind, severity := severity v, state := .activeUnack,
             lampsOut := lamps v, firstRaised := s.now, lastChange := s.now, occurrences := 1,
             serial := match k with
               | .lamp p _ => (s.record p).bind PosRecord.serial
               | .line _ => none
               | .segment _ _ => none }]
    let stands : Prop := t.faults = s.faults ∧ (t.cell k).listed = c.listed
    t.cell k = { next with listed := (t.cell k).listed } ∧
    (∀ q, q ≠ k → t.cell q = { s.cell q with listed := (t.cell q).listed }) ∧
    (handed = .nothing → stands) ∧
    (∀ v, next.confirmed = some v →
      (handed = .raise →
        (at_ = none → rs.length < 24 → inserted rs v) ∧
        (∀ x, at_ = some x → x.state = .healedUnack →
          t.faults.records = renewed fun y =>
            { y with state := .activeUnack, kind := v.faultKind, severity := severity v, lampsOut := lamps v,
                     lastChange := s.now, occurrences := min 255 (y.occurrences + 1) }) ∧
        (at_ = none → rs.length = 24 →
          (∀ before h after, rs = before ++ h :: after → h.state = .healedUnack →
            (∀ x ∈ before, x.state ≠ .healedUnack) →
            inserted (rs.filter fun x => decide (x.site ≠ h.site)) v ∧
              ∀ q, h.site = .cell q → (t.cell q).listed = false) ∧
          ((∀ x ∈ rs, x.state ≠ .healedUnack) → stands))) ∧
      (handed = .escalate → c.listed = true →
        t.faults.records = renewed fun y =>
          { y with state := .activeUnack, kind := v.faultKind, severity := severity v, lampsOut := lamps v,
                   lastChange := s.now, occurrences := min 255 (y.occurrences + 1) }) ∧
      (handed = .renewK → c.listed = true →
        t.faults.records = renewed fun y => { y with lampsOut := lamps v, lastChange := s.now }) ∧
      ((handed = .escalate ∨ handed = .renewK) → c.listed = false → stands)) ∧
    (handed = .heal →
      (at_ = none → stands) ∧
      ∀ x, at_ = some x →
        (x.state = .activeUnack →
          t.faults.records = renewed fun y => { y with state := .healedUnack, lastChange := s.now }) ∧
        (x.state = .activeAck →
          t.faults.records = (rs.filter fun y => decide (y.site ≠ .cell k)) ∧ (t.cell k).listed = false) ∧
        (x.state = .healedUnack → stands))

/-- The check of segment (g, f) at a sample of either end: held with SILENT beside a SILENT or LOST position; not made
without a partner of the same epoch, in the window, and on-phase under FLASH; held with SATURATED_UNUSABLE; a sense
conflict upstream (not of the line); and else by imbalance d and margin m (R129 to R135, R137). The end segment, with no
position mapped after it, is checked only while the end is certain, against nothing arriving (R136). -/
def Obligations.SegmentsAreCheckedByTheirBalance : Prop :=
  ∀ (s : State) (g : Seg) (f : Func) (upNew : Bool),
    let upstream := (s.cell (match posOfNumber g.val with
      | none => .line f
      | some q => .lamp q f)).sample
    let quiet (q : Pos) : Prop := s.posState q = some .silent ∨ s.posState q = some .lost
    let before : Prop := ∃ q : Pos, q.val + 1 = g.val ∧ quiet q
    let ruled := s.harnessRuling g f upNew
    let balanced (up : Sample) (arrives : Nat) (arrivesSaturated : Bool) : Prop :=
      let saturated : Prop :=
        up.inSaturated = true ∨ (g.val ≠ 0 ∧ up.loadSaturated = true) ∨ arrivesSaturated = true
      let u : Nat := if g.val = 0 then up.inCurrent else up.inCurrent - up.loadCurrent
      let margin : Nat :=
        max s.ignition.settings.harnessFloor ((2 * (u * s.ignition.settings.harnessPct) + 1000) / 2000)
      let d : Int := (u : Int) - arrives
      (saturated → ruled = some (.hold .saturatedUnusable)) ∧
      (¬ saturated → g.val ≠ 0 → up.inCurrent < up.loadCurrent →
        ruled = some (.verdict (.bad .senseConflict))) ∧
      (¬ saturated → (g.val = 0 ∨ up.loadCurrent ≤ up.inCurrent) →
        ((margin : Int) < d → ruled = some (.verdict (.bad .leak))) ∧
        (d < -(margin : Int) → ruled = some (.verdict (.bad .senseConflict))) ∧
        (-(margin : Int) ≤ d → d ≤ margin → ruled = some (.verdict .good)))
    (∀ p : Pos, g.val = p.val → (s.record p).isSome = true →
      ((quiet p ∨ before) → ruled = some (.hold .silent)) ∧
      (¬ (quiet p ∨ before) →
        (upstream = none → ruled = none) ∧
        ((s.cell (.lamp p f)).sample = none → ruled = none) ∧
        ∀ up down, upstream = some up → (s.cell (.lamp p f)).sample = some down →
          let elapsed := if upNew = true then up.takenAt - down.takenAt else down.takenAt - up.takenAt
          let usable : Prop := up.epoch = down.epoch ∧ elapsed.toNat ≤ s.ignition.settings.pairWindow ∧
            (s.intake.states[f] = .flash → down.onPhase = true ∧ up.onPhase = true)
          (¬ usable → ruled = none) ∧ (usable → balanced up down.inCurrent down.inSaturated))) ∧
    ((∀ p : Pos, g.val = p.val → s.record p = none) →
      (s.train.endCertain = false → ruled = none) ∧
      (s.train.endCertain = true →
        (before → ruled = some (.hold .silent)) ∧
        (¬ before →
          (upstream = none → ruled = none) ∧ ∀ up, upstream = some up → balanced up 0 false)))
end

