-- ==== Sys2Proof/Laws/Library.lean ====
section
/-! SUPPORT. What the operations of the Profile Library keep: its 16 places, and one entry to a serial (R69 to R72). -/

namespace Sys2Proof.Machine

@[simp] theorem Library.stamp_serials (l : Library) (serial : Serial) :
    (l.stamp serial).entries.map LibraryEntry.serial = l.entries.map LibraryEntry.serial := by
  simp only [Library.stamp, List.map_map]
  refine List.map_congr_left fun e _ => ?_
  simp only [Function.comp_apply]
  split <;> rfl

@[simp] theorem Library.stamp_length (l : Library) (serial : Serial) :
    (l.stamp serial).entries.length = l.entries.length := by simp [Library.stamp]

theorem Library.Sound.stamp {l : Library} (h : l.Sound) (serial : Serial) : (l.stamp serial).Sound :=
  ⟨by simpa using h.places, by simpa using h.serials⟩

theorem Library.Sound.delete {l : Library} (h : l.Sound) (serial : Serial) : (l.delete serial).Sound :=
  ⟨(List.length_filter_le _ _).trans h.places, (List.filter_sublist.map _).nodup h.serials⟩

/-- The entry that makes room is an entry of the Library. -/
theorem Library.victim_mem {l : Library} {kept : List Serial} {v : LibraryEntry} (h : l.victim kept = some v) :
    v ∈ l.entries := by
  have key : ∀ (es : List LibraryEntry) (best : Option LibraryEntry), (∀ b, best = some b → b ∈ l.entries) →
      (∀ e ∈ es, e ∈ l.entries) →
      es.foldl (fun best e =>
        match best with
        | none => some e
        | some b => if l.goesBefore e b then some e else some b) best = some v → v ∈ l.entries := by
    intro es
    induction es with
    | nil => intro best hb _ hv; exact hb v hv
    | cons e es ih =>
      intro best hb hes hv
      refine ih _ (fun b hbb => ?_) (fun x hx => hes x (List.mem_cons_of_mem _ hx)) hv
      dsimp only at hbb
      split at hbb
      · cases hbb; exact hes e List.mem_cons_self
      · split at hbb
        · cases hbb; exact hes e List.mem_cons_self
        · cases hbb; exact hb _ rfl
  exact key _ none (by simp) (fun e he => List.mem_of_mem_filter he) h

/-- With sixteen serials and fewer of them kept there is an entry that makes room. -/
theorem Library.victim_isSome {l : Library} {kept : List Serial} (h : l.Sound) (hl : 16 ≤ l.entries.length)
    (hk : kept.length < 16) : (l.victim kept).isSome := by
  have hne : l.entries.filter (fun e => decide (e.serial ∉ kept)) ≠ [] := by
    intro hn
    rw [List.filter_eq_nil_iff] at hn
    have : (l.entries.map LibraryEntry.serial).length ≤ kept.length := by
      refine (h.serials.subperm fun z hz => ?_).length_le
      obtain ⟨e, he, rfl⟩ := List.mem_map.mp hz
      simpa using hn e he
    rw [List.length_map] at this
    omega
  have key : ∀ (es : List LibraryEntry) (best : Option LibraryEntry), (best.isSome ∨ es ≠ []) →
      (es.foldl (fun best e =>
        match best with
        | none => some e
        | some b => if l.goesBefore e b then some e else some b) best).isSome := by
    intro es
    induction es with
    | nil => intro best hb; simpa using hb
    | cons e es ih =>
      intro best _
      refine ih _ (Or.inl ?_)
      dsimp only
      split
      · rfl
      · split <;> rfl
  exact key _ none (Or.inr hne)

theorem Library.Sound.withRoom {l : Library} (h : l.Sound) {kept : List Serial} (hk : kept.length < 16) :
    (l.withRoom kept).entries.length < 16 ∧ (l.withRoom kept).entries.Sublist l.entries := by
  unfold Library.withRoom
  split
  · next hl => exact ⟨hl, List.Sublist.refl _⟩
  · next hl =>
    have hl16 : l.entries.length = 16 := le_antisymm h.places (not_lt.mp hl)
    split
    · next hv => have := Library.victim_isSome h hl16.ge hk; simp [hv] at this
    · next v hv =>
      refine ⟨?_, List.filter_sublist⟩
      rw [← hl16]
      exact List.length_filter_lt_length_iff_exists.mpr ⟨v, Library.victim_mem hv, by simp⟩

/-- Eight profiles written leave a Library within its places, with one entry to a serial. -/
theorem Library.Sound.write {l : Library} (h : l.Sound) {kept : List Serial} (hk : kept.length < 16) (serial : Serial)
    (profiles : Vector Profile 8) : (l.write kept serial profiles).Sound := by
  unfold Library.write
  split
  · refine Library.Sound.stamp ⟨by simpa using h.places, ?_⟩ serial
    have : (l.entries.map fun e => if e.serial = serial then { e with profiles := profiles } else e).map
        LibraryEntry.serial = l.entries.map LibraryEntry.serial := by
      rw [List.map_map]
      refine List.map_congr_left fun e _ => ?_
      simp only [Function.comp_apply]
      split <;> rfl
    rw [this]; exact h.serials
  · next hn =>
    obtain ⟨hl, hs⟩ := h.withRoom hk
    refine Library.Sound.stamp ⟨by simp; omega, ?_⟩ serial
    rw [List.map_append, List.map_singleton]
    refine List.nodup_append.mpr ⟨(hs.map _).nodup h.serials, List.nodup_singleton _, ?_⟩
    intro z hz y hy hzy
    rw [List.mem_singleton] at hy
    obtain ⟨e, he, hez⟩ := List.mem_map.mp hz
    have := List.find?_eq_none.mp hn e (hs.subset he)
    exact this (by simp [hez, hzy, hy])

/-- The map holds at most six serials. -/
theorem State.trainSerials_length (s : State) : s.trainSerials.length ≤ 6 :=
  (List.length_filterMap_le _ _).trans (by simp [positions])

end Sys2Proof.Machine
end

