-- ==== Sys2Proof/Laws/State.lean ====
section
/-! SUPPORT. One lemma per field per update of the state, each true by definition. -/

namespace Sys2Proof.Machine


section
variable (s : State) (x : Intake)
@[simp] theorem State.withIntake_clock : (s.withIntake x).clock = s.clock := rfl
@[simp] theorem State.withIntake_inputs : (s.withIntake x).inputs = s.inputs := rfl
@[simp] theorem State.withIntake_steady : (s.withIntake x).steady = s.steady := rfl
@[simp] theorem State.withIntake_intake : (s.withIntake x).intake = x := rfl
@[simp] theorem State.withIntake_sense : (s.withIntake x).sense = s.sense := rfl
@[simp] theorem State.withIntake_link : (s.withIntake x).link = s.link := rfl
@[simp] theorem State.withIntake_health : (s.withIntake x).health = s.health := rfl
@[simp] theorem State.withIntake_attention : (s.withIntake x).attention = s.attention := rfl
@[simp] theorem State.withIntake_scheduler : (s.withIntake x).scheduler = s.scheduler := rfl
@[simp] theorem State.withIntake_enumerator : (s.withIntake x).enumerator = s.enumerator := rfl
@[simp] theorem State.withIntake_train : (s.withIntake x).train = s.train := rfl
@[simp] theorem State.withIntake_apply : (s.withIntake x).apply = s.apply := rfl
@[simp] theorem State.withIntake_cells : (s.withIntake x).cells = s.cells := rfl
@[simp] theorem State.withIntake_faults : (s.withIntake x).faults = s.faults := rfl
@[simp] theorem State.withIntake_report : (s.withIntake x).report = s.report := rfl
@[simp] theorem State.withIntake_counters : (s.withIntake x).counters = s.counters := rfl
@[simp] theorem State.withIntake_ignition : (s.withIntake x).ignition = s.ignition := rfl
@[simp] theorem State.withIntake_pending : (s.withIntake x).pending = s.pending := rfl
end

section
variable (s : State) (x : Sense)
@[simp] theorem State.withSense_clock : (s.withSense x).clock = s.clock := rfl
@[simp] theorem State.withSense_inputs : (s.withSense x).inputs = s.inputs := rfl
@[simp] theorem State.withSense_steady : (s.withSense x).steady = s.steady := rfl
@[simp] theorem State.withSense_intake : (s.withSense x).intake = s.intake := rfl
@[simp] theorem State.withSense_sense : (s.withSense x).sense = x := rfl
@[simp] theorem State.withSense_link : (s.withSense x).link = s.link := rfl
@[simp] theorem State.withSense_health : (s.withSense x).health = s.health := rfl
@[simp] theorem State.withSense_attention : (s.withSense x).attention = s.attention := rfl
@[simp] theorem State.withSense_scheduler : (s.withSense x).scheduler = s.scheduler := rfl
@[simp] theorem State.withSense_enumerator : (s.withSense x).enumerator = s.enumerator := rfl
@[simp] theorem State.withSense_train : (s.withSense x).train = s.train := rfl
@[simp] theorem State.withSense_apply : (s.withSense x).apply = s.apply := rfl
@[simp] theorem State.withSense_cells : (s.withSense x).cells = s.cells := rfl
@[simp] theorem State.withSense_faults : (s.withSense x).faults = s.faults := rfl
@[simp] theorem State.withSense_report : (s.withSense x).report = s.report := rfl
@[simp] theorem State.withSense_counters : (s.withSense x).counters = s.counters := rfl
@[simp] theorem State.withSense_ignition : (s.withSense x).ignition = s.ignition := rfl
@[simp] theorem State.withSense_pending : (s.withSense x).pending = s.pending := rfl
end

section
variable (s : State) (x : Link)
@[simp] theorem State.withLink_clock : (s.withLink x).clock = s.clock := rfl
@[simp] theorem State.withLink_inputs : (s.withLink x).inputs = s.inputs := rfl
@[simp] theorem State.withLink_steady : (s.withLink x).steady = s.steady := rfl
@[simp] theorem State.withLink_intake : (s.withLink x).intake = s.intake := rfl
@[simp] theorem State.withLink_sense : (s.withLink x).sense = s.sense := rfl
@[simp] theorem State.withLink_link : (s.withLink x).link = x := rfl
@[simp] theorem State.withLink_health : (s.withLink x).health = s.health := rfl
@[simp] theorem State.withLink_attention : (s.withLink x).attention = s.attention := rfl
@[simp] theorem State.withLink_scheduler : (s.withLink x).scheduler = s.scheduler := rfl
@[simp] theorem State.withLink_enumerator : (s.withLink x).enumerator = s.enumerator := rfl
@[simp] theorem State.withLink_train : (s.withLink x).train = s.train := rfl
@[simp] theorem State.withLink_apply : (s.withLink x).apply = s.apply := rfl
@[simp] theorem State.withLink_cells : (s.withLink x).cells = s.cells := rfl
@[simp] theorem State.withLink_faults : (s.withLink x).faults = s.faults := rfl
@[simp] theorem State.withLink_report : (s.withLink x).report = s.report := rfl
@[simp] theorem State.withLink_counters : (s.withLink x).counters = s.counters := rfl
@[simp] theorem State.withLink_ignition : (s.withLink x).ignition = s.ignition := rfl
@[simp] theorem State.withLink_pending : (s.withLink x).pending = s.pending := rfl
end

section
variable (s : State) (x : Health)
@[simp] theorem State.withHealth_clock : (s.withHealth x).clock = s.clock := rfl
@[simp] theorem State.withHealth_inputs : (s.withHealth x).inputs = s.inputs := rfl
@[simp] theorem State.withHealth_steady : (s.withHealth x).steady = s.steady := rfl
@[simp] theorem State.withHealth_intake : (s.withHealth x).intake = s.intake := rfl
@[simp] theorem State.withHealth_sense : (s.withHealth x).sense = s.sense := rfl
@[simp] theorem State.withHealth_link : (s.withHealth x).link = s.link := rfl
@[simp] theorem State.withHealth_health : (s.withHealth x).health = x := rfl
@[simp] theorem State.withHealth_attention : (s.withHealth x).attention = s.attention := rfl
@[simp] theorem State.withHealth_scheduler : (s.withHealth x).scheduler = s.scheduler := rfl
@[simp] theorem State.withHealth_enumerator : (s.withHealth x).enumerator = s.enumerator := rfl
@[simp] theorem State.withHealth_train : (s.withHealth x).train = s.train := rfl
@[simp] theorem State.withHealth_apply : (s.withHealth x).apply = s.apply := rfl
@[simp] theorem State.withHealth_cells : (s.withHealth x).cells = s.cells := rfl
@[simp] theorem State.withHealth_faults : (s.withHealth x).faults = s.faults := rfl
@[simp] theorem State.withHealth_report : (s.withHealth x).report = s.report := rfl
@[simp] theorem State.withHealth_counters : (s.withHealth x).counters = s.counters := rfl
@[simp] theorem State.withHealth_ignition : (s.withHealth x).ignition = s.ignition := rfl
@[simp] theorem State.withHealth_pending : (s.withHealth x).pending = s.pending := rfl
end

section
variable (s : State) (x : Attention)
@[simp] theorem State.withAttention_clock : (s.withAttention x).clock = s.clock := rfl
@[simp] theorem State.withAttention_inputs : (s.withAttention x).inputs = s.inputs := rfl
@[simp] theorem State.withAttention_steady : (s.withAttention x).steady = s.steady := rfl
@[simp] theorem State.withAttention_intake : (s.withAttention x).intake = s.intake := rfl
@[simp] theorem State.withAttention_sense : (s.withAttention x).sense = s.sense := rfl
@[simp] theorem State.withAttention_link : (s.withAttention x).link = s.link := rfl
@[simp] theorem State.withAttention_health : (s.withAttention x).health = s.health := rfl
@[simp] theorem State.withAttention_attention : (s.withAttention x).attention = x := rfl
@[simp] theorem State.withAttention_scheduler : (s.withAttention x).scheduler = s.scheduler := rfl
@[simp] theorem State.withAttention_enumerator : (s.withAttention x).enumerator = s.enumerator := rfl
@[simp] theorem State.withAttention_train : (s.withAttention x).train = s.train := rfl
@[simp] theorem State.withAttention_apply : (s.withAttention x).apply = s.apply := rfl
@[simp] theorem State.withAttention_cells : (s.withAttention x).cells = s.cells := rfl
@[simp] theorem State.withAttention_faults : (s.withAttention x).faults = s.faults := rfl
@[simp] theorem State.withAttention_report : (s.withAttention x).report = s.report := rfl
@[simp] theorem State.withAttention_counters : (s.withAttention x).counters = s.counters := rfl
@[simp] theorem State.withAttention_ignition : (s.withAttention x).ignition = s.ignition := rfl
@[simp] theorem State.withAttention_pending : (s.withAttention x).pending = s.pending := rfl
end

section
variable (s : State) (x : Scheduler)
@[simp] theorem State.withScheduler_clock : (s.withScheduler x).clock = s.clock := rfl
@[simp] theorem State.withScheduler_inputs : (s.withScheduler x).inputs = s.inputs := rfl
@[simp] theorem State.withScheduler_steady : (s.withScheduler x).steady = s.steady := rfl
@[simp] theorem State.withScheduler_intake : (s.withScheduler x).intake = s.intake := rfl
@[simp] theorem State.withScheduler_sense : (s.withScheduler x).sense = s.sense := rfl
@[simp] theorem State.withScheduler_link : (s.withScheduler x).link = s.link := rfl
@[simp] theorem State.withScheduler_health : (s.withScheduler x).health = s.health := rfl
@[simp] theorem State.withScheduler_attention : (s.withScheduler x).attention = s.attention := rfl
@[simp] theorem State.withScheduler_scheduler : (s.withScheduler x).scheduler = x := rfl
@[simp] theorem State.withScheduler_enumerator : (s.withScheduler x).enumerator = s.enumerator := rfl
@[simp] theorem State.withScheduler_train : (s.withScheduler x).train = s.train := rfl
@[simp] theorem State.withScheduler_apply : (s.withScheduler x).apply = s.apply := rfl
@[simp] theorem State.withScheduler_cells : (s.withScheduler x).cells = s.cells := rfl
@[simp] theorem State.withScheduler_faults : (s.withScheduler x).faults = s.faults := rfl
@[simp] theorem State.withScheduler_report : (s.withScheduler x).report = s.report := rfl
@[simp] theorem State.withScheduler_counters : (s.withScheduler x).counters = s.counters := rfl
@[simp] theorem State.withScheduler_ignition : (s.withScheduler x).ignition = s.ignition := rfl
@[simp] theorem State.withScheduler_pending : (s.withScheduler x).pending = s.pending := rfl
end

section
variable (s : State) (x : Enumerator)
@[simp] theorem State.withEnumerator_clock : (s.withEnumerator x).clock = s.clock := rfl
@[simp] theorem State.withEnumerator_inputs : (s.withEnumerator x).inputs = s.inputs := rfl
@[simp] theorem State.withEnumerator_steady : (s.withEnumerator x).steady = s.steady := rfl
@[simp] theorem State.withEnumerator_intake : (s.withEnumerator x).intake = s.intake := rfl
@[simp] theorem State.withEnumerator_sense : (s.withEnumerator x).sense = s.sense := rfl
@[simp] theorem State.withEnumerator_link : (s.withEnumerator x).link = s.link := rfl
@[simp] theorem State.withEnumerator_health : (s.withEnumerator x).health = s.health := rfl
@[simp] theorem State.withEnumerator_attention : (s.withEnumerator x).attention = s.attention := rfl
@[simp] theorem State.withEnumerator_scheduler : (s.withEnumerator x).scheduler = s.scheduler := rfl
@[simp] theorem State.withEnumerator_enumerator : (s.withEnumerator x).enumerator = x := rfl
@[simp] theorem State.withEnumerator_train : (s.withEnumerator x).train = s.train := rfl
@[simp] theorem State.withEnumerator_apply : (s.withEnumerator x).apply = s.apply := rfl
@[simp] theorem State.withEnumerator_cells : (s.withEnumerator x).cells = s.cells := rfl
@[simp] theorem State.withEnumerator_faults : (s.withEnumerator x).faults = s.faults := rfl
@[simp] theorem State.withEnumerator_report : (s.withEnumerator x).report = s.report := rfl
@[simp] theorem State.withEnumerator_counters : (s.withEnumerator x).counters = s.counters := rfl
@[simp] theorem State.withEnumerator_ignition : (s.withEnumerator x).ignition = s.ignition := rfl
@[simp] theorem State.withEnumerator_pending : (s.withEnumerator x).pending = s.pending := rfl
end

section
variable (s : State) (x : TrainMap)
@[simp] theorem State.withTrain_clock : (s.withTrain x).clock = s.clock := rfl
@[simp] theorem State.withTrain_inputs : (s.withTrain x).inputs = s.inputs := rfl
@[simp] theorem State.withTrain_steady : (s.withTrain x).steady = s.steady := rfl
@[simp] theorem State.withTrain_intake : (s.withTrain x).intake = s.intake := rfl
@[simp] theorem State.withTrain_sense : (s.withTrain x).sense = s.sense := rfl
@[simp] theorem State.withTrain_link : (s.withTrain x).link = s.link := rfl
@[simp] theorem State.withTrain_health : (s.withTrain x).health = s.health := rfl
@[simp] theorem State.withTrain_attention : (s.withTrain x).attention = s.attention := rfl
@[simp] theorem State.withTrain_scheduler : (s.withTrain x).scheduler = s.scheduler := rfl
@[simp] theorem State.withTrain_enumerator : (s.withTrain x).enumerator = s.enumerator := rfl
@[simp] theorem State.withTrain_train : (s.withTrain x).train = x := rfl
@[simp] theorem State.withTrain_apply : (s.withTrain x).apply = s.apply := rfl
@[simp] theorem State.withTrain_cells : (s.withTrain x).cells = s.cells := rfl
@[simp] theorem State.withTrain_faults : (s.withTrain x).faults = s.faults := rfl
@[simp] theorem State.withTrain_report : (s.withTrain x).report = s.report := rfl
@[simp] theorem State.withTrain_counters : (s.withTrain x).counters = s.counters := rfl
@[simp] theorem State.withTrain_ignition : (s.withTrain x).ignition = s.ignition := rfl
@[simp] theorem State.withTrain_pending : (s.withTrain x).pending = s.pending := rfl
end

section
variable (s : State) (x : Option Apply)
@[simp] theorem State.withApply_clock : (s.withApply x).clock = s.clock := rfl
@[simp] theorem State.withApply_inputs : (s.withApply x).inputs = s.inputs := rfl
@[simp] theorem State.withApply_steady : (s.withApply x).steady = s.steady := rfl
@[simp] theorem State.withApply_intake : (s.withApply x).intake = s.intake := rfl
@[simp] theorem State.withApply_sense : (s.withApply x).sense = s.sense := rfl
@[simp] theorem State.withApply_link : (s.withApply x).link = s.link := rfl
@[simp] theorem State.withApply_health : (s.withApply x).health = s.health := rfl
@[simp] theorem State.withApply_attention : (s.withApply x).attention = s.attention := rfl
@[simp] theorem State.withApply_scheduler : (s.withApply x).scheduler = s.scheduler := rfl
@[simp] theorem State.withApply_enumerator : (s.withApply x).enumerator = s.enumerator := rfl
@[simp] theorem State.withApply_train : (s.withApply x).train = s.train := rfl
@[simp] theorem State.withApply_apply : (s.withApply x).apply = x := rfl
@[simp] theorem State.withApply_cells : (s.withApply x).cells = s.cells := rfl
@[simp] theorem State.withApply_faults : (s.withApply x).faults = s.faults := rfl
@[simp] theorem State.withApply_report : (s.withApply x).report = s.report := rfl
@[simp] theorem State.withApply_counters : (s.withApply x).counters = s.counters := rfl
@[simp] theorem State.withApply_ignition : (s.withApply x).ignition = s.ignition := rfl
@[simp] theorem State.withApply_pending : (s.withApply x).pending = s.pending := rfl
end

section
variable (s : State) (x : CellTable)
@[simp] theorem State.withCells_clock : (s.withCells x).clock = s.clock := rfl
@[simp] theorem State.withCells_inputs : (s.withCells x).inputs = s.inputs := rfl
@[simp] theorem State.withCells_steady : (s.withCells x).steady = s.steady := rfl
@[simp] theorem State.withCells_intake : (s.withCells x).intake = s.intake := rfl
@[simp] theorem State.withCells_sense : (s.withCells x).sense = s.sense := rfl
@[simp] theorem State.withCells_link : (s.withCells x).link = s.link := rfl
@[simp] theorem State.withCells_health : (s.withCells x).health = s.health := rfl
@[simp] theorem State.withCells_attention : (s.withCells x).attention = s.attention := rfl
@[simp] theorem State.withCells_scheduler : (s.withCells x).scheduler = s.scheduler := rfl
@[simp] theorem State.withCells_enumerator : (s.withCells x).enumerator = s.enumerator := rfl
@[simp] theorem State.withCells_train : (s.withCells x).train = s.train := rfl
@[simp] theorem State.withCells_apply : (s.withCells x).apply = s.apply := rfl
@[simp] theorem State.withCells_cells : (s.withCells x).cells = x := rfl
@[simp] theorem State.withCells_faults : (s.withCells x).faults = s.faults := rfl
@[simp] theorem State.withCells_report : (s.withCells x).report = s.report := rfl
@[simp] theorem State.withCells_counters : (s.withCells x).counters = s.counters := rfl
@[simp] theorem State.withCells_ignition : (s.withCells x).ignition = s.ignition := rfl
@[simp] theorem State.withCells_pending : (s.withCells x).pending = s.pending := rfl
end

section
variable (s : State) (x : FaultList)
@[simp] theorem State.withFaults_clock : (s.withFaults x).clock = s.clock := rfl
@[simp] theorem State.withFaults_inputs : (s.withFaults x).inputs = s.inputs := rfl
@[simp] theorem State.withFaults_steady : (s.withFaults x).steady = s.steady := rfl
@[simp] theorem State.withFaults_intake : (s.withFaults x).intake = s.intake := rfl
@[simp] theorem State.withFaults_sense : (s.withFaults x).sense = s.sense := rfl
@[simp] theorem State.withFaults_link : (s.withFaults x).link = s.link := rfl
@[simp] theorem State.withFaults_health : (s.withFaults x).health = s.health := rfl
@[simp] theorem State.withFaults_attention : (s.withFaults x).attention = s.attention := rfl
@[simp] theorem State.withFaults_scheduler : (s.withFaults x).scheduler = s.scheduler := rfl
@[simp] theorem State.withFaults_enumerator : (s.withFaults x).enumerator = s.enumerator := rfl
@[simp] theorem State.withFaults_train : (s.withFaults x).train = s.train := rfl
@[simp] theorem State.withFaults_apply : (s.withFaults x).apply = s.apply := rfl
@[simp] theorem State.withFaults_cells : (s.withFaults x).cells = s.cells := rfl
@[simp] theorem State.withFaults_faults : (s.withFaults x).faults = x := rfl
@[simp] theorem State.withFaults_report : (s.withFaults x).report = s.report := rfl
@[simp] theorem State.withFaults_counters : (s.withFaults x).counters = s.counters := rfl
@[simp] theorem State.withFaults_ignition : (s.withFaults x).ignition = s.ignition := rfl
@[simp] theorem State.withFaults_pending : (s.withFaults x).pending = s.pending := rfl
end

section
variable (s : State) (x : Report)
@[simp] theorem State.withReport_clock : (s.withReport x).clock = s.clock := rfl
@[simp] theorem State.withReport_inputs : (s.withReport x).inputs = s.inputs := rfl
@[simp] theorem State.withReport_steady : (s.withReport x).steady = s.steady := rfl
@[simp] theorem State.withReport_intake : (s.withReport x).intake = s.intake := rfl
@[simp] theorem State.withReport_sense : (s.withReport x).sense = s.sense := rfl
@[simp] theorem State.withReport_link : (s.withReport x).link = s.link := rfl
@[simp] theorem State.withReport_health : (s.withReport x).health = s.health := rfl
@[simp] theorem State.withReport_attention : (s.withReport x).attention = s.attention := rfl
@[simp] theorem State.withReport_scheduler : (s.withReport x).scheduler = s.scheduler := rfl
@[simp] theorem State.withReport_enumerator : (s.withReport x).enumerator = s.enumerator := rfl
@[simp] theorem State.withReport_train : (s.withReport x).train = s.train := rfl
@[simp] theorem State.withReport_apply : (s.withReport x).apply = s.apply := rfl
@[simp] theorem State.withReport_cells : (s.withReport x).cells = s.cells := rfl
@[simp] theorem State.withReport_faults : (s.withReport x).faults = s.faults := rfl
@[simp] theorem State.withReport_report : (s.withReport x).report = x := rfl
@[simp] theorem State.withReport_counters : (s.withReport x).counters = s.counters := rfl
@[simp] theorem State.withReport_ignition : (s.withReport x).ignition = s.ignition := rfl
@[simp] theorem State.withReport_pending : (s.withReport x).pending = s.pending := rfl
end

section
variable (s : State) (x : Vector Counter 4)
@[simp] theorem State.withCounters_clock : (s.withCounters x).clock = s.clock := rfl
@[simp] theorem State.withCounters_inputs : (s.withCounters x).inputs = s.inputs := rfl
@[simp] theorem State.withCounters_steady : (s.withCounters x).steady = s.steady := rfl
@[simp] theorem State.withCounters_intake : (s.withCounters x).intake = s.intake := rfl
@[simp] theorem State.withCounters_sense : (s.withCounters x).sense = s.sense := rfl
@[simp] theorem State.withCounters_link : (s.withCounters x).link = s.link := rfl
@[simp] theorem State.withCounters_health : (s.withCounters x).health = s.health := rfl
@[simp] theorem State.withCounters_attention : (s.withCounters x).attention = s.attention := rfl
@[simp] theorem State.withCounters_scheduler : (s.withCounters x).scheduler = s.scheduler := rfl
@[simp] theorem State.withCounters_enumerator : (s.withCounters x).enumerator = s.enumerator := rfl
@[simp] theorem State.withCounters_train : (s.withCounters x).train = s.train := rfl
@[simp] theorem State.withCounters_apply : (s.withCounters x).apply = s.apply := rfl
@[simp] theorem State.withCounters_cells : (s.withCounters x).cells = s.cells := rfl
@[simp] theorem State.withCounters_faults : (s.withCounters x).faults = s.faults := rfl
@[simp] theorem State.withCounters_report : (s.withCounters x).report = s.report := rfl
@[simp] theorem State.withCounters_counters : (s.withCounters x).counters = x := rfl
@[simp] theorem State.withCounters_ignition : (s.withCounters x).ignition = s.ignition := rfl
@[simp] theorem State.withCounters_pending : (s.withCounters x).pending = s.pending := rfl
end

section
variable (s : State) (x : Ignition)
@[simp] theorem State.withIgnition_clock : (s.withIgnition x).clock = s.clock := rfl
@[simp] theorem State.withIgnition_inputs : (s.withIgnition x).inputs = s.inputs := rfl
@[simp] theorem State.withIgnition_steady : (s.withIgnition x).steady = s.steady := rfl
@[simp] theorem State.withIgnition_intake : (s.withIgnition x).intake = s.intake := rfl
@[simp] theorem State.withIgnition_sense : (s.withIgnition x).sense = s.sense := rfl
@[simp] theorem State.withIgnition_link : (s.withIgnition x).link = s.link := rfl
@[simp] theorem State.withIgnition_health : (s.withIgnition x).health = s.health := rfl
@[simp] theorem State.withIgnition_attention : (s.withIgnition x).attention = s.attention := rfl
@[simp] theorem State.withIgnition_scheduler : (s.withIgnition x).scheduler = s.scheduler := rfl
@[simp] theorem State.withIgnition_enumerator : (s.withIgnition x).enumerator = s.enumerator := rfl
@[simp] theorem State.withIgnition_train : (s.withIgnition x).train = s.train := rfl
@[simp] theorem State.withIgnition_apply : (s.withIgnition x).apply = s.apply := rfl
@[simp] theorem State.withIgnition_cells : (s.withIgnition x).cells = s.cells := rfl
@[simp] theorem State.withIgnition_faults : (s.withIgnition x).faults = s.faults := rfl
@[simp] theorem State.withIgnition_report : (s.withIgnition x).report = s.report := rfl
@[simp] theorem State.withIgnition_counters : (s.withIgnition x).counters = s.counters := rfl
@[simp] theorem State.withIgnition_ignition : (s.withIgnition x).ignition = x := rfl
@[simp] theorem State.withIgnition_pending : (s.withIgnition x).pending = s.pending := rfl
end

section
variable (s : State) (x : List Instr)
@[simp] theorem State.withPending_clock : (s.withPending x).clock = s.clock := rfl
@[simp] theorem State.withPending_inputs : (s.withPending x).inputs = s.inputs := rfl
@[simp] theorem State.withPending_steady : (s.withPending x).steady = s.steady := rfl
@[simp] theorem State.withPending_intake : (s.withPending x).intake = s.intake := rfl
@[simp] theorem State.withPending_sense : (s.withPending x).sense = s.sense := rfl
@[simp] theorem State.withPending_link : (s.withPending x).link = s.link := rfl
@[simp] theorem State.withPending_health : (s.withPending x).health = s.health := rfl
@[simp] theorem State.withPending_attention : (s.withPending x).attention = s.attention := rfl
@[simp] theorem State.withPending_scheduler : (s.withPending x).scheduler = s.scheduler := rfl
@[simp] theorem State.withPending_enumerator : (s.withPending x).enumerator = s.enumerator := rfl
@[simp] theorem State.withPending_train : (s.withPending x).train = s.train := rfl
@[simp] theorem State.withPending_apply : (s.withPending x).apply = s.apply := rfl
@[simp] theorem State.withPending_cells : (s.withPending x).cells = s.cells := rfl
@[simp] theorem State.withPending_faults : (s.withPending x).faults = s.faults := rfl
@[simp] theorem State.withPending_report : (s.withPending x).report = s.report := rfl
@[simp] theorem State.withPending_counters : (s.withPending x).counters = s.counters := rfl
@[simp] theorem State.withPending_ignition : (s.withPending x).ignition = s.ignition := rfl
@[simp] theorem State.withPending_pending : (s.withPending x).pending = x := rfl
end

section
variable (s : State) (m : Moment)
@[simp] theorem State.advance_clock : (s.advance m).clock = s.clock + m.elapsed := rfl
@[simp] theorem State.advance_inputs : (s.advance m).inputs = m.inputs := rfl
@[simp] theorem State.advance_steady : (s.advance m).steady = s.steady.follow s.inputs m.inputs (s.clock + m.elapsed) := rfl
@[simp] theorem State.advance_intake : (s.advance m).intake = s.intake := rfl
@[simp] theorem State.advance_sense : (s.advance m).sense = s.sense := rfl
@[simp] theorem State.advance_link : (s.advance m).link = s.link := rfl
@[simp] theorem State.advance_health : (s.advance m).health = s.health := rfl
@[simp] theorem State.advance_attention : (s.advance m).attention = s.attention := rfl
@[simp] theorem State.advance_scheduler : (s.advance m).scheduler = s.scheduler := rfl
@[simp] theorem State.advance_enumerator : (s.advance m).enumerator = s.enumerator := rfl
@[simp] theorem State.advance_train : (s.advance m).train = s.train := rfl
@[simp] theorem State.advance_apply : (s.advance m).apply = s.apply := rfl
@[simp] theorem State.advance_cells : (s.advance m).cells = s.cells := rfl
@[simp] theorem State.advance_faults : (s.advance m).faults = s.faults := rfl
@[simp] theorem State.advance_report : (s.advance m).report = s.report := rfl
@[simp] theorem State.advance_counters : (s.advance m).counters = s.counters := rfl
@[simp] theorem State.advance_ignition : (s.advance m).ignition = s.ignition := rfl
@[simp] theorem State.advance_pending : (s.advance m).pending = s.pending := rfl
end

end Sys2Proof.Machine
end

