-- ==== Sys2Proof/Laws/Closed.lean ====
section
/-! SUPPORT. What every operation of the part keeps. `Closed P` says that P survives a change of any block that is not
the Cell Table, the Train Map or the Fault List, as long as no queue, buffer or list grows past its places, and the
operations that those three are changed by; every command is made of such changes, so it keeps P. What takes judgements
settles the overflow flag too, and asks `KeepsOverflow P`. -/

namespace Sys2Proof.Machine

/-- A change of one cell that every property of a cell survives: it stays ABSENT or not, listed or not, and its fields
go on agreeing. -/
structure CellKeeps (a b : Cell) : Prop where
  absent : a.state = .absent ↔ b.state = .absent
  listed : b.listed = a.listed
  consistent : ∀ set, a.Consistent set → b.Consistent set

/-- A change of the Query Queue that every property of it survives: it stays within its places, and no position has a
second QUERY or PROFILE entry that had none. -/
structure QueueKeeps (a b : List Entry) : Prop where
  length : b.length ≤ max 8 a.length
  queries : ∀ p, (b.countP fun e => e.work.isQueryFor p) ≤ max 1 (a.countP fun e => e.work.isQueryFor p)
  profiles : ∀ p, (b.countP fun e => e.work.isProfileFor p) ≤ max 1 (a.countP fun e => e.work.isProfileFor p)

/-- Entries that leave the queue. -/
theorem QueueKeeps.of_sublist {a b : List Entry} (h : b.Sublist a) : QueueKeeps a b :=
  ⟨le_max_of_le_right h.length_le, fun _ => le_max_of_le_right h.countP_le, fun _ => le_max_of_le_right h.countP_le⟩

@[simp] theorem QueueKeeps.refl (a : List Entry) : QueueKeeps a a := .of_sublist (List.Sublist.refl a)

@[simp] theorem QueueKeeps.nil (a : List Entry) : QueueKeeps a [] := .of_sublist (List.nil_sublist a)

/-- An ENUMERATE entry placed at the head, where entries may have left. -/
theorem QueueKeeps.enumerate {a b : List Entry} {t : Time} (h : b.Sublist a) (hl : b.length + 1 ≤ max 8 a.length) :
    QueueKeeps a (⟨.enumerate, t⟩ :: b) where
  length := hl
  queries p := by
    rw [List.countP_cons_of_neg (by simp [Work.isQueryFor])]
    exact le_max_of_le_right h.countP_le
  profiles p := by
    rw [List.countP_cons_of_neg (by simp [Work.isProfileFor])]
    exact le_max_of_le_right h.countP_le

/-- An entry placed at the tail of a queue that has a place and none of its kind for its position. -/
theorem QueueKeeps.tail {a : List Entry} {w : Work} {t : Time} (hl : a.length < 8)
    (hq : ∀ p, w.isQueryFor p = true → ∀ e ∈ a, e.work.isQueryFor p = false)
    (hp : ∀ p, w.isProfileFor p = true → ∀ e ∈ a, e.work.isProfileFor p = false) : QueueKeeps a (a ++ [⟨w, t⟩]) where
  length := by simp; omega
  queries p := by
    rw [List.countP_append, List.countP_singleton]
    split
    · next hw => rw [List.countP_eq_zero.mpr (by simpa using hq p hw)]; simp
    · simp
  profiles p := by
    rw [List.countP_append, List.countP_singleton]
    split
    · next hw => rw [List.countP_eq_zero.mpr (by simpa using hp p hw)]; simp
    · simp

/-- Entries changed in their place, each still of its kind and for its position. -/
theorem QueueKeeps.map {a : List Entry} {g : Entry → Entry}
    (hq : ∀ e p, (g e).work.isQueryFor p = e.work.isQueryFor p)
    (hp : ∀ e p, (g e).work.isProfileFor p = e.work.isProfileFor p) : QueueKeeps a (a.map g) where
  length := by simp
  queries p := by rw [List.countP_map]; simp only [Function.comp_def, hq]; exact le_max_right _ _
  profiles p := by rw [List.countP_map]; simp only [Function.comp_def, hp]; exact le_max_right _ _

/-- P survives every change that the part's operations are made of. -/
structure Closed (P : State → Prop) : Prop where
  sense : ∀ {s x}, P s → P (s.withSense x)
  link : ∀ {s x}, P s → P (s.withLink x)
  attention : ∀ {s x}, P s → P (s.withAttention x)
  enumerator : ∀ {s x}, P s → P (s.withEnumerator x)
  apply : ∀ {s x}, P s → P (s.withApply x)
  counters : ∀ {s x}, P s → P (s.withCounters x)
  library : ∀ {s : State} {l}, (s.ignition.library.Sound → l.Sound) → P s → P (s.withLibrary l)
  part : ∀ {s p}, P s → P (s.withPart p)
  quietSince : ∀ {s q}, P s → P (s.withIgnition { s.ignition with quietSince := q })
  health : ∀ {s x}, x.window.length ≤ max 32 s.health.window.length → x.cleanRun ≤ max 256 s.health.cleanRun →
    P s → P (s.withHealth x)
  scheduler : ∀ {s x}, QueueKeeps s.scheduler.queue x.queue → P s → P (s.withScheduler x)
  report : ∀ {s x}, x.transmit.length ≤ max 24 s.report.transmit.length →
    x.received.length ≤ max 8 s.report.received.length → P s → P (s.withReport x)
  train : ∀ {s : State} {x : TrainMap}, (∀ p : Pos, (x.records[p]).map PosRecord.state = s.posState p) →
    (∀ p : Pos, (x.records[p]).bind PosRecord.serial = (s.record p).bind PosRecord.serial) →
    x.linkState = s.train.linkState → P s → P (s.withTrain x)
  cell : ∀ {s : State} {k c}, CellKeeps (s.cell k) c → P s → P (s.setCell k c)
  change : ∀ {s : State} {g : CellKey → Cell → Cell}, (∀ k c, CellKeeps c (g k c)) → P s →
    P (s.withCells (s.cells.change g))
  fresh : ∀ {s : State} {g f}, (s.cell (.segment g f)).state = .absent → P s → P (s.setCell (.segment g f) Cell.fresh)
  absent : ∀ {s : State} {k}, P s → P (s.makeAbsent k)
  clear : ∀ {s : State} {k}, P s → P (s.clearCell k)
  profileReset : ∀ {s : State} {p f x}, P s → P (s.resetForProfile p f x)
  judge : ∀ {s : State} {k j}, P s → P (s.takeJudgement k j)
  linkState : ∀ {s : State} {new}, P s → P (s.setLinkState new)
  remove : ∀ {s : State} {site}, P s → P (s.removeFault site)
  heal : ∀ {s : State} {site}, P s → P (s.healFault site)
  acknowledge : ∀ {s : State} {x}, P s → P (s.acknowledge x)
  raise : ∀ {s : State} {site kind l}, site.isCell = false → P s → P (s.raiseFault site kind l s)
  raiseBreak : ∀ {s : State} {g}, P s → P (s.raiseBreak g)
  admission : ∀ {s : State}, P s → P s.admitWaiting

/-- P survives also the overflow flag that is settled around a judgement and at the end of every event. -/
abbrev KeepsOverflow (P : State → Prop) : Prop := ∀ {s : State}, P s → P s.settleOverflow

/-- P survives also what changes which positions are mapped and in which state they are. -/
structure ClosedMap (P : State → Prop) : Prop extends Closed P where
  silent : ∀ {s : State} {p}, s.posState p = some .present → P s →
    P (s.changeRecord p fun r => { r with state := .silent })
  present : ∀ {s : State} {p}, s.posState p = some .silent → P s →
    P (s.changeRecord p fun r => { r with state := .present, streak := 0 })
  compare : ∀ {s : State} {a}, P s → P (s.compareResult a)
  departAll : ∀ {s : State}, P s → P s.departAll
  departLost : ∀ {s : State}, P s → P s.departLost

/-- P survives also what every event does: its moment comes, and the list's revision steps. -/
structure ClosedEvent (P : State → Prop) : Prop extends Closed P where
  advance : ∀ {s m}, P s → P (s.advance m)
  overflow : KeepsOverflow P
  revised : ∀ {s b}, P s → P (s.settleRevision b)

/-- P survives also the changes that only settings, saves and the ignition state are made of. -/
structure ClosedStore (P : State → Prop) : Prop extends ClosedMap P where
  ignition : ∀ {s : State} {x : Ignition}, x.settings = s.ignition.settings →
    (∀ l ∈ x.libraries, l ∈ s.ignition.libraries) → P s → P (s.withIgnition x)
  setting : ∀ {s : State} {code v}, P s →
    P ((s.withSettings (s.ignition.settings.write code (settingValue code v))).settingWritten code)

/-- P survives also the changes that only lamp commands and resets are made of. -/
structure ClosedAll (P : State → Prop) : Prop extends ClosedStore P where
  intake : ∀ {s x}, P s → P (s.withIntake x)
  afresh : ∀ {s : State} {x : Ignition}, (∀ l ∈ x.libraries, l ∈ s.ignition.libraries ∨ l.entries = []) → P s →
    P (s.startAfresh.withIgnition x)
  clock : ∀ {s t x}, P s → P { s with clock := t, steady := x }

variable {P : State → Prop}

theorem Cell.commandLost_keeps (k : CellKey) (c : Cell) : CellKeeps c (Cell.commandLost k c) := by
  unfold Cell.commandLost
  repeat' split
  all_goals exact ⟨Iff.rfl, rfl, fun _ hc => ⟨hc.confirmed, hc.confirmedAt, hc.counting⟩⟩

theorem Cell.atStandby_keeps (_ : CellKey) (c : Cell) : CellKeeps c c.atStandby := by
  unfold Cell.atStandby
  split
  all_goals
    next hs =>
      refine ⟨by simp [hs], rfl, fun set hc => ⟨?_, ?_, ?_⟩⟩
      · simpa [Cell.faulty, hs] using hc.confirmed
      · simpa [Cell.faulty, hs] using hc.confirmedAt
      · have := hc.counting
        simp only [hs] at this
        simp [this, hs]

/-- A fold of operations that keep P keeps P. -/
theorem foldl_closed {α : Type} {f : State → α → State} {l : List α} {s : State} (hf : ∀ t a, P t → P (f t a))
    (h : P s) : P (l.foldl f s) := by
  induction l generalizing s with
  | nil => exact h
  | cons a l ih => exact ih (hf s a h)

/-! ### The operations that the fields name -/

theorem State.holdCell_closed (hP : Closed P) {s : State} {k : CellKey} {r : HoldReason} (h : P s) :
    P (s.holdCell k r) := by
  unfold State.holdCell
  split
  · exact h
  · exact hP.cell ⟨Iff.rfl, rfl, fun _ hc => ⟨hc.confirmed, hc.confirmedAt, hc.counting⟩⟩ h

theorem State.storeSample_closed (hP : Closed P) {s : State} {k : CellKey} {x : Sample} (h : P s) :
    P (s.storeSample k x) :=
  hP.cell ⟨Iff.rfl, rfl, fun _ hc => ⟨hc.confirmed, hc.confirmedAt, hc.counting⟩⟩ h

theorem State.resolvable_closed (hP : Closed P) {s : State} {k : CellKey} {b : Bool} (h : P s) :
    P (s.setCell k { s.cell k with resolvable := b }) :=
  hP.cell ⟨Iff.rfl, rfl, fun _ hc => ⟨hc.confirmed, hc.confirmedAt, hc.counting⟩⟩ h

theorem State.changeRecord_closed (hP : Closed P) {s : State} {p : Pos} {g : PosRecord → PosRecord}
    (hg : ∀ r, (g r).state = r.state ∧ (g r).serial = r.serial) (h : P s) : P (s.changeRecord p g) := by
  unfold State.changeRecord
  split
  · exact h
  · next r hr =>
    refine hP.train (fun q => ?_) (fun q => ?_) rfl h
    · simp only [State.posState, State.record, Fin.getElem_fin, Vector.getElem_set] at hr ⊢
      split
      · next hq => simp [← hq, hr, hg]
      · rfl
    · simp only [State.record, Fin.getElem_fin, Vector.getElem_set] at hr ⊢
      split
      · next hq => simp [← hq, hr, hg]
      · rfl

theorem State.removeFault_closed (hP : Closed P) {s : State} {site : Site} (h : P s) : P (s.removeFault site) :=
  hP.remove h

theorem State.healFault_closed (hP : Closed P) {s : State} {site : Site} (h : P s) : P (s.healFault site) := hP.heal h

theorem State.acknowledge_closed (hP : Closed P) {s : State} {x : FaultRecord} (h : P s) : P (s.acknowledge x) :=
  hP.acknowledge h

theorem State.raiseFault_closed (hP : Closed P) {s : State} {site : Site} {kind : FaultKind} {lampsOut : Option Nat}
    (hs : site.isCell = false) (h : P s) : P (s.raiseFault site kind lampsOut s) :=
  hP.raise hs h

theorem State.raiseBreak_closed (hP : Closed P) {s : State} {t : Seg} (h : P s) : P (s.raiseBreak t) := hP.raiseBreak h

theorem State.makeAbsent_closed (hP : Closed P) {s : State} {k : CellKey} (h : P s) : P (s.makeAbsent k) := hP.absent h

theorem State.clearCell_closed (hP : Closed P) {s : State} {k : CellKey} (h : P s) : P (s.clearCell k) := hP.clear h

theorem State.resetForProfile_closed (hP : Closed P) {s : State} {p : Pos} {f : Func} {x : Profile} (h : P s) :
    P (s.resetForProfile p f x) :=
  hP.profileReset h

theorem State.setLinkState_closed (hP : Closed P) {s : State} {new : LinkState} (h : P s) : P (s.setLinkState new) :=
  hP.linkState h

theorem State.admitWaiting_closed (hP : Closed P) {s : State} (h : P s) : P s.admitWaiting := hP.admission h

theorem State.countBy_closed (hP : Closed P) {s : State} {e : CountedEvent} {position : Option Nat} {amount : Nat}
    (h : P s) : P (s.countBy e position amount) := by
  unfold State.countBy
  try dsimp only
  repeat' (first
    | with_reducible assumption
    | with_reducible refine hP.counters ?_
    | split)

theorem State.countEvent_closed (hP : Closed P) {s : State} {e : CountedEvent} {position : Option Nat} (h : P s) : P
    (s.countEvent e position) := by
  unfold State.countEvent
  try dsimp only
  repeat' (first
    | with_reducible assumption
    | with_reducible apply State.countBy_closed hP)

@[simp] theorem State.markListed_faults (s : State) (site : Site) (b : Bool) :
    (s.markListed site b).faults = s.faults := by
  unfold State.markListed; split <;> rfl

theorem State.removeFault_length_le (s : State) (site : Site) :
    (s.removeFault site).faults.records.length ≤ s.faults.records.length := by
  unfold State.removeFault
  split
  · exact le_rfl
  · simpa [State.withRecords] using List.length_filter_le _ _

/-- A record of the list removed leaves a shorter list. -/
theorem State.removeFault_length_lt {s : State} {r : FaultRecord} (hr : r ∈ s.faults.records) :
    (s.removeFault r.site).faults.records.length < s.faults.records.length := by
  unfold State.removeFault
  have hs : (s.faultAt r.site).isSome := by
    unfold State.faultAt
    rw [List.find?_isSome]
    exact ⟨r, hr, by simp⟩
  split
  · next h => rw [h] at hs; simp at hs
  · simp only [State.withRecords, State.markListed_faults, State.withFaults_faults]
    have := List.length_filter_lt_length_iff_exists (p := fun x : FaultRecord => decide (x.site ≠ r.site))
      (l := s.faults.records)
    exact this.mpr ⟨r, hr, by simp⟩

@[simp] theorem State.removeFault_revision (s : State) (site : Site) :
    (s.removeFault site).faults.revision = s.faults.revision := by
  unfold State.removeFault
  split
  · rfl
  · simp [State.withRecords]

theorem State.settleQueue_closed (hP : Closed P) {s : State} (h : P s) : P s.settleQueue := by
  unfold State.settleQueue
  split
  · next hq =>
    refine hP.scheduler (QueueKeeps.enumerate (List.Sublist.refl _) ?_) h
    have := hq.2
    simp only [Config.queuePlaces] at this
    omega
  · exact h

theorem State.settleQuiet_closed (hP : Closed P) {s : State}  (h : P s) : P (s.settleQuiet ) := by
  unfold State.settleQuiet
  try dsimp only
  repeat' (first
    | with_reducible assumption
    | with_reducible refine hP.quietSince ?_
    | split)

theorem State.settleProbe_closed (hP : Closed P) {s : State}  (h : P s) : P (s.settleProbe ) := by
  unfold State.settleProbe
  try dsimp only
  repeat' (first
    | with_reducible assumption
    | with_reducible refine hP.enumerator ?_
    | split)

theorem State.refreshLink_closed (hP : Closed P) {s : State}  (h : P s) : P (s.refreshLink ) := by
  unfold State.refreshLink
  try dsimp only
  repeat' (first
    | with_reducible assumption
    | with_reducible apply State.setLinkState_closed hP)

theorem State.settleReports_closed (hP : Closed P) {s : State}  (h : P s) : P (s.settleReports ) := by
  unfold State.settleReports
  try dsimp only
  repeat' (first
    | with_reducible assumption
    | with_reducible refine hP.report (by simp) (by simp) ?_
    | split)

theorem State.conclude_closed (hP : ClosedEvent P) {s : State} {before : FaultList} (h : P s) : P
    (s.conclude before) :=
  State.settleReports_closed hP.toClosed (State.settleProbe_closed hP.toClosed (State.settleQuiet_closed hP.toClosed
    (hP.revised (hP.overflow (State.admitWaiting_closed hP.toClosed
      (State.settleQueue_closed hP.toClosed h))))))

theorem State.transmit_closed (hP : Closed P) {s : State} {ms : List Message}
    (hl : s.report.transmit.length + ms.length ≤ 24) (h : P s) : P (s.transmit ms) := by
  unfold State.transmit
  exact hP.report (by simp; omega) (by simp) h

theorem State.reply_closed (hP : Closed P) {s : State} {r : Request} {status : Status}
    (hl : s.report.transmit.length ≤ 15) (h : P s) : P (s.reply r status) :=
  State.transmit_closed hP (show s.report.transmit.length + 1 ≤ 24 by omega) h

theorem groupsOfFive_length (n : Nat) (data : List Byte) : (groupsOfFive n data).length = n := by
  induction n generalizing data with
  | zero => rfl
  | succ n ih => simp [groupsOfFive, ih]

theorem State.replyData_closed (hP : Closed P) {s : State} {r : Request} {n : Nat} {data : List Byte} (hn : n ≤ 6)
    (hl : s.report.transmit.length ≤ 15) (h : P s) : P (s.replyData r n data) := by
  unfold State.replyData
  refine State.transmit_closed hP ?_ (State.reply_closed hP hl h)
  simp only [State.reply, State.transmit, State.withReport_report, List.length_append, List.length_mapIdx,
    groupsOfFive_length, List.length_singleton]
  omega

theorem State.fallDue_closed (hP : Closed P) {s : State} {m : Message} (h : P s) : P (s.fallDue m) := by
  unfold State.fallDue
  split
  · next hq =>
    refine State.transmit_closed hP ?_ h
    have := hq.1
    simp only [Config.transmitPlaces] at this
    simp; omega
  · exact hP.report (by simp) (by simp) h

theorem State.replyPositionReset_closed (hP : Closed P) {s : State} {who : Requester} {status : Status} (h : P s) :
    P (s.replyPositionReset who status) := by
  unfold State.replyPositionReset
  try dsimp only
  repeat' (first
    | with_reducible assumption
    | with_reducible apply State.fallDue_closed hP)

theorem State.replyApply_closed (hP : Closed P) {s : State} {who : Requester} {skipped : Nat} (h : P s) : P
    (s.replyApply who skipped) := by
  unfold State.replyApply
  try dsimp only
  repeat' (first
    | with_reducible assumption
    | with_reducible apply State.fallDue_closed hP)

theorem State.replySave_closed (hP : Closed P) {s : State} {who : Requester} {status : Status} (h : P s) : P
    (s.replySave who status) := by
  unfold State.replySave
  try dsimp only
  repeat' (first
    | with_reducible assumption
    | with_reducible apply State.fallDue_closed hP)

theorem Report.finish_transmit_length (x : Report) : x.finish.transmit.length ≤ x.transmit.length := by
  unfold Report.finish
  split
  · exact le_rfl
  · next b _ =>
    dsimp only
    split
    · unfold Report.sentHead
      split
      · exact le_rfl
      · next m rest heq =>
        have : (rest ++ x.deferred.take 1).length ≤ x.transmit.length := by
          rw [heq, List.length_append, List.length_cons, List.length_take]; omega
        dsimp only
        split <;> exact this
    · exact le_rfl

@[simp] theorem Report.finish_received (x : Report) : x.finish.received = x.received := by
  unfold Report.finish Report.sentHead
  repeat' (first | rfl | split)

theorem State.takeMessage_closed (hP : Closed P) {s : State} (h : P s) : P s.takeMessage := by
  unfold State.takeMessage
  repeat' (first
    | with_reducible assumption
    | with_reducible refine hP.report (by simp) (by simp) ?_
    | split)

theorem State.qualifyCell_closed (hP : Closed P) (hO : KeepsOverflow P) {s : State} {k : CellKey} {j : Judgement} (h : P s) :
    P (s.qualifyCell k j) :=
  hO (hP.judge (hO h))

theorem State.deliverVerdict_closed (hP : Closed P) (hO : KeepsOverflow P) {s : State} {k : CellKey} {j : Judgement} (h : P s) : P
    (s.deliverVerdict k j) := by
  unfold State.deliverVerdict
  try dsimp only
  repeat' (first
    | with_reducible assumption
    | with_reducible apply State.qualifyCell_closed hP hO
    | with_reducible apply State.countEvent_closed hP
    | split)

theorem State.deliver_closed (hP : Closed P) (hO : KeepsOverflow P) {s : State} {k : CellKey} {x : Judged} (h : P s) : P (s.deliver k x) := by
  unfold State.deliver
  try dsimp only
  repeat' (first
    | with_reducible assumption
    | with_reducible apply State.deliverVerdict_closed hP hO
    | with_reducible apply State.holdCell_closed hP
    | with_reducible apply State.resolvable_closed hP
    | split)

theorem State.checkSegment_closed (hP : Closed P) (hO : KeepsOverflow P) {s : State} {g : Seg} {f : Func} {upNew : Bool} (h : P s) : P
    (s.checkSegment g f upNew) := by
  unfold State.checkSegment
  try dsimp only
  repeat' (first
    | with_reducible assumption
    | with_reducible apply State.deliverVerdict_closed hP hO
    | with_reducible apply State.holdCell_closed hP
    | split)

theorem State.readChannels_closed (hP : Closed P) {s : State} (h : P s) : P s.readChannels := hP.sense h

theorem State.handLineSample_closed (hP : Closed P) (hO : KeepsOverflow P) {s : State} {f : Func} {x : Sample} (h : P s) : P
    (s.handLineSample f x) := by
  unfold State.handLineSample
  try dsimp only
  repeat' (first
    | with_reducible assumption
    | with_reducible apply State.checkSegment_closed hP hO
    | with_reducible apply State.deliver_closed hP hO
    | split)

theorem State.takeLineSample_closed (hP : Closed P) (hO : KeepsOverflow P) {s : State} {f : Func} (h : P s) : P (s.takeLineSample f) := by
  unfold State.takeLineSample
  try dsimp only
  repeat' (first
    | with_reducible assumption
    | with_reducible apply State.handLineSample_closed hP hO
    | with_reducible apply State.storeSample_closed hP
    | with_reducible apply State.holdCell_closed hP
    | split)

theorem State.withQueue_closed (hP : Closed P) {s : State} {q : List Entry}
    (hl : QueueKeeps s.scheduler.queue q) (h : P s) : P (s.withQueue q) :=
  hP.scheduler hl h

theorem State.placeTail_closed (hP : Closed P) {s : State} {w : Work} (hl : s.queueFull = false)
    (hq : ∀ p, w.isQueryFor p = true → s.queued (Work.isQueryFor p) = false)
    (hp : ∀ p, w.isProfileFor p = true → s.queued (Work.isProfileFor p) = false) (h : P s) :
    P (s.placeTail w) := by
  unfold State.placeTail
  refine State.withQueue_closed hP (QueueKeeps.tail ?_ (fun p hw => ?_) fun p hw => ?_) h
  · have := of_decide_eq_false hl
    simp only [Config.queuePlaces] at this
    omega
  · simpa [State.queued] using hq p hw
  · simpa [State.queued] using hp p hw

theorem Entry.merged_isQueryFor (e : Entry) (p : Pos) (mask : Mask) (origin : Origin) (q : Pos) :
    (e.merged p mask origin).work.isQueryFor q = e.work.isQueryFor q := by
  unfold Entry.merged
  split
  · next hw => split <;> simp [hw, Work.isQueryFor]
  · rfl

theorem Entry.merged_isProfileFor (e : Entry) (p : Pos) (mask : Mask) (origin : Origin) (q : Pos) :
    (e.merged p mask origin).work.isProfileFor q = e.work.isProfileFor q := by
  unfold Entry.merged
  split
  · next hw => split <;> simp [hw, Work.isProfileFor]
  · rfl

theorem State.putQuery_closed (hP : Closed P) {s : State} {p : Pos} {mask : Mask} {origin : Origin}
    (hl : s.queryFits p = true) (h : P s) : P (s.putQuery p mask origin) := by
  unfold State.putQuery
  split
  · exact State.withQueue_closed hP (QueueKeeps.map (fun e q => e.merged_isQueryFor p mask origin q)
      fun e q => e.merged_isProfileFor p mask origin q) h
  · next hq =>
    refine State.placeTail_closed hP ?_ (fun q hw => ?_) (fun q hw => by simp [Work.isProfileFor] at hw) h
    · simpa [State.queryFits, hq] using hl
    · simp only [Work.isQueryFor, decide_eq_true_eq] at hw
      subst hw; simpa using hq

theorem State.offerScan_closed (hP : Closed P) {s : State} {p : Pos} {mask : Mask} (h : P s) :
    P (s.offerScan p mask) := by
  unfold State.offerScan
  split
  · next hl => exact State.putQuery_closed hP hl h
  · exact State.countEvent_closed hP h

theorem State.offerSweep_closed (hP : Closed P) {s : State} {p : Pos} {mask : Mask} (h : P s) :
    P (s.offerSweep p mask) := by
  unfold State.offerSweep
  split
  · next hl => exact State.putQuery_closed hP hl h
  · exact h

theorem State.offerProfile_closed (hP : Closed P) {s : State} {p : Pos} (h : P s) : P (s.offerProfile p) := by
  unfold State.offerProfile
  split
  · exact h
  · next hq =>
    rw [not_or] at hq
    refine State.placeTail_closed hP (by simpa using hq.2) (fun q hw => by simp [Work.isQueryFor] at hw)
      (fun q hw => ?_) h
    simp only [Work.isProfileFor, decide_eq_true_eq] at hw
    subst hw; simpa using hq.1

theorem State.discardEntries_closed (hP : Closed P) {s : State} {g : Pos → Bool} (h : P s) :
    P (s.discardEntries g) := by
  unfold State.discardEntries
  refine foldl_closed (fun t e ht => ?_) (State.withQueue_closed hP
    (QueueKeeps.of_sublist List.filter_sublist) h)
  split
  · exact State.replyPositionReset_closed hP ht
  · exact ht

theorem dropYoungestScan_sublist {q rest : List Entry} {p : Pos} (h : dropYoungestScan q = some (rest, p)) :
    rest.Sublist q ∧ rest.length + 1 = q.length := by
  induction q generalizing rest p with
  | nil => simp [dropYoungestScan] at h
  | cons e q ih =>
    unfold dropYoungestScan at h
    split at h
    · next rest' p' he =>
      simp only [Option.some.injEq, Prod.mk.injEq] at h
      rw [← h.1, List.length_cons, List.length_cons, (ih he).2]
      exact ⟨(ih he).1.cons_cons e, rfl⟩
    · split at h
      · simp only [Option.some.injEq, Prod.mk.injEq] at h
        rw [← h.1, List.length_cons]
        exact ⟨List.sublist_cons_self e q, rfl⟩
      · simp at h

theorem State.placeEnumerate_closed (hP : Closed P) {s : State} (h : P s) : P s.placeEnumerate := by
  unfold State.placeEnumerate
  split
  · next hq =>
    refine State.withQueue_closed hP (QueueKeeps.enumerate (List.Sublist.refl _) ?_) h
    have hn : ¬ Config.queuePlaces ≤ s.scheduler.queue.length := fun hc => hq (decide_eq_true hc)
    simp only [Config.queuePlaces] at hn
    omega
  · split
    · next rest p hd =>
      have := dropYoungestScan_sublist hd
      exact State.countEvent_closed hP (State.withQueue_closed hP
        (QueueKeeps.enumerate this.1 (le_max_of_le_right this.2.le)) h)
    · exact hP.scheduler (by simp) h

theorem State.removeEnumerate_closed (hP : Closed P) {s : State} (h : P s) : P s.removeEnumerate := by
  unfold State.removeEnumerate
  exact hP.scheduler (QueueKeeps.of_sublist List.filter_sublist) h

theorem State.withEnumPhase_closed (hP : Closed P) {s : State} {x : EnumPhase} (h : P s) : P (s.withEnumPhase x) := by
  unfold State.withEnumPhase
  try dsimp only
  repeat' (first
    | with_reducible assumption
    | with_reducible refine hP.enumerator ?_)

theorem State.requestEnumeration_closed (hP : Closed P) {s : State}  (h : P s) : P (s.requestEnumeration ) := by
  unfold State.requestEnumeration
  try dsimp only
  repeat' (first
    | with_reducible assumption
    | with_reducible apply State.placeEnumerate_closed hP
    | with_reducible apply State.withEnumPhase_closed hP
    | split)

theorem State.sweep_closed (hP : Closed P) {s : State}  (h : P s) : P (s.sweep ) := by
  unfold State.sweep
  try dsimp only
  repeat' (first
    | with_reducible assumption
    | with_reducible apply State.offerSweep_closed hP
    | with_reducible refine foldl_closed (fun _ _ _ => ?_) ?_
    | split)

theorem State.oweBroadcast_closed (hP : Closed P) {s : State}  (h : P s) : P (s.oweBroadcast ) := by
  unfold State.oweBroadcast
  try dsimp only
  repeat' (first
    | with_reducible assumption
    | with_reducible refine hP.scheduler (by simp) ?_)

theorem State.failReturn_closed (hP : Closed P) {s : State}  (h : P s) : P (s.failReturn ) := by
  unfold State.failReturn
  try dsimp only
  repeat' (first
    | with_reducible assumption
    | with_reducible refine hP.health (by simp) (by simp) ?_
    | split)

theorem State.decideDrop_closed (hP : Closed P) {s : State}  (h : P s) : P (s.decideDrop ) := by
  unfold State.decideDrop
  try dsimp only
  repeat' (first
    | with_reducible assumption
    | with_reducible apply State.failReturn_closed hP
    | with_reducible refine hP.health (by simp) (by simp) ?_
    | split)

theorem State.testReturn_closed (hP : Closed P) {s : State}  (h : P s) : P (s.testReturn ) := by
  unfold State.testReturn
  try dsimp only
  repeat' (first
    | with_reducible assumption
    | with_reducible refine hP.health (by simp) (by simp) ?_
    | split)

theorem State.withdrawReturn_closed (hP : Closed P) {s : State}  (h : P s) : P (s.withdrawReturn ) := by
  unfold State.withdrawReturn
  try dsimp only
  repeat' (first
    | with_reducible assumption
    | with_reducible refine hP.health (by simp) (by simp) ?_
    | split)

theorem windowWith_length (w : List Bool) (b : Bool) : (windowWith w b).length ≤ 32 := by
  simp [windowWith]; omega

theorem State.recordClean_closed (hP : Closed P) {s : State} (h : P s) : P s.recordClean := by
  unfold State.recordClean
  split
  · exact hP.health (le_max_of_le_left (windowWith_length _ _)) (by simp) h
  · exact State.testReturn_closed hP (hP.health (by simp) (by simp) h)

theorem State.recordFailed_closed (hP : Closed P) {s : State} (h : P s) : P s.recordFailed := by
  unfold State.recordFailed
  split
  · have : P (s.withHealth { s.health with window := windowWith s.health.window true }) :=
      hP.health (le_max_of_le_left (windowWith_length _ _)) (by simp) h
    dsimp only
    split
    · exact State.decideDrop_closed hP this
    · exact this
  · exact State.withdrawReturn_closed hP (hP.health (by simp) (by simp) h)

theorem State.watchRound_closed (hP : Closed P) {s : State}  (h : P s) : P (s.watchRound ) := by
  unfold State.watchRound
  try dsimp only
  repeat' (first
    | with_reducible assumption
    | with_reducible refine hP.health (by simp) (by simp) ?_
    | split)

theorem State.switchHealth_closed (hP : Closed P) {s : State} {v : Speed} (h : P s) : P (s.switchHealth v) := by
  unfold State.switchHealth
  try dsimp only
  repeat' (first
    | with_reducible assumption
    | with_reducible refine hP.health (by simp) (by simp) ?_)

theorem State.lockDrop_closed (hP : Closed P) {s : State}  (h : P s) : P (s.lockDrop ) := by
  unfold State.lockDrop
  try dsimp only
  repeat' (first
    | with_reducible assumption
    | with_reducible refine hP.health (by simp) (by simp) ?_
    | split)

theorem State.lockWritten_closed (hP : Closed P) {s : State}  (h : P s) : P (s.lockWritten ) := by
  unfold State.lockWritten
  try dsimp only
  repeat' (first
    | with_reducible assumption
    | with_reducible apply State.withdrawReturn_closed hP
    | with_reducible apply State.testReturn_closed hP
    | with_reducible apply State.lockDrop_closed hP
    | split)

theorem State.withLibrary_closed (hP : Closed P) {s : State} {l : Library} (hl : s.ignition.library.Sound → l.Sound)
    (h : P s) : P (s.withLibrary l) :=
  hP.library hl h

theorem State.applyProfile_closed (hP : Closed P) {s : State} {p : Pos} {f : Func} {x : Profile} (h : P s) : P
    (s.applyProfile p f x) := by
  unfold State.applyProfile
  try dsimp only
  repeat' (first
    | with_reducible assumption
    | with_reducible apply State.resetForProfile_closed hP
    | with_reducible refine State.changeRecord_closed hP (fun _ => ⟨rfl, rfl⟩) ?_
    | split)

theorem State.describe_closed (hP : Closed P) {s : State} {p : Pos} {f : Func} {x : Profile} (h : P s) : P
    (s.describe p f x) := by
  unfold State.describe
  try dsimp only
  repeat' (first
    | with_reducible assumption
    | with_reducible apply State.applyProfile_closed hP
    | split)

theorem State.describeAll_closed (hP : Closed P) {s : State} {p : Pos} {ds : List Described} (h : P s) : P
    (s.describeAll p ds) := by
  unfold State.describeAll
  try dsimp only
  repeat' (first
    | with_reducible assumption
    | with_reducible apply State.describe_closed hP
    | with_reducible refine foldl_closed (fun _ _ _ => ?_) ?_
    | split)

theorem State.takeDescription_closed (hP : Closed P) {s : State} {p : Pos} {serial : Serial} {ds : List Described}
    (h : P s) : P (s.takeDescription p serial ds) := by
  unfold State.takeDescription
  try dsimp only
  repeat' (first
    | with_reducible assumption
    | with_reducible apply State.requestEnumeration_closed hP
    | with_reducible refine State.changeRecord_closed hP (fun _ => ⟨rfl, rfl⟩) ?_
    | with_reducible apply State.describeAll_closed hP
    | split)

theorem State.carryOut_closed (hP : Closed P) {s : State} {p : Pos} {f : Func} (h : P s) : P (s.carryOut p f) := by
  unfold State.carryOut
  try dsimp only
  repeat' (first
    | with_reducible assumption
    | with_reducible apply State.applyProfile_closed hP
    | with_reducible refine State.changeRecord_closed hP (fun _ => ⟨rfl, rfl⟩) ?_
    | split)

theorem State.applyPosition_closed (hP : Closed P) {s : State} {p : Pos} (h : P s) : P (s.applyPosition p) := by
  unfold State.applyPosition
  try dsimp only
  repeat' (first
    | with_reducible assumption
    | with_reducible apply State.carryOut_closed hP
    | with_reducible refine foldl_closed (fun _ _ _ => ?_) ?_)

theorem State.persistPosition_closed (hP : Closed P) {s : State} {p : Pos} (h : P s) : P (s.persistPosition p) := by
  unfold State.persistPosition
  try dsimp only
  repeat' (first
    | with_reducible assumption
    | with_reducible refine State.withLibrary_closed hP (fun hl => hl.write ((State.trainSerials_length _).trans_lt
        (by decide)) _ _) ?_
    | with_reducible refine hP.apply ?_
    | split)

theorem State.applyAndPersist_closed (hP : Closed P) {s : State} {p : Pos} (h : P s) : P (s.applyAndPersist p) := by
  unfold State.applyAndPersist
  try dsimp only
  repeat' (first
    | with_reducible assumption
    | with_reducible apply State.persistPosition_closed hP
    | with_reducible apply State.applyPosition_closed hP
    | split)

theorem State.completeApply_closed (hP : Closed P) {s : State}  (h : P s) : P (s.completeApply ) := by
  unfold State.completeApply
  try dsimp only
  repeat' (first
    | with_reducible assumption
    | with_reducible apply State.replyApply_closed hP
    | with_reducible refine hP.apply ?_
    | split)

theorem State.stopWaiting_closed (hP : Closed P) {s : State} {p : Pos} (h : P s) : P (s.stopWaiting p) := by
  unfold State.stopWaiting
  try dsimp only
  repeat' (first
    | with_reducible assumption
    | with_reducible apply State.completeApply_closed hP
    | with_reducible refine hP.apply ?_)

theorem State.applyWaited_closed (hP : Closed P) {s : State} {p : Pos} (h : P s) : P (s.applyWaited p) := by
  unfold State.applyWaited
  try dsimp only
  repeat' (first
    | with_reducible assumption
    | with_reducible apply State.applyAndPersist_closed hP
    | with_reducible apply State.stopWaiting_closed hP
    | split)

theorem State.holdSilent_closed (hP : Closed P) {s : State} {p : Pos} (h : P s) : P (s.holdSilent p) := by
  unfold State.holdSilent
  try dsimp only
  repeat' (first
    | with_reducible assumption
    | with_reducible apply State.holdCell_closed hP
    | with_reducible refine foldl_closed (fun _ _ _ => ?_) ?_)

theorem State.resetCell_closed (hP : Closed P) {s : State} {k : CellKey} (h : P s) : P (s.resetCell k) := by
  unfold State.resetCell
  try dsimp only
  repeat' (first
    | with_reducible assumption
    | with_reducible apply State.clearCell_closed hP
    | with_reducible apply State.holdCell_closed hP
    | split)

theorem State.settleSegmentCell_closed (hP : Closed P) {s : State} {g : Seg} {f : Func} (h : P s) :
    P (s.settleSegmentCell g f) := by
  unfold State.settleSegmentCell
  split
  · split
    · next ha => exact hP.fresh ha h
    · exact hP.clear h
  · exact hP.absent h

theorem State.settleSegments_closed (hP : Closed P) {s : State} {p : Pos} (h : P s) : P (s.settleSegments p) := by
  unfold State.settleSegments
  try dsimp only
  repeat' (first
    | with_reducible assumption
    | with_reducible apply State.settleSegmentCell_closed hP
    | with_reducible refine foldl_closed (fun _ _ _ => ?_) ?_)

theorem State.dropSegments_closed (hP : Closed P) {s : State}  (h : P s) : P (s.dropSegments ) := by
  unfold State.dropSegments
  try dsimp only
  repeat' (first
    | with_reducible assumption
    | with_reducible apply State.makeAbsent_closed hP
    | with_reducible refine foldl_closed (fun _ _ _ => ?_) ?_
    | split)

theorem State.withSlot_closed (hP : Closed P) {s : State} {x : Slot} (h : P s) : P (s.withSlot x) := by
  unfold State.withSlot
  try dsimp only
  repeat' (first
    | with_reducible assumption
    | with_reducible refine hP.scheduler (by simp) ?_)

theorem State.dropFlight_closed (hP : Closed P) {s : State} {x : Flight} (h : P s) : P (s.dropFlight x) := by
  unfold State.dropFlight
  try dsimp only
  repeat' (first
    | with_reducible assumption
    | with_reducible apply State.replyPositionReset_closed hP
    | with_reducible apply State.applyWaited_closed hP
    | with_reducible apply State.withSlot_closed hP
    | split)

theorem State.forsake_closed (hP : Closed P) {s : State} {p : Pos} (h : P s) : P (s.forsake p) := by
  unfold State.forsake
  try dsimp only
  repeat' (first
    | with_reducible assumption
    | with_reducible apply State.dropFlight_closed hP
    | with_reducible apply State.withSlot_closed hP
    | split)

theorem State.raiseSilent_closed (hP : Closed P) {s : State} {p : Pos} (h : P s) : P (s.raiseSilent p) :=
  hP.raise rfl h

theorem State.becomeSilent_closed (hP : ClosedMap P) {s : State} {p : Pos} (hp : s.posState p = some .present)
    (h : P s) : P (s.becomeSilent p) := by
  unfold State.becomeSilent
  exact State.refreshLink_closed hP.toClosed (State.requestEnumeration_closed hP.toClosed (State.holdSilent_closed
    hP.toClosed (State.raiseSilent_closed hP.toClosed (hP.silent hp h))))

theorem State.returnPresent_closed (hP : ClosedMap P) {s : State} {p : Pos} (hp : s.posState p = some .silent)
    (h : P s) : P (s.returnPresent p) := by
  unfold State.returnPresent
  exact State.refreshLink_closed hP.toClosed (hP.heal (hP.present hp h))

theorem State.answered_closed (hP : ClosedMap P) {s : State} {p : Pos} (h : P s) : P (s.answered p) := by
  unfold State.answered
  split
  · next hs => exact State.returnPresent_closed hP hs h
  · exact State.changeRecord_closed hP.toClosed (fun _ => ⟨rfl, rfl⟩) h

theorem State.countSilence_closed (hP : Closed P) {s : State} {p : Pos} (h : P s) : P (s.countSilence p) := by
  unfold State.countSilence
  try dsimp only
  repeat' (first
    | with_reducible assumption
    | with_reducible refine State.changeRecord_closed hP (fun _ => ⟨rfl, rfl⟩) ?_)

theorem State.unanswered_closed (hP : ClosedMap P) {s : State} {p : Pos} (h : P s) : P (s.unanswered p) := by
  unfold State.unanswered
  have ht : P (s.countSilence p) := State.countSilence_closed hP.toClosed h
  dsimp only
  split
  · exact ht
  · next r hr =>
    split
    · next hs =>
      split
      · exact State.becomeSilent_closed hP (by simp [State.posState, hr, hs]) ht
      · exact ht
    · split
      · exact State.raiseSilent_closed hP.toClosed ht
      · exact ht
    · exact ht

theorem State.departAll_closed (hP : ClosedMap P) {s : State} (h : P s) : P s.departAll := hP.departAll h

theorem State.stampLibrary_closed (hP : Closed P) {s : State} {serial : Serial} (h : P s) : P
    (s.stampLibrary serial) := by
  unfold State.stampLibrary
  try dsimp only
  repeat' (first
    | with_reducible assumption
    | with_reducible refine State.withLibrary_closed hP (fun hl => hl.stamp _) ?_)

theorem State.leastRecord_mem {s : State} {r : FaultRecord} (h : s.leastRecord = some r) : r ∈ s.faults.records := by
  unfold State.leastRecord at h
  have key : ∀ (l : List FaultRecord) (b : Option FaultRecord),
      l.foldl (fun best r => match best with
        | none => some r
        | some b => if b.severity < r.severity then some b else some r) b = some r → b = some r ∨ r ∈ l := by
    intro l
    induction l with
    | nil => intro b hb; exact Or.inl hb
    | cons a l ih =>
      intro b hb
      rcases ih _ hb with h1 | h1
      · cases b with
        | none => simp at h1; exact Or.inr (by simp [h1])
        | some c =>
          simp only at h1
          split at h1
          · exact Or.inl h1
          · simp at h1; exact Or.inr (by simp [h1])
      · exact Or.inr (List.mem_cons_of_mem _ h1)
  rcases key _ _ h with h1 | h1
  · simp at h1
  · exact List.mem_of_mem_filter h1

theorem State.settleBreak_closed (hP : Closed P) {s : State}  (h : P s) : P (s.settleBreak ) := by
  unfold State.settleBreak
  try dsimp only
  repeat' (first
    | with_reducible assumption
    | with_reducible apply State.removeFault_closed hP
    | with_reducible apply State.raiseBreak_closed hP
    | with_reducible apply State.healFault_closed hP
    | split)

theorem State.enterRunning_closed (hP : Closed P) {s : State} (h : P s) : P s.enterRunning := by
  unfold State.enterRunning
  split
  · exact hP.scheduler (by simp) (hP.part (p := .running) h)
  · exact h
  · exact h

theorem State.compareResult_closed (hP : ClosedMap P) {s : State} {a : Answers} (h : P s) : P (s.compareResult a) :=
  hP.compare h

theorem State.completeEnumeration_closed (hP : ClosedMap P) {s : State} {a : Answers} (h : P s) :
    P (s.completeEnumeration a) := by
  unfold State.completeEnumeration
  dsimp only
  exact State.enterRunning_closed hP.toClosed (State.withEnumPhase_closed hP.toClosed (State.discardEntries_closed hP.toClosed
    (State.refreshLink_closed hP.toClosed (hP.train (fun _ => rfl) (fun _ => rfl) rfl (State.settleBreak_closed hP.toClosed
      (State.compareResult_closed hP (State.removeEnumerate_closed hP.toClosed h)))))))

theorem State.judgeAttempt_closed (hP : ClosedMap P) {s : State}  (h : P s) : P (s.judgeAttempt ) := by
  unfold State.judgeAttempt
  try dsimp only
  repeat' (first
    | with_reducible assumption
    | with_reducible apply State.completeEnumeration_closed hP
    | with_reducible apply State.withEnumPhase_closed hP.toClosed
    | split)

theorem State.cancelEnumeration_closed (hP : Closed P) {s : State}  (h : P s) : P (s.cancelEnumeration ) := by
  unfold State.cancelEnumeration
  try dsimp only
  repeat' (first
    | with_reducible assumption
    | with_reducible apply State.removeEnumerate_closed hP
    | with_reducible apply State.withEnumPhase_closed hP
    | with_reducible apply State.enterRunning_closed hP
    | with_reducible apply State.withSlot_closed hP
    | split)

theorem State.uncouple_closed (hP : ClosedMap P) {s : State}  (h : P s) : P (s.uncouple ) := by
  unfold State.uncouple
  try dsimp only
  repeat' (first
    | with_reducible assumption
    | with_reducible apply State.refreshLink_closed hP.toClosed
    | with_reducible apply State.departAll_closed hP)

theorem State.wakeEnumeration_closed (hP : ClosedMap P) {s : State}  (h : P s) : P (s.wakeEnumeration ) := by
  unfold State.wakeEnumeration
  try dsimp only
  repeat' (first
    | with_reducible assumption
    | with_reducible apply State.requestEnumeration_closed hP.toClosed
    | with_reducible apply State.enterRunning_closed hP.toClosed
    | with_reducible apply State.uncouple_closed hP
    | split)

theorem State.socketHandedOn_closed (hP : ClosedMap P) {s : State} {coupled : Bool} (h : P s) : P
    (s.socketHandedOn coupled) := by
  unfold State.socketHandedOn
  try dsimp only
  repeat' (first
    | with_reducible assumption
    | with_reducible apply State.requestEnumeration_closed hP.toClosed
    | with_reducible apply State.cancelEnumeration_closed hP.toClosed
    | with_reducible apply State.refreshLink_closed hP.toClosed
    | with_reducible apply State.uncouple_closed hP
    | with_reducible refine hP.enumerator ?_
    | split)

theorem State.offerScans_closed (hP : Closed P) {s : State}  (h : P s) : P (s.offerScans ) := by
  unfold State.offerScans
  try dsimp only
  repeat' (first
    | with_reducible assumption
    | with_reducible apply State.offerScan_closed hP
    | with_reducible refine foldl_closed (fun _ _ _ => ?_) ?_
    | split)

theorem State.offerWanted_closed (hP : Closed P) {s : State} {p : Pos} (h : P s) : P (s.offerWanted p) := by
  unfold State.offerWanted
  try dsimp only
  repeat' (first
    | with_reducible assumption
    | with_reducible apply State.offerProfile_closed hP
    | split)

theorem State.round_closed (hP : Closed P) (hO : KeepsOverflow P) {s : State}  (h : P s) : P (s.round ) := by
  unfold State.round
  try dsimp only
  repeat' (first
    | with_reducible assumption
    | with_reducible apply State.takeLineSample_closed hP hO
    | with_reducible apply State.offerWanted_closed hP
    | with_reducible apply State.offerScans_closed hP
    | with_reducible apply State.watchRound_closed hP
    | with_reducible apply State.countBy_closed hP
    | with_reducible refine foldl_closed (fun _ _ _ => ?_) ?_)

theorem State.ownerFails_closed (hP : Closed P) {s : State} {x : Sent} (h : P s) : P (s.ownerFails x) := by
  unfold State.ownerFails
  split
  · exact State.failReturn_closed hP h
  · exact h
  · exact State.replyPositionReset_closed hP h

theorem State.requestFailed_closed (hP : ClosedMap P) {s : State} {x : Flight} (h : P s) : P (s.requestFailed x) := by
  unfold State.requestFailed
  try dsimp only
  repeat' (first
    | with_reducible assumption
    | with_reducible apply State.applyWaited_closed hP.toClosed
    | with_reducible apply State.ownerFails_closed hP.toClosed
    | with_reducible apply State.unanswered_closed hP
    | with_reducible apply State.withSlot_closed hP.toClosed)

theorem State.attemptFailed_closed (hP : ClosedMap P) {s : State} {x : Flight} (h : P s) : P (s.attemptFailed x) := by
  unfold State.attemptFailed
  try dsimp only
  repeat' (first
    | with_reducible assumption
    | with_reducible apply State.requestFailed_closed hP
    | with_reducible apply State.dropFlight_closed hP.toClosed
    | with_reducible apply State.withSlot_closed hP.toClosed
    | split)

theorem State.acceptEntry_closed (hP : Closed P) (hO : KeepsOverflow P) {s : State} {p : Pos} {f : Func} {x : Sample} (h : P s) : P
    (s.acceptEntry p f x) := by
  unfold State.acceptEntry
  try dsimp only
  repeat' (first
    | with_reducible assumption
    | with_reducible apply State.checkSegment_closed hP hO
    | with_reducible apply State.storeSample_closed hP
    | with_reducible apply State.deliver_closed hP hO)

theorem State.takeEntry_closed (hP : Closed P) (hO : KeepsOverflow P) {s : State} {p : Pos} {changed : Bool} {voltage : Nat} {epoch : Byte}
    {f : Func} {e : SampleEntry} (h : P s) : P (s.takeEntry p changed voltage epoch f e) := by
  unfold State.takeEntry
  try dsimp only
  repeat' (first
    | with_reducible assumption
    | with_reducible apply State.acceptEntry_closed hP hO
    | with_reducible apply State.countEvent_closed hP
    | with_reducible apply State.holdCell_closed hP
    | split)

theorem State.takeSample_closed (hP : Closed P) (hO : KeepsOverflow P) {s : State} {p : Pos} {mask : Mask} {changed : Bool} {voltage : Nat}
    {epoch : Byte} {entries : List SampleEntry} (h : P s) : P (s.takeSample p mask changed voltage epoch entries) := by
  unfold State.takeSample
  try dsimp only
  repeat' (first
    | with_reducible assumption
    | with_reducible apply State.takeEntry_closed hP hO
    | with_reducible refine foldl_closed (fun _ _ _ => ?_) ?_)

theorem State.takeResetDone_closed (hP : Closed P) {s : State} {p : Pos} {who : Requester} (h : P s) : P
    (s.takeResetDone p who) := by
  unfold State.takeResetDone
  try dsimp only
  repeat' (first
    | with_reducible assumption
    | with_reducible apply State.replyPositionReset_closed hP
    | with_reducible apply State.offerProfile_closed hP
    | with_reducible apply State.oweBroadcast_closed hP
    | with_reducible refine State.changeRecord_closed hP (fun _ => ⟨rfl, rfl⟩) ?_
    | with_reducible apply State.resetCell_closed hP
    | with_reducible refine foldl_closed (fun _ _ _ => ?_) ?_)

theorem State.ownerAnswered_closed (hP : Closed P) (hO : KeepsOverflow P) {s : State} {x : Flight} {body : UpBody} (h : P s) : P
    (s.ownerAnswered x body) := by
  unfold State.ownerAnswered
  try dsimp only
  repeat' (first
    | with_reducible assumption
    | with_reducible apply State.takeDescription_closed hP
    | with_reducible apply State.takeResetDone_closed hP
    | with_reducible apply State.takeSample_closed hP hO
    | split)

theorem State.requestAnswered_closed (hP : ClosedMap P) (hO : KeepsOverflow P) {s : State} {x : Flight} {body : UpBody} (h : P s) : P
    (s.requestAnswered x body) := by
  unfold State.requestAnswered
  try dsimp only
  repeat' (first
    | with_reducible assumption
    | with_reducible apply State.ownerAnswered_closed hP.toClosed hO
    | with_reducible apply State.applyWaited_closed hP.toClosed
    | with_reducible apply State.dropFlight_closed hP.toClosed
    | with_reducible apply State.answered_closed hP
    | with_reducible apply State.withSlot_closed hP.toClosed
    | split)

theorem State.takeBusy_closed (hP : ClosedMap P) {s : State} {x : Flight} (h : P s) : P (s.takeBusy x) := by
  unfold State.takeBusy
  try dsimp only
  repeat' (first
    | with_reducible assumption
    | with_reducible apply State.attemptFailed_closed hP
    | with_reducible apply State.dropFlight_closed hP.toClosed
    | with_reducible apply State.countEvent_closed hP.toClosed
    | with_reducible apply State.withSlot_closed hP.toClosed
    | split)

theorem State.withPhase_closed (hP : Closed P) {s : State} {x : LinkPhase} (h : P s) : P (s.withPhase x) := by
  unfold State.withPhase
  try dsimp only
  repeat' (first
    | with_reducible assumption
    | with_reducible refine hP.link ?_)

theorem State.sendNow_closed (hP : Closed P) {s : State} {f : DownFrame} (h : P s) : P (s.sendNow f) := by
  unfold State.sendNow
  try dsimp only
  repeat' (first
    | with_reducible assumption
    | with_reducible refine hP.link ?_)

theorem State.driveLow_closed (hP : Closed P) {s : State} {f : DownFrame} (h : P s) : P (s.driveLow f) := by
  unfold State.driveLow
  try dsimp only
  repeat' (first
    | with_reducible assumption
    | with_reducible apply State.withPhase_closed hP)

theorem State.beginWakePulse_closed (hP : Closed P) {s : State} {f : DownFrame} (h : P s) : P
    (s.beginWakePulse f) := by
  unfold State.beginWakePulse
  try dsimp only
  repeat' (first
    | with_reducible assumption
    | with_reducible apply State.withPhase_closed hP
    | with_reducible apply State.driveLow_closed hP
    | with_reducible apply State.sendNow_closed hP
    | with_reducible refine hP.attention ?_
    | split)

theorem State.handOver_closed (hP : Closed P) {s : State} {f : DownFrame} (h : P s) : P (s.handOver f) := by
  unfold State.handOver
  try dsimp only
  repeat' (first
    | with_reducible assumption
    | with_reducible apply State.beginWakePulse_closed hP
    | with_reducible apply State.countEvent_closed hP
    | with_reducible apply State.sendNow_closed hP
    | split)

theorem State.nextTag_closed (hP : Closed P) {s : State}  (h : P s) : P (s.nextTag ) := by
  unfold State.nextTag
  try dsimp only
  repeat' (first
    | with_reducible assumption
    | with_reducible refine hP.scheduler (by simp) ?_)

theorem State.sendFlight_closed (hP : Closed P) {s : State} {x : Flight} (h : P s) : P (s.sendFlight x) := by
  unfold State.sendFlight
  try dsimp only
  repeat' (first
    | with_reducible assumption
    | with_reducible apply State.handOver_closed hP
    | with_reducible apply State.withSlot_closed hP
    | with_reducible apply State.nextTag_closed hP)

theorem State.sendEnumerate_closed (hP : Closed P) {s : State}  (h : P s) : P (s.sendEnumerate ) := by
  unfold State.sendEnumerate
  try dsimp only
  repeat' (first
    | with_reducible assumption
    | with_reducible apply State.withEnumPhase_closed hP
    | with_reducible apply State.handOver_closed hP
    | with_reducible apply State.withSlot_closed hP
    | with_reducible apply State.nextTag_closed hP)

theorem pickEntry_sublist (running : Bool) (lit : Mask) (q : List Entry) :
    (pickEntry running lit q).1.Sublist q := by
  induction q with
  | nil => simp [pickEntry]
  | cons e q ih =>
    unfold pickEntry
    dsimp only
    repeat' split
    all_goals first
      | exact ih.cons_cons e
      | exact ih.cons e
      | exact List.sublist_cons_self e q

theorem State.offerFrame_closed (hP : Closed P) {s : State} (h : P s) : P s.offerFrame := by
  unfold State.offerFrame
  have hq : P (s.withQueue (pickEntry s.running s.litMask s.scheduler.queue).1) :=
    State.withQueue_closed hP (QueueKeeps.of_sublist (pickEntry_sublist _ _ _)) h
  have ht : P (s.withQueue s.scheduler.queue.tail) :=
    State.withQueue_closed hP (QueueKeeps.of_sublist (List.tail_sublist _)) h
  dsimp only
  repeat' (first
    | with_reducible assumption
    | with_reducible apply State.sendEnumerate_closed hP
    | with_reducible apply State.settleQueue_closed hP
    | with_reducible apply State.sendFlight_closed hP
    | with_reducible apply State.handOver_closed hP
    | with_reducible refine hP.scheduler (by simp) ?_
    | split)

theorem State.stuckAgain_closed (hP : Closed P) {s : State}  (h : P s) : P (s.stuckAgain ) := by
  unfold State.stuckAgain
  try dsimp only
  repeat' (first
    | with_reducible assumption
    | with_reducible refine hP.attention ?_)

theorem State.releaseLine_closed (hP : Closed P) {s : State}  (h : P s) : P (s.releaseLine ) := by
  unfold State.releaseLine
  try dsimp only
  repeat' (first
    | with_reducible assumption
    | with_reducible apply State.stuckAgain_closed hP
    | with_reducible refine hP.attention ?_
    | split)

theorem State.awaitAnswer_closed (hP : Closed P) {s : State}  (h : P s) : P (s.awaitAnswer ) := by
  unfold State.awaitAnswer
  try dsimp only
  repeat' (first
    | with_reducible assumption
    | with_reducible apply State.withPhase_closed hP
    | split)

theorem State.switchSpeed_closed (hP : Closed P) {s : State} {v : Speed} (h : P s) : P (s.switchSpeed v) := by
  unfold State.switchSpeed
  try dsimp only
  repeat' (first
    | with_reducible assumption
    | with_reducible apply State.switchHealth_closed hP
    | with_reducible refine hP.link ?_)

@[simp] theorem State.withPhase_scheduler (s : State) (x : LinkPhase) : (s.withPhase x).scheduler = s.scheduler := rfl

theorem State.frameSent_closed (hP : Closed P) {s : State} {f : DownFrame} (h : P s) : P (s.frameSent f) := by
  unfold State.frameSent
  split
  · exact hP.scheduler (by simp) (State.withPhase_closed hP h)
  · exact State.awaitAnswer_closed hP h
  · exact State.awaitAnswer_closed hP h
  · exact State.awaitAnswer_closed hP h
  · exact State.withPhase_closed hP h
  · exact State.switchSpeed_closed hP h

theorem State.receiveStart_closed (hP : Closed P) {s : State}  (h : P s) : P (s.receiveStart ) := by
  unfold State.receiveStart
  try dsimp only
  repeat' (first
    | with_reducible assumption
    | with_reducible refine hP.link ?_
    | split)

theorem State.takeFailure_closed (hP : ClosedMap P) {s : State}  (h : P s) : P (s.takeFailure ) := by
  unfold State.takeFailure
  try dsimp only
  repeat' (first
    | with_reducible assumption
    | with_reducible apply State.attemptFailed_closed hP
    | with_reducible apply State.recordFailed_closed hP.toClosed
    | with_reducible apply State.countEvent_closed hP.toClosed
    | with_reducible apply State.withPhase_closed hP.toClosed
    | split)

theorem State.takeAnswer_closed (hP : ClosedMap P) (hO : KeepsOverflow P) {s : State} {x : Flight} {body : UpBody} (h : P s) : P
    (s.takeAnswer x body) := by
  unfold State.takeAnswer
  try dsimp only
  repeat' (first
    | with_reducible assumption
    | with_reducible apply State.requestAnswered_closed hP hO
    | with_reducible apply State.countEvent_closed hP.toClosed
    | with_reducible apply State.withPhase_closed hP.toClosed
    | with_reducible apply State.takeBusy_closed hP
    | split)

theorem State.resumeTimer_closed (hP : Closed P) {s : State}  (h : P s) : P (s.resumeTimer ) := by
  unfold State.resumeTimer
  try dsimp only
  repeat' (first
    | with_reducible assumption
    | with_reducible apply State.withPhase_closed hP
    | split)

theorem State.enterAnswer_closed (hP : Closed P) {s : State} {p : Pos} {a : EnumAnswer} (h : P s) : P
    (s.enterAnswer p a) := by
  unfold State.enterAnswer
  try dsimp only
  repeat' (first
    | with_reducible assumption
    | with_reducible apply State.withEnumPhase_closed hP
    | split)

theorem State.collectFrame_closed (hP : Closed P) {s : State} {f : UpFrame} (h : P s) : P (s.collectFrame f) := by
  unfold State.collectFrame
  try dsimp only
  repeat' (first
    | with_reducible assumption
    | with_reducible apply State.enterAnswer_closed hP
    | with_reducible apply State.countEvent_closed hP
    | split)

theorem State.takeValid_closed (hP : ClosedMap P) (hO : KeepsOverflow P) {s : State} {f : UpFrame} (h : P s) : P (s.takeValid f) := by
  unfold State.takeValid
  try dsimp only
  repeat' (first
    | with_reducible assumption
    | with_reducible apply State.collectFrame_closed hP.toClosed
    | with_reducible apply State.resumeTimer_closed hP.toClosed
    | with_reducible apply State.recordClean_closed hP.toClosed
    | with_reducible apply State.takeAnswer_closed hP hO
    | split)

theorem State.receptionEnds_closed (hP : Closed P) {s : State} {ago : Nat} {truncated : Bool} (h : P s) : P
    (s.receptionEnds ago truncated) := by
  unfold State.receptionEnds
  try dsimp only
  repeat' (first
    | with_reducible assumption
    | with_reducible refine hP.link ?_)

theorem State.takeCharacters_closed (hP : ClosedMap P) (hO : KeepsOverflow P) {s : State} {doomed : Bool} {w : List WireChar} (h : P s) :
    P (s.takeCharacters doomed w) := by
  unfold State.takeCharacters
  try dsimp only
  repeat' (first
    | with_reducible assumption
    | with_reducible apply State.receptionEnds_closed hP.toClosed
    | with_reducible apply State.takeFailure_closed hP
    | with_reducible apply State.takeValid_closed hP hO
    | split)

theorem State.takeFrame_closed (hP : ClosedMap P) (hO : KeepsOverflow P) {s : State} {w : List WireChar} (h : P s) : P (s.takeFrame w) := by
  unfold State.takeFrame State.hearForeign
  try dsimp only
  repeat' (first
    | with_reducible assumption
    | with_reducible apply State.takeCharacters_closed hP hO
    | with_reducible apply State.receptionEnds_closed hP.toClosed
    | with_reducible apply State.receiveStart_closed hP.toClosed
    | with_reducible refine hP.link ?_
    | split)

theorem State.shortAction_closed (hP : ClosedMap P) {s : State}  (h : P s) : P (s.shortAction ) := by
  unfold State.shortAction
  try dsimp only
  repeat' (first
    | with_reducible assumption
    | with_reducible apply State.attemptFailed_closed hP
    | with_reducible apply State.oweBroadcast_closed hP.toClosed
    | with_reducible apply State.withPhase_closed hP.toClosed
    | split)

theorem State.withMonitor_closed (hP : Closed P) {s : State} {x : Monitor} (h : P s) : P (s.withMonitor x) := by
  unfold State.withMonitor
  try dsimp only
  repeat' (first
    | with_reducible assumption
    | with_reducible refine hP.attention ?_)

theorem State.startWaitingDrive_closed (hP : Closed P) {s : State}  (h : P s) : P (s.startWaitingDrive ) := by
  unfold State.startWaitingDrive
  try dsimp only
  repeat' (first
    | with_reducible assumption
    | with_reducible apply State.beginWakePulse_closed hP
    | split)

theorem State.actOnPulse_closed (hP : ClosedMap P) {s : State} {x : PulseClass} (h : P s) : P (s.actOnPulse x) := by
  unfold State.actOnPulse
  split
  · exact h
  · exact State.shortAction_closed hP (State.countEvent_closed hP.toClosed h)
  · exact State.sweep_closed hP.toClosed (State.shortAction_closed hP (State.countEvent_closed hP.toClosed h))
  · exact State.sweep_closed hP.toClosed (State.countEvent_closed hP.toClosed h)

theorem State.takePulse_closed (hP : ClosedMap P) {s : State} {width : Nat} {known : Bool} (h : P s) : P
    (s.takePulse width known) := by
  unfold State.takePulse
  try dsimp only
  repeat' (first
    | with_reducible assumption
    | with_reducible apply State.startWaitingDrive_closed hP.toClosed
    | with_reducible apply State.withMonitor_closed hP.toClosed
    | with_reducible apply State.actOnPulse_closed hP
    | split)

theorem State.offerStuckRaise_closed (hP : Closed P) {s : State} (h : P s) : P s.offerStuckRaise := by
  unfold State.offerStuckRaise
  exact State.withMonitor_closed hP (hP.raise rfl h)

theorem State.declareStuck_closed (hP : Closed P) {s : State}  (h : P s) : P (s.declareStuck ) := by
  unfold State.declareStuck
  try dsimp only
  repeat' (first
    | with_reducible assumption
    | with_reducible apply State.startWaitingDrive_closed hP
    | with_reducible apply State.offerStuckRaise_closed hP
    | with_reducible refine hP.attention ?_)

theorem State.releaseStuck_closed (hP : Closed P) {s : State}  (h : P s) : P (s.releaseStuck ) := by
  unfold State.releaseStuck
  try dsimp only
  repeat' (first
    | with_reducible assumption
    | with_reducible apply State.healFault_closed hP
    | with_reducible refine hP.attention ?_)

theorem State.startPulse_closed (hP : Closed P) {s : State}  (h : P s) : P (s.startPulse ) := by
  unfold State.startPulse
  try dsimp only
  repeat' (first
    | with_reducible assumption
    | with_reducible apply State.withMonitor_closed hP
    | split)

theorem State.lineFalls_closed (hP : ClosedMap P) {s : State}  (h : P s) : P (s.lineFalls ) := by
  unfold State.lineFalls
  try dsimp only
  repeat' (first
    | with_reducible assumption
    | with_reducible apply State.releaseStuck_closed hP.toClosed
    | with_reducible apply State.withMonitor_closed hP.toClosed
    | with_reducible apply State.startPulse_closed hP.toClosed
    | with_reducible apply State.stuckAgain_closed hP.toClosed
    | with_reducible apply State.takePulse_closed hP
    | split)

theorem State.lineRises_closed (hP : Closed P) {s : State}  (h : P s) : P (s.lineRises ) := by
  unfold State.lineRises
  try dsimp only
  repeat' (first
    | with_reducible assumption
    | with_reducible apply State.declareStuck_closed hP
    | with_reducible apply State.withMonitor_closed hP
    | split)

theorem State.monitorAfresh_closed (hP : Closed P) {s : State}  (h : P s) : P (s.monitorAfresh ) := by
  unfold State.monitorAfresh
  try dsimp only
  repeat' (first
    | with_reducible assumption
    | with_reducible refine hP.attention ?_)

theorem State.monitorWakes_closed (hP : Closed P) {s : State}  (h : P s) : P (s.monitorWakes ) := by
  unfold State.monitorWakes
  try dsimp only
  repeat' (first
    | with_reducible assumption
    | with_reducible apply State.monitorAfresh_closed hP
    | with_reducible apply State.stuckAgain_closed hP
    | with_reducible refine hP.attention ?_
    | split)

theorem State.monitorSleeps_closed (hP : Closed P) {s : State}  (h : P s) : P (s.monitorSleeps ) := by
  unfold State.monitorSleeps
  try dsimp only
  repeat' (first
    | with_reducible assumption
    | with_reducible apply State.withMonitor_closed hP)

theorem State.epochHandedOn_closed (hP : Closed P) {s : State}  (h : P s) : P (s.epochHandedOn ) := by
  unfold State.epochHandedOn
  try dsimp only
  repeat' (first
    | with_reducible assumption
    | with_reducible apply State.oweBroadcast_closed hP
    | with_reducible apply State.withSlot_closed hP
    | split)

theorem State.declareLoss_closed (hP : ClosedAll P) {s : State} (h : P s) : P s.declareLoss :=
  State.epochHandedOn_closed hP.toClosed (hP.change Cell.commandLost_keeps (hP.intake h))

theorem State.withPart_closed (hP : Closed P) {s : State} {p : PartState} (h : P s) : P (s.withPart p) := hP.part h

theorem State.reportsDue_closed (hP : Closed P) {s : State} (h : P s) : P s.reportsDue :=
  hP.report (by simp [Report.bothDue]) (by simp [Report.bothDue]) h

theorem State.wake_closed (hP : ClosedMap P) {s : State} (h : P s) : P s.wake := by
  unfold State.wake
  dsimp only
  exact State.lockDrop_closed hP.toClosed (State.wakeEnumeration_closed hP (hP.enumerator (State.reportsDue_closed hP.toClosed
    (State.monitorWakes_closed hP.toClosed (hP.scheduler (by simp [Scheduler.emptied]) (hP.health (by simp [Health.cleared])
      (by simp [Health.cleared]) (hP.link (State.readChannels_closed hP.toClosed (hP.part h)))))))))

theorem State.wakeIfAsleep_closed (hP : ClosedMap P) {s : State}  (h : P s) : P (s.wakeIfAsleep ) := by
  unfold State.wakeIfAsleep
  try dsimp only
  repeat' (first
    | with_reducible assumption
    | with_reducible apply State.wake_closed hP
    | split)

theorem State.finishApply_closed (hP : Closed P) {s : State} (h : P s) : P s.finishApply := by
  unfold State.finishApply
  split
  · exact h
  · exact State.completeApply_closed hP (foldl_closed (fun _ _ ht => State.applyWaited_closed hP ht) h)

theorem State.standby_closed (hP : Closed P) {s : State} (h : P s) : P s.standby := by
  unfold State.standby
  dsimp only
  exact hP.part (hP.report (by simp) (by simp) (hP.change Cell.atStandby_keeps (State.withEnumPhase_closed hP
    (State.monitorSleeps_closed hP (hP.health (by simp [Health.cleared]) (by simp [Health.cleared]) (hP.link
      (hP.scheduler (by simp [Scheduler.emptied]) (State.finishApply_closed hP h))))))))

theorem State.enterAfterReset_closed (hP : ClosedMap P) {s : State} {p : PartState} (h : P s) :
    P (s.enterAfterReset p) := by
  unfold State.enterAfterReset
  split
  · exact State.monitorSleeps_closed hP.toClosed (hP.part h)
  · exact State.lockDrop_closed hP.toClosed (State.wakeEnumeration_closed hP (State.reportsDue_closed hP.toClosed (hP.part h)))
  · exact State.lockDrop_closed hP.toClosed (State.wakeEnumeration_closed hP (State.reportsDue_closed hP.toClosed (hP.part h)))

/-- A power-on holds no Library that the part did not hold, but an empty one. -/
theorem Ignition.powered_libraries (x : Ignition) (high : Bool) (cause : ResetCause) :
    ∀ l ∈ (x.powered high cause).libraries, l ∈ x.libraries ∨ l.entries = [] := by
  intro l hl
  simp only [Ignition.libraries, Ignition.powered, Ignition.imageAtPowerOn] at hl ⊢
  cases hs : x.save <;> cases hi : x.stored <;> simp [hs, hi, defaultImage] at hl ⊢
  all_goals first
    | exact Or.inr hl
    | (simp [hl])

/-- A save whose REPLY is dropped holds the snapshot that it held. -/
theorem Ignition.dropSaveReply_libraries (x : Ignition) : ∀ l ∈ x.dropSaveReply.libraries, l ∈ x.libraries := by
  intro l hl
  simpa [Ignition.libraries, Ignition.dropSaveReply, Option.map_map, Function.comp_def] using hl

theorem State.powerOn_closed (hP : ClosedAll P) {s : State} {cause : ResetCause} (h : P s) : P (s.powerOn cause) :=
  State.enterAfterReset_closed hP.toClosedMap (hP.afresh (Ignition.powered_libraries _ _ _) (hP.clock h))

theorem State.hardReset_closed (hP : ClosedAll P) {s : State} (h : P s) : P s.hardReset :=
  State.enterAfterReset_closed hP.toClosedMap (hP.afresh (fun _ hl => Or.inl (Ignition.dropSaveReply_libraries _ _ hl)) h)

theorem State.enumerateAgain_closed (hP : Closed P) {s : State} (h : P s) : P s.enumerateAgain := by
  unfold State.enumerateAgain
  dsimp only
  split
  · exact State.requestEnumeration_closed hP (hP.enumerator h)
  · exact hP.enumerator h

theorem State.monitorSoftReset_closed (hP : Closed P) {s : State}  (h : P s) : P (s.monitorSoftReset ) := by
  unfold State.monitorSoftReset
  try dsimp only
  repeat' (first
    | with_reducible assumption
    | with_reducible apply State.monitorAfresh_closed hP
    | with_reducible apply State.monitorSleeps_closed hP
    | with_reducible apply State.removeFault_closed hP
    | split)

theorem State.softReset_closed (hP : ClosedAll P) {s : State} (h : P s) : P s.softReset := by
  unfold State.softReset
  dsimp only
  refine State.lockDrop_closed hP.toClosed (State.enumerateAgain_closed hP.toClosed
    (State.monitorSoftReset_closed hP.toClosed (hP.ignition rfl (fun l hl => Ignition.dropSaveReply_libraries _ l hl) (hP.counters (hP.report ?_ ?_ (hP.change
      (fun _ _ => ⟨Iff.rfl, rfl, fun _ hc => ⟨hc.confirmed, hc.confirmedAt, hc.counting⟩⟩) (hP.apply
        (hP.train ?_ ?_ rfl (hP.scheduler (by simp [Scheduler.emptied]) (hP.health (by simp [Health.cleared])
          (by simp [Health.cleared]) (hP.link (State.readChannels_closed hP.toClosed (hP.intake h)))))))))))))
  · split <;> simp [Report.fresh, Report.bothDue]
  · split <;> simp [Report.fresh, Report.bothDue]
  · intro p
    simp only [TrainMap.unstaged, remap, Fin.getElem_fin, Vector.getElem_ofFn, State.posState, State.record,
      Option.map_map]
    rfl
  · intro p
    simp only [TrainMap.unstaged, remap, Fin.getElem_fin, Vector.getElem_ofFn, State.record]
    rw [Option.bind_map]
    rfl

theorem State.replySaveTo_closed (hP : Closed P) {s : State} {who : Option Requester} {status : Status} (h : P s) :
    P (s.replySaveTo who status) := by
  unfold State.replySaveTo
  try dsimp only
  repeat' (first
    | with_reducible assumption
    | with_reducible apply State.replySave_closed hP
    | split)

/-- A request taken keeps P when its own rule does: at least nine places of the transmit queue are free for it (R170). -/
theorem State.checked_closed (hP : Closed P) {s : State} {r : Request} {rule : State → State}
    (hl : s.report.transmit.length ≤ 15)
    (hr : ∀ t : State, t.report.transmit.length ≤ 15 → P t → P (rule t)) (h : P s) : P (s.checked r rule) := by
  unfold State.checked
  repeat' (first
    | with_reducible assumption
    | with_reducible exact State.reply_closed hP hl h
    | with_reducible exact hr s hl h
    | split)

theorem State.takeRequest_closed (hP : Closed P) {s : State} {row : RequestRow} {r : Request} {rule : State → State}
    (hr : ∀ t : State, t.report.transmit.length ≤ 15 → P t → P (rule t)) (h : P s) :
    P (s.takeRequest row r rule) := by
  unfold State.takeRequest
  split
  · exact h
  · split
    · exact h
    · next rest he =>
      have hl : s.report.transmit.length ≤ 15 ∧ rest.length ≤ s.report.received.length := by
        unfold Report.afterTaking at he
        split at he
        · simp at he
        · next hc =>
          simp only [Report.canTake, Config.placesToTake, Config.transmitPlaces, Bool.and_eq_true, decide_eq_true_eq,
            not_not] at hc
          have hc := of_decide_eq_true hc.1
          refine ⟨by omega, ?_⟩
          split at he
          · simp at he; simp [he]
          · next q l heq =>
            split at he
            · simp at he; simp [heq, he]
            · simp at he
      exact State.checked_closed hP (by simpa using hl.1) hr (hP.report (by simp) (by simp [hl.2]) h)

theorem State.lampCommand_closed (hP : ClosedAll P) {s : State} {r : Request} (h : P s) : P (s.lampCommand r) := by
  unfold State.lampCommand
  have h1 : P (s.withIntake (s.intake.command r s.now)) := hP.intake h
  dsimp only
  repeat' (first
    | with_reducible assumption
    | with_reducible apply State.wakeIfAsleep_closed hP.toClosedMap
    | with_reducible apply State.epochHandedOn_closed hP.toClosed
    | split)

theorem State.acknowledgeAll_closed (hP : Closed P) {s : State}  (h : P s) : P (s.acknowledgeAll ) := by
  unfold State.acknowledgeAll
  try dsimp only
  repeat' (first
    | with_reducible assumption
    | with_reducible apply State.acknowledge_closed hP
    | with_reducible refine foldl_closed (fun _ _ _ => ?_) ?_)

theorem State.clearSite_closed (hP : Closed P) {s : State} {r : Request} {k : CellKey}
    (hl : s.report.transmit.length ≤ 15) (h : P s) : P (s.clearSite r k) := by
  unfold State.clearSite
  try dsimp only
  repeat' (first
    | with_reducible assumption
    | with_reducible exact State.reply_closed hP hl h
    | with_reducible apply State.removeFault_closed hP
    | with_reducible apply State.resetCell_closed hP
    | split)

theorem State.departLost_closed (hP : ClosedMap P) {s : State} (h : P s) : P s.departLost := hP.departLost h

theorem State.clearBreak_closed (hP : ClosedMap P) {s : State} {r : Request} {g : Seg}
    (hl : s.report.transmit.length ≤ 15) (h : P s) : P (s.clearBreak r g) := by
  unfold State.clearBreak
  try dsimp only
  repeat' (first
    | with_reducible assumption
    | with_reducible exact State.reply_closed hP.toClosed hl h
    | with_reducible apply State.removeFault_closed hP.toClosed
    | with_reducible apply State.departLost_closed hP
    | split)

theorem State.clearModule_closed (hP : ClosedMap P) {s : State} {r : Request} {p : Pos}
    (hl : s.report.transmit.length ≤ 15) (h : P s) : P (s.clearModule r p) := by
  unfold State.clearModule
  split
  · exact State.reply_closed hP.toClosed hl h
  · have ht : P ((s.reply r .done).removeFault (.module p)) :=
      State.removeFault_closed hP.toClosed (State.reply_closed hP.toClosed hl h)
    dsimp only
    split
    · next hs => exact State.returnPresent_closed hP hs ht
    · exact ht

theorem State.monitorCleared_closed (hP : Closed P) {s : State}  (h : P s) : P (s.monitorCleared ) := by
  unfold State.monitorCleared
  try dsimp only
  repeat' (first
    | with_reducible assumption
    | with_reducible refine hP.attention ?_
    | split)

theorem State.clearLink_closed (hP : Closed P) {s : State} {r : Request} (hl : s.report.transmit.length ≤ 15) (h
    : P s) : P (s.clearLink r) := by
  unfold State.clearLink
  try dsimp only
  repeat' (first
    | with_reducible assumption
    | with_reducible exact State.reply_closed hP hl h
    | with_reducible apply State.monitorCleared_closed hP
    | with_reducible apply State.removeFault_closed hP
    | split)

theorem State.refresh_closed (hP : Closed P) {s : State} {r : Request} {p : Pos}
    (hl : s.report.transmit.length ≤ 15) (h : P s) : P (s.refresh r p) := by
  unfold State.refresh
  repeat' (first
    | with_reducible exact State.reply_closed hP hl h
    | (next hq => exact State.putQuery_closed hP hq (State.reply_closed hP hl h))
    | with_reducible assumption
    | split)

theorem State.resetPosition_closed (hP : Closed P) {s : State} {r : Request} {p : Pos}
    (hl : s.report.transmit.length ≤ 15) (h : P s) : P (s.resetPosition r p) := by
  unfold State.resetPosition
  repeat' (first
    | with_reducible exact State.reply_closed hP hl h
    | (next hq =>
        exact State.placeTail_closed hP (Bool.eq_false_iff.mpr hq)
          (fun _ hw => by simp [Work.isQueryFor] at hw) (fun _ hw => by simp [Work.isProfileFor] at hw) h)
    | split)

theorem State.stage_closed (hP : Closed P) {s : State} {r : Request} {p : Pos} {f : Func}
    (hl : s.report.transmit.length ≤ 15) (h : P s) : P (s.stage r p f) := by
  unfold State.stage
  try dsimp only
  repeat' (first
    | with_reducible assumption
    | with_reducible exact State.reply_closed hP hl h
    | with_reducible refine State.changeRecord_closed hP (fun _ => ⟨rfl, rfl⟩) ?_
    | split)

theorem State.beginApply_closed (hP : Closed P) {s : State} {r : Request} (h : P s) : P (s.beginApply r) := by
  unfold State.beginApply
  try dsimp only
  repeat' (first
    | with_reducible assumption
    | with_reducible apply State.applyAndPersist_closed hP
    | with_reducible apply State.completeApply_closed hP
    | with_reducible refine foldl_closed (fun _ _ _ => ?_) ?_
    | with_reducible refine hP.apply ?_)

theorem State.writeSetting_closed (hP : ClosedStore P) {s : State} {r : Request} {code value : Nat}
    (hl : s.report.transmit.length ≤ 15) (h : P s) : P (s.writeSetting r code value) := by
  unfold State.writeSetting
  split
  · exact State.reply_closed hP.toClosed hl h
  · exact hP.setting (State.reply_closed hP.toClosed hl h)

theorem State.beginReset_closed (hP : Closed P) {s : State} {r : Request} {k : ResetKind}
    (hl : s.report.transmit.length ≤ 15) (h : P s) : P (s.beginReset r k) := by
  unfold State.beginReset
  exact State.transmit_closed hP (show s.report.transmit.length + 1 ≤ 24 by omega) (hP.report (by simp) (by simp) h)

end Sys2Proof.Machine
end

