-- ==== Sys2Proof/Laws/Conclude.lean ====
section
/-! SUPPORT. What the end of every event (`State.conclude`) leaves as it was: every block but the Query Queue, the probe
interval, the quiet-since time, the due flags of the two reports, the listed flags and the Fault List. -/

namespace Sys2Proof.Machine

/-- The fields that the end of an event may change, and all that it may change. -/
structure Settled (s t : State) : Prop where
  eq : ∃ q w p qs im sm ce fa, t =
    { s with
      scheduler := { s.scheduler with queue := q, enumerateWaiting := w }
      enumerator := { s.enumerator with probeFrom := p }
      ignition := { s.ignition with quietSince := qs }
      report := { s.report with imageDue := im, summaryDue := sm }
      cells := ce
      faults := fa }

theorem Settled.refl (s : State) : Settled s s := ⟨⟨_, _, _, _, _, _, _, _, rfl⟩⟩

theorem Settled.trans {s t u : State} (h : Settled s t) (g : Settled t u) : Settled s u := by
  obtain ⟨_, _, _, _, _, _, _, _, rfl⟩ := h.eq
  obtain ⟨_, _, _, _, _, _, _, _, rfl⟩ := g.eq
  exact ⟨⟨_, _, _, _, _, _, _, _, rfl⟩⟩

theorem State.markListed_settled (s : State) (site : Site) (b : Bool) : Settled s (s.markListed site b) := by
  unfold State.markListed
  split <;> exact ⟨⟨_, _, _, _, _, _, _, _, rfl⟩⟩

theorem State.insertFault_settled (s : State) (site : Site) (kind : FaultKind) (lampsOut : Option Nat) (first : Time) :
    Settled s (s.insertFault site kind lampsOut first) := by
  unfold State.insertFault
  exact Settled.trans ⟨⟨_, _, _, _, _, _, _, _, rfl⟩⟩ (State.markListed_settled _ _ _)

theorem State.admitCell_settled (s : State) (k : CellKey) : Settled s (s.admitCell k) := by
  unfold State.admitCell
  split
  · exact Settled.refl s
  · exact State.insertFault_settled _ _ _ _ _

theorem State.admitUpTo_settled (n : Nat) (s : State) : Settled s (s.admitUpTo n) := by
  induction n generalizing s with
  | zero => exact Settled.refl s
  | succ n ih =>
    unfold State.admitUpTo
    split
    · split
      · exact Settled.refl s
      · exact (State.admitCell_settled s _).trans (ih _)
    · exact Settled.refl s

/-- The end of an event changes at most what `Settled` names. -/
theorem State.conclude_settled (s : State) (b : FaultList) : Settled s (s.conclude b) := by
  have h1 : Settled s s.settleQueue := by
    unfold State.settleQueue; split <;> exact ⟨⟨_, _, _, _, _, _, _, _, rfl⟩⟩
  have h2 := h1.trans (State.admitUpTo_settled Config.faultPlaces s.settleQueue)
  have h3 : ∀ t : State, Settled t t.settleOverflow := fun t => ⟨⟨_, _, _, _, _, _, _, _, rfl⟩⟩
  have h4 : ∀ t : State, Settled t (t.settleRevision b) := fun t => by
    unfold State.settleRevision; split <;> exact ⟨⟨_, _, _, _, _, _, _, _, rfl⟩⟩
  have h5 : ∀ t : State, Settled t t.settleQuiet := fun t => by
    unfold State.settleQuiet
    split
    · split <;> exact ⟨⟨_, _, _, _, _, _, _, _, rfl⟩⟩
    · exact ⟨⟨_, _, _, _, _, _, _, _, rfl⟩⟩
  have h6 : ∀ t : State, Settled t t.settleProbe := fun t => by
    unfold State.settleProbe
    split
    · split <;> exact ⟨⟨_, _, _, _, _, _, _, _, rfl⟩⟩
    · exact ⟨⟨_, _, _, _, _, _, _, _, rfl⟩⟩
  have h7 : ∀ t : State, Settled t t.settleReports := fun t => by
    unfold State.settleReports; split <;> exact ⟨⟨_, _, _, _, _, _, _, _, rfl⟩⟩
  exact ((((h2.trans (h3 _)).trans (h4 _)).trans (h5 _)).trans (h6 _)).trans (h7 _)

@[simp] theorem State.conclude_clock (s : State) (b : FaultList) : (s.conclude b).clock = s.clock := by
  obtain ⟨_, _, _, _, _, _, _, _, h⟩ := (s.conclude_settled b).eq
  rw [h]

@[simp] theorem State.conclude_inputs (s : State) (b : FaultList) : (s.conclude b).inputs = s.inputs := by
  obtain ⟨_, _, _, _, _, _, _, _, h⟩ := (s.conclude_settled b).eq
  rw [h]

@[simp] theorem State.conclude_intake (s : State) (b : FaultList) : (s.conclude b).intake = s.intake := by
  obtain ⟨_, _, _, _, _, _, _, _, h⟩ := (s.conclude_settled b).eq
  rw [h]

@[simp] theorem State.conclude_sense (s : State) (b : FaultList) : (s.conclude b).sense = s.sense := by
  obtain ⟨_, _, _, _, _, _, _, _, h⟩ := (s.conclude_settled b).eq
  rw [h]

@[simp] theorem State.conclude_link (s : State) (b : FaultList) : (s.conclude b).link = s.link := by
  obtain ⟨_, _, _, _, _, _, _, _, h⟩ := (s.conclude_settled b).eq
  rw [h]

@[simp] theorem State.conclude_health (s : State) (b : FaultList) : (s.conclude b).health = s.health := by
  obtain ⟨_, _, _, _, _, _, _, _, h⟩ := (s.conclude_settled b).eq
  rw [h]

@[simp] theorem State.conclude_attention (s : State) (b : FaultList) : (s.conclude b).attention = s.attention := by
  obtain ⟨_, _, _, _, _, _, _, _, h⟩ := (s.conclude_settled b).eq
  rw [h]

@[simp] theorem State.conclude_train (s : State) (b : FaultList) : (s.conclude b).train = s.train := by
  obtain ⟨_, _, _, _, _, _, _, _, h⟩ := (s.conclude_settled b).eq
  rw [h]

@[simp] theorem State.conclude_apply (s : State) (b : FaultList) : (s.conclude b).apply = s.apply := by
  obtain ⟨_, _, _, _, _, _, _, _, h⟩ := (s.conclude_settled b).eq
  rw [h]

@[simp] theorem State.conclude_counters (s : State) (b : FaultList) : (s.conclude b).counters = s.counters := by
  obtain ⟨_, _, _, _, _, _, _, _, h⟩ := (s.conclude_settled b).eq
  rw [h]

@[simp] theorem State.conclude_pending (s : State) (b : FaultList) : (s.conclude b).pending = s.pending := by
  obtain ⟨_, _, _, _, _, _, _, _, h⟩ := (s.conclude_settled b).eq
  rw [h]

@[simp] theorem State.conclude_scheduler_slot (s : State) (b : FaultList) : (s.conclude b).scheduler.slot = s.scheduler.slot := by
  obtain ⟨_, _, _, _, _, _, _, _, h⟩ := (s.conclude_settled b).eq
  rw [h]

@[simp] theorem State.conclude_scheduler_broadcastOwed (s : State) (b : FaultList) : (s.conclude b).scheduler.broadcastOwed = s.scheduler.broadcastOwed := by
  obtain ⟨_, _, _, _, _, _, _, _, h⟩ := (s.conclude_settled b).eq
  rw [h]

@[simp] theorem State.conclude_scheduler_lastLampState (s : State) (b : FaultList) : (s.conclude b).scheduler.lastLampState = s.scheduler.lastLampState := by
  obtain ⟨_, _, _, _, _, _, _, _, h⟩ := (s.conclude_settled b).eq
  rw [h]

@[simp] theorem State.conclude_scheduler_tag (s : State) (b : FaultList) : (s.conclude b).scheduler.tag = s.scheduler.tag := by
  obtain ⟨_, _, _, _, _, _, _, _, h⟩ := (s.conclude_settled b).eq
  rw [h]

@[simp] theorem State.conclude_scheduler_roundAtOnce (s : State) (b : FaultList) : (s.conclude b).scheduler.roundAtOnce = s.scheduler.roundAtOnce := by
  obtain ⟨_, _, _, _, _, _, _, _, h⟩ := (s.conclude_settled b).eq
  rw [h]

@[simp] theorem State.conclude_scheduler_lastRound (s : State) (b : FaultList) : (s.conclude b).scheduler.lastRound = s.scheduler.lastRound := by
  obtain ⟨_, _, _, _, _, _, _, _, h⟩ := (s.conclude_settled b).eq
  rw [h]

@[simp] theorem State.conclude_enumerator_phase (s : State) (b : FaultList) : (s.conclude b).enumerator.phase = s.enumerator.phase := by
  obtain ⟨_, _, _, _, _, _, _, _, h⟩ := (s.conclude_settled b).eq
  rw [h]

@[simp] theorem State.conclude_enumerator_coupled (s : State) (b : FaultList) : (s.conclude b).enumerator.coupled = s.enumerator.coupled := by
  obtain ⟨_, _, _, _, _, _, _, _, h⟩ := (s.conclude_settled b).eq
  rw [h]

@[simp] theorem State.conclude_ignition_part (s : State) (b : FaultList) : (s.conclude b).ignition.part = s.ignition.part := by
  obtain ⟨_, _, _, _, _, _, _, _, h⟩ := (s.conclude_settled b).eq
  rw [h]

@[simp] theorem State.conclude_ignition_high (s : State) (b : FaultList) : (s.conclude b).ignition.high = s.ignition.high := by
  obtain ⟨_, _, _, _, _, _, _, _, h⟩ := (s.conclude_settled b).eq
  rw [h]

@[simp] theorem State.conclude_ignition_cause (s : State) (b : FaultList) : (s.conclude b).ignition.cause = s.ignition.cause := by
  obtain ⟨_, _, _, _, _, _, _, _, h⟩ := (s.conclude_settled b).eq
  rw [h]

@[simp] theorem State.conclude_ignition_settings (s : State) (b : FaultList) : (s.conclude b).ignition.settings = s.ignition.settings := by
  obtain ⟨_, _, _, _, _, _, _, _, h⟩ := (s.conclude_settled b).eq
  rw [h]

@[simp] theorem State.conclude_ignition_library (s : State) (b : FaultList) : (s.conclude b).ignition.library = s.ignition.library := by
  obtain ⟨_, _, _, _, _, _, _, _, h⟩ := (s.conclude_settled b).eq
  rw [h]

@[simp] theorem State.conclude_ignition_canBase (s : State) (b : FaultList) : (s.conclude b).ignition.canBase = s.ignition.canBase := by
  obtain ⟨_, _, _, _, _, _, _, _, h⟩ := (s.conclude_settled b).eq
  rw [h]

@[simp] theorem State.conclude_ignition_stored (s : State) (b : FaultList) : (s.conclude b).ignition.stored = s.ignition.stored := by
  obtain ⟨_, _, _, _, _, _, _, _, h⟩ := (s.conclude_settled b).eq
  rw [h]

@[simp] theorem State.conclude_ignition_status (s : State) (b : FaultList) : (s.conclude b).ignition.status = s.ignition.status := by
  obtain ⟨_, _, _, _, _, _, _, _, h⟩ := (s.conclude_settled b).eq
  rw [h]

@[simp] theorem State.conclude_ignition_save (s : State) (b : FaultList) : (s.conclude b).ignition.save = s.ignition.save := by
  obtain ⟨_, _, _, _, _, _, _, _, h⟩ := (s.conclude_settled b).eq
  rw [h]

@[simp] theorem State.conclude_report_received (s : State) (b : FaultList) : (s.conclude b).report.received = s.report.received := by
  obtain ⟨_, _, _, _, _, _, _, _, h⟩ := (s.conclude_settled b).eq
  rw [h]

@[simp] theorem State.conclude_report_transmit (s : State) (b : FaultList) : (s.conclude b).report.transmit = s.report.transmit := by
  obtain ⟨_, _, _, _, _, _, _, _, h⟩ := (s.conclude_settled b).eq
  rw [h]

@[simp] theorem State.conclude_report_deferred (s : State) (b : FaultList) : (s.conclude b).report.deferred = s.report.deferred := by
  obtain ⟨_, _, _, _, _, _, _, _, h⟩ := (s.conclude_settled b).eq
  rw [h]

@[simp] theorem State.conclude_report_onBus (s : State) (b : FaultList) : (s.conclude b).report.onBus = s.report.onBus := by
  obtain ⟨_, _, _, _, _, _, _, _, h⟩ := (s.conclude_settled b).eq
  rw [h]

@[simp] theorem State.conclude_report_lastImage (s : State) (b : FaultList) : (s.conclude b).report.lastImage = s.report.lastImage := by
  obtain ⟨_, _, _, _, _, _, _, _, h⟩ := (s.conclude_settled b).eq
  rw [h]

@[simp] theorem State.conclude_report_lastSummary (s : State) (b : FaultList) : (s.conclude b).report.lastSummary = s.report.lastSummary := by
  obtain ⟨_, _, _, _, _, _, _, _, h⟩ := (s.conclude_settled b).eq
  rw [h]

@[simp] theorem State.conclude_report_reset (s : State) (b : FaultList) : (s.conclude b).report.reset = s.report.reset := by
  obtain ⟨_, _, _, _, _, _, _, _, h⟩ := (s.conclude_settled b).eq
  rw [h]

end Sys2Proof.Machine
end

