-- ==== Sys2Proof/Laws/Cells.lean ====
section
/-! SUPPORT. Reading a cell after a change of the Cell Table, and the records of the Fault List after each of its
operations. -/

namespace Sys2Proof.Machine

/-! ### Cells -/

@[simp] theorem CellTable.get_set_same (t : CellTable) (k : CellKey) (c : Cell) : (t.set k c).get k = c := by
  cases k <;> simp [CellTable.get, CellTable.set]

theorem CellTable.get_set_other {t : CellTable} {k j : CellKey} {c : Cell} (h : j ≠ k) :
    (t.set k c).get j = t.get j := by
  cases k with
  | lamp p f =>
    cases j with
    | lamp q g =>
      simp only [CellTable.get, CellTable.set, Fin.getElem_fin, Vector.getElem_set]
      by_cases hp : p = q
      · subst hp
        have hf : ¬ f.val = g.val := fun hc => h (by rw [Fin.ext hc])
        simp [hf]
      · have hp' : ¬ p.val = q.val := fun hc => hp (Fin.ext hc)
        simp [hp']
    | line g => rfl
    | segment i g => rfl
  | line f =>
    cases j with
    | lamp q g => rfl
    | line g =>
      have hf : ¬ f.val = g.val := fun hc => h (by rw [Fin.ext hc])
      simp [CellTable.get, CellTable.set, hf]
    | segment i g => rfl
  | segment p f =>
    cases j with
    | lamp q g => rfl
    | line g => rfl
    | segment q g =>
      simp only [CellTable.get, CellTable.set, Fin.getElem_fin, Vector.getElem_set]
      by_cases hp : p = q
      · subst hp
        have hf : ¬ f.val = g.val := fun hc => h (by rw [Fin.ext hc])
        simp [hf]
      · have hp' : ¬ p.val = q.val := fun hc => hp (Fin.ext hc)
        simp [hp']

@[simp] theorem CellTable.get_change (t : CellTable) (g : CellKey → Cell → Cell) (k : CellKey) :
    (t.change g).get k = g k (t.get k) := by
  cases k <;> simp [CellTable.get, CellTable.change, remap]

@[simp] theorem State.setCell_same (s : State) (k : CellKey) (c : Cell) : (s.setCell k c).cell k = c := by
  simp [State.cell, State.setCell]

theorem State.setCell_other {s : State} {k j : CellKey} {c : Cell} (h : j ≠ k) : (s.setCell k c).cell j = s.cell j :=
  CellTable.get_set_other h

/-- Marking a site as listed changes a cell's listed flag alone. -/
theorem State.markListed_cell (s : State) (site : Site) (b : Bool) (k : CellKey) :
    (s.markListed site b).cell k = { s.cell k with listed := ((s.markListed site b).cell k).listed } := by
  cases site with
  | cell j =>
    by_cases h : k = j
    · subst h; simp [State.markListed]
    · simp [State.markListed, State.setCell_other h]
  | chainBreak g => rfl
  | module p => rfl
  | link => rfl

/-- A record inserted changes a cell's listed flag alone (R6, R150). -/
theorem State.insertFault_cell (s : State) (site : Site) (kind : FaultKind) (l : Option Nat) (t : Time) (k : CellKey) :
    (s.insertFault site kind l t).cell k =
      { s.cell k with listed := ((s.insertFault site kind l t).cell k).listed } :=
  State.markListed_cell _ _ _ _

theorem State.removeFault_cell (s : State) (site : Site) (k : CellKey) :
    (s.removeFault site).cell k = { s.cell k with listed := ((s.removeFault site).cell k).listed } := by
  unfold State.removeFault
  split
  · rfl
  · exact State.markListed_cell _ _ _ _

theorem State.admitUpTo_cell (n : Nat) (s : State) (k : CellKey) :
    (s.admitUpTo n).cell k = { s.cell k with listed := ((s.admitUpTo n).cell k).listed } := by
  induction n generalizing s with
  | zero => rfl
  | succ n ih =>
    unfold State.admitUpTo
    split
    · split
      · rfl
      · next j _ =>
        have hj : (s.admitCell j).cell k = { s.cell k with listed := ((s.admitCell j).cell k).listed } := by
          unfold State.admitCell
          split
          · rfl
          · exact State.insertFault_cell _ _ _ _ _ _
        have hi := ih (s.admitCell j)
        rw [hi, hj]
    · rfl

/-- What the end of an event does to the Cell Table and the records: the admission of R158 alone. -/
theorem State.conclude_admits (s : State) (b : FaultList) :
    (s.conclude b).cells = s.settleQueue.admitWaiting.cells ∧
      (s.conclude b).faults.records = s.settleQueue.admitWaiting.faults.records ∧
      (s.conclude b).faults.nextId = s.settleQueue.admitWaiting.faults.nextId := by
  have hr : ∀ t : State, t.settleReports.cells = t.cells ∧ t.settleReports.faults = t.faults := fun t => by
    unfold State.settleReports; split <;> exact ⟨rfl, rfl⟩
  have hp : ∀ t : State, t.settleProbe.cells = t.cells ∧ t.settleProbe.faults = t.faults := fun t => by
    unfold State.settleProbe
    split
    · split <;> exact ⟨rfl, rfl⟩
    · exact ⟨rfl, rfl⟩
  have hq : ∀ t : State, t.settleQuiet.cells = t.cells ∧ t.settleQuiet.faults = t.faults := fun t => by
    unfold State.settleQuiet
    split
    · split <;> exact ⟨rfl, rfl⟩
    · exact ⟨rfl, rfl⟩
  have hv : ∀ t : State, (t.settleRevision b).cells = t.cells ∧
      (t.settleRevision b).faults.records = t.faults.records ∧
      (t.settleRevision b).faults.nextId = t.faults.nextId := fun t => by
    unfold State.settleRevision; split <;> exact ⟨rfl, rfl, rfl⟩
  have ho : ∀ t : State, t.settleOverflow.cells = t.cells ∧
      t.settleOverflow.faults.records = t.faults.records ∧
      t.settleOverflow.faults.nextId = t.faults.nextId := fun _ => ⟨rfl, rfl, rfl⟩
  unfold State.conclude
  simp [hr, hp, hq, hv, ho]

/-- The end of an event changes a cell's listed flag alone (R158). -/
theorem State.conclude_cell (s : State) (b : FaultList) (k : CellKey) :
    (s.conclude b).cell k = { s.cell k with listed := ((s.conclude b).cell k).listed } := by
  have h1 : (s.conclude b).cell k = (s.settleQueue.admitUpTo Config.faultPlaces).cell k := by
    simp [State.cell, (s.conclude_admits b).1, State.admitWaiting]
  have h2 : s.settleQueue.cell k = s.cell k := by
    unfold State.settleQueue; split <;> rfl
  rw [h1, State.admitUpTo_cell Config.faultPlaces s.settleQueue k, h2]

@[simp] theorem State.conclude_cell_state (s : State) (b : FaultList) (k : CellKey) :
    ((s.conclude b).cell k).state = (s.cell k).state := by rw [s.conclude_cell b k]
@[simp] theorem State.conclude_cell_confirmed (s : State) (b : FaultList) (k : CellKey) :
    ((s.conclude b).cell k).confirmed = (s.cell k).confirmed := by rw [s.conclude_cell b k]
@[simp] theorem State.conclude_cell_candidate (s : State) (b : FaultList) (k : CellKey) :
    ((s.conclude b).cell k).candidate = (s.cell k).candidate := by rw [s.conclude_cell b k]
@[simp] theorem State.conclude_cell_count (s : State) (b : FaultList) (k : CellKey) :
    ((s.conclude b).cell k).count = (s.cell k).count := by rw [s.conclude_cell b k]
@[simp] theorem State.conclude_cell_sample (s : State) (b : FaultList) (k : CellKey) :
    ((s.conclude b).cell k).sample = (s.cell k).sample := by rw [s.conclude_cell b k]
@[simp] theorem State.conclude_cell_hold (s : State) (b : FaultList) (k : CellKey) :
    ((s.conclude b).cell k).hold = (s.cell k).hold := by rw [s.conclude_cell b k]
@[simp] theorem State.conclude_cell_resolvable (s : State) (b : FaultList) (k : CellKey) :
    ((s.conclude b).cell k).resolvable = (s.cell k).resolvable := by rw [s.conclude_cell b k]
@[simp] theorem State.conclude_cell_confirmedAt (s : State) (b : FaultList) (k : CellKey) :
    ((s.conclude b).cell k).confirmedAt = (s.cell k).confirmedAt := by rw [s.conclude_cell b k]

/-! ### Records of the Fault List -/

theorem State.removeFault_records (s : State) (site : Site) :
    (s.removeFault site).faults.records = s.faults.records.filter fun r => decide (r.site ≠ site) := by
  unfold State.removeFault
  split
  · next h =>
    rw [State.faultAt, List.find?_eq_none] at h
    exact (List.filter_eq_self.mpr fun r hr => by simpa using h r hr).symm
  · simp [State.withRecords]

@[simp] theorem State.removeFault_faultAt (s : State) (site : Site) : (s.removeFault site).faultAt site = none := by
  rw [State.faultAt, List.find?_eq_none, State.removeFault_records]
  intro r hr
  simp at hr
  simpa using hr.2

theorem State.insertFault_records (s : State) (site : Site) (kind : FaultKind) (l : Option Nat) (t : Time) :
    (s.insertFault site kind l t).faults.records =
      s.faults.records ++
        [{ id := freeFaultId s.faults.records Config.faultPlaces s.faults.nextId, site := site, kind := kind,
           severity := severityOf site kind, state := .activeUnack, lampsOut := l, firstRaised := t,
           lastChange := s.now, occurrences := 1, serial := s.serialFor site }] := by
  simp [State.insertFault]

@[simp] theorem State.changeFault_records (s : State) (site : Site) (g : FaultRecord → FaultRecord) :
    (s.changeFault site g).faults.records = s.faults.records.map fun r => if r.site = site then g r else r := rfl

/-- With no faulted cell unlisted, nothing is admitted (R158). -/
theorem State.admitUpTo_none {s : State} (h : ∀ k, s.unlisted k = false) (n : Nat) : s.admitUpTo n = s := by
  cases n with
  | zero => rfl
  | succ n =>
    have : s.nextToAdmit = none := by
      have hf : cellKeys.filter s.awaitsRecord = [] :=
        List.filter_eq_nil_iff.mpr fun k _ => by simp [State.awaitsRecord, h k]
      rw [State.nextToAdmit, hf]; rfl
    simp [State.admitUpTo, this]

/-- Admission puts records behind those of the list and takes none away (R154, R158). -/
theorem State.admitUpTo_prefix (n : Nat) (s : State) : s.faults.records <+: (s.admitUpTo n).faults.records := by
  induction n generalizing s with
  | zero => exact List.prefix_rfl
  | succ n ih =>
    unfold State.admitUpTo
    split
    · split
      · exact List.prefix_rfl
      · next k _ =>
        refine List.IsPrefix.trans ?_ (ih _)
        unfold State.admitCell
        split
        · exact List.prefix_rfl
        · rw [State.insertFault_records]; exact List.prefix_append _ _
    · exact List.prefix_rfl

/-- The end of an event keeps every record of the list, in its place (R154, R158). -/
theorem State.conclude_prefix (s : State) (b : FaultList) : s.faults.records <+: (s.conclude b).faults.records := by
  rw [(s.conclude_admits b).2.1]
  have : s.settleQueue.faults = s.faults := by unfold State.settleQueue; split <;> rfl
  exact this ▸ State.admitUpTo_prefix Config.faultPlaces s.settleQueue

/-- With no faulted cell unlisted, the end of an event leaves the records as they are (R158). -/
theorem State.conclude_records {s : State} (h : ∀ k, s.unlisted k = false) (b : FaultList) :
    (s.conclude b).faults.records = s.faults.records := by
  rw [(s.conclude_admits b).2.1]
  have h1 : s.settleQueue.faults = s.faults ∧ s.settleQueue.cells = s.cells := by
    unfold State.settleQueue; split <;> exact ⟨rfl, rfl⟩
  have h2 : ∀ k, s.settleQueue.unlisted k = false := fun k => by
    simpa [State.unlisted, State.cell, h1.2] using h k
  rw [State.admitWaiting, State.admitUpTo_none h2, h1.1]

/-! ### The Query Queue -/

/-- With no ENUMERATE entry waiting for a place, the end of an event leaves the queue as it is (R81). -/
theorem State.conclude_scheduler {s : State} (h : s.scheduler.enumerateWaiting = false) (b : FaultList) :
    (s.conclude b).scheduler = s.scheduler := by
  have hr : ∀ t : State, t.settleReports.scheduler = t.scheduler := fun t => by
    unfold State.settleReports; split <;> rfl
  have hp : ∀ t : State, t.settleProbe.scheduler = t.scheduler := fun t => by
    unfold State.settleProbe
    split
    · split <;> rfl
    · rfl
  have hq : ∀ t : State, t.settleQuiet.scheduler = t.scheduler := fun t => by
    unfold State.settleQuiet
    split
    · split <;> rfl
    · rfl
  have hv : ∀ t : State, (t.settleRevision b).scheduler = t.scheduler := fun t => by
    unfold State.settleRevision; split <;> rfl
  have ho : ∀ t : State, t.settleOverflow.scheduler = t.scheduler := fun _ => rfl
  have ha : ∀ (n : Nat) (t : State), (t.admitUpTo n).scheduler.queue = t.scheduler.queue ∧
      (t.admitUpTo n).scheduler = t.scheduler := by
    intro n
    induction n with
    | zero => exact fun t => ⟨rfl, rfl⟩
    | succ n ih =>
      intro t
      unfold State.admitUpTo
      split
      · split
        · exact ⟨rfl, rfl⟩
        · next k _ =>
          have : (t.admitCell k).scheduler = t.scheduler := by
            unfold State.admitCell
            split
            · rfl
            · unfold State.insertFault State.markListed; split <;> rfl
          rw [(ih _).2, this]; exact ⟨rfl, rfl⟩
      · exact ⟨rfl, rfl⟩
  have hs : s.settleQueue = s := by unfold State.settleQueue; simp [h]
  unfold State.conclude
  rw [hr, hp, hq, hv, ho, State.admitWaiting, (ha _ _).2, hs]

end Sys2Proof.Machine
end

