-- ==== Sys2Proof/Laws/Commands.lean ====
section
/-! SUPPORT. What every command keeps. Each command is one event, and its effect keeps a property that is closed under
the changes the command is made of; so does the event, when the property survives what ends it. -/

namespace Sys2Proof.Machine

variable {P : State → Prop}

/-- Command i is one event at s, and its effect keeps P. -/
def EffectKeeps (P : State → Prop) (i : Instr) (s : State) : Prop :=
  ∃ m f, exec i s = s.event m f ∧ ∀ u, P u → P (f u)

/-- Command i is one event that may set the list's revision, and its effect keeps P. -/
def FreshEffectKeeps (P : State → Prop) (i : Instr) (s : State) : Prop :=
  ∃ m f, exec i s = s.freshEvent m f ∧ ∀ u, P u → P (f u)

/-- The event keeps P when the effect does. -/
theorem EffectKeeps.next (hP : ClosedEvent P) {i : Instr} {s : State} (h : EffectKeeps P i s) (hs : P s) :
    ∃ t, exec i s = .next t ∧ P t := by
  obtain ⟨m, f, he, hf⟩ := h
  exact ⟨_, he, State.conclude_closed hP (hf _ (hP.advance hs))⟩

theorem FreshEffectKeeps.next (hP : ClosedEvent P) {i : Instr} {s : State} (h : FreshEffectKeeps P i s) (hs : P s) :
    ∃ t, exec i s = .next t ∧ P t := by
  obtain ⟨m, f, he, hf⟩ := h
  exact ⟨_, he, State.conclude_closed hP (hf _ (hP.advance hs))⟩

/-- A request row's command keeps P when the request's own rule does. -/
theorem State.serve_effect (hP : Closed P) {row r} {f : State → State}
    (hf : ∀ t : State, t.report.transmit.length ≤ 15 → P t → P (f t)) :
    ∀ u, P u → P (u.takeRequest row r f) :=
  fun _ hu => State.takeRequest_closed hP hf hu

theorem powerOn_effect (hP : ClosedAll P) {s : State} {m cause} : FreshEffectKeeps P (.powerOn m cause) s :=
  ⟨m, fun t => t.powerOn cause.cause, rfl, fun _ hu => State.powerOn_closed hP hu⟩

theorem hardReset_effect (hP : ClosedAll P) {s : State} {m} (h : s.report.reset = .due .hard) :
    FreshEffectKeeps P (.hardReset m) s :=
  ⟨m, State.hardReset, if_pos h, fun _ hu => State.hardReset_closed hP hu⟩

theorem hardReset_idle {s : State} {m} (h : s.report.reset ≠ .due .hard) : EffectKeeps P (.hardReset m) s :=
  ⟨m, id, if_neg h, fun _ hu => hu⟩

theorem softReset_effect (hP : ClosedAll P) {s : State} {m} : EffectKeeps P (.softReset m) s := by
  change ∃ m' e, execSoftReset m s = s.event m' e ∧ ∀ u, P u → P (e u)
  unfold execSoftReset
  refine ⟨m, _, rfl, fun u hu => ?_⟩
  try dsimp only
  repeat' (first
    | with_reducible assumption
    | with_reducible refine State.softReset_closed hP ?_
    | split)

theorem ignitionChange_effect (hP : ClosedStore P) {s : State} {m} : EffectKeeps P (.ignitionChange m) s := by
  change ∃ m' e, execIgnitionChange m s = s.event m' e ∧ ∀ u, P u → P (e u)
  unfold execIgnitionChange
  refine ⟨m, _, rfl, fun u hu => ?_⟩
  try dsimp only
  repeat' (first
    | with_reducible assumption
    | with_reducible refine State.wakeIfAsleep_closed hP.toClosedMap ?_
    | with_reducible refine hP.ignition rfl (by simp +contextual [Ignition.libraries]) ?_
    | split)

theorem standbyEntry_effect (hP : Closed P) {s : State} {m} : EffectKeeps P (.standbyEntry m) s := by
  change ∃ m' e, execStandbyEntry m s = s.event m' e ∧ ∀ u, P u → P (e u)
  unfold execStandbyEntry
  refine ⟨m, _, rfl, fun u hu => ?_⟩
  try dsimp only
  repeat' (first
    | with_reducible assumption
    | with_reducible refine State.standby_closed hP ?_
    | split)

theorem requestReceive_effect (hP : Closed P) {s : State} {m frame} : EffectKeeps P (.requestReceive m frame) s := by
  change ∃ m' e, execRequestReceive m frame s = s.event m' e ∧ ∀ u, P u → P (e u)
  unfold execRequestReceive
  refine ⟨m, _, rfl, fun u hu => ?_⟩
  dsimp only
  split
  · exact hu
  · split
    · next hl => exact hP.report (by simp) (by simp [Config.receivePlaces] at hl ⊢; omega) hu
    · exact hu

theorem lampCommand_effect (hP : ClosedAll P) {s : State} {m r} : EffectKeeps P (.lampCommand m r) s := by
  change ∃ m' e, execLampCommand m r s = s.event m' e ∧ ∀ u, P u → P (e u)
  unfold execLampCommand State.serve
  refine ⟨m, _, rfl, State.serve_effect hP.toClosed fun u hl hu => ?_⟩
  try dsimp only
  repeat' (first
    | with_reducible assumption
    | with_reducible refine State.lampCommand_closed hP ?_)

theorem faultRead_effect (hP : Closed P) {s : State} {m r} : EffectKeeps P (.faultRead m r) s := by
  change ∃ m' e, execFaultRead m r s = s.event m' e ∧ ∀ u, P u → P (e u)
  unfold execFaultRead State.serve
  refine ⟨m, _, rfl, State.serve_effect hP fun u hl hu => ?_⟩
  try dsimp only
  repeat' (first
    | with_reducible assumption
    | with_reducible refine State.replyData_closed hP (by decide) hl ?_
    | with_reducible refine State.reply_closed hP hl ?_
    | split)

theorem faultAck_effect (hP : Closed P) {s : State} {m r} : EffectKeeps P (.faultAck m r) s := by
  change ∃ m' e, execFaultAck m r s = s.event m' e ∧ ∀ u, P u → P (e u)
  unfold execFaultAck State.serve
  refine ⟨m, _, rfl, State.serve_effect hP fun u hl hu => ?_⟩
  try dsimp only
  repeat' (first
    | with_reducible assumption
    | with_reducible refine State.acknowledge_closed hP ?_
    | with_reducible refine State.reply_closed hP hl ?_
    | split)

theorem faultAckAll_effect (hP : Closed P) {s : State} {m r} : EffectKeeps P (.faultAckAll m r) s := by
  change ∃ m' e, execFaultAckAll m r s = s.event m' e ∧ ∀ u, P u → P (e u)
  unfold execFaultAckAll State.serve
  refine ⟨m, _, rfl, State.serve_effect hP fun u hl hu => ?_⟩
  try dsimp only
  repeat' (first
    | with_reducible assumption
    | with_reducible refine State.acknowledgeAll_closed hP ?_
    | with_reducible refine State.reply_closed hP hl ?_)

theorem refresh_effect (hP : Closed P) {s : State} {m r} : EffectKeeps P (.refresh m r) s := by
  change ∃ m' e, execRefresh m r s = s.event m' e ∧ ∀ u, P u → P (e u)
  unfold execRefresh State.serve
  refine ⟨m, _, rfl, State.serve_effect hP fun u hl hu => ?_⟩
  try dsimp only
  repeat' (first
    | with_reducible assumption
    | with_reducible refine State.refresh_closed hP hl ?_
    | split)

theorem mapRead_effect (hP : Closed P) {s : State} {m r} : EffectKeeps P (.mapRead m r) s := by
  change ∃ m' e, execMapRead m r s = s.event m' e ∧ ∀ u, P u → P (e u)
  unfold execMapRead State.serve
  refine ⟨m, _, rfl, State.serve_effect hP fun u hl hu => ?_⟩
  try dsimp only
  repeat' (first
    | with_reducible assumption
    | with_reducible refine State.replyData_closed hP (by decide) hl ?_
    | with_reducible refine State.reply_closed hP hl ?_
    | split)

theorem siteClear_effect (hP : Closed P) {s : State} {m r} : EffectKeeps P (.siteClear m r) s := by
  change ∃ m' e, execSiteClear m r s = s.event m' e ∧ ∀ u, P u → P (e u)
  unfold execSiteClear State.serve
  refine ⟨m, _, rfl, State.serve_effect hP fun u hl hu => ?_⟩
  try dsimp only
  repeat' (first
    | with_reducible assumption
    | with_reducible refine State.clearSite_closed hP hl ?_
    | split)

theorem siteClearChainBreak_effect (hP : ClosedMap P) {s : State} {m r} : EffectKeeps P (.siteClearChainBreak m r) s := by
  change ∃ m' e, execSiteClearChainBreak m r s = s.event m' e ∧ ∀ u, P u → P (e u)
  unfold execSiteClearChainBreak State.serve
  refine ⟨m, _, rfl, State.serve_effect hP.toClosed fun u hl hu => ?_⟩
  try dsimp only
  repeat' (first
    | with_reducible assumption
    | with_reducible refine State.clearBreak_closed hP hl ?_
    | with_reducible refine State.clearSite_closed hP.toClosed hl ?_
    | split)

theorem siteClearModule_effect (hP : ClosedMap P) {s : State} {m r} : EffectKeeps P (.siteClearModule m r) s := by
  change ∃ m' e, execSiteClearModule m r s = s.event m' e ∧ ∀ u, P u → P (e u)
  unfold execSiteClearModule State.serve
  refine ⟨m, _, rfl, State.serve_effect hP.toClosed fun u hl hu => ?_⟩
  try dsimp only
  repeat' (first
    | with_reducible assumption
    | with_reducible refine State.clearModule_closed hP hl ?_
    | with_reducible refine State.clearSite_closed hP.toClosed hl ?_
    | split)

theorem siteClearLink_effect (hP : Closed P) {s : State} {m r} : EffectKeeps P (.siteClearLink m r) s := by
  change ∃ m' e, execSiteClearLink m r s = s.event m' e ∧ ∀ u, P u → P (e u)
  unfold execSiteClearLink State.serve
  refine ⟨m, _, rfl, State.serve_effect hP fun u hl hu => ?_⟩
  try dsimp only
  repeat' (first
    | with_reducible assumption
    | with_reducible refine State.clearLink_closed hP hl ?_)

theorem profileStage_effect (hP : Closed P) {s : State} {m r} : EffectKeeps P (.profileStage m r) s := by
  change ∃ m' e, execProfileStage m r s = s.event m' e ∧ ∀ u, P u → P (e u)
  unfold execProfileStage State.serve
  refine ⟨m, _, rfl, State.serve_effect hP fun u hl hu => ?_⟩
  try dsimp only
  repeat' (first
    | with_reducible assumption
    | with_reducible refine State.stage_closed hP hl ?_
    | split)

theorem profileApply_effect (hP : Closed P) {s : State} {m r} : EffectKeeps P (.profileApply m r) s := by
  change ∃ m' e, execProfileApply m r s = s.event m' e ∧ ∀ u, P u → P (e u)
  unfold execProfileApply State.serve
  refine ⟨m, _, rfl, State.serve_effect hP fun u hl hu => ?_⟩
  try dsimp only
  repeat' (first
    | with_reducible assumption
    | with_reducible refine State.beginApply_closed hP ?_
    | with_reducible refine State.reply_closed hP hl ?_
    | split)

theorem profileRead_effect (hP : Closed P) {s : State} {m r} : EffectKeeps P (.profileRead m r) s := by
  change ∃ m' e, execProfileRead m r s = s.event m' e ∧ ∀ u, P u → P (e u)
  unfold execProfileRead State.serve
  refine ⟨m, _, rfl, State.serve_effect hP fun u hl hu => ?_⟩
  try dsimp only
  repeat' (first
    | with_reducible assumption
    | with_reducible refine State.replyData_closed hP (by decide) hl ?_
    | with_reducible refine State.reply_closed hP hl ?_
    | split)

theorem positionReset_effect (hP : Closed P) {s : State} {m r} : EffectKeeps P (.positionReset m r) s := by
  change ∃ m' e, execPositionReset m r s = s.event m' e ∧ ∀ u, P u → P (e u)
  unfold execPositionReset State.serve
  refine ⟨m, _, rfl, State.serve_effect hP fun u hl hu => ?_⟩
  try dsimp only
  repeat' (first
    | with_reducible assumption
    | with_reducible refine State.resetPosition_closed hP hl ?_
    | split)

theorem settingWrite_effect (hP : ClosedStore P) {s : State} {m r} : EffectKeeps P (.settingWrite m r) s := by
  change ∃ m' e, execSettingWrite m r s = s.event m' e ∧ ∀ u, P u → P (e u)
  unfold execSettingWrite State.serve
  refine ⟨m, _, rfl, State.serve_effect hP.toClosed fun u hl hu => ?_⟩
  try dsimp only
  repeat' (first
    | with_reducible assumption
    | with_reducible refine State.writeSetting_closed hP hl ?_)

theorem settingRead_effect (hP : Closed P) {s : State} {m r} : EffectKeeps P (.settingRead m r) s := by
  change ∃ m' e, execSettingRead m r s = s.event m' e ∧ ∀ u, P u → P (e u)
  unfold execSettingRead State.serve
  refine ⟨m, _, rfl, State.serve_effect hP fun u hl hu => ?_⟩
  try dsimp only
  repeat' (first
    | with_reducible assumption
    | with_reducible refine State.replyData_closed hP (by decide) hl ?_)

theorem settingSave_effect (hP : ClosedStore P) {s : State} {m r} : EffectKeeps P (.settingSave m r) s := by
  change ∃ m' e, execSettingSave m r s = s.event m' e ∧ ∀ u, P u → P (e u)
  unfold execSettingSave State.serve
  refine ⟨m, _, rfl, State.serve_effect hP.toClosed fun u hl hu => ?_⟩
  try dsimp only
  repeat' (first
    | with_reducible assumption
    | with_reducible refine State.reply_closed hP.toClosed hl ?_
    | with_reducible refine hP.ignition rfl (by simp +contextual [Ignition.libraries, or_comm]) ?_
    | split)

theorem saveEnd_effect (hP : ClosedStore P) {s : State} {m checkPasses} : EffectKeeps P (.saveEnd m checkPasses) s := by
  change ∃ m' e, execSaveEnd m checkPasses s = s.event m' e ∧ ∀ u, P u → P (e u)
  unfold execSaveEnd
  refine ⟨m, _, rfl, fun u hu => ?_⟩
  try dsimp only
  repeat' (first
    | with_reducible assumption
    | with_reducible refine State.replySaveTo_closed hP.toClosed ?_
    | with_reducible refine hP.ignition rfl (by simp +contextual [Ignition.libraries, *]) ?_
    | split)

theorem counterSetup_effect (hP : Closed P) {s : State} {m r} : EffectKeeps P (.counterSetup m r) s := by
  change ∃ m' e, execCounterSetup m r s = s.event m' e ∧ ∀ u, P u → P (e u)
  unfold execCounterSetup State.serve
  refine ⟨m, _, rfl, State.serve_effect hP fun u hl hu => ?_⟩
  try dsimp only
  repeat' (first
    | with_reducible assumption
    | with_reducible refine State.reply_closed hP hl ?_
    | with_reducible refine hP.counters ?_
    | split)

theorem counterRead_effect (hP : Closed P) {s : State} {m r} : EffectKeeps P (.counterRead m r) s := by
  change ∃ m' e, execCounterRead m r s = s.event m' e ∧ ∀ u, P u → P (e u)
  unfold execCounterRead State.serve
  refine ⟨m, _, rfl, State.serve_effect hP fun u hl hu => ?_⟩
  try dsimp only
  repeat' (first
    | with_reducible assumption
    | with_reducible refine State.replyData_closed hP (by decide) hl ?_
    | with_reducible refine hP.counters ?_
    | split)

theorem libraryDelete_effect (hP : Closed P) {s : State} {m r} : EffectKeeps P (.libraryDelete m r) s := by
  change ∃ m' e, execLibraryDelete m r s = s.event m' e ∧ ∀ u, P u → P (e u)
  unfold execLibraryDelete State.serve
  refine ⟨m, _, rfl, State.serve_effect hP fun u hl hu => ?_⟩
  try dsimp only
  repeat' (first
    | with_reducible assumption
    | exact State.withLibrary_closed hP (fun hs => hs.delete _) (State.reply_closed hP hl hu)
    | with_reducible refine State.reply_closed hP hl ?_
    | split)

theorem enumerate_effect (hP : Closed P) {s : State} {m r} : EffectKeeps P (.enumerate m r) s := by
  change ∃ m' e, execEnumerate m r s = s.event m' e ∧ ∀ u, P u → P (e u)
  unfold execEnumerate State.serve
  refine ⟨m, _, rfl, State.serve_effect hP fun u hl hu => ?_⟩
  try dsimp only
  repeat' (first
    | with_reducible assumption
    | with_reducible refine State.requestEnumeration_closed hP ?_
    | with_reducible refine State.reply_closed hP hl ?_)

theorem partResetHard_effect (hP : Closed P) {s : State} {m r} : EffectKeeps P (.partResetHard m r) s := by
  change ∃ m' e, execPartResetHard m r s = s.event m' e ∧ ∀ u, P u → P (e u)
  unfold execPartResetHard State.serve
  refine ⟨m, _, rfl, State.serve_effect hP fun u hl hu => ?_⟩
  try dsimp only
  repeat' (first
    | with_reducible assumption
    | with_reducible refine State.beginReset_closed hP hl ?_)

theorem partResetSoft_effect (hP : Closed P) {s : State} {m r} : EffectKeeps P (.partResetSoft m r) s := by
  change ∃ m' e, execPartResetSoft m r s = s.event m' e ∧ ∀ u, P u → P (e u)
  unfold execPartResetSoft State.serve
  refine ⟨m, _, rfl, State.serve_effect hP fun u hl hu => ?_⟩
  try dsimp only
  repeat' (first
    | with_reducible assumption
    | with_reducible refine State.beginReset_closed hP hl ?_)

theorem identRead_effect (hP : Closed P) {s : State} {m r} : EffectKeeps P (.identRead m r) s := by
  change ∃ m' e, execIdentRead m r s = s.event m' e ∧ ∀ u, P u → P (e u)
  unfold execIdentRead State.serve
  refine ⟨m, _, rfl, State.serve_effect hP fun u hl hu => ?_⟩
  try dsimp only
  repeat' (first
    | with_reducible assumption
    | with_reducible refine State.replyData_closed hP (by decide) hl ?_)

theorem transmitterFree_effect (hP : Closed P) {s : State} {m} : EffectKeeps P (.transmitterFree m) s := by
  change ∃ m' e, execTransmitterFree m s = s.event m' e ∧ ∀ u, P u → P (e u)
  unfold execTransmitterFree
  refine ⟨m, _, rfl, fun u hu => ?_⟩
  exact State.takeMessage_closed hP
    (hP.report (le_max_of_le_right (Report.finish_transmit_length _)) (by simp) hu)

theorem telltaleDue_effect (hP : Closed P) {s : State} {m} : EffectKeeps P (.telltaleDue m) s := by
  change ∃ m' e, execTelltaleDue m s = s.event m' e ∧ ∀ u, P u → P (e u)
  unfold execTelltaleDue
  refine ⟨m, _, rfl, fun u hu => ?_⟩
  try dsimp only
  repeat' (first
    | with_reducible assumption
    | with_reducible refine hP.report (by simp) (by simp) ?_
    | split)

theorem lampSummaryDue_effect (hP : Closed P) {s : State} {m} : EffectKeeps P (.lampSummaryDue m) s := by
  change ∃ m' e, execLampSummaryDue m s = s.event m' e ∧ ∀ u, P u → P (e u)
  unfold execLampSummaryDue
  refine ⟨m, _, rfl, fun u hu => ?_⟩
  try dsimp only
  repeat' (first
    | with_reducible assumption
    | with_reducible refine hP.report (by simp) (by simp) ?_
    | split)

theorem commandLoss_effect (hP : ClosedAll P) {s : State} {m} : EffectKeeps P (.commandLoss m) s := by
  change ∃ m' e, execCommandLoss m s = s.event m' e ∧ ∀ u, P u → P (e u)
  unfold execCommandLoss
  refine ⟨m, _, rfl, fun u hu => ?_⟩
  try dsimp only
  repeat' (first
    | with_reducible assumption
    | with_reducible refine State.declareLoss_closed hP ?_
    | split)

theorem socketDetectChange_effect (hP : ClosedMap P) {s : State} {m} : EffectKeeps P (.socketDetectChange m) s := by
  change ∃ m' e, execSocketDetectChange m s = s.event m' e ∧ ∀ u, P u → P (e u)
  unfold execSocketDetectChange
  refine ⟨m, _, rfl, fun u hu => ?_⟩
  try dsimp only
  repeat' (first
    | with_reducible assumption
    | with_reducible refine State.socketHandedOn_closed hP ?_
    | with_reducible refine hP.sense ?_
    | split)

theorem drivenChange_effect (hP : Closed P) {s : State} {m f} : EffectKeeps P (.drivenChange m f) s := by
  change ∃ m' e, execDrivenChange m f s = s.event m' e ∧ ∀ u, P u → P (e u)
  unfold execDrivenChange
  refine ⟨m, _, rfl, fun u hu => ?_⟩
  try dsimp only
  repeat' (first
    | with_reducible assumption
    | with_reducible refine hP.sense ?_)

theorem settleTestPoint_effect (hP : Closed P) (hO : KeepsOverflow P) {s : State} {m f} : EffectKeeps P (.settleTestPoint m f) s := by
  change ∃ m' e, execSettleTestPoint m f s = s.event m' e ∧ ∀ u, P u → P (e u)
  unfold execSettleTestPoint
  refine ⟨m, _, rfl, fun u hu => ?_⟩
  try dsimp only
  repeat' (first
    | with_reducible assumption
    | with_reducible refine State.takeLineSample_closed hP hO ?_
    | with_reducible refine hP.sense ?_
    | split)

theorem scanRound_effect (hP : Closed P) (hO : KeepsOverflow P) {s : State} {m} : EffectKeeps P (.scanRound m) s := by
  change ∃ m' e, execScanRound m s = s.event m' e ∧ ∀ u, P u → P (e u)
  unfold execScanRound
  refine ⟨m, _, rfl, fun u hu => ?_⟩
  try dsimp only
  repeat' (first
    | with_reducible assumption
    | with_reducible refine State.round_closed hP hO ?_
    | with_reducible refine hP.scheduler (by simp) ?_
    | split)

theorem lampStateInterval_effect (hP : Closed P) {s : State} {m} : EffectKeeps P (.lampStateInterval m) s := by
  change ∃ m' e, execLampStateInterval m s = s.event m' e ∧ ∀ u, P u → P (e u)
  unfold execLampStateInterval
  refine ⟨m, _, rfl, fun u hu => ?_⟩
  try dsimp only
  repeat' (first
    | with_reducible assumption
    | with_reducible refine State.oweBroadcast_closed hP ?_
    | split)

theorem linkIdle_effect (hP : Closed P) {s : State} {m} : EffectKeeps P (.linkIdle m) s := by
  change ∃ m' e, execLinkIdle m s = s.event m' e ∧ ∀ u, P u → P (e u)
  unfold execLinkIdle
  refine ⟨m, _, rfl, fun u hu => ?_⟩
  try dsimp only
  repeat' (first
    | with_reducible assumption
    | with_reducible refine State.offerFrame_closed hP ?_
    | with_reducible refine State.handOver_closed hP ?_
    | split)

theorem wakePulseRelease_effect (hP : Closed P) {s : State} {m} : EffectKeeps P (.wakePulseRelease m) s := by
  change ∃ m' e, execWakePulseRelease m s = s.event m' e ∧ ∀ u, P u → P (e u)
  unfold execWakePulseRelease
  refine ⟨m, _, rfl, fun u hu => ?_⟩
  try dsimp only
  repeat' (first
    | with_reducible assumption
    | with_reducible refine State.releaseLine_closed hP ?_
    | with_reducible refine State.withPhase_closed hP ?_
    | split)

theorem wakePulseHoldEnd_effect (hP : Closed P) {s : State} {m} : EffectKeeps P (.wakePulseHoldEnd m) s := by
  change ∃ m' e, execWakePulseHoldEnd m s = s.event m' e ∧ ∀ u, P u → P (e u)
  unfold execWakePulseHoldEnd
  refine ⟨m, _, rfl, fun u hu => ?_⟩
  try dsimp only
  repeat' (first
    | with_reducible assumption
    | with_reducible refine State.sendNow_closed hP ?_
    | split)

theorem frameTransmitEnd_effect (hP : Closed P) {s : State} {m} : EffectKeeps P (.frameTransmitEnd m) s := by
  change ∃ m' e, execFrameTransmitEnd m s = s.event m' e ∧ ∀ u, P u → P (e u)
  unfold execFrameTransmitEnd
  refine ⟨m, _, rfl, fun u hu => ?_⟩
  try dsimp only
  repeat' (first
    | with_reducible assumption
    | with_reducible refine State.frameSent_closed hP ?_
    | with_reducible refine hP.link ?_
    | split)

theorem speedHoldEnd_effect (hP : Closed P) {s : State} {m} : EffectKeeps P (.speedHoldEnd m) s := by
  change ∃ m' e, execSpeedHoldEnd m s = s.event m' e ∧ ∀ u, P u → P (e u)
  unfold execSpeedHoldEnd
  refine ⟨m, _, rfl, fun u hu => ?_⟩
  try dsimp only
  repeat' (first
    | with_reducible assumption
    | with_reducible refine State.withPhase_closed hP ?_
    | split)

theorem frameReceiveStart_effect (hP : Closed P) {s : State} {m} : EffectKeeps P (.frameReceiveStart m) s := by
  change ∃ m' e, execFrameReceiveStart m s = s.event m' e ∧ ∀ u, P u → P (e u)
  unfold execFrameReceiveStart
  refine ⟨m, _, rfl, fun u hu => ?_⟩
  try dsimp only
  repeat' (first
    | with_reducible assumption
    | with_reducible refine State.receiveStart_closed hP ?_)

theorem replyTimerEnd_effect (hP : ClosedMap P) {s : State} {m} : EffectKeeps P (.replyTimerEnd m) s := by
  change ∃ m' e, execReplyTimerEnd m s = s.event m' e ∧ ∀ u, P u → P (e u)
  unfold execReplyTimerEnd
  refine ⟨m, _, rfl, fun u hu => ?_⟩
  try dsimp only
  repeat' (first
    | with_reducible assumption
    | with_reducible refine State.attemptFailed_closed hP ?_
    | with_reducible refine State.countEvent_closed hP.toClosed ?_
    | with_reducible refine State.withPhase_closed hP.toClosed ?_
    | split)

theorem frameTruncated_effect (hP : ClosedMap P) {s : State} {m} : EffectKeeps P (.frameTruncated m) s := by
  change ∃ m' e, execFrameTruncated m s = s.event m' e ∧ ∀ u, P u → P (e u)
  unfold execFrameTruncated
  refine ⟨m, _, rfl, fun u hu => ?_⟩
  try dsimp only
  repeat' (first
    | with_reducible assumption
    | with_reducible refine State.receptionEnds_closed hP.toClosed ?_
    | with_reducible refine State.takeFailure_closed hP ?_
    | split)

theorem sample_effect (hP : ClosedMap P) (hO : KeepsOverflow P) {s : State} {m w} : EffectKeeps P (.sample m w) s := by
  change ∃ m' e, execSample m w s = s.event m' e ∧ ∀ u, P u → P (e u)
  unfold execSample
  refine ⟨m, _, rfl, fun u hu => ?_⟩
  try dsimp only
  repeat' (first
    | with_reducible assumption
    | with_reducible refine State.takeFrame_closed hP hO ?_)

theorem busy_effect (hP : ClosedMap P) (hO : KeepsOverflow P) {s : State} {m w} : EffectKeeps P (.busy m w) s := by
  change ∃ m' e, execBusy m w s = s.event m' e ∧ ∀ u, P u → P (e u)
  unfold execBusy
  refine ⟨m, _, rfl, fun u hu => ?_⟩
  try dsimp only
  repeat' (first
    | with_reducible assumption
    | with_reducible refine State.takeFrame_closed hP hO ?_)

theorem reissueDue_effect (hP : Closed P) {s : State} {m} : EffectKeeps P (.reissueDue m) s := by
  change ∃ m' e, execReissueDue m s = s.event m' e ∧ ∀ u, P u → P (e u)
  unfold execReissueDue
  refine ⟨m, _, rfl, fun u hu => ?_⟩
  try dsimp only
  repeat' (first
    | with_reducible assumption
    | with_reducible refine State.withSlot_closed hP ?_
    | with_reducible refine State.stage_closed hP hl ?_
    | split)

theorem enumReply_effect (hP : ClosedMap P) (hO : KeepsOverflow P) {s : State} {m w} : EffectKeeps P (.enumReply m w) s := by
  change ∃ m' e, execEnumReply m w s = s.event m' e ∧ ∀ u, P u → P (e u)
  unfold execEnumReply
  refine ⟨m, _, rfl, fun u hu => ?_⟩
  try dsimp only
  repeat' (first
    | with_reducible assumption
    | with_reducible refine State.takeFrame_closed hP hO ?_)

theorem profileReply_effect (hP : ClosedMap P) (hO : KeepsOverflow P) {s : State} {m w} : EffectKeeps P (.profileReply m w) s := by
  change ∃ m' e, execProfileReply m w s = s.event m' e ∧ ∀ u, P u → P (e u)
  unfold execProfileReply
  refine ⟨m, _, rfl, fun u hu => ?_⟩
  try dsimp only
  repeat' (first
    | with_reducible assumption
    | with_reducible refine State.takeFrame_closed hP hO ?_)

theorem resetDone_effect (hP : ClosedMap P) (hO : KeepsOverflow P) {s : State} {m w} : EffectKeeps P (.resetDone m w) s := by
  change ∃ m' e, execResetDone m w s = s.event m' e ∧ ∀ u, P u → P (e u)
  unfold execResetDone
  refine ⟨m, _, rfl, fun u hu => ?_⟩
  try dsimp only
  repeat' (first
    | with_reducible assumption
    | with_reducible refine State.takeFrame_closed hP hO ?_)

theorem crcFailure_effect (hP : ClosedMap P) (hO : KeepsOverflow P) {s : State} {m w} : EffectKeeps P (.crcFailure m w) s := by
  change ∃ m' e, execCrcFailure m w s = s.event m' e ∧ ∀ u, P u → P (e u)
  unfold execCrcFailure
  refine ⟨m, _, rfl, fun u hu => ?_⟩
  try dsimp only
  repeat' (first
    | with_reducible assumption
    | with_reducible refine State.takeFrame_closed hP hO ?_)

theorem strayFrame_effect (hP : ClosedMap P) (hO : KeepsOverflow P) {s : State} {m w} : EffectKeeps P (.strayFrame m w) s := by
  change ∃ m' e, execStrayFrame m w s = s.event m' e ∧ ∀ u, P u → P (e u)
  unfold execStrayFrame
  refine ⟨m, _, rfl, fun u hu => ?_⟩
  try dsimp only
  repeat' (first
    | with_reducible assumption
    | with_reducible refine State.takeFrame_closed hP hO ?_)

theorem collectionWindowEnd_effect (hP : ClosedMap P) {s : State} {m} : EffectKeeps P (.collectionWindowEnd m) s := by
  change ∃ m' e, execCollectionWindowEnd m s = s.event m' e ∧ ∀ u, P u → P (e u)
  unfold execCollectionWindowEnd
  refine ⟨m, _, rfl, fun u hu => ?_⟩
  try dsimp only
  repeat' (first
    | with_reducible assumption
    | with_reducible refine State.judgeAttempt_closed hP ?_
    | with_reducible refine State.withSlot_closed hP.toClosed ?_
    | with_reducible refine hP.link ?_
    | split)

theorem probeInterval_effect (hP : Closed P) {s : State} {m} : EffectKeeps P (.probeInterval m) s := by
  change ∃ m' e, execProbeInterval m s = s.event m' e ∧ ∀ u, P u → P (e u)
  unfold execProbeInterval
  refine ⟨m, _, rfl, fun u hu => ?_⟩
  try dsimp only
  repeat' (first
    | with_reducible assumption
    | with_reducible refine State.requestEnumeration_closed hP ?_
    | split)

theorem recoveryHoldExpiry_effect (hP : Closed P) {s : State} {m} : EffectKeeps P (.recoveryHoldExpiry m) s := by
  change ∃ m' e, execRecoveryHoldExpiry m s = s.event m' e ∧ ∀ u, P u → P (e u)
  unfold execRecoveryHoldExpiry
  refine ⟨m, _, rfl, fun u hu => ?_⟩
  try dsimp only
  repeat' (first
    | with_reducible assumption
    | with_reducible refine State.testReturn_closed hP ?_
    | with_reducible refine hP.health (by simp) (by simp) ?_
    | split)

theorem attentionFall_effect (hP : ClosedMap P) {s : State} {m} : EffectKeeps P (.attentionFall m) s := by
  change ∃ m' e, execAttentionFall m s = s.event m' e ∧ ∀ u, P u → P (e u)
  unfold execAttentionFall
  refine ⟨m, _, rfl, fun u hu => ?_⟩
  try dsimp only
  repeat' (first
    | with_reducible assumption
    | with_reducible refine State.lineFalls_closed hP ?_
    | with_reducible refine hP.attention ?_)

theorem attentionRise_effect (hP : Closed P) {s : State} {m} : EffectKeeps P (.attentionRise m) s := by
  change ∃ m' e, execAttentionRise m s = s.event m' e ∧ ∀ u, P u → P (e u)
  unfold execAttentionRise
  refine ⟨m, _, rfl, fun u hu => ?_⟩
  try dsimp only
  repeat' (first
    | with_reducible assumption
    | with_reducible refine State.lineRises_closed hP ?_
    | with_reducible refine hP.attention ?_)

theorem pulseTaken_effect (hP : ClosedMap P) {s : State} {m} : EffectKeeps P (.pulseTaken m) s := by
  change ∃ m' e, execPulseTaken m s = s.event m' e ∧ ∀ u, P u → P (e u)
  unfold execPulseTaken
  refine ⟨m, _, rfl, fun u hu => ?_⟩
  try dsimp only
  repeat' (first
    | with_reducible assumption
    | with_reducible refine State.takePulse_closed hP ?_
    | split)

theorem lineStuck_effect (hP : Closed P) {s : State} {m} : EffectKeeps P (.lineStuck m) s := by
  change ∃ m' e, execLineStuck m s = s.event m' e ∧ ∀ u, P u → P (e u)
  unfold execLineStuck
  refine ⟨m, _, rfl, fun u hu => ?_⟩
  try dsimp only
  repeat' (first
    | with_reducible assumption
    | with_reducible refine State.declareStuck_closed hP ?_
    | split)

theorem stuckRaiseRetry_effect (hP : Closed P) {s : State} {m} : EffectKeeps P (.stuckRaiseRetry m) s := by
  change ∃ m' e, execStuckRaiseRetry m s = s.event m' e ∧ ∀ u, P u → P (e u)
  unfold execStuckRaiseRetry
  refine ⟨m, _, rfl, fun u hu => ?_⟩
  try dsimp only
  repeat' (first
    | with_reducible assumption
    | with_reducible refine State.offerStuckRaise_closed hP ?_
    | split)

theorem stuckRelease_effect (hP : Closed P) {s : State} {m} : EffectKeeps P (.stuckRelease m) s := by
  change ∃ m' e, execStuckRelease m s = s.event m' e ∧ ∀ u, P u → P (e u)
  unfold execStuckRelease
  refine ⟨m, _, rfl, fun u hu => ?_⟩
  try dsimp only
  repeat' (first
    | with_reducible assumption
    | with_reducible refine State.releaseStuck_closed hP ?_
    | split)

end Sys2Proof.Machine
end

