-- ==== Sys2Proof/Laws/Free.lean ====
section
/-! SUPPORT. A way to `Closed`: a property that survives any change of any one block (`Free`), as long as no queue, buffer
or list grows past its places, survives every operation of the part. -/

namespace Sys2Proof.Machine

/-- P survives any change of any one block. -/
structure Free (P : State → Prop) : Prop where
  sense : ∀ {s x}, P s → P (s.withSense x)
  link : ∀ {s x}, P s → P (s.withLink x)
  attention : ∀ {s x}, P s → P (s.withAttention x)
  enumerator : ∀ {s x}, P s → P (s.withEnumerator x)
  train : ∀ {s x}, P s → P (s.withTrain x)
  apply : ∀ {s x}, P s → P (s.withApply x)
  cells : ∀ {s x}, P s → P (s.withCells x)
  counters : ∀ {s x}, P s → P (s.withCounters x)
  library : ∀ {s : State} {l}, (s.ignition.library.Sound → l.Sound) → P s → P (s.withLibrary l)
  part : ∀ {s p}, P s → P (s.withPart p)
  quietSince : ∀ {s q}, P s → P (s.withIgnition { s.ignition with quietSince := q })
  health : ∀ {s x}, x.window.length ≤ max 32 s.health.window.length → x.cleanRun ≤ max 256 s.health.cleanRun →
    P s → P (s.withHealth x)
  scheduler : ∀ {s x}, QueueKeeps s.scheduler.queue x.queue → P s → P (s.withScheduler x)
  faults : ∀ {s x}, x.records.length ≤ max 24 s.faults.records.length → x.revision = s.faults.revision →
    P s → P (s.withFaults x)
  report : ∀ {s x}, x.transmit.length ≤ max 24 s.report.transmit.length →
    x.received.length ≤ max 8 s.report.received.length → P s → P (s.withReport x)

variable {P : State → Prop}


theorem State.setCell_free (hP : Free P) {s : State} {k : CellKey} {c : Cell} (h : P s) : P (s.setCell k c) :=
  hP.cells h

theorem State.holdCell_free (hP : Free P) {s : State} {k : CellKey} {r : HoldReason} (h : P s) : P
    (s.holdCell k r) := by
  unfold State.holdCell
  try dsimp only
  repeat' (first
    | with_reducible assumption
    | with_reducible apply State.setCell_free hP
    | split)

theorem State.setRecord_free (hP : Free P) {s : State} {p : Pos} {r : Option PosRecord} (h : P s) : P
    (s.setRecord p r) := by
  unfold State.setRecord
  try dsimp only
  repeat' (first
    | with_reducible assumption
    | with_reducible refine hP.train ?_)

theorem State.changeRecord_free (hP : Free P) {s : State} {p : Pos} {g : PosRecord → PosRecord} (h : P s) : P
    (s.changeRecord p g) := by
  unfold State.changeRecord
  try dsimp only
  repeat' (first
    | with_reducible assumption
    | with_reducible apply State.setRecord_free hP
    | split)

theorem State.markListed_free (hP : Free P) {s : State} {site : Site} {b : Bool} (h : P s) : P
    (s.markListed site b) := by
  unfold State.markListed
  try dsimp only
  repeat' (first
    | with_reducible assumption
    | with_reducible apply State.setCell_free hP
    | split)

theorem State.withRecords_free (hP : Free P) {s : State} {rs : List FaultRecord}
    (hl : rs.length ≤ max 24 s.faults.records.length) (h : P s) : P (s.withRecords rs) :=
  hP.faults hl rfl h

theorem State.insertFault_free (hP : Free P) {s : State} {site : Site} {kind : FaultKind} {lampsOut : Option Nat}
    {first : Time} (hl : s.faults.records.length < 24) (h : P s) : P (s.insertFault site kind lampsOut first) := by
  unfold State.insertFault
  refine State.markListed_free hP (hP.faults ?_ rfl h)
  simp; omega

theorem State.removeFault_free (hP : Free P) {s : State} {site : Site} (h : P s) : P (s.removeFault site) := by
  unfold State.removeFault
  split
  · exact h
  · exact State.markListed_free hP (State.withRecords_free hP
      (le_trans (List.length_filter_le _ _) (le_max_right _ _)) h)

/-- A record of the list replaced by a new one keeps P: the removal makes the room. -/
theorem replace_free (hP : Free P) {s : State} {r : FaultRecord} {site : Site} {kind : FaultKind}
    {lampsOut : Option Nat} {first : Time} (hr : r ∈ s.faults.records) (h : P s) :
    P ((s.removeFault r.site).insertFault site kind lampsOut first) := by
  have hlt := State.removeFault_length_lt hr
  have hf : ∀ y : FaultList, y.records.length ≤ s.faults.records.length → y.revision = s.faults.revision →
      P ((s.removeFault r.site).withFaults y) := by
    intro y hy hv
    unfold State.removeFault
    split
    · exact hP.faults (le_max_of_le_right hy) hv h
    · have : ((s.withRecords (s.faults.records.filter fun x => decide (x.site ≠ r.site))).markListed r.site
          false).withFaults y = (s.markListed r.site false).withFaults y := by
        unfold State.markListed
        split <;> rfl
      rw [this]
      exact hP.faults (le_max_of_le_right (by simpa using hy)) (by simpa using hv) (State.markListed_free hP h)
  unfold State.insertFault
  exact State.markListed_free hP (hf _ (by simp; omega) (State.removeFault_revision _ _))

theorem State.changeFault_free (hP : Free P) {s : State} {site : Site} {g : FaultRecord → FaultRecord} (h : P s) :
    P (s.changeFault site g) :=
  State.withRecords_free hP (by simp) h

theorem State.raiseFault_free (hP : Free P) {s full : State} {site : Site} {kind : FaultKind}
    {lampsOut : Option Nat} (hf : P full) (h : P s) : P (s.raiseFault site kind lampsOut full) := by
  unfold State.raiseFault
  split
  · split
    · exact State.changeFault_free hP h
    · exact h
  · split
    · next hl => exact State.insertFault_free hP hl h
    · split
      · next r hr => exact replace_free hP (List.mem_of_find?_eq_some hr) h
      · exact hf

theorem State.healFault_free (hP : Free P) {s : State} {site : Site} (h : P s) : P (s.healFault site) := by
  unfold State.healFault
  try dsimp only
  repeat' (first
    | with_reducible assumption
    | with_reducible apply State.removeFault_free hP
    | with_reducible apply State.changeFault_free hP
    | split)

theorem State.escalateFault_free (hP : Free P) {s : State} {site : Site} {v : Verdict} (h : P s) : P
    (s.escalateFault site v) := by
  unfold State.escalateFault
  try dsimp only
  repeat' (first
    | with_reducible assumption
    | with_reducible apply State.changeFault_free hP)

theorem State.renewLampsOut_free (hP : Free P) {s : State} {site : Site} {v : Verdict} (h : P s) : P
    (s.renewLampsOut site v) := by
  unfold State.renewLampsOut
  try dsimp only
  repeat' (first
    | with_reducible assumption
    | with_reducible apply State.changeFault_free hP)

theorem State.makeAbsent_free (hP : Free P) {s : State} {k : CellKey} (h : P s) : P (s.makeAbsent k) := by
  unfold State.makeAbsent
  try dsimp only
  repeat' (first
    | with_reducible assumption
    | with_reducible apply State.removeFault_free hP
    | with_reducible apply State.setCell_free hP)

theorem State.clearCell_free (hP : Free P) {s : State} {k : CellKey} (h : P s) : P (s.clearCell k) := by
  unfold State.clearCell
  try dsimp only
  repeat' (first
    | with_reducible assumption
    | with_reducible apply State.removeFault_free hP
    | with_reducible apply State.setCell_free hP
    | split)

theorem State.admitCell_free (hP : Free P) {s : State} {k : CellKey} (hl : s.faults.records.length < 24) (h
    : P s) :
    P (s.admitCell k) := by
  unfold State.admitCell
  split
  · exact h
  · exact State.insertFault_free hP hl h

theorem State.admitUpTo_free (hP : Free P) {n : Nat} {s : State} (h : P s) : P (s.admitUpTo n) := by
  induction n generalizing s with
  | zero => exact h
  | succ n ih =>
    unfold State.admitUpTo
    split
    · next hl =>
      split
      · exact h
      · exact ih (State.admitCell_free hP hl h)
    · exact h

theorem State.admitWaiting_free (hP : Free P) {s : State}  (h : P s) : P (s.admitWaiting ) := by
  unfold State.admitWaiting
  try dsimp only
  repeat' (first
    | with_reducible assumption
    | with_reducible apply State.admitUpTo_free hP)

theorem State.lineCellFollows_free (hP : Free P) {s : State} {old new : LinkState} {f : Func} (h : P s) : P
    (s.lineCellFollows old new f) := by
  unfold State.lineCellFollows
  try dsimp only
  repeat' (first
    | with_reducible assumption
    | with_reducible apply State.makeAbsent_free hP
    | with_reducible apply State.healFault_free hP
    | with_reducible apply State.setCell_free hP
    | split)

theorem State.setLinkState_free (hP : Free P) {s : State} {new : LinkState} (h : P s) : P
    (s.setLinkState new) := by
  unfold State.setLinkState
  try dsimp only
  repeat' (first
    | with_reducible assumption
    | with_reducible apply State.lineCellFollows_free hP
    | with_reducible refine foldl_closed (fun _ _ _ => ?_) ?_
    | with_reducible refine hP.train ?_)

theorem State.handToList_free (hP : Free P) {s : State} {k : CellKey} {a : ListAction} (h : P s) :
    P (s.handToList k a) := by
  unfold State.handToList
  split
  · exact h
  · split
    · exact h
    · exact State.raiseFault_free hP h h
  · split
    · exact h
    · split
      · exact State.escalateFault_free hP h
      · exact h
  · split
    · exact h
    · split
      · exact State.renewLampsOut_free hP h
      · exact h
  · exact State.healFault_free hP h

theorem State.takeJudgement_free (hP : Free P) {s : State} {k : CellKey} {j : Judgement} (h : P s) : P
    (s.takeJudgement k j) := by
  unfold State.takeJudgement
  try dsimp only
  repeat' (first
    | with_reducible assumption
    | with_reducible apply State.handToList_free hP
    | with_reducible apply State.setCell_free hP)

theorem State.storeSample_free (hP : Free P) {s : State} {k : CellKey} {x : Sample} (h : P s) : P
    (s.storeSample k x) := by
  unfold State.storeSample
  try dsimp only
  repeat' (first
    | with_reducible assumption
    | with_reducible apply State.setCell_free hP)

theorem State.resetForProfile_free (hP : Free P) {s : State} {p : Pos} {f : Func} {x : Profile} (h : P s) : P
    (s.resetForProfile p f x) := by
  unfold State.resetForProfile
  try dsimp only
  repeat' (first
    | with_reducible assumption
    | with_reducible apply State.removeFault_free hP
    | with_reducible apply State.setCell_free hP
    | split)

theorem State.openLampCell_free (hP : Free P) {s : State} {p : Pos} {f : Func} (h : P s) : P
    (s.openLampCell p f) := by
  unfold State.openLampCell
  try dsimp only
  repeat' (first
    | with_reducible assumption
    | with_reducible apply State.setCell_free hP)

theorem State.raiseBreak_free (hP : Free P) {s : State} {t : Seg} (h : P s) : P (s.raiseBreak t) := by
  unfold State.raiseBreak
  refine State.raiseFault_free hP ?_ h
  split
  · exact h
  · next r hr => exact replace_free hP (State.leastRecord_mem hr) h

theorem State.acknowledge_free (hP : Free P) {s : State} {x : FaultRecord} (h : P s) : P (s.acknowledge x) := by
  unfold State.acknowledge
  try dsimp only
  repeat' (first
    | with_reducible assumption
    | with_reducible apply State.changeFault_free hP
    | with_reducible apply State.removeFault_free hP
    | split)

theorem Free.closed (hP : Free P) : Closed P where
  sense := hP.sense
  link := hP.link
  attention := hP.attention
  enumerator := hP.enumerator
  apply := hP.apply
  counters := hP.counters
  library := hP.library
  part := hP.part
  quietSince := hP.quietSince
  health := hP.health
  scheduler := hP.scheduler
  report := hP.report
  train _ _ _ h := hP.train h
  cell _ h := hP.cells h
  change _ h := hP.cells h
  fresh _ h := hP.cells h
  absent h := State.makeAbsent_free hP h
  clear h := State.clearCell_free hP h
  profileReset h := State.resetForProfile_free hP h
  judge h := State.takeJudgement_free hP h
  linkState h := State.setLinkState_free hP h
  remove h := State.removeFault_free hP h
  heal h := State.healFault_free hP h
  acknowledge h := State.acknowledge_free hP h
  raise _ h := State.raiseFault_free hP h h
  raiseBreak h := State.raiseBreak_free hP h
  admission h := State.admitWaiting_free hP h

theorem State.becomeLost_free (hP : Free P) {s : State} {p : Pos} (h : P s) : P (s.becomeLost p) := by
  unfold State.becomeLost
  try dsimp only
  repeat' (first
    | with_reducible assumption
    | with_reducible apply State.discardEntries_closed hP.closed
    | with_reducible apply State.changeRecord_free hP
    | with_reducible apply State.removeFault_free hP
    | with_reducible apply State.holdSilent_closed hP.closed
    | with_reducible apply State.forsake_closed hP.closed)

theorem State.depart_free (hP : Free P) {s : State} {p : Pos} (h : P s) : P (s.depart p) := by
  unfold State.depart
  try dsimp only
  repeat' (first
    | with_reducible assumption
    | with_reducible apply State.discardEntries_closed hP.closed
    | with_reducible apply State.settleSegments_closed hP.closed
    | with_reducible apply State.dropSegments_closed hP.closed
    | with_reducible apply State.removeFault_free hP
    | with_reducible apply State.stopWaiting_closed hP.closed
    | with_reducible apply State.makeAbsent_free hP
    | with_reducible apply State.setRecord_free hP
    | with_reducible apply State.forsake_closed hP.closed
    | with_reducible refine foldl_closed (fun _ _ _ => ?_) ?_
    | split)

theorem State.departAll_free (hP : Free P) {s : State}  (h : P s) : P (s.departAll ) := by
  unfold State.departAll
  try dsimp only
  repeat' (first
    | with_reducible assumption
    | with_reducible apply State.depart_free hP
    | with_reducible refine foldl_closed (fun _ _ _ => ?_) ?_
    | with_reducible refine hP.train ?_)

theorem State.createRecord_free (hP : Free P) {s : State} {p : Pos} {answer : Option EnumAnswer} (h : P s) : P
    (s.createRecord p answer) := by
  unfold State.createRecord
  try dsimp only
  repeat' (first
    | with_reducible assumption
    | with_reducible apply State.settleSegments_closed hP.closed
    | with_reducible apply State.offerProfile_closed hP.closed
    | with_reducible apply State.openLampCell_free hP
    | with_reducible apply State.setRecord_free hP
    | with_reducible refine foldl_closed (fun _ _ _ => ?_) ?_
    | split)

theorem State.readResult_free (hP : Free P) {s : State} {a : Answers} {p : Pos} (h : P s) : P
    (s.readResult a p) := by
  unfold State.readResult
  try dsimp only
  repeat' (first
    | with_reducible assumption
    | with_reducible apply State.createRecord_free hP
    | with_reducible apply State.stampLibrary_closed hP.closed
    | with_reducible apply State.changeRecord_free hP
    | with_reducible apply State.depart_free hP
    | split)

theorem State.readBeyond_free (hP : Free P) {s : State} {moving : Bool} {p : Pos} (h : P s) : P
    (s.readBeyond moving p) := by
  unfold State.readBeyond
  try dsimp only
  repeat' (first
    | with_reducible assumption
    | with_reducible apply State.becomeLost_free hP
    | with_reducible apply State.depart_free hP
    | split)

theorem State.compareResult_free (hP : Free P) {s : State} {a : Answers} (h : P s) : P (s.compareResult a) := by
  unfold State.compareResult
  try dsimp only
  repeat' (first
    | with_reducible assumption
    | with_reducible apply State.readBeyond_free hP
    | with_reducible apply State.readResult_free hP
    | with_reducible apply State.depart_free hP
    | with_reducible refine foldl_closed (fun _ _ _ => ?_) ?_
    | split)

theorem State.departLost_free (hP : Free P) {s : State}  (h : P s) : P (s.departLost ) := by
  unfold State.departLost
  try dsimp only
  repeat' (first
    | with_reducible assumption
    | with_reducible apply State.refreshLink_closed hP.closed
    | with_reducible apply State.depart_free hP
    | with_reducible refine foldl_closed (fun _ _ _ => ?_) ?_
    | split)

theorem Free.closedMap (hP : Free P) : ClosedMap P where
  toClosed := hP.closed
  silent _ h := State.changeRecord_free hP h
  present _ h := State.changeRecord_free hP h
  compare h := State.compareResult_free hP h
  departAll h := State.departAll_free hP h
  departLost h := State.departLost_free hP h

/-- P survives also any change of the Ignition Controller and the Settings Store that brings in no Library but an empty
one. -/
structure FreeStore (P : State → Prop) : Prop extends Free P where
  ignition : ∀ {s : State} {x : Ignition}, (∀ l ∈ x.libraries, l ∈ s.ignition.libraries ∨ l.entries = []) → P s →
    P (s.withIgnition x)

theorem FreeStore.closedStore (hP : FreeStore P) : ClosedStore P where
  toClosedMap := hP.toFree.closedMap
  ignition _ hx h := hP.ignition (fun l hl => Or.inl (hx l hl)) h
  setting {s code v} h := by
    have h1 : P (s.withSettings (s.ignition.settings.write code (settingValue code v))) :=
      hP.ignition (fun _ hl => Or.inl hl) h
    unfold State.settingWritten
    repeat' split
    · exact State.lockWritten_closed hP.toFree.closed h1
    · exact hP.cells h1
    · exact hP.cells h1
    · exact h1

/-- P survives also a change of Command Intake, a start afresh and a new time. -/
structure FreeAll (P : State → Prop) : Prop extends FreeStore P where
  intake : ∀ {s x}, P s → P (s.withIntake x)
  afresh : ∀ {s}, P s → P s.startAfresh
  clock : ∀ {s t x}, P s → P { s with clock := t, steady := x }

theorem FreeAll.closedAll (hP : FreeAll P) : ClosedAll P where
  toClosedStore := hP.toFreeStore.closedStore
  intake := hP.intake
  afresh hx h := hP.ignition hx (hP.afresh h)
  clock := hP.clock

end Sys2Proof.Machine
end

