-- ==== Sys2Proof/Laws/Settled.lean ====
section
/-! SUPPORT. What the end of every event does, said once (`State.conclude_settledFrom`), and what a command answers that
is an event (`State.event_next`). -/

namespace Sys2Proof.Machine

/-- The state just before the reports are settled, with every report as it was. -/
theorem State.conclude_eq (s : State) (b : FaultList) :
    ∃ u : State, s.conclude b = u.settleReports ∧ u.report = s.report ∧ u.awake = s.awake := by
  have hp : ∀ t : State, t.settleProbe.report = t.report ∧ t.settleProbe.ignition = t.ignition := fun t => by
    unfold State.settleProbe
    split
    · split <;> exact ⟨rfl, rfl⟩
    · exact ⟨rfl, rfl⟩
  have hq : ∀ t : State, t.settleQuiet.report = t.report ∧ t.settleQuiet.ignition.part = t.ignition.part := fun t => by
    unfold State.settleQuiet
    split
    · split <;> exact ⟨rfl, rfl⟩
    · exact ⟨rfl, rfl⟩
  have hv : ∀ t : State, (t.settleRevision b).report = t.report ∧ (t.settleRevision b).ignition = t.ignition :=
    fun t => by unfold State.settleRevision; split <;> exact ⟨rfl, rfl⟩
  have ho : ∀ t : State, t.settleOverflow.report = t.report ∧ t.settleOverflow.ignition = t.ignition :=
    fun _ => ⟨rfl, rfl⟩
  have ha : ∀ (n : Nat) (t : State), (t.admitUpTo n).report = t.report ∧ (t.admitUpTo n).ignition = t.ignition := by
    intro n
    induction n with
    | zero => exact fun t => ⟨rfl, rfl⟩
    | succ n ih =>
      intro t
      unfold State.admitUpTo
      split
      · split
        · exact ⟨rfl, rfl⟩
        · next k _ =>
          have hc : (t.admitCell k).report = t.report ∧ (t.admitCell k).ignition = t.ignition := by
            unfold State.admitCell
            split
            · exact ⟨rfl, rfl⟩
            · unfold State.insertFault State.markListed; split <;> exact ⟨rfl, rfl⟩
          rw [(ih _).1, (ih _).2, hc.1, hc.2]; exact ⟨rfl, rfl⟩
      · exact ⟨rfl, rfl⟩
  have hs : s.settleQueue.report = s.report ∧ s.settleQueue.ignition = s.ignition := by
    unfold State.settleQueue; split <;> exact ⟨rfl, rfl⟩
  refine ⟨_, rfl, ?_, ?_⟩
  · rw [(hp _).1, (hq _).1, (hv _).1, (ho _).1, State.admitWaiting, (ha _ _).1, hs.1]
  · unfold State.awake
    rw [(hp _).2, (hq _).2, (hv _).2, (ho _).2, State.admitWaiting, (ha _ _).2, hs.2]

/-- All that the end of an event does. -/
theorem State.conclude_settledFrom (s : State) (b : FaultList) : SettledFrom s (s.conclude b) where
  rest := by
    obtain ⟨_, _, _, _, _, _, _, _, h⟩ := (s.conclude_settled b).eq
    rw [h]
  scheduler h := State.conclude_scheduler h b
  cells := s.conclude_cell b
  records := s.conclude_prefix b
  listed h := by
    refine ⟨?_, State.conclude_records h b⟩
    rw [(s.conclude_admits b).1]
    have h1 : s.settleQueue.cells = s.cells := by unfold State.settleQueue; split <;> rfl
    have h2 : ∀ k, s.settleQueue.unlisted k = false := fun k => by
      simpa [State.unlisted, State.cell, h1] using h k
    rw [State.admitWaiting, State.admitUpTo_none h2, h1]
  due := by
    obtain ⟨u, h, hr, _⟩ := s.conclude_eq b
    rw [h, ← hr]
    unfold State.settleReports
    split
    · exact ⟨fun hd => by simp [hd], fun hd => by simp [hd]⟩
    · exact ⟨id, id⟩
  asleep ha := by
    obtain ⟨u, h, hr, hu⟩ := s.conclude_eq b
    rw [h, ← hr]
    unfold State.settleReports
    rw [hu, ha]; rfl

/-- A command that is an event answers the effect at its moment, settled. -/
theorem State.event_next (s : State) (m : Moment) (f : State → State) :
    ∃ t, s.event m f = .next t ∧ SettledFrom (f (s.advance m)) t :=
  ⟨_, rfl, State.conclude_settledFrom _ _⟩

/-- An event whose effect at its moment is known. -/
theorem State.event_settles {s x : State} {m : Moment} {f : State → State} (h : f (s.advance m) = x) :
    ∃ t, s.event m f = .next t ∧ SettledFrom x t := h ▸ s.event_next m f

/-- What follows from being settled holds of what an event answers. -/
theorem State.event_holds {s : State} {m : Moment} {f : State → State} {P : State → Prop}
    (h : ∀ t, SettledFrom (f (s.advance m)) t → P t) : ∃ t, s.event m f = .next t ∧ P t :=
  ⟨_, rfl, h _ (State.conclude_settledFrom _ _)⟩

theorem State.freshEvent_next (s : State) (m : Moment) (f : State → State) :
    ∃ t, s.freshEvent m f = .next t ∧ SettledFrom (f (s.advance m)) t :=
  ⟨_, rfl, State.conclude_settledFrom _ _⟩

/-- A request that is accepted reaches its own rule (R171). -/
theorem State.takeRequest_accepted {s : State} {row : RequestRow} {r : Request} {rest : List Request}
    (h : s.Accepts row r rest) (m : Moment) (rule : State → State) :
    (s.advance m).takeRequest row r rule = rule (s.taking m rest) := by
  have ht : (s.advance m).report.afterTaking r = some rest := h.taken
  have ha : (s.taking m rest).awake = true := h.awake
  unfold State.takeRequest State.checked
  rw [if_neg (not_not_intro h.row), ht]
  simp only [h.permitted, h.formed, not_true_eq_false, if_false]
  exact if_neg fun hn => hn.1 ha

/-- What the command of an accepted request answers. -/
theorem State.serve_accepted {s : State} {row : RequestRow} {r : Request} {rest : List Request}
    (h : s.Accepts row r rest) (m : Moment) (rule : State → State) :
    ∃ t, s.serve m row r rule = .next t ∧ SettledFrom (rule (s.taking m rest)) t :=
  State.event_settles (State.takeRequest_accepted h m rule)

end Sys2Proof.Machine
end

