-- ==== Sys2Proof/Laws/Sound.lean ====
section
/-! SUPPORT. That the Cell Table and the Fault List agree (`State.Sound`, the part of `State.Consistent` that does not
speak of the order of the positions) survives every operation of the part. -/

namespace Sys2Proof.Machine

/-! ### A free id (R153) -/

theorem nextFaultId_range {n : Nat} (h : 1 ≤ n ∧ n ≤ 255) : 1 ≤ nextFaultId n ∧ nextFaultId n ≤ 255 := by
  unfold nextFaultId; split <;> omega

/-- The ids after one, in turn (R153). -/
theorem nextFaultId_iterate {n : Nat} (h : 1 ≤ n ∧ n ≤ 255) (k : Nat) : nextFaultId^[k] n = (n - 1 + k) % 255 + 1 := by
  induction k with
  | zero => simp only [Function.iterate_zero, id]; omega
  | succ k ih => rw [Function.iterate_succ_apply', ih, nextFaultId]; split <;> omega

theorem freeFaultId_range (rs : List FaultRecord) (fuel : Nat) {n : Nat} (h : 1 ≤ n ∧ n ≤ 255) :
    1 ≤ freeFaultId rs fuel n ∧ freeFaultId rs fuel n ≤ 255 := by
  induction fuel generalizing n with
  | zero => exact h
  | succ fuel ih => unfold freeFaultId; split; exacts [ih (nextFaultId_range h), h]

/-- Either the search finds a free id, or every id it has tried is held. -/
theorem freeFaultId_held (rs : List FaultRecord) (fuel n : Nat) :
    freeFaultId rs fuel n ∉ rs.map FaultRecord.id ∨ ∀ k ≤ fuel, nextFaultId^[k] n ∈ rs.map FaultRecord.id := by
  induction fuel generalizing n with
  | zero =>
    by_cases hn : n ∈ rs.map FaultRecord.id
    · exact Or.inr fun k hk => by simpa [Nat.le_zero.mp hk] using hn
    · exact Or.inl hn
  | succ fuel ih =>
    unfold freeFaultId
    split
    · next hn =>
      have hn' : n ∈ rs.map FaultRecord.id := by simpa using hn
      refine (ih (nextFaultId n)).imp id fun hk k hle => ?_
      cases k with
      | zero => exact hn'
      | succ k => exact hk k (by omega)
    · next hn => exact Or.inl (by simpa using hn)

/-- With a place free, the search finds an id that no record holds (R153). -/
theorem freeFaultId_free {rs : List FaultRecord} {n : Nat} (hl : rs.length < 24) (h : 1 ≤ n ∧ n ≤ 255) :
    freeFaultId rs 24 n ∉ rs.map FaultRecord.id := by
  refine (freeFaultId_held rs 24 n).resolve_right fun hk => ?_
  have hd : ((List.range 25).map fun k => nextFaultId^[k] n).Nodup := by
    refine List.Nodup.map_on (fun a ha b hb hab => ?_) List.nodup_range
    rw [nextFaultId_iterate h, nextFaultId_iterate h] at hab
    have := List.mem_range.mp ha
    have := List.mem_range.mp hb
    omega
  have hs : ((List.range 25).map fun k => nextFaultId^[k] n) ⊆ rs.map FaultRecord.id := fun x hx => by
    obtain ⟨k, hk1, rfl⟩ := List.mem_map.mp hx
    exact hk k (by have := List.mem_range.mp hk1; omega)
  have := (hd.subperm hs).length_le
  simp only [List.length_map, List.length_range] at this
  omega

/-! ### The list and the cells -/

/-- The keys of the records. -/
def State.sites (s : State) : List Site := s.faults.records.map FaultRecord.site

theorem State.faultAt_isSome (s : State) (site : Site) : (s.faultAt site).isSome = decide (site ∈ s.sites) := by
  rw [Bool.eq_iff_iff, State.faultAt, List.find?_isSome]
  simp [State.sites]

theorem State.faultAt_none {s : State} {site : Site} : s.faultAt site = none ↔ site ∉ s.sites := by
  rw [← Option.not_isSome_iff_eq_none, State.faultAt_isSome]; simp

/-- Cell k may leave ABSENT: its position is mapped, its link state is not NO_TRAIN (R1, R7). -/
def State.permits (s : State) : CellKey → Prop
  | .lamp p _ => s.record p ≠ none
  | .line _ => s.train.linkState ≠ .noTrain
  | .segment _ _ => True

/-- The records and the cells agree, and only the cells that Q allows are not ABSENT. -/
structure State.Agree (Q : CellKey → Prop) (s : State) : Prop where
  places : s.faults.records.length ≤ 24
  sites : s.sites.Nodup
  ids : (s.faults.records.map FaultRecord.id).Nodup
  idRange : ∀ r ∈ s.faults.records, 1 ≤ r.id ∧ r.id ≤ 255
  nextId : 1 ≤ s.faults.nextId ∧ s.faults.nextId ≤ 255
  listed : ∀ k, (s.cell k).listed = decide (Site.cell k ∈ s.sites)
  cells : ∀ k, (s.cell k).Consistent s.ignition.settings
  absent : ∀ k, (s.cell k).state = .absent → (s.cell k).listed = false
  allowed : ∀ k, (s.cell k).state ≠ .absent → Q k

/-- The records and the cells agree, and every cell that may not leave ABSENT is ABSENT. -/
def State.Sound (s : State) : Prop := s.Agree s.permits

variable {Q : CellKey → Prop}

/-- What Agree reads of a state. -/
theorem State.Agree.of_eq {s t : State} (h : s.Agree Q) (hf : t.faults.records = s.faults.records)
    (hn : t.faults.nextId = s.faults.nextId) (hc : ∀ k, t.cell k = s.cell k)
    (hi : t.ignition.settings = s.ignition.settings) : t.Agree Q where
  places := hf ▸ h.places
  sites := by rw [State.sites, hf]; exact h.sites
  ids := hf ▸ h.ids
  idRange := hf ▸ h.idRange
  nextId := hn ▸ h.nextId
  listed k := by rw [hc, State.sites, hf]; exact h.listed k
  cells k := by rw [hc, hi]; exact h.cells k
  absent k := by rw [hc]; exact h.absent k
  allowed k hk := h.allowed k (hc k ▸ hk)

theorem State.Agree.mono {Q' : CellKey → Prop} {s : State} (h : s.Agree Q) (hq : ∀ k, (s.cell k).state ≠ .absent →
    Q k → Q' k) : s.Agree Q' :=
  { h with allowed := fun k hk => hq k hk (h.allowed k hk) }

/-! ### One cell -/

theorem State.setCell_cell (s : State) (k j : CellKey) (c : Cell) :
    (s.setCell k c).cell j = if j = k then c else s.cell j := by
  split
  · next h => subst h; exact State.setCell_same _ _ _
  · next h => exact State.setCell_other h

theorem State.Agree.setCell {s : State} {k : CellKey} {c : Cell} (h : s.Agree Q)
    (hl : c.listed = (s.cell k).listed) (hc : c.Consistent s.ignition.settings)
    (ha : c.state = .absent → c.listed = false) (hq : c.state ≠ .absent → Q k) : (s.setCell k c).Agree Q where
  places := h.places
  sites := h.sites
  ids := h.ids
  idRange := h.idRange
  nextId := h.nextId
  listed j := by
    rw [State.setCell_cell]
    split
    · next hj => rw [hl, hj]; exact h.listed k
    · exact h.listed j
  cells j := by
    rw [State.setCell_cell]
    split
    · exact hc
    · exact h.cells j
  absent j := by
    rw [State.setCell_cell]
    split
    · exact ha
    · exact h.absent j
  allowed j := by
    rw [State.setCell_cell]
    split
    · next hj => exact hj ▸ hq
    · exact h.allowed j

/-! ### Records removed, changed and inserted -/

theorem State.markListed_listed (s : State) (site : Site) (b : Bool) (k : CellKey) :
    ((s.markListed site b).cell k).listed = if site = .cell k then b else (s.cell k).listed := by
  unfold State.markListed
  split
  · next j =>
    rw [State.setCell_cell]
    by_cases hk : k = j
    · simp [hk]
    · have : ¬ j = k := fun hc => hk hc.symm
      simp [hk, this]
  all_goals simp

@[simp] theorem State.markListed_train (s : State) (site : Site) (b : Bool) :
    (s.markListed site b).train = s.train := by unfold State.markListed; split <;> rfl
@[simp] theorem State.markListed_ignition (s : State) (site : Site) (b : Bool) :
    (s.markListed site b).ignition = s.ignition := by unfold State.markListed; split <;> rfl
@[simp] theorem State.removeFault_train (s : State) (site : Site) : (s.removeFault site).train = s.train := by
  unfold State.removeFault; split
  · rfl
  · simp [State.withRecords]
@[simp] theorem State.removeFault_ignition (s : State) (site : Site) :
    (s.removeFault site).ignition = s.ignition := by
  unfold State.removeFault; split
  · rfl
  · simp [State.withRecords]
@[simp] theorem State.removeFault_nextId (s : State) (site : Site) :
    (s.removeFault site).faults.nextId = s.faults.nextId := by
  unfold State.removeFault; split
  · rfl
  · simp [State.withRecords]
@[simp] theorem State.insertFault_train (s : State) (site : Site) (kind : FaultKind) (l : Option Nat) (t : Time) :
    (s.insertFault site kind l t).train = s.train := by simp [State.insertFault]
@[simp] theorem State.insertFault_ignition (s : State) (site : Site) (kind : FaultKind) (l : Option Nat) (t : Time) :
    (s.insertFault site kind l t).ignition = s.ignition := by simp [State.insertFault]

theorem State.permits_train {s t : State} (h : t.train = s.train) (k : CellKey) : s.permits k → t.permits k := by
  cases k <;> simp [State.permits, State.record, h]

theorem State.removeFault_sites (s : State) (site : Site) :
    (s.removeFault site).sites = s.sites.filter fun x => decide (x ≠ site) := by
  rw [State.sites, State.removeFault_records, State.sites, List.filter_map]; rfl

theorem State.removeFault_listed {s : State} (h : s.Agree Q) (site : Site) (k : CellKey) :
    ((s.removeFault site).cell k).listed = if site = .cell k then false else (s.cell k).listed := by
  unfold State.removeFault
  split
  · next hn =>
    split
    · next hs => rw [h.listed, ← hs]; exact decide_eq_false (State.faultAt_none.mp hn)
    · rfl
  · rw [State.markListed_listed]; rfl

theorem State.Agree.removeFault {s : State} (h : s.Agree Q) (site : Site) : (s.removeFault site).Agree Q where
  places := le_trans (State.removeFault_length_le s site) h.places
  sites := State.removeFault_sites s site ▸ h.sites.filter _
  ids := by
    rw [State.removeFault_records]
    exact h.ids.sublist (List.Sublist.map _ List.filter_sublist)
  idRange r hr := h.idRange r (List.mem_of_mem_filter (State.removeFault_records s site ▸ hr))
  nextId := by rw [State.removeFault_nextId]; exact h.nextId
  listed k := by
    rw [State.removeFault_listed h, State.removeFault_sites, h.listed]
    by_cases hs : site = .cell k
    · simp [hs]
    · have : ¬ Site.cell k = site := fun hc => hs hc.symm
      simp [hs, this]
  cells k := by
    rw [State.removeFault_cell, State.removeFault_ignition]
    exact ⟨(h.cells k).confirmed, (h.cells k).confirmedAt, (h.cells k).counting⟩
  absent k hk := by
    rw [State.removeFault_listed h]
    rw [State.removeFault_cell] at hk
    split
    · rfl
    · exact h.absent k hk
  allowed k hk := by
    rw [State.removeFault_cell] at hk
    exact h.allowed k hk

theorem State.Agree.changeFault {s : State} (h : s.Agree Q) (site : Site) {g : FaultRecord → FaultRecord}
    (hs : ∀ r, (g r).site = r.site) (hi : ∀ r, (g r).id = r.id) : (s.changeFault site g).Agree Q := by
  have hsites : (s.changeFault site g).sites = s.sites := by
    simp only [State.sites, State.changeFault_records, List.map_map]
    refine List.map_congr_left fun r _ => ?_
    simp only [Function.comp]; split <;> simp [hs]
  have hids : (s.changeFault site g).faults.records.map FaultRecord.id = s.faults.records.map FaultRecord.id := by
    simp only [State.changeFault_records, List.map_map]
    refine List.map_congr_left fun r _ => ?_
    simp only [Function.comp]; split <;> simp [hi]
  refine ⟨by simpa using h.places, hsites ▸ h.sites, hids ▸ h.ids, fun r hr => ?_, h.nextId, fun k => ?_, h.cells,
    h.absent, h.allowed⟩
  · rw [State.changeFault_records] at hr
    obtain ⟨x, hx, rfl⟩ := List.mem_map.mp hr
    have := h.idRange x hx
    split
    · rw [hi]; exact this
    · exact this
  · rw [hsites]; exact h.listed k

theorem State.insertFault_sites (s : State) (site : Site) (kind : FaultKind) (l : Option Nat) (t : Time) :
    (s.insertFault site kind l t).sites = s.sites ++ [site] := by
  simp [State.sites, State.insertFault_records]

theorem State.Agree.insertFault {s : State} (h : s.Agree Q) {site : Site} {kind : FaultKind} {l : Option Nat} {t : Time}
    (hl : s.faults.records.length < 24) (hn : site ∉ s.sites) (ha : ∀ k, site = .cell k → (s.cell k).state ≠ .absent) :
    (s.insertFault site kind l t).Agree Q := by
  have hr := freeFaultId_range s.faults.records Config.faultPlaces h.nextId
  have hcell := State.insertFault_cell s site kind l t
  have hlisted : ∀ k, ((s.insertFault site kind l t).cell k).listed =
      if site = .cell k then true else (s.cell k).listed := fun k => State.markListed_listed _ _ _ _
  refine ⟨?_, ?_, ?_, ?_, ?_, fun k => ?_, fun k => ?_, fun k hk => ?_, fun k hk => ?_⟩
  · rw [State.insertFault_records]; simp; omega
  · rw [State.insertFault_sites]
    exact List.nodup_append.mpr ⟨h.sites, List.nodup_singleton _, fun a ha' b hb => by
      rintro rfl; exact hn (by simpa using (List.mem_singleton.mp hb) ▸ ha')⟩
  · rw [State.insertFault_records, List.map_append]
    refine List.nodup_append.mpr ⟨h.ids, List.nodup_singleton _, fun a ha' b hb => ?_⟩
    rintro rfl
    exact freeFaultId_free hl h.nextId ((show a = freeFaultId s.faults.records 24 s.faults.nextId from
      List.mem_singleton.mp hb) ▸ ha')
  · rw [State.insertFault_records]
    intro r hr'
    rcases List.mem_append.mp hr' with h1 | h1
    · exact h.idRange r h1
    · rw [List.mem_singleton.mp h1]; exact hr
  · simpa [State.insertFault] using nextFaultId_range hr
  · rw [hlisted, State.insertFault_sites, h.listed]
    by_cases hs : site = .cell k
    · simp [hs]
    · have : ¬ Site.cell k = site := fun hc => hs hc.symm
      simp [hs, this]
  · rw [hcell, State.insertFault_ignition]
    exact ⟨(h.cells k).confirmed, (h.cells k).confirmedAt, (h.cells k).counting⟩
  · rw [hcell] at hk
    rw [hlisted]
    split
    · next hs => exact absurd hk (ha k hs)
    · exact h.absent k hk
  · rw [hcell] at hk
    exact h.allowed k hk

/-! ### Raises, heals and acknowledgements -/

/-- A record displaced by a new one (R51, R157). -/
theorem State.Agree.replaceFault {s : State} (h : s.Agree Q) {r : FaultRecord} (hr : r ∈ s.faults.records) {site : Site}
    {kind : FaultKind} {l : Option Nat} {t : Time} (hn : site ∉ s.sites)
    (ha : ∀ k, site = .cell k → (s.cell k).state ≠ .absent) :
    ((s.removeFault r.site).insertFault site kind l t).Agree Q := by
  refine (h.removeFault r.site).insertFault ?_ ?_ fun k hk => ?_
  · exact lt_of_lt_of_le (State.removeFault_length_lt hr) h.places
  · rw [State.removeFault_sites]; exact fun hc => hn (List.mem_of_mem_filter hc)
  · rw [State.removeFault_cell]; exact ha k hk

theorem State.Agree.raiseFault {s full : State} (h : s.Agree Q) {site : Site} {kind : FaultKind} {l : Option Nat}
    (ha : ∀ k, site = .cell k → (s.cell k).state ≠ .absent) (hf : site ∉ s.sites → full.Agree Q) :
    (s.raiseFault site kind l full).Agree Q := by
  unfold State.raiseFault
  split
  · split
    · exact h.changeFault _ (fun _ => rfl) (fun _ => rfl)
    · exact h
  · next hn =>
    have hn := State.faultAt_none.mp hn
    split
    · next hl => exact h.insertFault hl hn ha
    · split
      · next r hr => exact h.replaceFault (List.mem_of_find?_eq_some hr) hn ha
      · exact hf hn

theorem State.Agree.raiseBreak {s : State} (h : s.Agree Q) (g : Seg) : (s.raiseBreak g).Agree Q := by
  unfold State.raiseBreak
  refine h.raiseFault (fun k hk => by simp at hk) fun hn => ?_
  split
  · exact h
  · next r hr => exact h.replaceFault (State.leastRecord_mem hr) hn fun k hk => by simp at hk

theorem State.Agree.healFault {s : State} (h : s.Agree Q) (site : Site) : (s.healFault site).Agree Q := by
  unfold State.healFault
  split
  · exact h
  · split
    · exact h.changeFault _ (fun _ => rfl) (fun _ => rfl)
    · exact h.removeFault _
    · exact h

theorem State.Agree.acknowledge {s : State} (h : s.Agree Q) (x : FaultRecord) : (s.acknowledge x).Agree Q := by
  unfold State.acknowledge
  split
  · exact h.changeFault _ (fun _ => rfl) (fun _ => rfl)
  · exact h.removeFault _
  · exact h

/-! ### Cells that start afresh -/

theorem Cell.absent_consistent (set : Settings) : Cell.absent.Consistent set := ⟨rfl, rfl, rfl, rfl⟩

theorem Cell.fresh_consistent (set : Settings) : Cell.fresh.Consistent set := ⟨rfl, rfl, rfl, rfl⟩

theorem Cell.cleared_consistent (set : Settings) (c : Cell) : c.cleared.Consistent set := ⟨rfl, rfl, rfl, rfl⟩

theorem State.removeFault_own {s : State} (h : s.Agree Q) (k : CellKey) :
    ((s.removeFault (.cell k)).cell k).listed = false := by
  rw [State.removeFault_listed h]; simp

theorem State.Agree.makeAbsent {s : State} (h : s.Agree Q) (k : CellKey) : (s.makeAbsent k).Agree Q := by
  unfold State.makeAbsent
  exact (h.removeFault _).setCell (State.removeFault_own h k).symm (Cell.absent_consistent _) (fun _ => rfl)
    fun hc => absurd rfl hc

theorem State.Agree.clearCell {s : State} (h : s.Agree Q) (k : CellKey) : (s.clearCell k).Agree Q := by
  unfold State.clearCell
  split
  · exact h
  · next hk =>
    exact (h.removeFault _).setCell rfl (Cell.cleared_consistent _ _) (fun hc => by simp [Cell.cleared] at hc)
      fun _ => h.allowed k hk

theorem State.Agree.resetForProfile {s : State} (h : s.Agree Q) (p : Pos) (f : Func) (x : Profile) :
    (s.resetForProfile p f x).Agree Q := by
  unfold State.resetForProfile
  split
  · exact h
  · next hk =>
    exact (h.removeFault _).setCell rfl ⟨rfl, rfl, rfl, rfl⟩ (fun hc => by simp [Cell.cleared] at hc)
      fun _ => h.allowed _ hk

/-! ### A judgement -/

theorem Cell.confirm_consistent (set : Settings) (c : Cell) (v : Verdict) (now : Time) :
    (c.confirm v now).Consistent set := ⟨rfl, rfl, rfl⟩

theorem Cell.cleaned_consistent (set : Settings) (c : Cell) : c.cleaned.Consistent set := ⟨rfl, rfl, rfl, rfl⟩

theorem Cell.countToward_consistent {set : Settings} {c : Cell} {now : Time} {v : Verdict} {n : Nat}
    (hc : c.confirmed = none) (ha : c.confirmedAt = none) : (c.countToward set.qSet now v n).1.Consistent set := by
  unfold Cell.countToward
  split
  · exact Cell.confirm_consistent _ _ _ _
  · next hn =>
    exact ⟨by simp [Cell.suspected, hc, Cell.faulty], by simp [Cell.suspected, ha, Cell.faulty],
      by simpa [Cell.suspected] using hn⟩

theorem Cell.judgeFaulty_consistent {set : Settings} {c : Cell} {w : Verdict} {n : Nat} (hc : c.confirmed.isSome)
    (ha : c.confirmedAt.isSome) : (c.judgeFaulty set.qSet w n).1.Consistent set := by
  have he : (c.countEscalation set.qSet w (n + 1)).1.Consistent set := by
    unfold Cell.countEscalation
    split
    · exact ⟨rfl, by simpa [Cell.faulty] using ha, rfl⟩
    · next hn => exact ⟨by simpa [Cell.faulty] using hc, by simpa [Cell.faulty] using ha, by simpa using hn⟩
  unfold Cell.judgeFaulty
  split
  · exact he
  · split
    · exact ⟨rfl, by simpa [Cell.faulty, Cell.confirmAgain] using ha, rfl⟩
    · exact he

/-- The qualification machine keeps a cell's fields in agreement (R143 to R147). -/
theorem qualify_consistent {set : Settings} {now : Time} {c : Cell} {j : Judgement} (h : c.Consistent set) :
    (qualify set.qSet set.qClear now c j).1.Consistent set := by
  obtain ⟨h1, h2, h3⟩ := h
  unfold qualify
  cases hs : c.state <;> cases j <;> simp only [Cell.faulty, hs] at h1 h2 h3
  · exact ⟨by simpa [Cell.faulty, hs] using h1, by simpa [Cell.faulty, hs] using h2, by simpa [hs] using h3⟩
  · exact ⟨by simpa [Cell.faulty, hs] using h1, by simpa [Cell.faulty, hs] using h2, by simpa [hs] using h3⟩
  · exact Cell.cleaned_consistent _ _
  · exact Cell.countToward_consistent (by simpa using h1) (by simpa using h2)
  · exact Cell.cleaned_consistent _ _
  · exact Cell.countToward_consistent (by simpa using h1) (by simpa using h2)
  · exact Cell.cleaned_consistent _ _
  · exact Cell.countToward_consistent (by simpa using h1) (by simpa using h2)
  · dsimp only
    split
    · exact Cell.cleaned_consistent _ _
    · next hq =>
      exact ⟨by simpa [Cell.faulty] using h1, by simpa [Cell.faulty] using h2, rfl, by simpa using hq⟩
  · exact Cell.judgeFaulty_consistent (by simpa using h1) (by simpa using h2)
  · dsimp only
    split
    · exact Cell.cleaned_consistent _ _
    · next hq =>
      exact ⟨by simpa [Cell.faulty, hs] using h1, by simpa [Cell.faulty, hs] using h2,
        by simpa [hs] using ⟨h3.1, by omega⟩⟩
  · exact Cell.judgeFaulty_consistent (by simpa using h1) (by simpa using h2)

theorem Cell.countToward_listed (c : Cell) (q : Nat) (now : Time) (v : Verdict) (n : Nat) :
    (c.countToward q now v n).1.listed = c.listed ∧ (c.countToward q now v n).1.state ≠ .absent := by
  unfold Cell.countToward; split <;> simp [Cell.confirm, Cell.suspected]

theorem Cell.judgeFaulty_listed (c : Cell) (q : Nat) (w : Verdict) (n : Nat) :
    (c.judgeFaulty q w n).1.listed = c.listed ∧ (c.judgeFaulty q w n).1.state ≠ .absent := by
  unfold Cell.judgeFaulty Cell.countEscalation Cell.confirmAgain
  repeat' split
  all_goals simp

/-- A judgement leaves the listed flag, and takes a cell neither out of ABSENT nor into it; only a cell that is not
ABSENT is raised (R143, R148). -/
theorem qualify_listed (q r : Nat) (now : Time) (c : Cell) (j : Judgement) :
    (qualify q r now c j).1.listed = c.listed ∧
      ((qualify q r now c j).1.state = .absent ↔ c.state = .absent) ∧
      (c.state = .absent → (qualify q r now c j).2 = .nothing) := by
  unfold qualify
  cases hs : c.state <;> cases j <;> dsimp only
  all_goals first
    | exact ⟨rfl, by simp [Cell.cleaned, hs], by simp⟩
    | exact ⟨(Cell.countToward_listed _ _ _ _ _).1, by simp [(Cell.countToward_listed _ _ _ _ _).2], by simp⟩
    | exact ⟨(Cell.judgeFaulty_listed _ _ _ _).1, by simp [(Cell.judgeFaulty_listed _ _ _ _).2], by simp⟩
    | (split <;> exact ⟨rfl, by simp [Cell.cleaned], by simp⟩)

theorem State.Agree.handToList {s : State} (h : s.Agree Q) (k : CellKey) (a : ListAction)
    (ha : a = .raise → (s.cell k).state ≠ .absent) : (s.handToList k a).Agree Q := by
  unfold State.handToList
  split
  · exact h
  · split
    · exact h
    · exact h.raiseFault (fun j hj => by simp only [Site.cell.injEq] at hj; exact hj ▸ ha rfl) fun _ => h
  · split
    · exact h
    · split
      · exact h.changeFault _ (fun _ => rfl) (fun _ => rfl)
      · exact h
  · split
    · exact h
    · split
      · exact h.changeFault _ (fun _ => rfl) (fun _ => rfl)
      · exact h
  · exact h.healFault _

theorem State.Agree.takeJudgement {s : State} (h : s.Agree Q) (k : CellKey) (j : Judgement) :
    (s.takeJudgement k j).Agree Q := by
  unfold State.takeJudgement
  have hl := qualify_listed s.ignition.settings.qSet s.ignition.settings.qClear s.now (s.cell k) j
  refine (h.setCell hl.1 (qualify_consistent (h.cells k)) ?_ ?_).handToList _ _ ?_
  · exact fun hc => hl.1 ▸ h.absent k (hl.2.1.mp hc)
  · exact fun hc => h.allowed k fun ha => hc (hl.2.1.mpr ha)
  · intro ha hc
    rw [State.setCell_same] at hc
    rw [hl.2.2 (hl.2.1.mp hc)] at ha
    simp at ha

/-! ### Admission (R158) -/

theorem State.nextToAdmit_awaits {s : State} {k : CellKey} (h : s.nextToAdmit = some k) : s.awaitsRecord k = true := by
  unfold State.nextToAdmit at h
  have key : ∀ (l : List CellKey) (b : Option CellKey),
      l.foldl (fun best k => match best with
        | none => some k
        | some b => if s.confirmedAge b < s.confirmedAge k then some k else some b) b = some k → b = some k ∨ k ∈ l := by
    intro l
    induction l with
    | nil => intro b hb; exact Or.inl hb
    | cons a l ih =>
      intro b hb
      rcases ih _ hb with h1 | h1
      · cases b with
        | none => simp at h1; exact Or.inr (by simp [h1])
        | some c =>
          simp only at h1
          split at h1
          · simp at h1; exact Or.inr (by simp [h1])
          · exact Or.inl h1
      · exact Or.inr (List.mem_cons_of_mem _ h1)
  rcases key _ _ h with h1 | h1
  · simp at h1
  · exact (List.mem_filter.mp h1).2

theorem State.Agree.admitCell {s : State} (h : s.Agree Q) {k : CellKey} (hl : s.faults.records.length < 24)
    (hk : s.awaitsRecord k = true) : (s.admitCell k).Agree Q := by
  unfold State.admitCell
  split
  · exact h
  · simp only [State.awaitsRecord, State.unlisted, Bool.and_eq_true, Bool.not_eq_true', Cell.faulty,
      decide_eq_true_eq] at hk
    refine h.insertFault hl (fun hc => ?_) fun j hj => ?_
    · rw [h.listed] at hk; simp [hc] at hk
    · simp only [Site.cell.injEq] at hj
      subst hj
      rcases hk.1.1 with hs | hs <;> simp [hs]

theorem State.Agree.admitUpTo {s : State} (h : s.Agree Q) (n : Nat) : (s.admitUpTo n).Agree Q := by
  induction n generalizing s with
  | zero => exact h
  | succ n ih =>
    unfold State.admitUpTo
    split
    · next hl =>
      split
      · exact h
      · next k hk => exact ih (h.admitCell hl (State.nextToAdmit_awaits hk))
    · exact h

end Sys2Proof.Machine
end

