-- ==== Sys2Proof/Laws/SoundClosed.lean ====
section
/-! SUPPORT. That the cells and the records agree (`State.Sound`), and which positions are mapped in which state
(`State.Shaped`), survive every operation that is not one on the map. -/

namespace Sys2Proof.Machine

/-! ### Operations that leave the Train Map -/

theorem State.raiseFault_train {s full : State} (hf : full.train = s.train) (site : Site) (kind : FaultKind)
    (l : Option Nat) : (s.raiseFault site kind l full).train = s.train := by
  unfold State.raiseFault
  repeat' split
  all_goals first | rfl | exact hf | simp

@[simp] theorem State.raiseBreak_train (s : State) (g : Seg) : (s.raiseBreak g).train = s.train := by
  unfold State.raiseBreak
  refine State.raiseFault_train ?_ _ _ _
  split
  · rfl
  · simp

@[simp] theorem State.changeFault_train (s : State) (site : Site) (g : FaultRecord → FaultRecord) :
    (s.changeFault site g).train = s.train := rfl

@[simp] theorem State.healFault_train (s : State) (site : Site) : (s.healFault site).train = s.train := by
  unfold State.healFault
  repeat' split
  all_goals simp

@[simp] theorem State.acknowledge_train (s : State) (x : FaultRecord) : (s.acknowledge x).train = s.train := by
  unfold State.acknowledge
  split <;> simp

@[simp] theorem State.setCell_train (s : State) (k : CellKey) (c : Cell) : (s.setCell k c).train = s.train := rfl

@[simp] theorem State.makeAbsent_train (s : State) (k : CellKey) : (s.makeAbsent k).train = s.train := by
  simp [State.makeAbsent]

@[simp] theorem State.clearCell_train (s : State) (k : CellKey) : (s.clearCell k).train = s.train := by
  unfold State.clearCell; split <;> simp

@[simp] theorem State.resetForProfile_train (s : State) (p : Pos) (f : Func) (x : Profile) :
    (s.resetForProfile p f x).train = s.train := by
  unfold State.resetForProfile; split <;> simp

@[simp] theorem State.handToList_train (s : State) (k : CellKey) (a : ListAction) :
    (s.handToList k a).train = s.train := by
  unfold State.handToList
  repeat' split
  all_goals first | rfl | exact State.raiseFault_train rfl _ _ _ | simp

@[simp] theorem State.takeJudgement_train (s : State) (k : CellKey) (j : Judgement) :
    (s.takeJudgement k j).train = s.train := by simp [State.takeJudgement]

@[simp] theorem State.admitUpTo_train (n : Nat) (s : State) : (s.admitUpTo n).train = s.train := by
  induction n generalizing s with
  | zero => rfl
  | succ n ih =>
    unfold State.admitUpTo
    split
    · split
      · rfl
      · rw [ih]; unfold State.admitCell; split <;> simp
    · rfl

@[simp] theorem State.lineCellFollows_train (s : State) (a b : LinkState) (f : Func) :
    (s.lineCellFollows a b f).train = s.train := by
  unfold State.lineCellFollows
  split <;> simp

/-- A fold of operations that leave a field leaves it. -/
theorem foldl_same {α β : Type} {v : State → β} {g : State → α → State} (hg : ∀ t a, v (g t a) = v t) (l : List α)
    (s : State) : v (l.foldl g s) = v s := by
  induction l generalizing s with
  | nil => rfl
  | cons a l ih => rw [List.foldl_cons, ih, hg]

@[simp] theorem State.setLinkState_train (s : State) (new : LinkState) :
    (s.setLinkState new).train = { s.train with linkState := new } := by
  unfold State.setLinkState
  rw [foldl_same (v := State.train) fun t f => State.lineCellFollows_train t _ _ f]; rfl

/-! ### Sound states -/

/-- An operation that leaves the map keeps a state sound. -/
theorem State.Sound.of_train {s t : State} (ht : t.train = s.train) (h : t.Agree s.permits) : t.Sound :=
  h.mono fun k _ hk => State.permits_train ht k hk

/-- What Sound reads of a state. -/
theorem State.Sound.of_eq {s t : State} (h : s.Sound) (hf : t.faults.records = s.faults.records)
    (hn : t.faults.nextId = s.faults.nextId) (hc : ∀ k, t.cell k = s.cell k)
    (hi : t.ignition.settings = s.ignition.settings) (ht : t.train = s.train) : t.Sound :=
  .of_train ht (State.Agree.of_eq h hf hn hc hi)

theorem State.change_cell (s : State) (g : CellKey → Cell → Cell) (k : CellKey) :
    (s.withCells (s.cells.change g)).cell k = g k (s.cell k) := CellTable.get_change _ _ _

theorem State.Agree.keeps {Q : CellKey → Prop} {s : State} {k : CellKey} {c : Cell} (h : s.Agree Q)
    (hc : CellKeeps (s.cell k) c) : (s.setCell k c).Agree Q :=
  h.setCell hc.listed (hc.consistent _ (h.cells k)) (fun ha => hc.listed ▸ h.absent k (hc.absent.mpr ha))
    fun ha => h.allowed k fun hb => ha (hc.absent.mp hb)

theorem State.Agree.change {Q : CellKey → Prop} {s : State} {g : CellKey → Cell → Cell} (h : s.Agree Q)
    (hg : ∀ k c, CellKeeps c (g k c)) : (s.withCells (s.cells.change g)).Agree Q where
  places := h.places
  sites := h.sites
  ids := h.ids
  idRange := h.idRange
  nextId := h.nextId
  listed k := by rw [State.change_cell, (hg k _).listed]; exact h.listed k
  cells k := by rw [State.change_cell]; exact (hg k _).consistent _ (h.cells k)
  absent k := by
    rw [State.change_cell, (hg k _).listed, ← (hg k _).absent]; exact h.absent k
  allowed k := by
    rw [State.change_cell]; exact fun hk => h.allowed k fun ha => hk ((hg k _).absent.mp ha)

/-- The cells that may leave ABSENT once the link state is `new` (R1, R7). -/
def State.permitsUnder (s : State) (new : LinkState) : CellKey → Prop
  | .lamp p _ => s.record p ≠ none
  | .line _ => new ≠ .noTrain
  | .segment _ _ => True

/-- The line cells follow the link state (R7). -/
theorem State.Sound.setLinkState {s : State} (h : s.Sound) (new : LinkState) : (s.setLinkState new).Sound := by
  refine State.Agree.mono (Q := s.permitsUnder new) ?_ fun k _ hk => ?_
  swap
  · cases k with
    | lamp p f => simpa [State.permits, State.permitsUnder, State.record] using hk
    | line f => simpa [State.permits, State.permitsUnder] using hk
    | segment g f => trivial
  unfold State.setLinkState
  have hw : (s.withTrain { s.train with linkState := new }).Agree s.permits :=
    State.Agree.of_eq h rfl rfl (fun _ => rfl) rfl
  by_cases hn : new = .noTrain
  · subst hn
    by_cases ho : s.train.linkState = .noTrain
    · -- NO_TRAIN stays: the line cells are ABSENT already.
      have hs : (functions.foldl (fun t f => t.lineCellFollows s.train.linkState .noTrain f)
          (s.withTrain { s.train with linkState := .noTrain })).Agree s.permits :=
        foldl_closed (fun u f hu => by rw [ho]; exact hu) hw
      refine hs.mono fun k _ hk => ?_
      cases k with
      | lamp p f => exact hk
      | line f => exact absurd ho hk
      | segment g f => trivial
    · -- The line cells go ABSENT, one by one.
      have key : ∀ (l : List Func) (t : State), t.Agree s.permits →
          (∀ f, f ∉ l → (t.cell (.line f)).state = .absent) →
          let u := l.foldl (fun t f => t.lineCellFollows s.train.linkState .noTrain f) t
          u.Agree s.permits ∧ ∀ f, (u.cell (.line f)).state = .absent := by
        intro l
        induction l with
        | nil => exact fun t ht ha => ⟨ht, fun f => ha f (by simp)⟩
        | cons f l ih =>
          intro t ht ha
          have hf : t.lineCellFollows s.train.linkState .noTrain f = t.makeAbsent (.line f) := by
            unfold State.lineCellFollows
            cases hx : s.train.linkState <;> simp_all
          dsimp only [List.foldl_cons]
          rw [hf]
          refine ih _ (ht.makeAbsent _) fun g hg => ?_
          unfold State.makeAbsent
          rw [State.setCell_cell]
          split
          · rfl
          · next hne =>
            rw [State.removeFault_cell]
            exact ha g fun hc => by
              rcases List.mem_cons.mp hc with h1 | h1
              · exact hne (by rw [h1])
              · exact hg h1
      have hall : ∀ f : Func, f ∈ functions := by decide
      have := key functions _ hw fun f hf => absurd (hall f) hf
      refine this.1.mono fun k hk hq => ?_
      cases k with
      | lamp p f => exact hq
      | line f => exact absurd (this.2 f) hk
      | segment g f => trivial
  · have h0 : (s.withTrain { s.train with linkState := new }).Agree (s.permitsUnder new) :=
      hw.mono fun k _ hk => by
        cases k with
        | lamp p f => exact hk
        | line f => exact hn
        | segment g f => trivial
    by_cases ho : s.train.linkState = .noTrain
    · -- Out of NO_TRAIN: every line cell was ABSENT, without a record.
      have hl : ∀ f, (s.cell (.line f)).listed = false := fun f => by
        by_cases ha : (s.cell (.line f)).state = .absent
        · exact h.absent _ ha
        · exact absurd ho (h.allowed _ ha)
      refine (foldl_closed (P := fun t => t.Agree (s.permitsUnder new) ∧ ∀ f, (t.cell (.line f)).listed = false)
        (fun t f ht => ?_) ⟨h0, hl⟩).1
      have hf : t.lineCellFollows s.train.linkState new f = t.setCell (.line f) Cell.fresh := by
        unfold State.lineCellFollows
        rw [ho]
        cases hx : new <;> simp_all
      rw [hf]
      refine ⟨ht.1.setCell (ht.2 f).symm (Cell.fresh_consistent _) (fun _ => rfl) (fun _ => hn), fun g => ?_⟩
      rw [State.setCell_cell]
      split
      · rfl
      · exact ht.2 g
    · refine foldl_closed (P := State.Agree (s.permitsUnder new)) (fun t f ht => ?_) h0
      unfold State.lineCellFollows
      split
      · exact ht
      · exact absurd rfl hn
      · exact absurd (by assumption) ho
      · have hu : (t.cell (.line f)).unjudged.Consistent t.ignition.settings := ⟨rfl, rfl, rfl, rfl⟩
        exact (ht.setCell (k := .line f) (c := (t.cell (.line f)).unjudged) rfl hu
          (fun hc => by simp [Cell.unjudged] at hc) fun _ => hn).healFault _
      all_goals exact ht

/-- Sound survives every operation that is not one on the map. -/
theorem State.Sound.closed : Closed State.Sound where
  sense h := h.of_eq rfl rfl (fun _ => rfl) rfl rfl
  link h := h.of_eq rfl rfl (fun _ => rfl) rfl rfl
  attention h := h.of_eq rfl rfl (fun _ => rfl) rfl rfl
  enumerator h := h.of_eq rfl rfl (fun _ => rfl) rfl rfl
  apply h := h.of_eq rfl rfl (fun _ => rfl) rfl rfl
  counters h := h.of_eq rfl rfl (fun _ => rfl) rfl rfl
  library _ h := h.of_eq rfl rfl (fun _ => rfl) rfl rfl
  part h := h.of_eq rfl rfl (fun _ => rfl) rfl rfl
  quietSince h := h.of_eq rfl rfl (fun _ => rfl) rfl rfl
  health _ _ h := h.of_eq rfl rfl (fun _ => rfl) rfl rfl
  scheduler _ h := h.of_eq rfl rfl (fun _ => rfl) rfl rfl
  report _ _ h := h.of_eq rfl rfl (fun _ => rfl) rfl rfl
  train {s x} hx _ hl h := by
    have hw : (s.withTrain x).Agree s.permits := State.Agree.of_eq h rfl rfl (fun _ => rfl) rfl
    refine hw.mono fun k _ hk => ?_
    cases k with
    | lamp p f =>
      have := hx p
      simp only [State.permits, State.record, State.posState, State.withTrain_train] at hk this ⊢
      intro hc
      rw [hc] at this
      cases hr : s.train.records[p] with
      | none => exact hk hr
      | some r => rw [hr] at this; simp at this
    | line f => simpa [State.permits, hl] using hk
    | segment g f => trivial
  cell hc h := .of_train rfl (State.Agree.keeps h hc)
  change hg h := .of_train rfl (State.Agree.change h hg)
  fresh ha h := .of_train rfl (State.Agree.setCell h (h.absent _ ha).symm (Cell.fresh_consistent _) (fun _ => rfl)
    fun _ => trivial)
  absent h := .of_train (by simp) (State.Agree.makeAbsent h _)
  clear h := .of_train (by simp) (State.Agree.clearCell h _)
  profileReset h := .of_train (by simp) (State.Agree.resetForProfile h _ _ _)
  judge h := .of_train (by simp) (State.Agree.takeJudgement h _ _)
  linkState h := h.setLinkState _
  remove h := .of_train (by simp) (State.Agree.removeFault h _)
  heal h := .of_train (by simp) (State.Agree.healFault h _)
  acknowledge h := .of_train (by simp) (State.Agree.acknowledge h _)
  raise hs h := .of_train (State.raiseFault_train rfl _ _ _) (State.Agree.raiseFault h (fun k hk => by
    rw [hk] at hs; simp [Site.isCell] at hs) fun _ => h)
  raiseBreak h := .of_train (by simp) (State.Agree.raiseBreak h _)
  admission h := .of_train (by simp [State.admitWaiting]) (State.Agree.admitUpTo h _)

/-! ### Which positions are mapped -/

/-- The positions are mapped and in the states that F says. -/
def State.Shaped (F : Pos → Option PosState) (s : State) : Prop := ∀ p, s.posState p = F p

theorem State.Shaped.of_train {F : Pos → Option PosState} {s t : State} (h : s.Shaped F)
    (ht : t.train.records = s.train.records) : t.Shaped F := fun p => by
  rw [← h p, State.posState, State.posState, State.record, State.record, ht]

theorem State.Shaped.closed (F : Pos → Option PosState) : Closed (State.Shaped F) where
  sense h := h.of_train rfl
  link h := h.of_train rfl
  attention h := h.of_train rfl
  enumerator h := h.of_train rfl
  apply h := h.of_train rfl
  counters h := h.of_train rfl
  library _ h := h.of_train rfl
  part h := h.of_train rfl
  quietSince h := h.of_train rfl
  health _ _ h := h.of_train rfl
  scheduler _ h := h.of_train rfl
  report _ _ h := h.of_train rfl
  train hx _ _ h := fun p => (hx p).trans (h p)
  cell _ h := h.of_train rfl
  change _ h := h.of_train rfl
  fresh _ h := h.of_train rfl
  absent h := h.of_train (by simp)
  clear h := h.of_train (by simp)
  profileReset h := h.of_train (by simp)
  judge h := h.of_train (by simp)
  linkState h := h.of_train (by simp)
  remove h := h.of_train (by simp)
  heal h := h.of_train (by simp)
  acknowledge h := h.of_train (by simp)
  raise _ h := h.of_train (by rw [State.raiseFault_train rfl])
  raiseBreak h := h.of_train (by simp)
  admission h := h.of_train (by simp [State.admitWaiting])

/-- Two properties that survive every operation survive it together. -/
theorem Closed.and {P R : State → Prop} (hP : Closed P) (hR : Closed R) : Closed fun s => P s ∧ R s where
  sense h := ⟨hP.sense h.1, hR.sense h.2⟩
  link h := ⟨hP.link h.1, hR.link h.2⟩
  attention h := ⟨hP.attention h.1, hR.attention h.2⟩
  enumerator h := ⟨hP.enumerator h.1, hR.enumerator h.2⟩
  apply h := ⟨hP.apply h.1, hR.apply h.2⟩
  counters h := ⟨hP.counters h.1, hR.counters h.2⟩
  library a h := ⟨hP.library a h.1, hR.library a h.2⟩
  part h := ⟨hP.part h.1, hR.part h.2⟩
  quietSince h := ⟨hP.quietSince h.1, hR.quietSince h.2⟩
  health a b h := ⟨hP.health a b h.1, hR.health a b h.2⟩
  scheduler a h := ⟨hP.scheduler a h.1, hR.scheduler a h.2⟩
  report a b h := ⟨hP.report a b h.1, hR.report a b h.2⟩
  train a b c h := ⟨hP.train a b c h.1, hR.train a b c h.2⟩
  cell a h := ⟨hP.cell a h.1, hR.cell a h.2⟩
  change a h := ⟨hP.change a h.1, hR.change a h.2⟩
  fresh a h := ⟨hP.fresh a h.1, hR.fresh a h.2⟩
  absent h := ⟨hP.absent h.1, hR.absent h.2⟩
  clear h := ⟨hP.clear h.1, hR.clear h.2⟩
  profileReset h := ⟨hP.profileReset h.1, hR.profileReset h.2⟩
  judge h := ⟨hP.judge h.1, hR.judge h.2⟩
  linkState h := ⟨hP.linkState h.1, hR.linkState h.2⟩
  remove h := ⟨hP.remove h.1, hR.remove h.2⟩
  heal h := ⟨hP.heal h.1, hR.heal h.2⟩
  acknowledge h := ⟨hP.acknowledge h.1, hR.acknowledge h.2⟩
  raise a h := ⟨hP.raise a h.1, hR.raise a h.2⟩
  raiseBreak h := ⟨hP.raiseBreak h.1, hR.raiseBreak h.2⟩
  admission h := ⟨hP.admission h.1, hR.admission h.2⟩

end Sys2Proof.Machine
end

