-- ==== Sys2Proof/Laws/Consistent.lean ====
section
/-! SUPPORT. That the Cell Table, the Train Map and the Fault List agree (`State.Consistent`) survives every operation
and the end of every event, with the list within its places (`State.inOrder_iff`, `State.InOrder.closedAll`,
`State.InOrder.closedEvent`). -/

namespace Sys2Proof.Machine

/-! ### The order of the positions -/

/-- Which positions are mapped, and in which state. -/
abbrev Shape := Pos → Option PosState

/-- The mapped positions are contiguous from position 1, and every one beyond a LOST one is LOST (R40, R50). -/
structure Shape.Ordered (F : Shape) : Prop where
  contiguous : ∀ p q : Pos, p < q → (F q).isSome → (F p).isSome
  tail : ∀ p q : Pos, p < q → F p = some .lost → (F q).isSome → F q = some .lost

/-- Sound, with the positions as F says. -/
def State.Fits (F : Shape) (s : State) : Prop := s.Sound ∧ s.Shaped F

theorem State.Fits.closed (F : Shape) : Closed (State.Fits F) := State.Sound.closed.and (State.Shaped.closed F)

theorem State.Sound.lampMapped {s : State} (h : s.Sound) {p : Pos} {f : Func}
    (hc : (s.cell (.lamp p f)).state ≠ .absent) : s.record p ≠ none := State.Agree.allowed h _ hc

theorem State.setRecord_record (s : State) (p q : Pos) (r : Option PosRecord) :
    (s.setRecord p r).record q = if q = p then r else s.record q := by
  simp only [State.setRecord, State.record, State.withTrain_train, Fin.getElem_fin, Vector.getElem_set]
  by_cases hq : q = p
  · subst hq; simp
  · have : ¬ p.val = q.val := fun hc => hq (Fin.ext hc.symm)
    simp [hq, this]

theorem State.Shaped.setRecord {F : Shape} {s : State} (h : s.Shaped F) (p : Pos) (r : Option PosRecord) :
    (s.setRecord p r).Shaped (Function.update F p (r.map PosRecord.state)) := fun q => by
  rw [State.posState, State.setRecord_record]
  by_cases hq : q = p
  · subst hq; simp
  · simp only [hq, if_false, Function.update_of_ne hq]; exact h q

/-- A record set, or dropped once its lamp cells are ABSENT. -/
theorem State.Fits.setRecord {F : Shape} {s : State} (h : s.Fits F) (p : Pos) (r : Option PosRecord)
    (hr : r = none → ∀ f, (s.cell (.lamp p f)).state = .absent) :
    (s.setRecord p r).Fits (Function.update F p (r.map PosRecord.state)) := by
  refine ⟨?_, h.2.setRecord p r⟩
  have hw : (s.setRecord p r).Agree s.permits := State.Agree.of_eq h.1 rfl rfl (fun _ => rfl) rfl
  refine hw.mono fun k hk hq => ?_
  cases k with
  | lamp q f =>
    show (s.setRecord p r).record q ≠ none
    rw [State.setRecord_record]
    split
    · next hqp => subst hqp; exact fun hc => hk (hr hc f)
    · exact hq
  | line f => exact hq
  | segment g f => trivial

/-- The record of a mapped position changed, whatever its state becomes. -/
theorem State.Fits.changeRecord {F : Shape} {s : State} (h : s.Fits F) (p : Pos) (g : PosRecord → PosRecord) :
    (s.changeRecord p g).Fits (Function.update F p ((s.record p).map fun r => (g r).state)) := by
  unfold State.changeRecord
  split
  · next hr =>
    have : F p = none := by rw [← h.2 p, State.posState, hr]; rfl
    rw [hr, Option.map_none, ← this, Function.update_eq_self]; exact h
  · next r hr => rw [hr]; exact h.setRecord p (some (g r)) fun hc => by simp at hc

/-! ### Departure, creation, loss (R48 to R50) -/

/-- The lamp cells of p go ABSENT, one by one (R49). -/
theorem State.Fits.bare {F : Shape} {s : State} (h : s.Fits F) (p : Pos) :
    (functions.foldl (fun t f => t.makeAbsent (.lamp p f)) s).Fits F ∧
      ∀ f, ((functions.foldl (fun t f => t.makeAbsent (.lamp p f)) s).cell (.lamp p f)).state = .absent := by
  have key : ∀ (l : List Func) (t : State), t.Fits F → (∀ f, f ∉ l → (t.cell (.lamp p f)).state = .absent) →
      (l.foldl (fun t f => t.makeAbsent (.lamp p f)) t).Fits F ∧
        ∀ f, ((l.foldl (fun t f => t.makeAbsent (.lamp p f)) t).cell (.lamp p f)).state = .absent := by
    intro l
    induction l with
    | nil => exact fun t ht ha => ⟨ht, fun f => ha f (by simp)⟩
    | cons f l ih =>
      intro t ht ha
      refine ih _ ((State.Fits.closed F).absent ht) fun g hg => ?_
      unfold State.makeAbsent
      rw [State.setCell_cell]
      split
      · rfl
      · next hne =>
        rw [State.removeFault_cell]
        exact ha g fun hc => by
          rcases List.mem_cons.mp hc with h1 | h1
          · exact hne (by rw [h1])
          · exact hg h1
  have hall : ∀ f : Func, f ∈ functions := by decide
  exact key functions s h fun f hf => absurd (hall f) hf

theorem State.Fits.depart {F : Shape} {s : State} (h : s.Fits F) (p : Pos) :
    (s.depart p).Fits (Function.update F p none) := by
  unfold State.depart
  split
  · next hn =>
    have : F p = none := by rw [← h.2 p, State.posState, Option.isNone_iff_eq_none.mp hn]; rfl
    rw [← this, Function.update_eq_self]; exact h
  · have hC := State.Fits.closed (Function.update F p none)
    have hb := h.bare p
    generalize functions.foldl (fun t f => t.makeAbsent (.lamp p f)) s = b at hb
    have hm : ((b.removeFault (.module p)).setRecord p none).Fits (Function.update F p none) :=
      ((State.Fits.closed F).remove hb.1).setRecord p none fun _ f => by
        rw [State.removeFault_cell]; exact hb.2 f
    dsimp only
    generalize (b.removeFault (.module p)).setRecord p none = u at hm
    exact State.stopWaiting_closed hC (State.forsake_closed hC (State.discardEntries_closed hC (hC.remove (hC.remove
      (State.dropSegments_closed hC (State.settleSegments_closed hC hm))))))

/-- A lamp cell of a mapped position, without a record, leaves ABSENT (R48). -/
theorem State.Fits.openLampCell {F : Shape} {s : State} (h : s.Fits F) {p : Pos} (hp : (F p).isSome)
    (hl : ∀ f, (s.cell (.lamp p f)).listed = false) (f : Func) :
    (s.openLampCell p f).Fits F ∧ ∀ g, ((s.openLampCell p f).cell (.lamp p g)).listed = false := by
  unfold State.openLampCell
  refine ⟨⟨.of_train rfl (State.Agree.setCell h.1 (hl f).symm ⟨rfl, rfl, rfl, rfl⟩ (fun _ => rfl) fun _ hc => ?_),
    h.2.of_train rfl⟩, fun g => ?_⟩
  · rw [← h.2 p, State.posState, show s.record p = none from hc] at hp
    simp at hp
  · rw [State.setCell_cell]
    split
    · rfl
    · exact hl g

theorem State.Fits.createRecord {F : Shape} {s : State} (h : s.Fits F) {p : Pos} (hp : F p = none)
    (answer : Option EnumAnswer) : (s.createRecord p answer).Fits (Function.update F p (some .present)) := by
  have hC := State.Fits.closed (Function.update F p (some .present))
  have hr : s.record p = none := by
    have := (h.2 p).trans hp
    rw [State.posState] at this
    simpa using this
  unfold State.createRecord
  generalize hn : newRecord s.now answer (s.storedFor answer) = r
  have hm : (s.setRecord p (some r)).Fits (Function.update F p (some .present)) := by
    have := h.setRecord p (some r) fun hc => by simp at hc
    rwa [Option.map_some, show r.state = .present from hn ▸ rfl] at this
  have hl : ∀ f, (s.cell (.lamp p f)).listed = false := fun f => by
    by_cases ha : (s.cell (.lamp p f)).state = .absent
    · exact State.Agree.absent h.1 _ ha
    · exact absurd hr (h.1.lampMapped ha)
  have ho : (functions.foldl (fun t f => t.openLampCell p f) (s.setRecord p (some r))).Fits
      (Function.update F p (some .present)) :=
    (foldl_closed (P := fun t => t.Fits (Function.update F p (some .present)) ∧
      ∀ f, (t.cell (.lamp p f)).listed = false) (fun t f ht => ht.1.openLampCell (by simp) ht.2 f) ⟨hm, hl⟩).1
  dsimp only
  rw [hn]
  generalize functions.foldl (fun t f => t.openLampCell p f) (s.setRecord p (some r)) = u at ho
  split
  · exact State.offerProfile_closed hC (State.settleSegments_closed hC ho)
  · exact State.settleSegments_closed hC ho

theorem State.Fits.becomeLost {F : Shape} {s : State} (h : s.Fits F) {p : Pos} (hp : (F p).isSome) :
    (s.becomeLost p).Fits (Function.update F p (some .lost)) := by
  have hC := State.Fits.closed (Function.update F p (some .lost))
  have hr : ∃ r, s.record p = some r := by
    have := h.2 p
    rw [State.posState] at this
    rw [← this] at hp
    simpa [Option.isSome_iff_exists] using hp
  obtain ⟨r, hr⟩ := hr
  have hc := h.changeRecord p fun r => { r with state := .lost }
  rw [hr] at hc
  unfold State.becomeLost
  exact State.forsake_closed hC (State.holdSilent_closed hC (State.discardEntries_closed hC (hC.remove hc)))

/-! ### The comparison of a result with the map (R47 to R50) -/

/-- A walk over positions, each step of which changes what Q says of the map at its own position alone. -/
theorem map_walk {α : Type} {Q : (Pos → α) → State → Prop} {step : State → Pos → State} {R : Pos → α → α → Prop}
    (hs : ∀ (F : Pos → α) (t : State) (p : Pos), Q F t → ∃ v, R p (F p) v ∧ Q (Function.update F p v) (step t p))
    {l : List Pos} (hl : l.Nodup) {F : Pos → α} {s : State} (h : Q F s) :
    ∃ F' : Pos → α, Q F' (l.foldl step s) ∧ (∀ p ∈ l, R p (F p) (F' p)) ∧ ∀ p ∉ l, F' p = F p := by
  induction l generalizing F s with
  | nil => exact ⟨F, h, by simp, fun _ _ => rfl⟩
  | cons p l ih =>
    obtain ⟨v, hv, ht⟩ := hs F s p h
    obtain ⟨F', h1, h2, h3⟩ := ih (List.nodup_cons.mp hl).2 ht
    refine ⟨F', h1, fun q hq => ?_, fun q hq => ?_⟩
    · by_cases hqp : q = p
      · subst hqp
        rw [h3 q (List.nodup_cons.mp hl).1, Function.update_self]; exact hv
      · have := h2 q ((List.mem_cons.mp hq).resolve_left hqp)
        rwa [Function.update_of_ne hqp] at this
    · rw [h3 q fun hc => hq (List.mem_cons_of_mem _ hc)]
      exact Function.update_of_ne (fun hc => hq (by rw [hc]; exact List.mem_cons_self)) _ _

theorem positions_mem (p : Pos) : p ∈ positions := by revert p; decide

theorem positionsDown_mem (p : Pos) : p ∈ positionsDown := by revert p; decide

theorem positions_nodup : positions.Nodup := by decide

theorem positionsDown_nodup : positionsDown.Nodup := by decide

/-- A position of the result is mapped afterwards, and not LOST (R47, R48). -/
theorem State.Fits.readResult {F : Shape} {s : State} (h : s.Fits F) (a : Answers) (p : Pos) :
    ∃ x, x ≠ PosState.lost ∧ (s.readResult a p).Fits (Function.update F p (some x)) := by
  have hF := h.2 p
  unfold State.readResult
  have hup : ∀ x, Function.update (Function.update F p none) p (some x) = Function.update F p (some x) := fun x => by
    simp
  split
  · next hr _ =>
    rw [State.posState, hr] at hF
    exact ⟨.present, by simp, h.createRecord hF.symm none⟩
  · next x hr _ =>
    rw [State.posState, hr] at hF
    exact ⟨.present, by simp, State.stampLibrary_closed (State.Fits.closed _) (h.createRecord hF.symm (some x))⟩
  · next r hr _ =>
    have := h.changeRecord p PosRecord.keptGap
    rw [hr] at this
    refine ⟨r.keptGap.state, ?_, this⟩
    unfold PosRecord.keptGap
    split <;> simp_all
  · next r x hr _ =>
    split
    · have := h.changeRecord p fun y => y.keptAnswered x
      rw [hr] at this
      refine ⟨(r.keptAnswered x).state, ?_, State.stampLibrary_closed (State.Fits.closed _) this⟩
      unfold PosRecord.keptAnswered
      split <;> simp_all
    · refine ⟨.present, by simp, State.stampLibrary_closed (State.Fits.closed _) ?_⟩
      have := (h.depart p).createRecord (p := p) (by simp) (some x)
      rwa [hup] at this

/-- A mapped position beyond the result is LOST while moving, and gone else (R50). -/
theorem State.Fits.readBeyond {F : Shape} {s : State} (h : s.Fits F) (moving : Bool) (p : Pos) :
    (s.readBeyond moving p).Fits (Function.update F p (if moving then (F p).map fun _ => .lost else none)) := by
  have hF := h.2 p
  unfold State.readBeyond
  cases moving with
  | false => simpa using h.depart p
  | true =>
    simp only [if_true]
    split
    · next hx => rw [← hF, hx]; exact h.becomeLost (by rw [← hF, hx]; rfl)
    · next hx => rw [← hF, hx]; exact h.becomeLost (by rw [← hF, hx]; rfl)
    · next hx =>
      rw [← hF, hx, Option.map_some, ← hx, hF, Function.update_eq_self]; exact h
    · next hx =>
      rw [← hF, hx, Option.map_none, ← hx, hF, Function.update_eq_self]; exact h

/-- Sound, with the positions in order. -/
def State.InOrder (s : State) : Prop := ∃ F : { F : Shape // F.Ordered }, s.Fits F.val

theorem State.InOrder.intro {s : State} {F : Shape} (h : s.Fits F) (hF : F.Ordered) : s.InOrder := ⟨⟨F, hF⟩, h⟩

/-- What an enumeration's comparison leaves in order (R40, R47 to R50). -/
theorem State.InOrder.compareResult {s : State} (h : s.InOrder) (a : Answers) : (s.compareResult a).InOrder := by
  obtain ⟨⟨F, hF⟩, hs⟩ := h
  dsimp only at hs
  unfold State.compareResult
  dsimp only
  -- Records whose serial is answered elsewhere depart.
  obtain ⟨F1, h1, hd1, -⟩ := map_walk (Q := State.Fits) (R := fun p x y => y = if s.movedAway a p then none else x)
    (step := fun t p => if s.movedAway a p then t.depart p else t) (fun G t p ht => by
      by_cases hm : s.movedAway a p
      · exact ⟨none, by simp [hm], by simpa [hm] using ht.depart p⟩
      · exact ⟨G p, by simp [hm], by simpa [hm] using ht⟩) positionsDown_nodup hs
  -- The result is read.
  obtain ⟨F2, h2, hd2, -⟩ := map_walk (Q := State.Fits)
    (R := fun p x y => if posNumber p ≤ answersLength a then ∃ z, z ≠ PosState.lost ∧ y = some z else y = x)
    (step := fun t p => if posNumber p ≤ answersLength a then t.readResult a p else t) (fun G t p ht => by
      by_cases hp : posNumber p ≤ answersLength a
      · obtain ⟨z, hz, hf⟩ := ht.readResult a p
        exact ⟨some z, by simp [hp, hz], by simpa [hp] using hf⟩
      · exact ⟨G p, by simp [hp], by simpa [hp] using ht⟩) positions_nodup h1
  -- The positions beyond it are LOST or depart.
  generalize hmv : (s.intake.moving && !positions.any fun p => s.movedAway a p) = mv
  obtain ⟨F3, h3, hd3, -⟩ := map_walk (Q := State.Fits)
    (R := fun p x y => y = if posNumber p ≤ answersLength a then x else if mv then x.map fun _ => .lost else none)
    (step := fun t p => if posNumber p ≤ answersLength a then t else t.readBeyond mv p) (fun G t p ht => by
      by_cases hp : posNumber p ≤ answersLength a
      · exact ⟨G p, by simp [hp], by simpa [hp] using ht⟩
      · exact ⟨if mv then (G p).map fun _ => .lost else none, by simp [hp], by simpa [hp] using ht.readBeyond mv p⟩) positionsDown_nodup h2
  refine .intro h3 ?_
  have key : ∀ p, (posNumber p ≤ answersLength a → ∃ z, z ≠ PosState.lost ∧ F3 p = some z) ∧
      (¬ posNumber p ≤ answersLength a → F3 p = if mv then (F p).map fun _ => .lost else none) := by
    intro p
    have e1 := hd1 p (positionsDown_mem p)
    have e2 := hd2 p (positions_mem p)
    have e3 := hd3 p (positionsDown_mem p)
    refine ⟨fun hp => ?_, fun hp => ?_⟩
    · rw [if_pos hp] at e2 e3; rw [e3]; exact e2
    · rw [if_neg hp] at e2 e3
      rw [e3, e2, e1]
      cases mv with
      | false => rfl
      | true =>
        have : s.movedAway a p = false := by
          simp only [Bool.and_eq_true, Bool.not_eq_true', List.any_eq_false] at hmv
          simpa using hmv.2 p (positions_mem p)
        simp [this]
  refine ⟨fun p q hpq hq => ?_, fun p q hpq hp hq => ?_⟩
  · by_cases hl : posNumber p ≤ answersLength a
    · obtain ⟨z, -, hz⟩ := (key p).1 hl; simp [hz]
    · have hlq : ¬ posNumber q ≤ answersLength a := fun hc => hl (by
        have : p.val < q.val := hpq
        simp only [posNumber] at hc ⊢; omega)
      rw [(key p).2 hl]
      rw [(key q).2 hlq] at hq
      cases mv with
      | false => simp at hq
      | true => simp at hq ⊢; exact hF.contiguous p q hpq hq
  · by_cases hl : posNumber p ≤ answersLength a
    · obtain ⟨z, hz, he⟩ := (key p).1 hl
      rw [he] at hp; simp at hp; exact absurd hp hz
    · have hlq : ¬ posNumber q ≤ answersLength a := fun hc => hl (by
        have : p.val < q.val := hpq
        simp only [posNumber] at hc ⊢; omega)
      rw [(key q).2 hlq] at hq ⊢
      cases mv with
      | false => simp at hq
      | true =>
        cases hx : F q with
        | none => simp [hx] at hq
        | some y => rfl

theorem State.InOrder.departAll {s : State} (h : s.InOrder) : s.departAll.InOrder := by
  obtain ⟨⟨F, hF⟩, hs⟩ := h
  obtain ⟨F1, h1, hd, -⟩ := map_walk (Q := State.Fits) (R := fun _ _ y => y = none) (step := fun t p => t.depart p)
    (fun G t p ht => ⟨none, rfl, ht.depart p⟩) positionsDown_nodup hs
  have hn : ∀ p, F1 p = none := fun p => hd p (positionsDown_mem p)
  unfold State.departAll
  generalize positionsDown.foldl (fun u p => u.depart p) s = t at h1
  refine .intro (F := F1) ((State.Fits.closed F1).train (fun p => rfl) (fun p => rfl) rfl h1)
    ⟨fun p q _ hq => ?_, fun p q _ hp => ?_⟩
  · simp [hn] at hq
  · simp [hn] at hp

theorem State.InOrder.departLost {s : State} (h : s.InOrder) : s.departLost.InOrder := by
  obtain ⟨⟨F, hF⟩, hs⟩ := h
  obtain ⟨F1, h1, hd, -⟩ := map_walk (Q := State.Fits) (R := fun _ x y => y = if x = some .lost then none else x)
    (step := fun t p => if t.posState p = some .lost then t.depart p else t) (fun G t p ht => by
      have hp := ht.2 p
      by_cases hx : G p = some .lost
      · exact ⟨none, by simp [hx], by simpa [hp, hx] using ht.depart p⟩
      · exact ⟨G p, by simp [hx], by simpa [hp, hx] using ht⟩) positionsDown_nodup hs
  have hn : ∀ p, F1 p = if F p = some .lost then none else F p := fun p => hd p (positionsDown_mem p)
  refine .intro (F := F1) (State.refreshLink_closed (State.Fits.closed F1) h1) ⟨fun p q hpq hq => ?_, fun p q _ hp => ?_⟩
  · rw [hn] at hq ⊢
    split at hq
    · simp at hq
    · next hql =>
      have hp := hF.contiguous p q hpq hq
      split
      · next hpl => exact absurd (hF.tail p q hpq hpl hq) hql
      · exact hp
  · rw [hn] at hp
    split at hp
    · simp at hp
    · next hpl => exact absurd hp hpl

/-- A PRESENT or SILENT position that becomes the other. -/
theorem State.InOrder.changeState {s : State} (h : s.InOrder) {p : Pos} {g : PosRecord → PosRecord}
    (hp : ∃ x, s.posState p = some x ∧ x ≠ .lost) (hg : ∀ r, (g r).state ≠ .lost) : (s.changeRecord p g).InOrder := by
  obtain ⟨⟨F, hF⟩, hs⟩ := h
  obtain ⟨x, hx, hxl⟩ := hp
  have hFp : F p = some x := (hs.2 p).symm.trans hx
  obtain ⟨r, hr⟩ : ∃ r, s.record p = some r := by
    rw [State.posState] at hx
    cases hc : s.record p with
    | none => simp [hc] at hx
    | some r => exact ⟨r, rfl⟩
  have hc := hs.changeRecord p g
  rw [hr, Option.map_some] at hc
  have hu : ∀ q, q ≠ p → Function.update F p (some (g r).state) q = F q := fun q hq => Function.update_of_ne hq _ _
  have hself : Function.update F p (some (g r).state) p = some (g r).state := Function.update_self _ _ _
  refine .intro hc ⟨fun a b hab hb => ?_, fun a b hab ha hb => ?_⟩
  · by_cases hap : a = p
    · subst hap; rw [hself]; rfl
    · rw [hu a hap]
      refine hF.contiguous a b hab ?_
      by_cases hbp : b = p
      · subst hbp; simp [hFp]
      · rwa [hu b hbp] at hb
  · by_cases hap : a = p
    · subst hap; rw [hself] at ha; simp at ha; exact absurd ha (hg r)
    · rw [hu a hap] at ha
      by_cases hbp : b = p
      · subst hbp
        have := hF.tail a b hab ha (by simp [hFp])
        rw [hFp] at this; simp at this; exact absurd this hxl
      · rw [hu b hbp] at hb ⊢; exact hF.tail a b hab ha hb

/-! ### In order, whatever happens -/

/-- A property that survives every operation for each choice of i survives it for some choice. -/
theorem Closed.exists {ι : Type} {P : ι → State → Prop} (h : ∀ i, Closed (P i)) : Closed fun s => ∃ i, P i s where
  sense := fun ⟨i, hs⟩ => ⟨i, (h i).sense hs⟩
  link := fun ⟨i, hs⟩ => ⟨i, (h i).link hs⟩
  attention := fun ⟨i, hs⟩ => ⟨i, (h i).attention hs⟩
  enumerator := fun ⟨i, hs⟩ => ⟨i, (h i).enumerator hs⟩
  apply := fun ⟨i, hs⟩ => ⟨i, (h i).apply hs⟩
  counters := fun ⟨i, hs⟩ => ⟨i, (h i).counters hs⟩
  library a := fun ⟨i, hs⟩ => ⟨i, (h i).library a hs⟩
  part := fun ⟨i, hs⟩ => ⟨i, (h i).part hs⟩
  quietSince := fun ⟨i, hs⟩ => ⟨i, (h i).quietSince hs⟩
  health a b := fun ⟨i, hs⟩ => ⟨i, (h i).health a b hs⟩
  scheduler a := fun ⟨i, hs⟩ => ⟨i, (h i).scheduler a hs⟩
  report a b := fun ⟨i, hs⟩ => ⟨i, (h i).report a b hs⟩
  train a b c := fun ⟨i, hs⟩ => ⟨i, (h i).train a b c hs⟩
  cell a := fun ⟨i, hs⟩ => ⟨i, (h i).cell a hs⟩
  change a := fun ⟨i, hs⟩ => ⟨i, (h i).change a hs⟩
  fresh a := fun ⟨i, hs⟩ => ⟨i, (h i).fresh a hs⟩
  absent := fun ⟨i, hs⟩ => ⟨i, (h i).absent hs⟩
  clear := fun ⟨i, hs⟩ => ⟨i, (h i).clear hs⟩
  profileReset := fun ⟨i, hs⟩ => ⟨i, (h i).profileReset hs⟩
  judge := fun ⟨i, hs⟩ => ⟨i, (h i).judge hs⟩
  linkState := fun ⟨i, hs⟩ => ⟨i, (h i).linkState hs⟩
  remove := fun ⟨i, hs⟩ => ⟨i, (h i).remove hs⟩
  heal := fun ⟨i, hs⟩ => ⟨i, (h i).heal hs⟩
  acknowledge := fun ⟨i, hs⟩ => ⟨i, (h i).acknowledge hs⟩
  raise a := fun ⟨i, hs⟩ => ⟨i, (h i).raise a hs⟩
  raiseBreak := fun ⟨i, hs⟩ => ⟨i, (h i).raiseBreak hs⟩
  admission := fun ⟨i, hs⟩ => ⟨i, (h i).admission hs⟩

theorem State.InOrder.closedMap : ClosedMap State.InOrder where
  toClosed := Closed.exists fun F => State.Fits.closed F.val
  silent hp h := h.changeState ⟨_, hp, by simp⟩ fun _ => by simp
  present hp h := h.changeState ⟨_, hp, by simp⟩ fun _ => by simp
  compare h := h.compareResult _
  departAll h := h.departAll
  departLost h := h.departLost

/-! ### Settings (R149, R199) -/

theorem Cell.Consistent.of_settings {a b : Settings} {c : Cell} (h : c.Consistent a) (hs : b.qSet = a.qSet)
    (hc : b.qClear = a.qClear) : c.Consistent b :=
  ⟨h.confirmed, h.confirmedAt, by rw [hs, hc]; exact h.counting⟩

theorem Cell.clampToSet_consistent {a b : Settings} {c : Cell} (h : c.Consistent a) (hq : 1 ≤ b.qSet)
    (hc : b.qClear = a.qClear) : (c.clampToSet b.qSet).Consistent b := by
  obtain ⟨h1, h2, h3⟩ := h
  unfold Cell.clampToSet
  split
  · next hs =>
    simp only [Cell.faulty, hs.1] at h1 h2 h3
    exact ⟨by simpa [Cell.faulty, hs.1] using h1, by simpa [Cell.faulty, hs.1] using h2,
      by simp only [hs.1]; exact ⟨h3.1, by omega⟩⟩
  · next hns =>
    split
    · next hs =>
      simp only [Cell.faulty, hs.1] at h1 h2 h3
      split
      · exact ⟨by simpa [Cell.faulty, hs.1] using h1, by simpa [Cell.faulty, hs.1] using h2, by simp [hs.1]⟩
      · refine ⟨by simpa [Cell.faulty, hs.1] using h1, by simpa [Cell.faulty, hs.1] using h2, ?_⟩
        simp only [hs.1]
        split
        · next hn => simp [hn] at hs
        · omega
    · next hnf =>
      refine ⟨h1, h2, ?_⟩
      split
      · next hs => simpa [hs] using h3
      · next hs => simpa [hs] using h3
      · next hs => simpa [hs] using h3
      · next hs =>
        simp only [hs] at h3
        exact ⟨h3.1, by by_contra hc; exact hns ⟨hs, by omega⟩⟩
      · next hs =>
        simp only [hs] at h3
        split
        · next hn => simpa [hn] using h3
        · next v hn => by_contra hc; exact hnf ⟨hs, by simp [hn], by omega⟩
      · next hs => simp only [hs] at h3; rw [hc]; exact h3

theorem Cell.clampToSet_listed (q : Nat) (c : Cell) :
    (c.clampToSet q).listed = c.listed ∧ (c.clampToSet q).state = c.state := by
  unfold Cell.clampToSet
  repeat' split
  all_goals exact ⟨rfl, rfl⟩

theorem Cell.clampToClear_consistent {a b : Settings} {c : Cell} (h : c.Consistent a) (hq : 1 ≤ b.qClear)
    (hs : b.qSet = a.qSet) : (c.clampToClear b.qClear).Consistent b := by
  obtain ⟨h1, h2, h3⟩ := h
  unfold Cell.clampToClear
  split
  · next hr =>
    simp only [Cell.faulty, hr.1] at h1 h2 h3
    exact ⟨by simpa [Cell.faulty, hr.1] using h1, by simpa [Cell.faulty, hr.1] using h2,
      by simp only [hr.1]; exact ⟨h3.1, by omega⟩⟩
  · next hnr =>
    refine ⟨h1, h2, ?_⟩
    rw [hs]
    cases hx : c.state <;> simp only [hx] at h3 ⊢ <;> try exact h3
    exact ⟨h3.1, by by_contra hc; exact hnr ⟨hx, by omega⟩⟩

theorem Cell.clampToClear_listed (q : Nat) (c : Cell) :
    (c.clampToClear q).listed = c.listed ∧ (c.clampToClear q).state = c.state := by
  unfold Cell.clampToClear
  split <;> exact ⟨rfl, rfl⟩

/-- The cells brought to agree with new settings. -/
theorem State.Agree.resettle {Q : CellKey → Prop} {s : State} (h : s.Agree Q) {x : Ignition} {g : CellKey → Cell → Cell}
    (hg : ∀ k c, (g k c).listed = c.listed ∧ (g k c).state = c.state)
    (hc : ∀ k c, c.Consistent s.ignition.settings → (g k c).Consistent x.settings) :
    ((s.withIgnition x).withCells (s.cells.change g)).Agree Q where
  places := h.places
  sites := h.sites
  ids := h.ids
  idRange := h.idRange
  nextId := h.nextId
  listed k := by
    have : ((s.withIgnition x).withCells (s.cells.change g)).cell k = g k (s.cell k) := CellTable.get_change _ _ _
    rw [this, (hg k _).1]; exact h.listed k
  cells k := by
    have : ((s.withIgnition x).withCells (s.cells.change g)).cell k = g k (s.cell k) := CellTable.get_change _ _ _
    rw [this]; exact hc k _ (h.cells k)
  absent k := by
    have : ((s.withIgnition x).withCells (s.cells.change g)).cell k = g k (s.cell k) := CellTable.get_change _ _ _
    rw [this, (hg k _).1, (hg k _).2]; exact h.absent k
  allowed k := by
    have : ((s.withIgnition x).withCells (s.cells.change g)).cell k = g k (s.cell k) := CellTable.get_change _ _ _
    rw [this, (hg k _).2]; exact h.allowed k

/-- The thresholds are written under their own codes alone (R199). -/
theorem Settings.write_thresholds (x : Settings) (code v : Nat) :
    (code ≠ 9 → (x.write code v).qSet = x.qSet) ∧ (code ≠ 10 → (x.write code v).qClear = x.qClear) := by
  unfold Settings.write
  split <;> simp

theorem settingValue_threshold (v : Nat) : 1 ≤ settingValue 9 v ∧ 1 ≤ settingValue 10 v := by
  simp only [settingValue, settingRange, clampTo]
  constructor <;> (repeat' split) <;> omega

/-- A setting written keeps a state sound: the counts are clamped to a new threshold (R149). -/
theorem State.Sound.setting {s : State} (h : s.Sound) (code v : Nat) :
    ((s.withSettings (s.ignition.settings.write code (settingValue code v))).settingWritten code).Sound := by
  have hw := s.ignition.settings.write_thresholds code (settingValue code v)
  have hplain : code ≠ 9 → code ≠ 10 →
      (s.withSettings (s.ignition.settings.write code (settingValue code v))).Sound := fun h9 h10 =>
    .of_train rfl
      { places := h.places
        sites := h.sites
        ids := h.ids
        idRange := h.idRange
        nextId := h.nextId
        listed := h.listed
        cells := fun k => (State.Agree.cells h k).of_settings (hw.1 h9) (hw.2 h10)
        absent := h.absent
        allowed := h.allowed }
  unfold State.settingWritten
  split
  · next h3 => subst h3; exact State.lockWritten_closed State.Sound.closed (hplain (by decide) (by decide))
  · split
    · next h9 =>
      subst h9
      refine .of_train rfl (State.Agree.resettle h (g := fun _ c => c.clampToSet _) (fun _ c =>
        Cell.clampToSet_listed _ c) fun _ c hc => ?_)
      exact Cell.clampToSet_consistent hc (settingValue_threshold v).1 (hw.2 (by decide))
    · split
      · next h10 =>
        subst h10
        refine .of_train rfl (State.Agree.resettle h (g := fun _ c => c.clampToClear _) (fun _ c =>
          Cell.clampToClear_listed _ c) fun _ c hc => ?_)
        exact Cell.clampToClear_consistent hc (settingValue_threshold v).2 (hw.1 (by decide))
      · next h9 h10 => exact hplain h9 h10

/-- Which positions are mapped is no matter of settings. -/
theorem settingWritten_records (s : State) (code : Nat) : (s.settingWritten code).train = s.train := by
  have hl : ∀ t : State, t.lockWritten.train = t.train := fun t => by
    unfold State.lockWritten State.lockDrop State.withdrawReturn State.testReturn
    repeat' split
    all_goals rfl
  unfold State.settingWritten
  repeat' split
  all_goals first | exact hl s | rfl

theorem State.InOrder.closedStore : ClosedStore State.InOrder where
  toClosedMap := State.InOrder.closedMap
  ignition hx _ := fun ⟨F, hs⟩ => ⟨F, hs.1.of_eq rfl rfl (fun _ => rfl) hx rfl, hs.2.of_train rfl⟩
  setting := fun ⟨F, hs⟩ => ⟨F, hs.1.setting _ _, hs.2.of_train (by rw [settingWritten_records]; rfl)⟩

/-! ### Resets (R8, R74, R166) -/

theorem CellTable.fresh_get (coupled : Bool) (k : CellKey) :
    (CellTable.fresh coupled).get k = match k with
      | .lamp _ _ => Cell.absent
      | .line _ => if coupled then Cell.fresh else Cell.absent
      | .segment _ _ => Cell.absent := by
  cases k <;> simp [CellTable.get, CellTable.fresh, CellTable.allAbsent]

/-- Power-on and HARD reset leave a state in order, whatever it was before. -/
theorem State.startAfresh_inOrder (s : State) (x : Ignition) : (s.startAfresh.withIgnition x).InOrder := by
  have hcell : ∀ k, (s.startAfresh.withIgnition x).cell k = (CellTable.fresh s.inputs.socketCoupled).get k :=
    fun _ => rfl
  have hcases : ∀ k, (s.startAfresh.withIgnition x).cell k = Cell.absent ∨
      ((s.startAfresh.withIgnition x).cell k = Cell.fresh ∧ s.inputs.socketCoupled = true ∧ ∃ f, k = .line f) := by
    intro k
    rw [hcell, CellTable.fresh_get]
    cases k with
    | lamp p f => exact Or.inl rfl
    | line f => cases hc : s.inputs.socketCoupled <;> simp
    | segment g f => exact Or.inl rfl
  refine .intro (F := fun _ => none) ⟨?_, fun p => ?_⟩ ⟨fun _ _ _ hq => by simp at hq, fun _ _ _ hp => by simp at hp⟩
  · refine { places := Nat.zero_le _, sites := List.nodup_nil, ids := List.nodup_nil, idRange := fun r hr => ?_,
             nextId := ⟨le_rfl, show 1 ≤ 255 by decide⟩, listed := fun k => ?_, cells := fun k => ?_, absent := fun k _ => ?_,
             allowed := fun k hk => ?_ }
    · simp [State.startAfresh, FaultList.fresh] at hr
    · rcases hcases k with h | ⟨h, -⟩ <;> rw [h] <;> rfl
    · rcases hcases k with h | ⟨h, -⟩ <;> rw [h]
      · exact Cell.absent_consistent _
      · exact Cell.fresh_consistent _
    · rcases hcases k with h | ⟨h, -⟩ <;> rw [h] <;> rfl
    · rcases hcases k with h | ⟨-, h, f, rfl⟩
      · exact absurd (by rw [h]; rfl) hk
      · simp [State.permits, State.startAfresh, h]
  · simp [State.posState, State.record, State.startAfresh]

/-- That the Cell Table, the Train Map and the Fault List are in order survives every command. -/
theorem State.InOrder.closedAll : ClosedAll State.InOrder where
  toClosedStore := State.InOrder.closedStore
  intake := fun ⟨F, hs⟩ => ⟨F, hs.1.of_eq rfl rfl (fun _ => rfl) rfl rfl, hs.2.of_train rfl⟩
  afresh _ _ := State.startAfresh_inOrder _ _
  clock := fun ⟨F, hs⟩ => ⟨F, hs.1.of_eq rfl rfl (fun _ => rfl) rfl rfl, hs.2.of_train rfl⟩

/-- It survives also what every event does. -/
theorem State.InOrder.closedEvent : ClosedEvent State.InOrder where
  toClosed := State.InOrder.closedMap.toClosed
  advance := fun ⟨F, hs⟩ => ⟨F, hs.1.of_eq rfl rfl (fun _ => rfl) rfl rfl, hs.2.of_train rfl⟩
  overflow := fun ⟨F, hs⟩ => ⟨F, hs.1.of_eq rfl rfl (fun _ => rfl) rfl rfl, hs.2.of_train rfl⟩
  revised {s b} h := by
    obtain ⟨F, hs⟩ := h
    unfold State.settleRevision
    split
    · exact ⟨F, hs.1.of_eq rfl rfl (fun _ => rfl) rfl rfl, hs.2.of_train rfl⟩
    · exact ⟨F, hs⟩

/-- In order is consistent, within the places of the list. -/
theorem State.inOrder_iff (s : State) : s.InOrder ↔ s.faults.records.length ≤ 24 ∧ s.Consistent := by
  constructor
  · rintro ⟨⟨F, hF⟩, h, hs⟩
    dsimp only at hs
    have hsome : ∀ p, (s.record p).isSome = (F p).isSome := fun p => by
      rw [← hs p, State.posState, Option.isSome_map]
    refine ⟨State.Agree.places h, ⟨State.Agree.sites h, h.ids, h.idRange, h.nextId, fun k => ?_, h.cells, h.absent,
      fun p f hr => ?_, fun f hl => ?_, fun p q hpq hq => ?_, fun p q hpq hp hq => ?_⟩⟩
    · rw [State.faultAt_isSome]; exact State.Agree.listed h k
    · by_contra hc; exact State.Agree.allowed h _ hc hr
    · by_contra hc; exact State.Agree.allowed h _ hc hl
    · rw [hsome] at hq ⊢; exact hF.contiguous p q hpq hq
    · rw [hs] at hp ⊢; rw [hsome] at hq; exact hF.tail p q hpq hp hq
  · rintro ⟨hl, h⟩
    have hsome : ∀ p, (s.posState p).isSome = (s.record p).isSome := fun p => by simp [State.posState]
    refine .intro (F := s.posState) ⟨?_, fun _ => rfl⟩ ⟨fun p q hpq hq => ?_, fun p q hpq hp hq => ?_⟩
    · refine ⟨hl, h.sites, h.ids, h.idRange, h.nextId, fun k => ?_, h.cells, h.absent, fun k hk => ?_⟩
      · rw [h.listed k, State.faultAt_isSome]
      · cases k with
        | lamp p f => exact fun hc => hk (h.unmapped p f hc)
        | line f => exact fun hc => hk (h.noTrain f hc)
        | segment g f => trivial
    · rw [hsome] at hq ⊢; exact h.contiguous p q hpq hq
    · exact h.tail p q hpq hp (hsome q ▸ hq)

end Sys2Proof.Machine
end

