-- ==== Sys2Proof/WellFormed.lean ====
section
/-! DEFINITION. When a command is well formed: what it brings has a form in which it can reach the part. -/

namespace Sys2Proof

open Sys2Proof.Machine

/-- A request belongs to the row, has one of the sixteen kinds, and at most the 8 bytes of a CAN frame (R169, 13.2). -/
def requestFits (row : RequestRow) (r : Request) : Bool := decide (r.row = row ∧ r.kind < 16 ∧ r.data.length ≤ 8)

/-- The characters of a received frame: at least one, at most 53 (R21). -/
def frameFits (w : List WireChar) : Bool := decide (1 ≤ w.length ∧ w.length ≤ 53)

/-- The bytes of a frame restored and checked by a receiver at the speed of its first character (R19, R22). -/
def restoredFrame (w : List WireChar) : Option (List Byte) :=
  match w with
  | [] => none
  | c :: _ => restoreFrame c.speed w

/-- The frame is restored and checked, with the kind code given (R22, 13.1.1). -/
def frameOfKind (kind : Byte) (w : List WireChar) : Bool :=
  match restoredFrame w with
  | none => false
  | some bytes => decide (bytes.head? = some kind)

/-- The form of each command. -/
def Instr.wellFormed : Instr → Bool
  | .powerOn _ _ => true
  | .hardReset _ => true
  | .softReset _ => true
  | .ignitionChange _ => true
  | .standbyEntry _ => true
  | .requestReceive _ frame => decide (frame.data.length ≤ 8)
  | .lampCommand _ r => requestFits .lampCommand r
  | .faultRead _ r => requestFits .faultRead r
  | .faultAck _ r => requestFits .faultAck r
  | .faultAckAll _ r => requestFits .faultAckAll r
  | .refresh _ r => requestFits .refresh r
  | .mapRead _ r => requestFits .mapRead r
  | .siteClear _ r => requestFits .siteClear r
  | .siteClearChainBreak _ r => requestFits .siteClearChainBreak r
  | .siteClearModule _ r => requestFits .siteClearModule r
  | .siteClearLink _ r => requestFits .siteClearLink r
  | .profileStage _ r => requestFits .profileStage r
  | .profileApply _ r => requestFits .profileApply r
  | .profileRead _ r => requestFits .profileRead r
  | .positionReset _ r => requestFits .positionReset r
  | .settingWrite _ r => requestFits .settingWrite r
  | .settingRead _ r => requestFits .settingRead r
  | .settingSave _ r => requestFits .settingSave r
  | .saveEnd _ _ => true
  | .counterSetup _ r => requestFits .counterSetup r
  | .counterRead _ r => requestFits .counterRead r
  | .libraryDelete _ r => requestFits .libraryDelete r
  | .enumerate _ r => requestFits .enumerate r
  | .partResetHard _ r => requestFits .partResetHard r
  | .partResetSoft _ r => requestFits .partResetSoft r
  | .identRead _ r => requestFits .identRead r
  | .transmitterFree _ => true
  | .telltaleDue _ => true
  | .lampSummaryDue _ => true
  | .commandLoss _ => true
  | .socketDetectChange _ => true
  | .drivenChange _ _ => true
  | .settleTestPoint m f => m.inputs.driven[f]
  | .scanRound _ => true
  | .lampStateInterval _ => true
  | .linkIdle _ => true
  | .wakePulseRelease _ => true
  | .wakePulseHoldEnd _ => true
  | .frameTransmitEnd _ => true
  | .speedHoldEnd _ => true
  | .frameReceiveStart _ => true
  | .replyTimerEnd _ => true
  | .frameTruncated _ => true
  | .sample _ w => frameFits w && frameOfKind 0x21 w
  | .busy _ w => frameFits w && frameOfKind 0x22 w
  | .reissueDue _ => true
  | .enumReply _ w => frameFits w && frameOfKind 0x23 w
  | .profileReply _ w => frameFits w && frameOfKind 0x24 w
  | .resetDone _ w => frameFits w && frameOfKind 0x25 w
  | .crcFailure _ w => frameFits w
  | .strayFrame _ w => frameFits w && (restoredFrame w).isSome
  | .collectionWindowEnd _ => true
  | .probeInterval _ => true
  | .recoveryHoldExpiry _ => true
  | .attentionFall m => !m.inputs.attentionHigh
  | .attentionRise m => m.inputs.attentionHigh
  | .pulseTaken m => m.inputs.attentionHigh
  | .lineStuck m => !m.inputs.attentionHigh
  | .stuckRaiseRetry m => !m.inputs.attentionHigh
  | .stuckRelease m => m.inputs.attentionHigh

end Sys2Proof
end

