-- ==== Sys2Proof/Laws/PerInstr.lean ====
section
/-! SUPPORT. The per-command family `Carries`: what a well-formed command brings with it is bounded by the buffer that
takes it, 8 bytes of a CAN message (R169) or 53 characters of a frame (R21). -/

namespace Sys2Proof.Laws

open Sys2Proof.Machine

/-- The bytes or characters that a command brings to the part. -/
def carried : Instr → Nat
  | .powerOn _ _ => 0
  | .hardReset _ => 0
  | .softReset _ => 0
  | .ignitionChange _ => 0
  | .standbyEntry _ => 0
  | .requestReceive _ frame => frame.data.length
  | .lampCommand _ r => r.data.length
  | .faultRead _ r => r.data.length
  | .faultAck _ r => r.data.length
  | .faultAckAll _ r => r.data.length
  | .refresh _ r => r.data.length
  | .mapRead _ r => r.data.length
  | .siteClear _ r => r.data.length
  | .siteClearChainBreak _ r => r.data.length
  | .siteClearModule _ r => r.data.length
  | .siteClearLink _ r => r.data.length
  | .profileStage _ r => r.data.length
  | .profileApply _ r => r.data.length
  | .profileRead _ r => r.data.length
  | .positionReset _ r => r.data.length
  | .settingWrite _ r => r.data.length
  | .settingRead _ r => r.data.length
  | .settingSave _ r => r.data.length
  | .saveEnd _ _ => 0
  | .counterSetup _ r => r.data.length
  | .counterRead _ r => r.data.length
  | .libraryDelete _ r => r.data.length
  | .enumerate _ r => r.data.length
  | .partResetHard _ r => r.data.length
  | .partResetSoft _ r => r.data.length
  | .identRead _ r => r.data.length
  | .transmitterFree _ => 0
  | .telltaleDue _ => 0
  | .lampSummaryDue _ => 0
  | .commandLoss _ => 0
  | .socketDetectChange _ => 0
  | .drivenChange _ _ => 0
  | .settleTestPoint _ _ => 0
  | .scanRound _ => 0
  | .lampStateInterval _ => 0
  | .linkIdle _ => 0
  | .wakePulseRelease _ => 0
  | .wakePulseHoldEnd _ => 0
  | .frameTransmitEnd _ => 0
  | .speedHoldEnd _ => 0
  | .frameReceiveStart _ => 0
  | .replyTimerEnd _ => 0
  | .frameTruncated _ => 0
  | .sample _ w => w.length
  | .busy _ w => w.length
  | .reissueDue _ => 0
  | .enumReply _ w => w.length
  | .profileReply _ w => w.length
  | .resetDone _ w => w.length
  | .crcFailure _ w => w.length
  | .strayFrame _ w => w.length
  | .collectionWindowEnd _ => 0
  | .probeInterval _ => 0
  | .recoveryHoldExpiry _ => 0
  | .attentionFall _ => 0
  | .attentionRise _ => 0
  | .pulseTaken _ => 0
  | .lineStuck _ => 0
  | .stuckRaiseRetry _ => 0
  | .stuckRelease _ => 0

/-- The buffer that takes what the command brings: 8 bytes for a CAN message, 53 characters for a frame, else none. -/
def room : Instr → Nat
  | .powerOn _ _ => 0
  | .hardReset _ => 0
  | .softReset _ => 0
  | .ignitionChange _ => 0
  | .standbyEntry _ => 0
  | .requestReceive _ _ => 8
  | .lampCommand _ _ => 8
  | .faultRead _ _ => 8
  | .faultAck _ _ => 8
  | .faultAckAll _ _ => 8
  | .refresh _ _ => 8
  | .mapRead _ _ => 8
  | .siteClear _ _ => 8
  | .siteClearChainBreak _ _ => 8
  | .siteClearModule _ _ => 8
  | .siteClearLink _ _ => 8
  | .profileStage _ _ => 8
  | .profileApply _ _ => 8
  | .profileRead _ _ => 8
  | .positionReset _ _ => 8
  | .settingWrite _ _ => 8
  | .settingRead _ _ => 8
  | .settingSave _ _ => 8
  | .saveEnd _ _ => 0
  | .counterSetup _ _ => 8
  | .counterRead _ _ => 8
  | .libraryDelete _ _ => 8
  | .enumerate _ _ => 8
  | .partResetHard _ _ => 8
  | .partResetSoft _ _ => 8
  | .identRead _ _ => 8
  | .transmitterFree _ => 0
  | .telltaleDue _ => 0
  | .lampSummaryDue _ => 0
  | .commandLoss _ => 0
  | .socketDetectChange _ => 0
  | .drivenChange _ _ => 0
  | .settleTestPoint _ _ => 0
  | .scanRound _ => 0
  | .lampStateInterval _ => 0
  | .linkIdle _ => 0
  | .wakePulseRelease _ => 0
  | .wakePulseHoldEnd _ => 0
  | .frameTransmitEnd _ => 0
  | .speedHoldEnd _ => 0
  | .frameReceiveStart _ => 0
  | .replyTimerEnd _ => 0
  | .frameTruncated _ => 0
  | .sample _ _ => 53
  | .busy _ _ => 53
  | .reissueDue _ => 0
  | .enumReply _ _ => 53
  | .profileReply _ _ => 53
  | .resetDone _ _ => 53
  | .crcFailure _ _ => 53
  | .strayFrame _ _ => 53
  | .collectionWindowEnd _ => 0
  | .probeInterval _ => 0
  | .recoveryHoldExpiry _ => 0
  | .attentionFall _ => 0
  | .attentionRise _ => 0
  | .pulseTaken _ => 0
  | .lineStuck _ => 0
  | .stuckRaiseRetry _ => 0
  | .stuckRelease _ => 0

theorem requestFits_length {row : RequestRow} {r : Request} (h : requestFits row r = true) : r.data.length ≤ 8 := by
  simp only [requestFits, decide_eq_true_eq] at h
  exact h.2.2

theorem frameFits_length {w : List WireChar} (h : frameFits w = true) : w.length ≤ 53 := by
  simp only [frameFits, decide_eq_true_eq] at h
  exact h.2

theorem frameFits_and_length {w : List WireChar} {b : Bool} (h : (frameFits w && b) = true) : w.length ≤ 53 :=
  frameFits_length (Bool.and_eq_true_iff.mp h).1

/-- A well-formed command fits the buffer that takes what it brings. -/
def Carries.Statement (i : Instr) : Prop := i.wellFormed = true → carried i ≤ room i

theorem Carries.powerOn (m : Moment) (cause : PowerCause) :
    Carries.Statement (.powerOn m cause) := fun _ => Nat.le_refl 0
theorem Carries.hardReset (m : Moment) :
    Carries.Statement (.hardReset m) := fun _ => Nat.le_refl 0
theorem Carries.softReset (m : Moment) :
    Carries.Statement (.softReset m) := fun _ => Nat.le_refl 0
theorem Carries.ignitionChange (m : Moment) :
    Carries.Statement (.ignitionChange m) := fun _ => Nat.le_refl 0
theorem Carries.standbyEntry (m : Moment) :
    Carries.Statement (.standbyEntry m) := fun _ => Nat.le_refl 0
theorem Carries.requestReceive (m : Moment) (frame : CanFrame) :
    Carries.Statement (.requestReceive m frame) := fun h => of_decide_eq_true h
theorem Carries.lampCommand (m : Moment) (r : Request) :
    Carries.Statement (.lampCommand m r) := fun h => requestFits_length h
theorem Carries.faultRead (m : Moment) (r : Request) :
    Carries.Statement (.faultRead m r) := fun h => requestFits_length h
theorem Carries.faultAck (m : Moment) (r : Request) :
    Carries.Statement (.faultAck m r) := fun h => requestFits_length h
theorem Carries.faultAckAll (m : Moment) (r : Request) :
    Carries.Statement (.faultAckAll m r) := fun h => requestFits_length h
theorem Carries.refresh (m : Moment) (r : Request) :
    Carries.Statement (.refresh m r) := fun h => requestFits_length h
theorem Carries.mapRead (m : Moment) (r : Request) :
    Carries.Statement (.mapRead m r) := fun h => requestFits_length h
theorem Carries.siteClear (m : Moment) (r : Request) :
    Carries.Statement (.siteClear m r) := fun h => requestFits_length h
theorem Carries.siteClearChainBreak (m : Moment) (r : Request) :
    Carries.Statement (.siteClearChainBreak m r) := fun h => requestFits_length h
theorem Carries.siteClearModule (m : Moment) (r : Request) :
    Carries.Statement (.siteClearModule m r) := fun h => requestFits_length h
theorem Carries.siteClearLink (m : Moment) (r : Request) :
    Carries.Statement (.siteClearLink m r) := fun h => requestFits_length h
theorem Carries.profileStage (m : Moment) (r : Request) :
    Carries.Statement (.profileStage m r) := fun h => requestFits_length h
theorem Carries.profileApply (m : Moment) (r : Request) :
    Carries.Statement (.profileApply m r) := fun h => requestFits_length h
theorem Carries.profileRead (m : Moment) (r : Request) :
    Carries.Statement (.profileRead m r) := fun h => requestFits_length h
theorem Carries.positionReset (m : Moment) (r : Request) :
    Carries.Statement (.positionReset m r) := fun h => requestFits_length h
theorem Carries.settingWrite (m : Moment) (r : Request) :
    Carries.Statement (.settingWrite m r) := fun h => requestFits_length h
theorem Carries.settingRead (m : Moment) (r : Request) :
    Carries.Statement (.settingRead m r) := fun h => requestFits_length h
theorem Carries.settingSave (m : Moment) (r : Request) :
    Carries.Statement (.settingSave m r) := fun h => requestFits_length h
theorem Carries.saveEnd (m : Moment) (checkPasses : Bool) :
    Carries.Statement (.saveEnd m checkPasses) := fun _ => Nat.le_refl 0
theorem Carries.counterSetup (m : Moment) (r : Request) :
    Carries.Statement (.counterSetup m r) := fun h => requestFits_length h
theorem Carries.counterRead (m : Moment) (r : Request) :
    Carries.Statement (.counterRead m r) := fun h => requestFits_length h
theorem Carries.libraryDelete (m : Moment) (r : Request) :
    Carries.Statement (.libraryDelete m r) := fun h => requestFits_length h
theorem Carries.enumerate (m : Moment) (r : Request) :
    Carries.Statement (.enumerate m r) := fun h => requestFits_length h
theorem Carries.partResetHard (m : Moment) (r : Request) :
    Carries.Statement (.partResetHard m r) := fun h => requestFits_length h
theorem Carries.partResetSoft (m : Moment) (r : Request) :
    Carries.Statement (.partResetSoft m r) := fun h => requestFits_length h
theorem Carries.identRead (m : Moment) (r : Request) :
    Carries.Statement (.identRead m r) := fun h => requestFits_length h
theorem Carries.transmitterFree (m : Moment) :
    Carries.Statement (.transmitterFree m) := fun _ => Nat.le_refl 0
theorem Carries.telltaleDue (m : Moment) :
    Carries.Statement (.telltaleDue m) := fun _ => Nat.le_refl 0
theorem Carries.lampSummaryDue (m : Moment) :
    Carries.Statement (.lampSummaryDue m) := fun _ => Nat.le_refl 0
theorem Carries.commandLoss (m : Moment) :
    Carries.Statement (.commandLoss m) := fun _ => Nat.le_refl 0
theorem Carries.socketDetectChange (m : Moment) :
    Carries.Statement (.socketDetectChange m) := fun _ => Nat.le_refl 0
theorem Carries.drivenChange (m : Moment) (f : Func) :
    Carries.Statement (.drivenChange m f) := fun _ => Nat.le_refl 0
theorem Carries.settleTestPoint (m : Moment) (f : Func) :
    Carries.Statement (.settleTestPoint m f) := fun _ => Nat.le_refl 0
theorem Carries.scanRound (m : Moment) :
    Carries.Statement (.scanRound m) := fun _ => Nat.le_refl 0
theorem Carries.lampStateInterval (m : Moment) :
    Carries.Statement (.lampStateInterval m) := fun _ => Nat.le_refl 0
theorem Carries.linkIdle (m : Moment) :
    Carries.Statement (.linkIdle m) := fun _ => Nat.le_refl 0
theorem Carries.wakePulseRelease (m : Moment) :
    Carries.Statement (.wakePulseRelease m) := fun _ => Nat.le_refl 0
theorem Carries.wakePulseHoldEnd (m : Moment) :
    Carries.Statement (.wakePulseHoldEnd m) := fun _ => Nat.le_refl 0
theorem Carries.frameTransmitEnd (m : Moment) :
    Carries.Statement (.frameTransmitEnd m) := fun _ => Nat.le_refl 0
theorem Carries.speedHoldEnd (m : Moment) :
    Carries.Statement (.speedHoldEnd m) := fun _ => Nat.le_refl 0
theorem Carries.frameReceiveStart (m : Moment) :
    Carries.Statement (.frameReceiveStart m) := fun _ => Nat.le_refl 0
theorem Carries.replyTimerEnd (m : Moment) :
    Carries.Statement (.replyTimerEnd m) := fun _ => Nat.le_refl 0
theorem Carries.frameTruncated (m : Moment) :
    Carries.Statement (.frameTruncated m) := fun _ => Nat.le_refl 0
theorem Carries.sample (m : Moment) (w : List WireChar) :
    Carries.Statement (.sample m w) := fun h => frameFits_and_length h
theorem Carries.busy (m : Moment) (w : List WireChar) :
    Carries.Statement (.busy m w) := fun h => frameFits_and_length h
theorem Carries.reissueDue (m : Moment) :
    Carries.Statement (.reissueDue m) := fun _ => Nat.le_refl 0
theorem Carries.enumReply (m : Moment) (w : List WireChar) :
    Carries.Statement (.enumReply m w) := fun h => frameFits_and_length h
theorem Carries.profileReply (m : Moment) (w : List WireChar) :
    Carries.Statement (.profileReply m w) := fun h => frameFits_and_length h
theorem Carries.resetDone (m : Moment) (w : List WireChar) :
    Carries.Statement (.resetDone m w) := fun h => frameFits_and_length h
theorem Carries.crcFailure (m : Moment) (w : List WireChar) :
    Carries.Statement (.crcFailure m w) := fun h => frameFits_length h
theorem Carries.strayFrame (m : Moment) (w : List WireChar) :
    Carries.Statement (.strayFrame m w) := fun h => frameFits_and_length h
theorem Carries.collectionWindowEnd (m : Moment) :
    Carries.Statement (.collectionWindowEnd m) := fun _ => Nat.le_refl 0
theorem Carries.probeInterval (m : Moment) :
    Carries.Statement (.probeInterval m) := fun _ => Nat.le_refl 0
theorem Carries.recoveryHoldExpiry (m : Moment) :
    Carries.Statement (.recoveryHoldExpiry m) := fun _ => Nat.le_refl 0
theorem Carries.attentionFall (m : Moment) :
    Carries.Statement (.attentionFall m) := fun _ => Nat.le_refl 0
theorem Carries.attentionRise (m : Moment) :
    Carries.Statement (.attentionRise m) := fun _ => Nat.le_refl 0
theorem Carries.pulseTaken (m : Moment) :
    Carries.Statement (.pulseTaken m) := fun _ => Nat.le_refl 0
theorem Carries.lineStuck (m : Moment) :
    Carries.Statement (.lineStuck m) := fun _ => Nat.le_refl 0
theorem Carries.stuckRaiseRetry (m : Moment) :
    Carries.Statement (.stuckRaiseRetry m) := fun _ => Nat.le_refl 0
theorem Carries.stuckRelease (m : Moment) :
    Carries.Statement (.stuckRelease m) := fun _ => Nat.le_refl 0

end Sys2Proof.Laws
end

