-- ==== Sys2Proof/Laws/Unique.lean ====
section
/-! SUPPORT. That what the manual lets stand once alone (`State.Unique`) survives every operation and every event: the
serials of the map by what an enumeration's comparison leaves (`State.Bears`), the Libraries and the queue as blocks of
their own (`State.Single`). -/

namespace Sys2Proof.Machine

/-! ### The serials of the map (R40) -/

/-- Which serial the record of each position bears. -/
abbrev Serials := Pos → Option Serial

/-- No two positions bear the same serial. -/
def Serials.Distinct (S : Serials) : Prop := ∀ p q z, S p = some z → S q = some z → p = q

/-- A position that no longer bears its serial leaves the others distinct. -/
theorem Serials.Distinct.without {S : Serials} (h : S.Distinct) (p : Pos) :
    Serials.Distinct (Function.update S p none) := by
  intro q r z hq hr
  by_cases hqp : q = p
  · rw [hqp, Function.update_self] at hq; cases hq
  · by_cases hrp : r = p
    · rw [hrp, Function.update_self] at hr; cases hr
    · rw [Function.update_of_ne hqp] at hq
      rw [Function.update_of_ne hrp] at hr
      exact h q r z hq hr

/-- The records of the map bear the serials that S says. -/
def State.Bears (S : Serials) (s : State) : Prop := ∀ p, (s.record p).bind PosRecord.serial = S p

theorem State.Bears.of_train {S : Serials} {s t : State} (h : s.Bears S)
    (ht : t.train.records = s.train.records) : t.Bears S := fun p => by
  rw [← h p, State.record, State.record, ht]

theorem State.Bears.closed (S : Serials) : Closed (State.Bears S) where
  sense h := h.of_train rfl
  link h := h.of_train rfl
  attention h := h.of_train rfl
  enumerator h := h.of_train rfl
  apply h := h.of_train rfl
  counters h := h.of_train rfl
  library _ h := h.of_train rfl
  part h := h.of_train rfl
  quietSince h := h.of_train rfl
  health _ _ h := h.of_train rfl
  scheduler _ h := h.of_train rfl
  report _ _ h := h.of_train rfl
  train _ hx _ h := fun p => (hx p).trans (h p)
  cell _ h := h.of_train rfl
  change _ h := h.of_train rfl
  fresh _ h := h.of_train rfl
  absent h := h.of_train (by simp)
  clear h := h.of_train (by simp)
  profileReset h := h.of_train (by simp)
  judge h := h.of_train (by simp)
  linkState h := h.of_train (by simp)
  remove h := h.of_train (by simp)
  heal h := h.of_train (by simp)
  acknowledge h := h.of_train (by simp)
  raise _ h := h.of_train (by rw [State.raiseFault_train rfl])
  raiseBreak h := h.of_train (by simp)
  admission h := h.of_train (by simp [State.admitWaiting])

theorem State.Bears.setRecord {S : Serials} {s : State} (h : s.Bears S) (p : Pos) (r : Option PosRecord) :
    (s.setRecord p r).Bears (Function.update S p (r.bind PosRecord.serial)) := fun q => by
  rw [State.setRecord_record]
  by_cases hq : q = p
  · subst hq; simp
  · simp only [hq, if_false, Function.update_of_ne hq]; exact h q

/-- A record changed in anything but its serial. -/
theorem State.Bears.changeRecord {S : Serials} {s : State} (h : s.Bears S) (p : Pos) {g : PosRecord → PosRecord}
    (hg : ∀ r, (g r).serial = r.serial) : (s.changeRecord p g).Bears S := by
  unfold State.changeRecord
  split
  · exact h
  · next r hr =>
    have := h.setRecord p (some (g r))
    have hS : S p = r.serial := by rw [← h p, hr]; rfl
    rwa [Option.bind_some, hg, ← hS, Function.update_eq_self] at this

theorem State.Bears.depart {S : Serials} {s : State} (h : s.Bears S) (p : Pos) :
    (s.depart p).Bears (Function.update S p none) := by
  unfold State.depart
  split
  · next hn =>
    have : S p = none := by rw [← h p, Option.isNone_iff_eq_none.mp hn]; rfl
    rw [← this, Function.update_eq_self]; exact h
  · have hS := State.Bears.closed S
    have hC := State.Bears.closed (Function.update S p none)
    have hb : (functions.foldl (fun t f => t.makeAbsent (.lamp p f)) s).Bears S :=
      foldl_closed (fun _ _ ht => hS.absent ht) h
    dsimp only
    exact State.stopWaiting_closed hC (State.forsake_closed hC (State.discardEntries_closed hC (hC.remove (hC.remove
      (State.dropSegments_closed hC (State.settleSegments_closed hC ((hS.remove hb).setRecord p none)))))))

theorem State.Bears.createRecord {S : Serials} {s : State} (h : s.Bears S) (p : Pos) (answer : Option EnumAnswer) :
    (s.createRecord p answer).Bears (Function.update S p (answer.map EnumAnswer.serial)) := by
  have hC := State.Bears.closed (Function.update S p (answer.map EnumAnswer.serial))
  have hm : (s.setRecord p (some (newRecord s.now answer (s.storedFor answer)))).Bears _ := h.setRecord p _
  rw [Option.bind_some, show (newRecord s.now answer (s.storedFor answer)).serial = answer.map EnumAnswer.serial from
    rfl] at hm
  have ho := foldl_closed (P := State.Bears (Function.update S p (answer.map EnumAnswer.serial)))
    (f := fun t f => t.openLampCell p f) (l := functions) (fun t f ht => ht.of_train rfl) hm
  unfold State.createRecord
  dsimp only
  split
  · exact State.offerProfile_closed hC (State.settleSegments_closed hC ho)
  · exact State.settleSegments_closed hC ho

theorem State.Bears.becomeLost {S : Serials} {s : State} (h : s.Bears S) (p : Pos) : (s.becomeLost p).Bears S := by
  have hC := State.Bears.closed S
  unfold State.becomeLost
  exact State.forsake_closed hC (State.holdSilent_closed hC (State.discardEntries_closed hC (hC.remove
    (h.changeRecord p fun _ => rfl))))

/-- A position of the result bears the serial answered there, and at a gap the one that it bore (R47, R48). -/
theorem State.Bears.readResult {S : Serials} {s : State} (h : s.Bears S) (a : Answers) (p : Pos) :
    (s.readResult a p).Bears (Function.update S p (match resultAt a p with | none => S p | some x => some x.serial)) := by
  have hS := h p
  unfold State.readResult
  cases hr : s.record p with
  | none =>
    rw [hr] at hS
    cases hx : resultAt a p with
    | none =>
      have := h.createRecord p none
      dsimp only
      rwa [← hS]
    | some x => exact State.stampLibrary_closed (State.Bears.closed _) (h.createRecord p (some x))
  | some r =>
    rw [hr] at hS
    cases hx : resultAt a p with
    | none =>
      simp only [Function.update_eq_self]
      refine h.changeRecord p fun y => ?_
      unfold PosRecord.keptGap
      split <;> rfl
    | some x =>
      dsimp only
      split
      · next he =>
        have hSp : S p = some x.serial := hS.symm.trans he
        simp only [← hSp, Function.update_eq_self]
        refine State.stampLibrary_closed (State.Bears.closed _) (h.changeRecord p fun y => ?_)
        unfold PosRecord.keptAnswered
        split <;> rfl
      · refine State.stampLibrary_closed (State.Bears.closed _) ?_
        have := (h.depart p).createRecord p (some x)
        rwa [Function.update_idem] at this

/-- A position beyond the result bears its serial while moving, and none else (R50). -/
theorem State.Bears.readBeyond {S : Serials} {s : State} (h : s.Bears S) (moving : Bool) (p : Pos) :
    (s.readBeyond moving p).Bears (Function.update S p (if moving then S p else none)) := by
  unfold State.readBeyond
  cases moving with
  | false => simpa using h.depart p
  | true =>
    simp only [if_true, Function.update_eq_self]
    split
    · exact h.becomeLost p
    · exact h.becomeLost p
    · exact h
    · exact h

/-- The records of the map bear serials of which no two are the same. -/
def State.Named (s : State) : Prop := ∃ S : { S : Serials // S.Distinct }, s.Bears S.val

/-- The result holds each serial once (R44). -/
theorem resultAt_distinct {a : Answers} {p q : Pos} {x y : EnumAnswer} (hp : resultAt a p = some x)
    (hq : resultAt a q = some y) (h : x.serial = y.serial) : p = q := by
  have key : ∀ {p q : Pos} {x y : EnumAnswer}, resultAt a p = some x → resultAt a q = some y → x.serial = y.serial →
      ¬ p < q := by
    intro p q x y hp hq h hpq
    unfold resultAt at hp hq
    split at hp
    · simp at hp
    · split at hq
      · simp at hq
      · next hr =>
        refine hr ?_
        unfold repeatsLower
        rw [hq]
        simp only [List.any_eq_true, Bool.and_eq_true, decide_eq_true_eq]
        exact ⟨p, positions_mem p, hpq, by rw [hp]; simpa using h⟩
  exact le_antisymm (not_lt.mp (key hq hp h.symm)) (not_lt.mp (key hp hq h))

/-- A comparison leaves each serial once: one answered elsewhere has departed before the result is read (R47). -/
theorem State.Named.compareResult {s : State} (h : s.Named) (a : Answers) : (s.compareResult a).Named := by
  obtain ⟨⟨S, hS⟩, hs⟩ := h
  dsimp only at hs
  unfold State.compareResult
  dsimp only
  obtain ⟨S1, h1, hd1, -⟩ := map_walk (Q := State.Bears) (R := fun p x y => y = if s.movedAway a p then none else x)
    (step := fun t p => if s.movedAway a p then t.depart p else t) (fun G t p ht => by
      by_cases hm : s.movedAway a p
      · exact ⟨none, by simp [hm], by simpa [hm] using ht.depart p⟩
      · exact ⟨G p, by simp [hm], by simpa [hm] using ht⟩) positionsDown_nodup hs
  obtain ⟨S2, h2, hd2, -⟩ := map_walk (Q := State.Bears)
    (R := fun p x y => y = if posNumber p ≤ answersLength a then
      (match resultAt a p with | none => x | some z => some z.serial) else x)
    (step := fun t p => if posNumber p ≤ answersLength a then t.readResult a p else t) (fun G t p ht => by
      by_cases hp : posNumber p ≤ answersLength a
      · exact ⟨_, by rw [if_pos hp], by simpa [hp] using ht.readResult a p⟩
      · exact ⟨G p, by simp [hp], by simpa [hp] using ht⟩) positions_nodup h1
  generalize (s.intake.moving && !positions.any fun p => s.movedAway a p) = mv
  obtain ⟨S3, h3, hd3, -⟩ := map_walk (Q := State.Bears)
    (R := fun p x y => y = if posNumber p ≤ answersLength a then x else if mv then x else none)
    (step := fun t p => if posNumber p ≤ answersLength a then t else t.readBeyond mv p) (fun G t p ht => by
      by_cases hp : posNumber p ≤ answersLength a
      · exact ⟨G p, by simp [hp], by simpa [hp] using ht⟩
      · exact ⟨if mv then G p else none, by simp [hp], by simpa [hp] using ht.readBeyond mv p⟩) positionsDown_nodup h2
  -- Each serial left is one of the result, or one of the map that the result does not hold elsewhere.
  have key : ∀ p z, S3 p = some z →
      (∃ x, resultAt a p = some x ∧ x.serial = z) ∨ (S p = some z ∧ s.movedAway a p = false) := by
    intro p z hz
    have e1 := hd1 p (positionsDown_mem p)
    have e2 := hd2 p (positions_mem p)
    rw [hd3 p (positionsDown_mem p)] at hz
    have hkept : S1 p = some z → S p = some z ∧ s.movedAway a p = false := fun hc => by
      rw [e1] at hc
      split at hc
      · simp at hc
      · next hm => exact ⟨hc, by simpa using hm⟩
    by_cases hp : posNumber p ≤ answersLength a
    · rw [if_pos hp, e2, if_pos hp] at hz
      cases hr : resultAt a p with
      | none => rw [hr] at hz; exact Or.inr (hkept hz)
      | some x => rw [hr] at hz; exact Or.inl ⟨x, rfl, by simpa using hz⟩
    · rw [if_neg hp] at hz
      split at hz
      · rw [e2, if_neg hp] at hz; exact Or.inr (hkept hz)
      · simp at hz
  have elsewhere : ∀ p q x z, p ≠ q → resultAt a p = some x → x.serial = z → S q = some z →
      s.movedAway a q = true := by
    intro p q x z hpq hx hxz hq
    unfold State.movedAway
    rw [hs q, hq]
    dsimp only
    unfold answeredElsewhere
    rw [List.any_eq_true]
    exact ⟨p, positions_mem p, by simp [hpq, hx, hxz]⟩
  refine ⟨⟨S3, fun p q z hp hq => ?_⟩, h3⟩
  by_contra hpq
  rcases key p z hp with ⟨x, hx, hxz⟩ | ⟨hSp, hmp⟩
  · rcases key q z hq with ⟨y, hy, hyz⟩ | ⟨hSq, hmq⟩
    · exact hpq (resultAt_distinct hx hy (hxz.trans hyz.symm))
    · simp [elsewhere p q x z hpq hx hxz hSq] at hmq
  · rcases key q z hq with ⟨y, hy, hyz⟩ | ⟨hSq, hmq⟩
    · simp [elsewhere q p y z (Ne.symm hpq) hy hyz hSp] at hmp
    · exact hpq (hS p q z hSp hSq)

/-- Positions that depart take their serials with them. -/
theorem State.Named.departs {s : State} (h : s.Named) {g : State → Pos → Bool} {l : List Pos} :
    (l.foldl (fun t p => if g t p then t.depart p else t) s).Named := by
  refine foldl_closed (fun t p ht => ?_) h
  obtain ⟨⟨S, hS⟩, hs⟩ := ht
  split
  · exact ⟨⟨_, hS.without p⟩, State.Bears.depart hs p⟩
  · exact ⟨⟨S, hS⟩, hs⟩

theorem State.Named.closed : Closed State.Named :=
  Closed.exists fun S : { S : Serials // S.Distinct } => State.Bears.closed S.val

theorem State.Named.departAll {s : State} (h : s.Named) : s.departAll.Named := by
  have := h.departs (g := fun _ _ => true) (l := positionsDown)
  simp only [if_true] at this
  unfold State.departAll
  generalize positionsDown.foldl (fun u p => u.depart p) s = t at this
  exact State.Named.closed.train (fun _ => rfl) (fun _ => rfl) rfl this

theorem State.Named.departLost {s : State} (h : s.Named) : s.departLost.Named := by
  have := h.departs (g := fun t p => decide (t.posState p = some .lost)) (l := positionsDown)
  simp only [decide_eq_true_eq] at this
  exact State.refreshLink_closed State.Named.closed this

/-- A record changed in anything but its serial. -/
theorem State.Named.changeRecord {s : State} (h : s.Named) (p : Pos) {g : PosRecord → PosRecord}
    (hg : ∀ r, (g r).serial = r.serial) : (s.changeRecord p g).Named := by
  obtain ⟨S, hs⟩ := h
  exact ⟨S, hs.changeRecord p hg⟩

theorem State.Named.closedMap : ClosedMap State.Named where
  toClosed := State.Named.closed
  silent _ h := h.changeRecord _ fun _ => rfl
  present _ h := h.changeRecord _ fun _ => rfl
  compare h := h.compareResult _
  departAll h := h.departAll
  departLost h := h.departLost

theorem State.Named.closedStore : ClosedStore State.Named where
  toClosedMap := State.Named.closedMap
  ignition _ _ := fun ⟨S, hs⟩ => ⟨S, hs.of_train rfl⟩
  setting := fun ⟨S, hs⟩ => ⟨S, hs.of_train (by rw [settingWritten_records]; rfl)⟩

theorem State.Named.closedAll : ClosedAll State.Named where
  toClosedStore := State.Named.closedStore
  intake := fun ⟨S, hs⟩ => ⟨S, hs.of_train rfl⟩
  afresh _ _ := ⟨⟨fun _ => none, fun p q z hp => by simp at hp⟩, fun p => by simp [State.record, State.startAfresh]⟩
  clock := fun ⟨S, hs⟩ => ⟨S, hs.of_train rfl⟩

theorem State.Named.closedEvent : ClosedEvent State.Named where
  toClosed := State.Named.closedMap.toClosed
  advance := fun ⟨S, hs⟩ => ⟨S, hs.of_train rfl⟩
  overflow := fun ⟨S, hs⟩ => ⟨S, hs.of_train rfl⟩
  revised {s b} h := by
    unfold State.settleRevision
    split
    · obtain ⟨S, hs⟩ := h; exact ⟨S, hs.of_train rfl⟩
    · exact h

/-! ### The Libraries (R69) and the queue (R78) -/

/-- Every Library is sound, and the queue holds a QUERY and a PROFILE of a position once alone. -/
structure State.Single (s : State) : Prop where
  libraries : ∀ l ∈ s.ignition.libraries, l.Sound
  queries : ∀ p, (s.scheduler.queue.countP fun e => e.work.isQueryFor p) ≤ 1
  profiles : ∀ p, (s.scheduler.queue.countP fun e => e.work.isProfileFor p) ≤ 1

theorem State.Single.of_eq {s t : State} (h : s.Single) (hi : t.ignition.libraries = s.ignition.libraries)
    (hq : t.scheduler.queue = s.scheduler.queue) : t.Single :=
  ⟨by rw [hi]; exact h.libraries, by rw [hq]; exact h.queries, by rw [hq]; exact h.profiles⟩

theorem State.Single.free : FreeAll State.Single where
  sense h := h.of_eq rfl rfl
  link h := h.of_eq rfl rfl
  attention h := h.of_eq rfl rfl
  enumerator h := h.of_eq rfl rfl
  train h := h.of_eq rfl rfl
  apply h := h.of_eq rfl rfl
  cells h := h.of_eq rfl rfl
  counters h := h.of_eq rfl rfl
  part h := h.of_eq rfl rfl
  quietSince h := h.of_eq rfl rfl
  health _ _ h := h.of_eq rfl rfl
  faults _ _ h := h.of_eq rfl rfl
  report _ _ h := h.of_eq rfl rfl
  library hl h := by
    refine ⟨fun l hm => ?_, h.queries, h.profiles⟩
    rcases List.mem_cons.mp hm with rfl | hm
    · exact hl (h.libraries _ List.mem_cons_self)
    · exact h.libraries l (List.mem_cons_of_mem _ hm)
  scheduler hq h := ⟨h.libraries, fun p => (hq.queries p).trans (max_le le_rfl (h.queries p)),
    fun p => (hq.profiles p).trans (max_le le_rfl (h.profiles p))⟩
  ignition hx h := by
    refine ⟨fun l hl => ?_, h.queries, h.profiles⟩
    rcases hx l hl with hm | he
    · exact h.libraries l hm
    · exact ⟨by simp [he], by simp [he]⟩
  intake h := h.of_eq rfl rfl
  afresh h := ⟨h.libraries, fun p => by simp [State.startAfresh, Scheduler.fresh],
    fun p => by simp [State.startAfresh, Scheduler.fresh]⟩
  clock h := h.of_eq rfl rfl

theorem State.Single.closedEvent : ClosedEvent State.Single where
  toClosed := State.Single.free.toFree.closed
  advance h := h.of_eq rfl rfl
  overflow h := h.of_eq rfl rfl
  revised {s b} h := by
    unfold State.settleRevision
    split
    · exact h.of_eq rfl rfl
    · exact h

/-- Unique is named and single. -/
theorem State.unique_iff (s : State) : s.Unique ↔ s.Named ∧ s.Single := by
  constructor
  · refine fun h => ⟨⟨⟨fun p => (s.record p).bind PosRecord.serial, fun p q z hp hq => ?_⟩, fun _ => rfl⟩,
      ⟨h.libraries, h.queries, h.profiles⟩⟩
    obtain ⟨r, hr, hz⟩ := Option.bind_eq_some_iff.mp hp
    obtain ⟨r', hr', hz'⟩ := Option.bind_eq_some_iff.mp hq
    exact h.serials p q r r' z hr hr' hz hz'
  · rintro ⟨⟨⟨S, hS⟩, hs⟩, h⟩
    dsimp only at hs
    refine ⟨fun p q r r' z hp hq hz hz' => hS p q z ?_ ?_, h.libraries, h.queries, h.profiles⟩
    · rw [← hs p, hp]; exact hz
    · rw [← hs q, hq]; exact hz'

end Sys2Proof.Machine
end

