-- ==== Sys2Proof/Machine/Module.lean ====
section
/-! DEFINITION. The lamp sense module as far as the part depends on it (2.4 to 2.6, 6.5): what a module does with frames at
its upstream and its downstream port, how it samples, and when it pulls the attention line, changes speed and sleeps. A
module is another agent on the link, so no command of the part runs these functions (log entry 4). Times are
microseconds. -/

namespace Sys2Proof.Machine

/-- What a module measures on one function (R35): the supply at its coupling, and its two currents in mA. -/
structure Measured where
  energised : Bool
  inCurrent : Nat
  loadCurrent : Nat
  deriving DecidableEq, Repr

/-- The currents of a kept on-phase sample (R37). -/
structure Kept where
  inCurrent : Nat
  loadCurrent : Nat
  deriving DecidableEq, Repr

/-- An answer: the frame's header fields and payload, and when the module is to start it. -/
structure ModuleAnswer where
  kind : Byte
  p : Pos
  tag : Byte
  payload : List Byte
  due : Nat
  deriving DecidableEq, Repr

/-- What a module makes of the upstream frame that is arriving at its downstream port (R32). -/
inductive Upward where
  | none
  /-- It is repeated; the last repeated character ends at `until_`, once there is one. -/
  | repeating (until_ : Option Nat)
  /-- It began while a downstream frame was arriving, and is not repeated. -/
  | ignored
  deriving DecidableEq, Repr

/-- What a module holds (2.4 to 2.6, R106). `energisedSince` is the time the supply last became energised; `reception` is
what arrives at the upstream port, `lineActive` the time of the last character there, and `received` the end of the last
frame there and whether it was truncated (R21); `repeatEnd` is the end of the latest repeat at the downstream port, which
may be still to come; `switches` are the speeds of SPEED frames taken, each with the end of its repeat. -/
structure Module where
  position : Option Pos
  serial : Serial
  unit : UnitKind
  description : Vector Described 8
  speed : Speed
  awake : Bool
  selfTestEnd : Nat
  epoch : Option Byte
  states : Vector CommandState 8
  energisedSince : Vector (Option Nat) 8
  kept : Vector (Option Kept) 8
  reference : Vector (Option Nat) 8
  newEpochAt : Option Nat
  stepPullEnd : Nat
  discardPullEnd : Nat
  lastValid : Nat
  lastSwitch : Nat
  sawDominant : Bool
  reception : Reception
  lineActive : Option Nat
  received : Option (Nat × Bool)
  repeatEnd : Option Nat
  switches : List (Nat × Speed)
  upward : Upward
  answer : Option ModuleAnswer
  deriving DecidableEq, Repr

/-- A repeat at the downstream port (R31): the frame, when it starts, and the speed it was received at. -/
structure DownRepeat where
  frame : DownFrame
  start : Nat
  speed : Speed
  deriving DecidableEq, Repr

/-- What a module does with a downstream frame (R31): the frame it repeats, and how long it pulls the attention line. Its
answer waits in the module until it is due. -/
structure ModuleAction where
  forward : Option DownRepeat
  pull : Nat
  deriving DecidableEq, Repr

/-! ### Downstream frames at a module (R25, R31, R201) -/

/-- The downstream kind of a code (13.1.1). -/
def downKind (code : Byte) : Option DownKind :=
  if code = 0x11 then some .lampState
  else if code = 0x12 then some .query
  else if code = 0x13 then some .enumerate
  else if code = 0x14 then some .profileReq
  else if code = 0x15 then some .posReset
  else if code = 0x16 then some .speed
  else none

/-- The payload a module takes for a kind: its length, a SPEED code of at most 1, a QUERY mask other than 0 (R25,
R201). -/
def downPayloadFits : DownKind → List Byte → Bool
  | .lampState, payload => decide (payload.length = 3)
  | .query, [mask] => decide (mask ≠ 0)
  | .query, _ => false
  | .enumerate, payload => decide (payload = [])
  | .profileReq, payload => decide (payload = [])
  | .posReset, payload => decide (payload = [])
  | .speed, [code] => decide (code.toNat ≤ 1)
  | .speed, _ => false

/-- A downstream frame that is valid at a module of speed v; none is a bad frame (R31). -/
def parseDown (v : Speed) (w : List WireChar) : Option DownFrame :=
  match restoreFrame v w with
  | some (code :: target :: tag :: _ :: payload) =>
    match downKind code with
    | none => none
    | some kind => if downPayloadFits kind payload then some ⟨kind, target, tag, payload⟩ else none
  | _ => none

/-! ### Sampling (R35 to R37) -/

/-- The module's settle time for a function, by its self-description (R35). -/
def Module.settleTime (d : Module) (f : Func) : Nat :=
  if 1 ≤ (d.description[f]).n ∧ (d.description[f]).tech ≠ 1 then 100000 else 30000

/-- The supply of f has been energised for at least the settle time. -/
def Module.settled (d : Module) (clock : Nat) (f : Func) : Bool :=
  match d.energisedSince[f] with
  | none => false
  | some t => decide (t + d.settleTime f ≤ clock)

/-- The flag byte of a SAMPLE entry (13.1.2). -/
def entryFlags (status : EntryStatus) (inSat loadSat onPhase noEpoch : Bool) : Byte :=
  byteOf ((match status with | .valid => 0 | .settling => 1 | .offPhase => 2 | .notDriven => 3) +
    4 * boolCode inSat + 8 * boolCode loadSat + 16 * boolCode onPhase + 32 * boolCode noEpoch)

/-- A current as reported: at or above the measuring limit it is 16000 with its saturation status set (R35). -/
def reported (limit current : Nat) : Nat × Bool :=
  if limit ≤ current ∨ 16000 ≤ current then (16000, true) else (current, false)

/-- Status, on-phase flag and currents of the entry a module reports for f (R34, R36, R37). DESIGN CHOICE (log entry 77):
without an epoch the entry carries the live currents, and on-phase true while the supply is energised. -/
def Module.entry (d : Module) (clock : Nat) (x : Measured) (f : Func) : EntryStatus × Bool × Kept :=
  let live : Kept := ⟨x.inCurrent, x.loadCurrent⟩
  if d.epoch.isNone then (.settling, x.energised, live)
  else
    match d.states[f] with
    | .off => (.notDriven, x.energised, live)
    | .flash =>
      match d.kept[f] with
      | some k => (.valid, true, k)
      | none => if x.energised then (.settling, true, live) else (.offPhase, false, live)
    | .on => if ¬ x.energised then (.notDriven, false, live)
      else if d.settled clock f then (.valid, true, live) else (.settling, true, live)
    | .unknown => if ¬ x.energised then (.notDriven, false, live)
      else if d.settled clock f then (.valid, true, live) else (.settling, true, live)

/-- The five bytes of an entry (13.1.2). -/
def Module.entryBytes (d : Module) (limit clock : Nat) (x : Measured) (f : Func) : List Byte :=
  let e := d.entry clock x f
  let i := reported limit e.2.2.inCurrent
  let l := reported limit e.2.2.loadCurrent
  entryFlags e.1 i.2 l.2 e.2.1 d.epoch.isNone :: (twoBytes i.1 ++ twoBytes l.1)

/-- The payload of the SAMPLE that answers a QUERY (R24, 13.1.2). -/
def Module.samplePayload (d : Module) (limit clock voltage : Nat) (xs : Vector Measured 8) (mask : Mask) : List Byte :=
  twoBytes voltage ++ [d.epoch.getD 0] ++
    (maskFunctions mask).flatMap fun f => d.entryBytes limit clock xs[f] f

/-! ### Speed (R38) -/

def Speed.other : Speed → Speed
  | .full => .reduced
  | .reduced => .full

/-- The repeat of a SPEED frame has ended at time `at_`: the module takes the speed it carries, and a speed that is
another one restarts the 150 ms measure (R38). -/
def Module.switchTo (d : Module) (at_ : Nat) (v : Speed) : Module :=
  if d.speed = v then d else { d with speed := v, lastSwitch := at_, sawDominant := false }

/-- Every SPEED frame whose repeat has ended by now has switched the module (R38). Whatever the module does at a later
moment, it does after that. -/
def Module.switched (d : Module) (clock : Nat) : Module :=
  (d.switches.filter fun x => decide (x.1 ≤ clock)).foldl (fun e x => e.switchTo x.1 x.2)
    { d with switches := d.switches.filter fun x => decide (clock < x.1) }

/-- 150 ms without a valid frame, in which dominant levels were seen, toggle the module's speed (R38). DESIGN CHOICE (log
entry 80): levels first seen after the 150 ms count too, and toggle at once, even in the middle of a frame. -/
def Module.toggle (d : Module) (clock : Nat) : Module :=
  let e := d.switched clock
  if e.awake ∧ e.sawDominant ∧ max e.lastValid e.lastSwitch + 150000 ≤ clock then e.switchTo clock e.speed.other
  else e

/-- Dominant levels at either port (R38). -/
def Module.seeDominant (d : Module) : Module := { d with sawDominant := true }

/-- A valid frame at either port (R38, R39). -/
def Module.hearValid (d : Module) (clock : Nat) : Module := { d with lastValid := clock, sawDominant := false }

/-! ### Repeating downstream (R21, R31) -/

/-- When the next repeat at the downstream port starts: as soon as its frame has been stored, and 3 character times after
the repeat before it (R21, R31). -/
def Module.repeatStart (d : Module) (clock : Nat) : Nat :=
  match d.repeatEnd with
  | none => clock
  | some e => max clock (e + 3 * charTime d.speed)

/-- When the repeat of frame f ends. -/
def Module.repeatEndOf (d : Module) (clock : Nat) (f : DownFrame) : Nat := d.repeatStart clock + f.duration d.speed

/-- Frame f is repeated at the downstream port, at the speed it was received (R31, R38). -/
def Module.repeatDown (d : Module) (clock : Nat) (f : DownFrame) : Module × ModuleAction :=
  ({ d with repeatEnd := some (d.repeatEndOf clock f) }, ⟨some ⟨f, d.repeatStart clock, d.speed⟩, 0⟩)

/-! ### Answers (R32 to R34) -/

/-- An answer due 3 character times after the request's last character (R32). DESIGN CHOICE (log entry 65): a module holds
one answer in wait, and that of a further request replaces it. -/
def Module.answerWith (d : Module) (clock : Nat) (p : Pos) (kind tag : Byte) (payload : List Byte) : Module :=
  { d with answer := some ⟨kind, p, tag, payload, clock + 3 * charTime d.speed⟩ }

/-- The payload of a PROFILE_REPLY (13.1.2). -/
def Module.profilePayload (d : Module) : List Byte :=
  fourBytes d.serial.toNat ++ functions.flatMap fun f =>
    [byteOf (d.description[f]).n, byteOf (d.description[f]).tech, byteOf (d.description[f]).power]

/-- A restart (R34): epoch, command states, kept samples and step history are dropped, and the 20 ms self-test begins.
DESIGN CHOICE: the 20 ms count from the moment the POS_RESET is stored (log entry 53), and the time of the last
LAMP_STATE with a new epoch goes with the step history (log entry 66). -/
def Module.restart (d : Module) (clock : Nat) : Module :=
  { d with epoch := none, states := Vector.replicate 8 .unknown, kept := Vector.replicate 8 none,
           reference := Vector.replicate 8 none, newEpochAt := none, selfTestEnd := clock + 20000 }

/-- A LAMP_STATE stored: on a new epoch every kept sample and step reference is dropped (R35, R106). -/
def Module.takeLampState (d : Module) (clock : Nat) (epoch : Byte) (states : Vector CommandState 8) : Module :=
  if d.epoch = some epoch then { d with states := states }
  else
    { d with epoch := some epoch, states := states, kept := Vector.replicate 8 none,
             reference := Vector.replicate 8 none, newEpochAt := some clock }

/-- The eight command states of a LAMP_STATE payload; a code of 3 is UNKNOWN (13.1.2, R201). -/
def lampStates (hi lo : Byte) : Vector CommandState 8 :=
  Vector.ofFn fun f =>
    match num2 hi lo / 2 ^ (2 * f.val) % 4 with
    | 0 => .off
    | 1 => .on
    | 2 => .flash
    | _ => .unknown

/-- The ENUM_REPLY slot of position p (R33). -/
def enumSlot (v : Speed) (p : Pos) : Nat :=
  match v with
  | .full => 2000 * posNumber p
  | .reduced => 8000 * posNumber p

/-- The ENUM_REPLY of a module that has taken position p, due at its slot (R33). -/
def Module.enumAnswer (d : Module) (clock : Nat) (p : Pos) (tag : Byte) (coupledBeyond : Bool) : ModuleAnswer :=
  ⟨0x23, p, tag, fourBytes d.serial.toNat ++ [byteOf d.unit.code, byteOf (boolCode (!coupledBeyond))],
    clock + enumSlot d.speed p⟩

/-- What a module does with a valid ENUMERATE (R31, R33): it takes position hop + 1 and repeats the rewritten frame, or
loses its own position and does not repeat. DESIGN CHOICE (log entry 79): the downstream detect, `coupledBeyond`, is read
for the last flag when the ENUMERATE is stored. DESIGN CHOICE (log entry 81): an answer in wait when the position is lost
stays in wait, and is sent. -/
def Module.takeEnumerate (d : Module) (clock : Nat) (f : DownFrame) (coupledBeyond : Bool) : Module × ModuleAction :=
  match posOfNumber (f.target.toNat + 1) with
  | none => ({ d with position := none }, ⟨none, 0⟩)
  | some p =>
    ({ d with position := some p, answer := some (d.enumAnswer clock p f.tag coupledBeyond) } : Module).repeatDown clock
      { f with target := f.target + 1 }

/-- What a module does with a frame addressed to it (R34). DESIGN CHOICE (log entry 78): an answer, a SAMPLE with its
readings or a BUSY, is formed when its request is stored, and waits so until it is sent. -/
def Module.addressed (d : Module) (clock limit voltage : Nat) (xs : Vector Measured 8) (p : Pos) (f : DownFrame) :
    Module :=
  match f.kind with
  | .query =>
    if clock < d.selfTestEnd then d.answerWith clock p 0x22 f.tag []
    else d.answerWith clock p 0x21 f.tag (d.samplePayload limit clock voltage xs (f.payload.headD 0))
  | .profileReq =>
    if clock < d.selfTestEnd then d.answerWith clock p 0x22 f.tag []
    else d.answerWith clock p 0x24 f.tag d.profilePayload
  | .posReset => (d.restart clock).answerWith clock p 0x25 f.tag []
  | .lampState | .enumerate | .speed => d

/-- What a module does with a broadcast (R35, R38): a SPEED frame acts when its repeat has ended. -/
def Module.broadcast (d : Module) (clock : Nat) (f : DownFrame) : Module :=
  match f.kind, f.payload with
  | .lampState, [epoch, hi, lo] => d.takeLampState clock epoch (lampStates hi lo)
  | .speed, payload =>
    { d with
      switches := d.switches ++ [(d.repeatEndOf clock f, if payload = [0] then .full else .reduced)] }
  | _, _ => d

/-- What a module does on a valid frame other than ENUMERATE, beside repeating it: it acts on a broadcast, or on a frame
addressed to its position (R31). DESIGN CHOICE (log entry 67): LAMP_STATE and SPEED are broadcasts by their kind, whatever
their target byte. -/
def Module.actOn (d : Module) (clock limit voltage : Nat) (xs : Vector Measured 8) (f : DownFrame) : Module :=
  if f.kind = .lampState ∨ f.kind = .speed then d.broadcast clock f
  else
    match d.position with
    | none => d
    | some p => if f.target = byteOf (posNumber p) then d.addressed clock limit voltage xs p f else d

/-- How long a module that discards a bad frame at this time pulls the attention line: a free value in 1.5 to 2.5 ms
(R31, R105; log entry 51). -/
def discardPull (clock : Nat) : Nat := 1500 + (Config.pullBeyondLeast clock).val

/-! ### Receiving downstream (R21, R31, R39, R105) -/

/-- The upstream port's line has been recessive for 3 character times (R21). -/
def Module.gapPassed (d : Module) (clock : Nat) : Bool :=
  match d.lineActive with
  | none => true
  | some t => decide (t + 3 * charTime d.speed ≤ clock)

/-- How the module takes a first character at its upstream port (R21). DESIGN CHOICE (log entry 72): the gap counts from
what the module has received there, not from what it has sent. -/
def Module.receptionNow (d : Module) (clock : Nat) : Reception :=
  receptionAt d.received (d.gapPassed clock) clock (3 * charTime d.speed)

/-- A burst begins to arrive at an awake module's upstream port, unless one is arriving (R21, R32, R38). -/
def Module.downstreamBegins (d : Module) (clock : Nat) : Module :=
  if d.reception = .none then
    { d.seeDominant with reception := d.receptionNow clock, lineActive := some clock }
  else d

/-- The burst has ended, its last character `ago` before now; the frame was truncated or whole (R21). -/
def Module.downstreamEnds (d : Module) (clock ago : Nat) (truncated : Bool) : Module :=
  { d with reception := .none, lineActive := some (clock - ago), received := some (clock - ago, truncated) }

/-- A bad frame is discarded with a pull of the attention line (R31, R105). -/
def Module.discardFrame (d : Module) (clock : Nat) : Module × ModuleAction :=
  ({ d.seeDominant with discardPullEnd := clock + discardPull clock }, ⟨none, discardPull clock⟩)

/-- What a module does with a frame at its upstream port (R31): one that is `doomed` by the gap before it (R21), or not
valid, is bad; a valid one is repeated and acted on. -/
def Module.takeDownstream (d : Module) (clock limit voltage : Nat) (xs : Vector Measured 8) (coupledBeyond doomed : Bool)
    (w : List WireChar) : Module × ModuleAction :=
  match parseDown d.speed w with
  | none => d.discardFrame clock
  | some f =>
    if doomed then d.discardFrame clock
    else
      let heard := d.hearValid clock
      if f.kind = .enumerate then heard.takeEnumerate clock f coupledBeyond
      else (heard.actOn clock limit voltage xs f).repeatDown clock f

/-- The characters of a downstream frame have arrived at the upstream port, the last of them now (R21, R31, R39, R105).
Asleep the module does nothing. Levels that do not decode at its speed are no frame (R38). A frame that is not taken, the
one whose start woke the module among them, is no bad frame and causes no pull. A frame ends with the payload its header
gives, and a character beyond it begins a frame inside the gap (R21; log entry 62). -/
def Module.receive (d : Module) (clock limit voltage : Nat) (xs : Vector Measured 8) (coupledBeyond : Bool)
    (w : List WireChar) : Module × ModuleAction :=
  if ¬ d.awake then (d, ⟨none, 0⟩)
  else
    let e := (d.switched clock).downstreamBegins clock
    match e.reception with
    | .none => (e, ⟨none, 0⟩)
    | .skipping => (e.downstreamEnds clock 0 true, ⟨none, 0⟩)
    | .receiving doomed =>
      if foreignSpeed e.speed w then ({ e.seeDominant with reception := .none, lineActive := some clock }, ⟨none, 0⟩)
      else
        let n := frameLength e.speed w
        let taken := (e.downstreamEnds clock 0 (truncatedFrame e.speed w)).takeDownstream clock limit voltage xs
          coupledBeyond doomed (w.take n)
        if w.length ≤ n then taken else (taken.1.downstreamBegins clock, taken.2)

/-- The upstream port's line has been recessive for 2 character times within a frame: it is truncated, a bad frame
(R21, R31). -/
def Module.downstreamPauses (d : Module) (clock : Nat) : Module × ModuleAction :=
  let e := d.switched clock
  match e.reception with
  | .none => (e, ⟨none, 0⟩)
  | .skipping => (e.downstreamEnds clock (2 * charTime e.speed) true, ⟨none, 0⟩)
  | .receiving _ => (e.downstreamEnds clock (2 * charTime e.speed) true).discardFrame clock

/-- The characters of an answer, at the module's speed. -/
def ModuleAnswer.wire (a : ModuleAnswer) (v : Speed) : List WireChar :=
  wireOf v ([a.kind, byteOf (posNumber a.p), a.tag, byteOf a.payload.length] ++ a.payload)

/-! ### Repeating upstream (R32, R33) -/

/-- A frame begins to arrive at the downstream port: not repeated while the upstream port is receiving (R32). DESIGN
CHOICE (log entry 74): it is repeated at once also while the module is sending an answer of its own. -/
def Module.upstreamBegins (d : Module) (clock : Nat) : Module :=
  if ¬ d.awake then d
  else { (d.switched clock).seeDominant with upward := if d.reception = .none then .repeating none else .ignored }

/-- A character that begins to arrive at the downstream port now is sent on at the upstream port one character time later,
without any check (R32); one at the other speed is no character to this module (R19). -/
def Module.upstreamCharacter (d : Module) (clock : Nat) (c : WireChar) : Module × Option (WireChar × Nat) :=
  let e := d.switched clock
  match e.upward with
  | .repeating _ =>
    if c.speed = e.speed then
      ({ e with upward := .repeating (some (clock + 2 * charTime e.speed)) }, some (c, clock + charTime e.speed))
    else (e, none)
  | .none | .ignored => (e, none)

/-- The answer in wait starts 3 character times after an upstream repeat that is still running when it is due (R32,
R33). DESIGN CHOICE (log entry 73): one that falls due after the repeat has ended starts when it is due, however soon after. -/
def Module.putOffAnswer (d : Module) (repeatEnds : Nat) : Module :=
  { d with
    answer := d.answer.map fun a =>
      if a.due ≤ repeatEnds then { a with due := repeatEnds + 3 * charTime d.speed } else a }

/-- The upstream frame that arrived at the downstream port has ended, with the characters given: a valid one counts as
heard (R38), and the repeat ends with its last character (R32). DEDUCED (log entry 54): it is valid at this port by its
characters, check byte, kind, lengths and those fields that R201 has the part check. -/
def Module.upstreamEnds (d : Module) (clock : Nat) (w : List WireChar) : Module :=
  let e := d.switched clock
  let heard := if (parseFrame e.speed none (w.take (frameLength e.speed w))).isSome then e.hearValid clock else e
  let ended := { heard with upward := .none }
  match e.upward with
  | .repeating (some at_) => ended.putOffAnswer at_
  | .repeating none | .none | .ignored => ended

/-- The answer in wait starts now: it is due, and no upstream frame is being repeated (R32, R33). -/
def Module.sendAnswer (d : Module) (clock : Nat) : Module × Option ModuleAnswer :=
  let e := d.switched clock
  match e.upward, e.answer with
  | .repeating _, _ => (e, none)
  | .none, some a | .ignored, some a => if e.awake ∧ a.due ≤ clock then ({ e with answer := none }, some a) else (e, none)
  | .none, none | .ignored, none => (e, none)

/-! ### Measuring (R35, R37, R106) -/

/-- A measurement is a step from the reference (R106). -/
def isStep (reference current : Nat) : Bool :=
  let gap := (max reference current) - (min reference current)
  decide (20 ≤ gap ∧ reference < 4 * gap)

/-- A step with no new epoch in the last 300 ms pulls the line low for 60 ms, unless a step pull is on (R106). -/
def Module.stepPulls (d : Module) (clock : Nat) (f : Func) (current : Nat) : Bool :=
  (match d.reference[f] with | none => false | some r => isStep r current) &&
    (match d.newEpochAt with | none => true | some t => decide (t + 300000 < clock)) &&
    decide (d.stepPullEnd ≤ clock)

/-- The time the supply of f has been energised since, after a measurement (R35). -/
def Module.sinceAfter (d : Module) (clock : Nat) (f : Func) (energised : Bool) : Option Nat :=
  if ¬ energised then none
  else
    match d.energisedSince[f] with
    | none => some clock
    | some t => some t

/-- The supply of f is, or is not, energised now (R35). DEDUCED (log entry 68): since when it has been so is a fact of the
supply, and runs on while the module is asleep. -/
def Module.followSupply (d : Module) (clock : Nat) (f : Func) (energised : Bool) : Module :=
  { d with energisedSince := d.energisedSince.set f (d.sinceAfter clock f energised) }

/-- One measurement of function f (R35, R37, R106), with whether it begins a 60 ms pull. A module that is asleep does not
measure (R39). -/
def Module.measure (d : Module) (clock : Nat) (f : Func) (x : Measured) : Module × Bool :=
  let e := d.followSupply clock f x.energised
  if ¬ e.awake ∨ ¬ e.settled clock f then (e, false)
  else
    let pulls := e.stepPulls clock f x.loadCurrent
    ({ e with
        reference := e.reference.set f (some x.loadCurrent)
        kept := if e.epoch.isSome ∧ e.states[f] = .flash then
          e.kept.set f (some ⟨x.inCurrent, x.loadCurrent⟩) else e.kept
        stepPullEnd := if pulls then clock + 60000 else e.stepPullEnd }, pulls)

/-- The module holds the attention line low: while it is awake, until the later of its two pulls has ended (6.5). -/
def Module.pullsLine (d : Module) (clock : Nat) : Bool := d.awake && decide (clock < max d.stepPullEnd d.discardPullEnd)

/-! ### Sleep and supply (R39) -/

/-- 1 s after its last valid frame a module falls asleep (R39). DEDUCED: a pull that is still running ends then, since a
module pulls only while it is awake (log entry 69); the time its supplies have been energised stays (log entry 68). -/
def Module.fallAsleep (d : Module) (clock : Nat) : Module :=
  if d.awake ∧ d.lastValid + 1000000 ≤ clock then
    { d.switched clock with
      awake := false, epoch := none, states := Vector.replicate 8 .unknown, kept := Vector.replicate 8 none,
      reference := Vector.replicate 8 none, newEpochAt := none, stepPullEnd := min d.stepPullEnd clock,
      discardPullEnd := min d.discardPullEnd clock, reception := .none, lineActive := none, received := none,
      upward := .none, answer := none, switches := [], repeatEnd := none }
  else d

/-- A sleeping module wakes and begins its self-test (R39). DESIGN CHOICE (log entry 52): the 1 s of R39 and the 150 ms of
R38 then count from the wake. -/
def Module.wake (d : Module) (clock : Nat) : Module :=
  if d.awake then d
  else { d with awake := true, selfTestEnd := clock + 20000, lastValid := clock, sawDominant := false }

/-- A falling edge of the attention line wakes a sleeping module (R39). DESIGN CHOICE (log entry 70): it takes the next
character at its upstream port as the first of a frame. -/
def Module.attentionFalls (d : Module) (clock : Nat) : Module := d.wake clock

/-- A dominant level at the upstream port: an awake module begins to receive a frame; a sleeping one wakes, and does not
receive the frame whose start woke it (R39, R105). -/
def Module.upstreamPortDominant (d : Module) (clock : Nat) : Module :=
  if d.awake then (d.switched clock).downstreamBegins clock
  else { d.wake clock with reception := .skipping, lineActive := some clock, sawDominant := true }

/-- A module that powers up (R39): awake, at FULL, with no position and no epoch. DESIGN CHOICE (log entry 52): the 1 s of
R39 and the 150 ms of R38 count from the power-up. -/
def Module.powerUp (serial : Serial) (unit : UnitKind) (description : Vector Described 8) (clock : Nat) : Module where
  position := none
  serial := serial
  unit := unit
  description := description
  speed := .full
  awake := true
  selfTestEnd := clock + 20000
  epoch := none
  states := Vector.replicate 8 .unknown
  energisedSince := Vector.replicate 8 none
  kept := Vector.replicate 8 none
  reference := Vector.replicate 8 none
  newEpochAt := none
  stepPullEnd := clock
  discardPullEnd := clock
  lastValid := clock
  lastSwitch := clock
  sawDominant := false
  reception := .none
  lineActive := none
  received := none
  repeatEnd := none
  switches := []
  upward := .none
  answer := none

/-- What is left of a module that loses its upstream supply: it loses everything it holds (R39), and a pull of the
attention line with it (6.5). It comes back by `Module.powerUp` alone. -/
def Module.loseSupply (_ : Module) : Option Module := none

end Sys2Proof.Machine
end

