-- ==== Sys2Proof/Tests/Slice0.lean ====
section
/-! SUPPORT. Tests: smoke tests of well-formedness, the manual's worked cases, and for every statement with hypotheses
a state and operands that meet them. -/

namespace Sys2Proof.Machine

/-! ### Changes of a state -/

/-- With a Query Queue of n PROFILE entries for position 4. -/
def State.queued_ (s : State) (n : Nat) : State := s.withQueue (List.replicate n ⟨.profile 3, 9000⟩)

/-- A judgement of lamp cell (2, STOP) as an event at the time given, in milliseconds. -/
def State.judgedAt (s : State) (ms : Nat) (j : Judgement) : State :=
  (({ s with clock := ms * 1000 } : State).takeJudgement (.lamp 1 1) j).conclude s.faults

/-- ASLEEP, the ignition LOW. -/
def State.asleep (s : State) : State :=
  { s with ignition := { s.ignition with part := .asleep, high := false, quietSince := some 8000 } }

/-- With the given Fault List records. -/
def State.listing (s : State) (rs : List FaultRecord) : State := s.withRecords rs

/-- With an apply, begun by request 7 of the service tool, that waits on the positions given. -/
def State.waiting_ (s : State) (waiting : List Pos) (persist : Bool) : State :=
  { s with apply := some ⟨waiting, persist, 0, ⟨.service, 7⟩⟩ }

/-- The same levels with the socket UNCOUPLED. -/
def Inputs.uncoupled (x : Inputs) : Inputs := { x with socketCoupled := false }

end Sys2Proof.Machine

namespace Sys2Proof.Tests

open Sys2Proof.Machine

set_option Elab.async false

/-! ### Helpers -/

/-- Ignition HIGH, socket COUPLED, the line high, nothing driven, 26.4 V. -/
def live : Inputs := { Inputs.atRest with ignitionHigh := true, socketCoupled := true, voltage := 264 }

def at_ (elapsed : Nat) : Moment := ⟨elapsed, live⟩

def after (i : Instr) (s : State) : State :=
  match exec i s with
  | .next t => t
  | .fault x => nomatch x
  | .refused _ => s

def afterAll (is : List Instr) (s : State) : State := is.foldl (fun t i => after i t) s

/-- A profile of n filament lamps of 21 W. -/
def bulbs (n : Nat) : Profile := ⟨n, .filament, 42, none⟩

def unit (serial : Option Serial) (x : PosState) : PosRecord where
  state := x
  serial := serial
  kind := .trailer
  streak := 0
  source := .module
  coupledAt := 500
  applied := Vector.replicate 8 (some (bulbs 4))
  staged := Vector.replicate 8 none
  changed := Vector.replicate 8 false
  wanted := false

/-- Position 1 PRESENT with a flagged entry that changes TAIL and one that leaves STOP as it is. -/
def staged_ : PosRecord :=
  { unit (some 1) .present with
    staged := ((Vector.replicate 8 none).set 0 (some (bulbs 2))).set 1 (some (bulbs 4))
    changed := ((Vector.replicate 8 false).set 0 true).set 1 true }

/-- On the road at 10 s: RUNNING, LIVE, positions 1 PRESENT, 2 SILENT, 3 LOST; TAIL ON, TURN_L FLASH, the rest OFF
under epoch 17; the link free, its last frame 100 ms ago. -/
def road : State :=
  { State.reset with
    clock := 10000000
    inputs := live
    intake := ⟨#v[.on, .off, .flash, .off, .off, .off, .off, .off], 17, false, false, 9900⟩
    sense := ⟨Vector.replicate 8 ⟨false, none, 0⟩, true⟩
    link := { State.reset.link with lastFrameSent := some 9900, lineActive := some 9900000 }
    attention := ⟨true, .idle, false⟩
    scheduler :=
      { State.reset.scheduler with broadcastOwed := false, lastLampState := some 9800, tag := 90, lastRound := some 9800 }
    enumerator := ⟨.idle, none, true⟩
    train := ⟨#v[some (unit (some 1) .present), some (unit (some 2) .silent), some (unit none .lost), none, none, none],
      .live, true⟩
    cells :=
      { CellTable.allAbsent with
        lamp := #v[Vector.replicate 8 Cell.fresh, Vector.replicate 8 Cell.fresh, Vector.replicate 8 Cell.fresh,
          Vector.replicate 8 Cell.absent, Vector.replicate 8 Cell.absent, Vector.replicate 8 Cell.absent]
        line := Vector.replicate 8 Cell.fresh
        segment := #v[Vector.replicate 8 Cell.fresh, Vector.replicate 8 Cell.fresh, Vector.replicate 8 Cell.fresh,
          Vector.replicate 8 Cell.fresh, Vector.replicate 8 Cell.absent, Vector.replicate 8 Cell.absent,
          Vector.replicate 8 Cell.absent] }
    report := { State.reset.report with lastImage := some ([], 9800), lastSummary := some ([], 9500) }
    ignition := { State.reset.ignition with part := .running, high := true, quietSince := none } }

/-- The 112 keys' first 24 lamp sites, one record each. -/
def manyRecords (n : Nat) (x : RecordState) : List FaultRecord :=
  (cellKeys.take n).mapIdx fun i k => ⟨i + 1, .cell k, .openCircuit, 3, x, none, 0, 0, 1, none⟩

/-- A request of the service tool. -/
def service (kind : Nat) (data : List Byte) : Request := ⟨kind, .service, data⟩

/-! ### Well-formedness: an ill-formed command for each check -/

theorem smoke_request_of_its_row : (Instr.faultRead (at_ 0) (service 1 [7, 0])).wellFormed = true := by decide +kernel
theorem smoke_request_of_another_row : (Instr.faultRead (at_ 0) (service 4 [7, 0])).wellFormed = false := by
  decide +kernel
theorem smoke_request_kind : (Instr.identRead (at_ 0) (service 16 [7])).wellFormed = false := by decide +kernel
theorem smoke_request_length :
    (Instr.identRead (at_ 0) (service 15 [1, 2, 3, 4, 5, 6, 7, 8, 9])).wellFormed = false := by decide +kernel
theorem smoke_can_frame_length :
    (Instr.requestReceive (at_ 0) ⟨0x500, false, [1, 2, 3, 4, 5, 6, 7, 8, 9]⟩).wellFormed = false := by decide +kernel
theorem smoke_frame_empty : (Instr.crcFailure (at_ 0) []).wellFormed = false := by decide +kernel
theorem smoke_frame_too_long :
    (Instr.crcFailure (at_ 0) (List.replicate 54 ⟨0, false, true, .full⟩)).wellFormed = false := by decide +kernel
theorem smoke_frame_of_another_kind :
    (Instr.resetDone (at_ 0) (wireOf .full [0x22, 1, 5, 0])).wellFormed = false := by decide +kernel
theorem smoke_frame_of_its_kind : (Instr.busy (at_ 0) (wireOf .full [0x22, 1, 5, 0])).wellFormed = true := by
  decide +kernel
theorem smoke_stray_that_is_no_frame :
    (Instr.strayFrame (at_ 0) [⟨0x0F, true, true, .full⟩]).wellFormed = false := by decide +kernel
theorem smoke_settle_test_of_an_undriven_line : (Instr.settleTestPoint (at_ 0) 0).wellFormed = false := by
  decide +kernel
theorem smoke_fall_with_the_line_high : (Instr.attentionFall (at_ 0)).wellFormed = false := by decide +kernel
theorem smoke_rise_with_the_line_low :
    (Instr.attentionRise ⟨0, { live with attentionHigh := false }⟩).wellFormed = false := by decide +kernel

/-! ### Characters and check byte (the examples of 2.1.1 and R22) -/

theorem test_crc_of_zero : crc8 [0x00] = 0x42 := by decide +kernel

theorem test_char_examples :
    encodeChar .full 0x00 = ⟨0xFF, true, true, .full⟩ ∧ encodeChar .full 0x07 = ⟨0xF8, true, true, .full⟩ ∧
      encodeChar .full 0x0F = ⟨0x0F, false, true, .full⟩ ∧ encodeChar .full 0xA5 = ⟨0xA5, false, true, .full⟩ ∧
      encodeChar .full 0x42 = ⟨0xBD, true, true, .full⟩ := by decide +kernel

theorem test_char_with_the_wrong_flag : decodeChar .full ⟨0x0F, true, true, .full⟩ = none := by decide +kernel

theorem test_char_of_the_other_speed : decodeChar .full (encodeChar .reduced 0x42) = none := by decide +kernel

/-- A QUERY is 6 characters, 1.056 ms at FULL; the longest frame takes 9.328 ms at FULL and 37.312 ms at REDUCED (2.3.1,
R21). -/
theorem test_frame_times :
    (Sent.frame (.query 2 1) 91).duration .full = 1056 ∧
      (DownFrame.mk .query 0 0 (List.replicate 48 0)).duration .full = 9328 ∧
      (DownFrame.mk .query 0 0 (List.replicate 48 0)).duration .reduced = 37312 := by decide +kernel

/-! ### Judgement (the worked cases of 7.3.5 and 7.5.1) -/

def reading (voltage load : Nat) (saturated : Bool) : Sample :=
  ⟨load, load, voltage, 17, true, 0, saturated, saturated⟩

def judged (n power : Nat) (tech : Tech) (voltage load : Nat) : Judged :=
  judgeCircuit Config.defaultSettings (some ⟨n, tech, power, none⟩) (reading voltage load false)

theorem test_case_1_a_lamp_out :
    judged 4 42 .filament 264 2790 = ⟨.verdict (.bad (.partialLoss 1)), some true⟩ := by decide +kernel
theorem test_case_2_overload : judged 4 42 .filament 264 5300 = ⟨.verdict (.bad .overload), none⟩ := by decide +kernel
theorem test_case_3_led :
    judged 6 4 .led 270 372 = ⟨.verdict .good, some false⟩ ∧ judged 6 4 .led 270 370 = ⟨.verdict .good, some false⟩ ∧
      judged 6 4 .led 270 296 = ⟨.verdict (.bad (.partialLoss 2)), some false⟩ := by decide +kernel
theorem test_case_4_saturated :
    judgeCircuit Config.defaultSettings (some (bulbs 15)) (reading 264 16000 true) = ⟨.hold .saturatedUnusable, none⟩ ∧
      judgeCircuit Config.defaultSettings (some (bulbs 4)) (reading 264 16000 true) =
        ⟨.verdict (.bad .overload), none⟩ := by decide +kernel
theorem test_case_5_single_lamp :
    judged 1 42 .filament 264 600 = ⟨.verdict (.bad .openCircuit), some true⟩ ∧
      judged 1 42 .filament 176 850 = ⟨.hold .lowSupply, none⟩ ∧
      judged 1 42 .filament 264 30 = ⟨.verdict (.bad .openCircuit), none⟩ := by decide +kernel
theorem test_case_6_unfitted :
    judged 0 1 .led 264 25 = ⟨.hold .notFitted, some false⟩ ∧
      judged 0 1 .led 264 180 = ⟨.verdict (.bad .unexpectedLoad), none⟩ := by decide +kernel

/-- The dead link of 7.5.1: the TAIL profiles of the two SILENT units. -/
def deadLink (tail1 tail2 : Option Profile) : State :=
  let x := fun t => { unit none .silent with applied := (unit none .silent).applied.set 0 t }
  { road with train := ⟨#v[some (x tail1), some (x tail2), none, none, none, none], .down, false⟩ }

theorem test_line_judgement :
    let s := deadLink (some ⟨4, .filament, 10, none⟩) (some ⟨6, .led, 4, none⟩)
    s.judgeLine 0 (reading 270 1000 false) = ⟨.verdict (.bad (.partialLoss 2)), some false⟩ ∧
      s.judgeLine 0 (reading 270 1090 false) = ⟨.verdict .good, some false⟩ ∧
      s.judgeLine 0 (reading 270 30 false) = ⟨.verdict (.bad .openCircuit), none⟩ ∧
      s.judgeLine 0 (reading 174 1000 false) = ⟨.hold .lowSupply, none⟩ := by decide +kernel

theorem test_line_judgement_of_other_maps :
    (deadLink (some ⟨4, .filament, 10, none⟩) none).judgeLine 0 (reading 270 1000 false) =
        ⟨.verdict .good, some true⟩ ∧
      (deadLink (some (bulbs 0)) (some (bulbs 0))).judgeLine 0 (reading 270 1000 false) =
        ⟨.verdict (.bad .unexpectedLoad), none⟩ ∧
      State.reset.judgeLine 0 (reading 270 1000 false) = ⟨.hold .notFitted, some false⟩ ∧
      (State.reset.judgeLine 0 (reading 270 30 false)).ruling = .verdict (.bad .openCircuit) := by decide +kernel

/-! ### Harness balance (the tables of 8.7 and 8.7.1) -/

def taken (current load : Nat) (at_ : Time) : Sample := ⟨current, load, 264, 41, true, at_, false, false⟩

/-- The chafed train with the ends of 60012 and 60019, the second position's in-current as given. -/
def chafed (in2 : Nat) : State :=
  let s := { road with
    intake := ⟨#v[.on, .off, .off, .off, .off, .off, .off, .off], 41, false, false, 59900⟩
    train := ⟨#v[some (unit (some 1) .present), some (unit (some 2) .present), some (unit (some 3) .present), none, none,
      none], .live, true⟩ }
  (((s.setCell (.line 0) { Cell.fresh with sample := some (taken 2150 0 60000) }).setCell (.lamp 0 0)
    { Cell.fresh with sample := some (taken 2120 640 60006) }).setCell (.lamp 1 0)
    { Cell.fresh with sample := some (taken in2 610 60012) }).setCell (.lamp 2 0)
    { Cell.fresh with sample := some (taken 615 600 60019) }

theorem test_chafed_feed :
    (chafed 1230).harnessRuling 0 0 false = some (.verdict .good) ∧
      (chafed 1230).harnessRuling 1 0 false = some (.verdict (.bad .leak)) ∧
      (chafed 1230).harnessRuling 2 0 false = some (.verdict .good) ∧
      (chafed 1230).harnessRuling 3 0 true = some (.verdict .good) := by decide +kernel

theorem test_sense_conflict_between_leaks :
    (chafed 1700).harnessRuling 1 0 false = some (.verdict (.bad .senseConflict)) ∧
      (chafed 1700).harnessRuling 2 0 false = some (.verdict (.bad .leak)) := by decide +kernel

/-! ### Qualification (the worked sequence of 9.5) -/

/-- Lamp cell (2, STOP) CLEAN, the list at ten records with id 40 next, revision 100. -/
def stopCircuit : State :=
  let s := road.setRecord 1 (some (unit (some 50102) .present))
  { s.setCell (.lamp 1 1) { Cell.fresh with state := .clean } with
    faults := ⟨(manyRecords 26 .activeAck).drop 16, 40, false, 100⟩ }

def stop1600 : State :=
  ((stopCircuit.judgedAt 1000 (.bad (.partialLoss 1))).judgedAt 1200 (.bad (.partialLoss 1))).judgedAt 1600
    (.bad (.partialLoss 2))

theorem test_third_judgement_confirms :
    (stop1600.cell (.lamp 1 1)).state = .faulted ∧ (stop1600.cell (.lamp 1 1)).confirmed = some (.partialLoss 2) ∧
      (stop1600.cell (.lamp 1 1)).confirmedAt = some 1600 ∧ (stop1600.cell (.lamp 1 1)).listed = true ∧
      stop1600.faultAt (.cell (.lamp 1 1)) =
        some ⟨40, .cell (.lamp 1 1), .partialLoss, 2, .activeUnack, some 2, 1600, 1600, 1, some 50102⟩ ∧
      stop1600.faults.revision = 101 := by decide +kernel

def stop2000 : State :=
  after (.faultAck ⟨200000, live⟩ ⟨2, .cluster, [5, 40, 0, 2, 1]⟩) (stop1600.judgedAt 1800 (.bad (.partialLoss 1)))

theorem test_ack_after_a_change_of_k :
    (stop2000.faultAt (.cell (.lamp 1 1))).map (fun x => (x.state, x.lampsOut, x.lastChange)) =
        some (.activeAck, some 1, 2000) ∧
      stop2000.faults.revision = 103 ∧
      stop2000.report.transmit = [⟨.reply, [0x12, 5, 0, 0, 0, 0], none⟩] := by decide +kernel

def stop3000 : State :=
  let open_ := Judgement.bad .openCircuit
  ((((stop2000.judgedAt 2200 open_).judgedAt 2400 (.bad (.partialLoss 1))).judgedAt 2600 open_).judgedAt 2800
    open_).judgedAt 3000 open_

theorem test_escalation_after_three :
    (stop3000.cell (.lamp 1 1)).confirmed = some .openCircuit ∧ (stop3000.cell (.lamp 1 1)).confirmedAt = some 1600 ∧
      (stop3000.faultAt (.cell (.lamp 1 1))).map (fun x => (x.kind, x.severity, x.state, x.lampsOut, x.occurrences)) =
        some (.openCircuit, 4, .activeUnack, none, 2) ∧
      stop3000.faults.revision = 104 := by decide +kernel

theorem test_five_good_heal :
    let s := ((((((((stop3000.judgedAt 3200 .good).judgedAt 3400 .good).judgedAt 3600 (.bad .openCircuit)).judgedAt 3800
      .good).judgedAt 4000 .good).judgedAt 4200 .good).judgedAt 4400 .good).judgedAt 4600 .good)
    (s.cell (.lamp 1 1)).state = .clean ∧ (s.faultAt (.cell (.lamp 1 1))).map FaultRecord.state = some .healedUnack ∧
      s.faults.revision = 105 := by decide +kernel

/-- 9.6 at 9400 and 9700: a full list without a healed record overflows, and a place that frees admits the cell. -/
theorem test_overflow_and_admission :
    let full := { stopCircuit with
      faults := ⟨manyRecords 24 .activeAck, 27, false, 202⟩, ignition := { road.ignition with
        settings := { Config.defaultSettings with qSet := 1 } } }
    let s := (({ full with clock := 9400000 } : State).takeJudgement (.segment 0 1) (.bad .leak)).conclude full.faults
    let t := (({ s with clock := 9700000 } : State).healFault (.cell (.lamp 0 0))).conclude s.faults
    s.faults.overflow = true ∧ s.faults.revision = 203 ∧ s.faults.records.length = 24 ∧
      t.faults.overflow = false ∧ t.faults.records.length = 24 ∧
      (t.faultAt (.cell (.segment 0 1))).map (fun x => (x.id, x.firstRaised, x.lastChange)) =
        some (27, 9400, 9700) := by decide +kernel

/-! ### Commands in sequence -/

def body (kind : Nat) (data : List Byte) : Request := ⟨kind, .body, data⟩

/-- A SITE_CLEAR and a PROFILE_APPLY of the body controller. -/
def clearOf (kind number function : Byte) : Request := body 5 [1, kind, number, function]
def applyOf (mask persist : Byte) : Request := body 7 [1, mask, persist]

/-- 1.2.3 up to 10230: TAIL ON is code 1 in bits 0 and 1, TURN_L FLASH code 2 in bits 4 and 5. -/
def commanded : State :=
  afterAll [.lampCommand (at_ 0) (body 0 [0x00, 0x01, 0]), .lampCommand (at_ 80000) (body 0 [0x00, 0x21, 1]),
    .lampCommand (at_ 100000) (body 0 [0x00, 0x21, 1]), .lampCommand (at_ 50000) (body 0 [0x00, 0x21, 1])]
    { road with intake := ⟨#v[.on, .off, .off, .off, .off, .off, .off, .off], 17, false, false, 9900⟩ }

theorem test_lamp_commands :
    commanded.intake = ⟨#v[.on, .off, .flash, .off, .off, .off, .off, .off], 18, true, false, 10230⟩ ∧
      commanded.scheduler.broadcastOwed = true := by decide +kernel

/-- Not before 10730, and then with every lamp and line cell held. -/
theorem test_command_loss :
    (after (.commandLoss (at_ 499000)) commanded).intake = commanded.intake ∧
      (after (.commandLoss (at_ 500000)) commanded).intake =
        ⟨Vector.replicate 8 .unknown, 19, true, true, 10230⟩ ∧
      ((after (.commandLoss (at_ 500000)) commanded).cell (.line 3)).hold = some .commandLost ∧
      ((after (.commandLoss (at_ 500000)) commanded).cell (.segment 1 3)).hold = none := by decide +kernel

/-- 5.4.1: QUERY of STOP and TURN_L (mask 6) taken for position 2 at tag 16. -/
def queried : State :=
  let s := { road with
    intake := ⟨#v[.off, .on, .flash, .off, .off, .off, .off, .off], 30, false, false, 9900⟩
    scheduler := { road.scheduler with queue := [⟨.query 1 6 .scan, 9900⟩], tag := 16 } }
  after (.linkIdle (at_ 1000)) s

def framesSent (s : State) : BitVec 32 := (s.counters[0]).value

theorem test_query_takes_the_next_tag :
    queried.scheduler.slot = .addressed ⟨.query 1 6, 1, 0, 17, false, false, .onLink⟩ ∧
      queried.link.phase = .sending ⟨.query, 2, 17, [6]⟩ 10002056 ∧ framesSent queried = 1 := by decide +kernel

/-- The QUERY ends after 1.056 ms, and the reply timer of position 2 runs 5 ms. -/
def awaited : State := after (.frameTransmitEnd (at_ 1056)) queried

theorem test_reply_timer : awaited.link.phase = .awaiting (.running 10007056) := by decide +kernel

/-- BUSY taken; the reissue 5 ms later takes tag 18. -/
def reissued : State :=
  afterAll [.frameReceiveStart (at_ 1000), .busy (at_ 880) (wireOf .full [0x22, 2, 17, 0]), .reissueDue (at_ 5000),
    .linkIdle (at_ 0)] awaited

theorem test_busy_is_reissued :
    reissued.scheduler.slot = .addressed ⟨.query 1 6, 1, 1, 18, false, false, .onLink⟩ ∧ framesSent reissued = 2 := by
  decide +kernel

/-- A CRC failure, attempt 2 with tag 19, a LAMP_COMMAND with STOP OFF, and a SAMPLE of epoch 30: the entry of TURN_L is
held STALE and the cell of STOP stands. -/
theorem test_crc_failure_and_stale_sample :
    let s := afterAll [.frameTransmitEnd (at_ 1056), .frameReceiveStart (at_ 1000),
      .crcFailure (at_ 880) (wireOf .full [0x22, 2, 18, 1]), .linkIdle (at_ 1000), .frameTransmitEnd (at_ 1056),
      .lampCommand (at_ 100) (body 0 [0x00, 0x20, 0]), .frameReceiveStart (at_ 1000),
      .sample (at_ 3168) (wireOf .full ([0x21, 2, 19, 13, 1, 8, 30] ++ [0x10, 4, 0, 4, 0] ++ [0x10, 4, 0, 4, 0]))] reissued
    s.scheduler.slot = .empty ∧ s.posState 1 = some .present ∧ s.intake.epoch = 31 ∧
      (s.cell (.lamp 1 2)).hold = some .stale ∧ (s.cell (.lamp 1 1)).hold = none ∧
      s.scheduler.broadcastOwed = true := by decide +kernel

/-- An accepted entry of a SAMPLE is stored and judged: 1024 mA of four 21 W lamps at 26.4 V. -/
theorem test_sample_is_judged :
    let s := afterAll [.frameReceiveStart (at_ 1000),
      .sample (at_ 3168) (wireOf .full ([0x21, 2, 17, 13, 1, 8, 30] ++ [0x10, 4, 0, 4, 0] ++ [0x01, 4, 0, 4, 0]))] awaited
    ((s.cell (.lamp 1 1)).sample.map fun x => (x.inCurrent, x.loadCurrent, x.voltage)) = some (1024, 1024, 264) ∧
      (s.cell (.lamp 1 1)).candidate = some (.partialLoss 3) ∧ (s.cell (.lamp 1 2)).hold = some .settling := by
  decide +kernel

/-- With RETRY_LIMIT 2, three timeouts end the request and count toward the silent streak. -/
theorem test_three_timeouts :
    let again := [Instr.replyTimerEnd (at_ 5000), .linkIdle (at_ 0), .frameTransmitEnd (at_ 1056)]
    let s := afterAll (again ++ again ++ [.replyTimerEnd (at_ 5000)]) awaited
    s.scheduler.slot = .empty ∧ (s.record 1).map PosRecord.streak = some 1 ∧ framesSent s = 3 := by decide +kernel

/-! ### From power-on to a train map -/

def coldStart : State := after (.powerOn (at_ 0) .powerOn) State.reset

theorem test_power_on :
    coldStart.ignition.part = .waking ∧ coldStart.train.linkState = .down ∧
      coldStart.scheduler.queue = [⟨.enumerate, 0⟩] := by decide +kernel

/-- The wake pulse precedes the first frame, the LAMP_STATE owed: low for 2 ms, then 5 ms of hold. -/
def pulsed : State := after (.linkIdle (at_ 1000)) coldStart

theorem test_wake_pulse :
    (match pulsed.link.phase with | .wakeDrive f t => (f.kind, t) | _ => (.query, 0)) = (.lampState, 3000) ∧
      pulsed.attention.monitor = .ownDrive ∧
      (match (after (.wakePulseRelease (at_ 2000)) pulsed).link.phase with | .wakeHold _ t => t | _ => 0) = 8000 := by
  decide +kernel

/-- The first ENUMERATE attempt, its window open for 22 ms. -/
def collecting : State :=
  afterAll [.wakePulseRelease (at_ 2000), .wakePulseHoldEnd (at_ 5000), .frameTransmitEnd (at_ 1408), .linkIdle (at_ 528),
    .frameTransmitEnd (at_ 880)] pulsed

theorem test_window_opens :
    collecting.link.phase = .collecting (collecting.clock + 22000) ∧ collecting.scheduler.slot = .enumerating 1 false := by
  decide +kernel

/-- Two units answer, the second with its last flag: a map of two PRESENT positions, and RUNNING. -/
def enumerated : State :=
  afterAll [.frameReceiveStart (at_ 1000), .enumReply (at_ 1760) (wireOf .full [0x23, 1, 1, 6, 0, 0, 0, 9, 0, 0]),
    .frameReceiveStart (at_ 1000), .enumReply (at_ 1760) (wireOf .full [0x23, 2, 1, 6, 0, 0, 0, 8, 1, 1]),
    .collectionWindowEnd (at_ 16480)] collecting

theorem test_enumeration :
    enumerated.ignition.part = .running ∧ enumerated.train.linkState = .live ∧ enumerated.train.endCertain = true ∧
      (enumerated.record 1).map (fun x => (x.serial, x.kind, x.wanted)) = some (some 8, .dolly, true) ∧
      enumerated.record 2 = none ∧ enumerated.scheduler.roundAtOnce = true := by decide +kernel

theorem test_first_answer_for_a_position_stands :
    let s := afterAll [.frameReceiveStart (at_ 1000), .enumReply (at_ 1760) (wireOf .full [0x23, 1, 1, 6, 0, 0, 0, 9, 0, 0]),
      .frameReceiveStart (at_ 1000), .enumReply (at_ 1760) (wireOf .full [0x23, 1, 1, 6, 0, 0, 0, 7, 0, 0])] collecting
    (match s.enumerator.phase with | .running _ a => (a[0]).map EnumAnswer.serial | _ => none) = some 9 := by
  decide +kernel

/-- The first entry of the queue after the enumeration asks position 1 for its description; one lamp of 5 W each. -/
theorem test_description_is_applied :
    let s := afterAll [.linkIdle (at_ 1000), .frameTransmitEnd (at_ 880), .frameReceiveStart (at_ 1000),
      .profileReply (at_ 5808) (wireOf .full ([0x24, 1, 2, 28, 0, 0, 0, 9] ++ [20, 1, 0] ++ List.replicate 21 1))] enumerated
    (s.appliedProfile 0 0) = some ⟨15, .led, 1, none⟩ ∧ (s.appliedProfile 0 1) = some ⟨1, .led, 1, none⟩ ∧
      (s.record 0).map PosRecord.wanted = some false := by decide +kernel

/-! ### The attention line (6.7) -/

def low : Inputs := { live with attentionHigh := false }

theorem test_short_pulse_owes_a_broadcast :
    let s := afterAll [.attentionFall ⟨1000, low⟩, .attentionRise (at_ 2000), .pulseTaken (at_ 500)] road
    s.attention.monitor = .idle ∧ s.scheduler.broadcastOwed = true ∧ s.scheduler.queue = [] := by decide +kernel

/-- A pulse of 80 ms sweeps the PRESENT positions for the lit functions, TAIL and TURN_L. -/
theorem test_long_pulse_sweeps :
    let s := afterAll [.attentionFall ⟨1000, low⟩, .attentionRise (at_ 80000), .pulseTaken (at_ 500)] road
    (s.scheduler.queue.map Entry.work) = [.query 0 5 .sweep] ∧ s.scheduler.broadcastOwed = false := by decide +kernel

def stuckLine : State := afterAll [.attentionFall ⟨1000, low⟩, .lineStuck ⟨500000, low⟩] road

theorem test_line_stuck :
    stuckLine.attention = ⟨false, .stuck none, true⟩ ∧
      (stuckLine.faultAt .link).map (fun x => (x.kind, x.severity, x.state)) =
        some (.attentionStuck, 2, .activeUnack) := by decide +kernel

theorem test_stuck_line_is_released :
    let s := afterAll [.attentionRise (at_ 1000), .stuckRelease (at_ 1000000)] stuckLine
    s.attention = ⟨true, .idle, false⟩ ∧ (s.faultAt .link).map FaultRecord.state = some .healedUnack := by
  decide +kernel

/-- With 24 active records the raise is offered again after 500 ms. -/
theorem test_stuck_raise_is_retried :
    let full := { stuckLine with
      faults := ⟨manyRecords 24 .activeAck, 25, false, 0⟩, attention := ⟨false, .stuck (some 10600000), true⟩ }
    (after (.stuckRaiseRetry ⟨99000, low⟩) full).attention.monitor = .stuck (some 11100000) ∧
      (after (.stuckRaiseRetry ⟨99000, low⟩) { full with faults := ⟨manyRecords 23 .activeAck, 25, false, 0⟩ }).attention
        = ⟨false, .stuck none, true⟩ := by decide +kernel

/-! ### Requests -/

/-- SETTING_WRITE of SCAN_PERIOD 205 is brought down to its step of 10 and answered CLAMPED, operation 0. -/
theorem test_setting_write_clamps :
    let s := after (.settingWrite (at_ 0) (service 10 [3, 0, 0, 0, 205])) road
    s.ignition.settings.scanPeriod = 200 ∧
      s.report.transmit = [⟨.reply, [0x2A, 3, BitVec.ofNat 8 Status.clamped.code, 0, 0, 0], none⟩] := by decide +kernel

theorem test_setting_write_of_retry_limit_is_held :
    let s := after (.settingWrite (at_ 0) (service 10 [3, 0, 2, 0, 0])) awaited
    s.ignition.settings.retryLimit = 2 ∧
      (s.report.transmit.map fun x => x.data[2]?) = [some (BitVec.ofNat 8 Status.held.code)] := by decide +kernel

/-- IDENT_READ, which the cluster may not send. -/
theorem test_cluster_is_refused :
    (after (.identRead (at_ 0) ⟨15, .cluster, [4]⟩) road).report.transmit =
      [⟨.reply, [0x1F, 4, BitVec.ofNat 8 Status.refusedSource.code, 0, 0, 0], none⟩] := by decide +kernel

/-- Part code 6C06, revision 1, CAN_BASE 0500. -/
theorem test_ident_read :
    ((after (.identRead (at_ 0) (service 15 [4])) road).report.transmit.map Message.data) =
      [[0x2F, 4, 0, 0, 0, 0], [0x2F, 4, 0, 0x6C, 0x06, 1, 0, 1], [0x2F, 4, 1, 5, 0, 0, 0, 0]] := by decide +kernel

/-- Nine places of the transmit queue must be free. -/
theorem test_request_waits_for_room :
    let filled := fun n => { road with
      report := { road.report with transmit := List.replicate n ⟨.reply, [], none⟩ } }
    (after (.identRead (at_ 0) (service 15 [4])) (filled 16)).report.transmit.length = 16 ∧
      (after (.identRead (at_ 0) (service 15 [4])) (filled 15)).report.transmit.length = 18 := by decide +kernel

theorem test_profile_stage_clamps :
    let s := after (.profileStage (at_ 0) (body 6 [1, 1, 0, 16, 0, 0, 0, 20])) road
    ((s.record 0).bind fun x => x.staged[0]) = some ⟨15, .filament, 1, some 30⟩ ∧
      (s.report.transmit.map fun x => x.data[2]?) = [some (BitVec.ofNat 8 Status.clamped.code)] := by decide +kernel

/-- A staged profile is applied, resets its lamp cell, and with persistence goes to the Library. -/
theorem test_profile_apply_persists :
    let s := afterAll [.profileStage (at_ 0) (body 6 [1, 1, 0, 2, 0, 42, 0, 0]),
      .profileApply (at_ 0) (body 7 [2, 1, 1])] road
    s.appliedProfile 0 0 = some (bulbs 2) ∧ (s.record 0).map PosRecord.source = some .staged ∧ s.apply = none ∧
      (s.ignition.library.entries.map fun e => (e.serial, e.profiles[0])) = [(1, bulbs 2)] ∧
      s.ignition.library.counter = 1 := by decide +kernel

theorem test_position_reset :
    let s := after (.positionReset (at_ 0) (service 9 [7, 1])) road
    s.scheduler.queue = [⟨.posReset 0 ⟨.service, 7⟩, 10000⟩] ∧ s.report.transmit = [] := by decide +kernel

/-- A save, with a write during it: the stored image is the snapshot, and the working setting stays. -/
theorem test_save_stores_the_snapshot :
    let s := afterAll [.settingSave (at_ 0) (service 10 [1, 2]), .settingWrite (at_ 0) (service 10 [2, 0, 9, 0, 4]),
      .saveEnd (at_ 9000) true] road
    s.ignition.settings.qSet = 4 ∧ s.ignition.stored.map (fun x => x.settings.qSet) = some 3 ∧
      s.ignition.status = .valid ∧ s.report.transmit.map Message.data = [[0x2A, 2, 0, 0, 0, 0], [0xAA, 1, 0, 0, 0, 0]] := by
  decide +kernel

/-- Counter 1 on SCAN_SKIPPED (code 9) for positions 0 and 2, read with clear. -/
theorem test_counters :
    let s := after (.counterSetup (at_ 0) (service 11 [1, 0, 1, 9, 0x05])) road
    let t := after (.counterRead (at_ 0) (service 11 [2, 1, 1, 1])) ((s.countEvent .scanSkipped (some 2)).countEvent
      .scanSkipped (some 1))
    s.counters[1] = ⟨.scanSkipped, 5, 0, false⟩ ∧ t.counters[1] = ⟨.scanSkipped, 5, 0, false⟩ ∧
      (t.report.transmit.drop 2).map (fun x => x.data.drop 3) = [[0, 0, 0, 1, 0], [9, 5, 0, 0, 0]] := by decide +kernel

/-- The REPLY to PART_RESET is sent before the reset is made. -/
theorem test_hard_reset_follows_its_reply :
    let s := after (.partResetHard (at_ 0) (service 14 [6, 0])) road
    let t := afterAll [.transmitterFree (at_ 0), .transmitterFree (at_ 300)] s
    (after (.hardReset (at_ 0)) s).ignition.cause = .powerOn ∧ t.report.reset = .due .hard ∧
      (after (.hardReset (at_ 0)) t).ignition.part = .waking ∧ (after (.hardReset (at_ 0)) t).ignition.cause = .hard ∧
      (after (.hardReset (at_ 0)) t).clock = 10000300 := by decide +kernel

/-! ### Input hold times and modules (R15, R194, 2.4 to 2.6) -/

theorem test_socket_detect_must_hold :
    let s := after (.socketDetectChange ⟨0, live.uncoupled⟩) road
    s.sense.coupled = true ∧ (after (.socketDetectChange ⟨199999, live.uncoupled⟩) s).sense.coupled = true ∧
      (after (.socketDetectChange ⟨200000, live.uncoupled⟩) s).sense.coupled = false := by decide +kernel

theorem test_ignition_must_hold :
    let s := after (.ignitionChange ⟨0, { live with ignitionHigh := false }⟩) road
    (after (.ignitionChange ⟨49999, { live with ignitionHigh := false }⟩) s).ignition.high = true ∧
      (after (.ignitionChange ⟨50000, { live with ignitionHigh := false }⟩) s).ignition.high = false := by
  decide +kernel

/-- Standing in position 2, awake since time 0. -/
def fitted : Machine.Module :=
  { Machine.Module.powerUp 5 .trailer (Vector.replicate 8 ⟨4, 0, 42⟩) 0 with position := some 1 }

def heard (d : Machine.Module) (clock : Nat) (w : List WireChar) : Machine.Module × ModuleAction :=
  d.receive clock 15000 264 (Vector.replicate 8 ⟨false, 0, 0⟩) false w

/-- After a LAMP_STATE that is repeated from 10000 to 11408, a QUERY of position 3 arrives from the time given to 11584. -/
def heardSecond (start : Nat) : ModuleAction :=
  let first := heard fitted 10000 (wireOf .full [0x11, 0, 0, 3, 17, 0, 1])
  (heard (first.1.upstreamPortDominant start) 11584 (wireOf .full [0x12, 3, 9, 1, 1])).2

/-- A frame stored during the repeat of another is repeated 3 characters after it; one that begins inside the gap is
discarded (R21, R31). -/
theorem test_module_keeps_the_gap :
    (heardSecond 10528).forward.map DownRepeat.start = some 11936 ∧ (heardSecond 10528).pull = 0 ∧
      (heardSecond 10527).forward = none := by decide +kernel

/-- A character whose flag does not suit its byte. -/
def badFrame : List WireChar := [⟨0x0F, true, true, .full⟩]

def fittedAsleep : Machine.Module := fitted.fallAsleep 1000000

/-- A frame whose start woke the module is no bad frame (R39, R105). -/
theorem test_module_is_deaf_to_the_frame_that_woke_it :
    fittedAsleep.awake = false ∧ (fittedAsleep.upstreamPortDominant 1100000).awake = true ∧
      (heard (fittedAsleep.upstreamPortDominant 1100000) 1101000 badFrame).2.pull = 0 ∧
      1500 ≤ (heard (fitted.upstreamPortDominant 10000) 11000 badFrame).2.pull :=
  ⟨by decide +kernel, by decide +kernel, by decide +kernel, Nat.le_add_right _ _⟩

/-- An answer that falls due during an upstream repeat ending at 22000 waits for 3 characters more (R32). -/
theorem test_module_puts_its_answer_off :
    let d := { (heard fitted 10000 (wireOf .full [0x12, 2, 9, 1, 1])).1 with upward := .repeating (some 22000) }
    d.answer.map ModuleAnswer.due = some 10528 ∧
      (d.upstreamEnds 22000 []).answer.map ModuleAnswer.due = some 22528 := by decide +kernel

/-- A SPEED(REDUCED) whose repeat ends at 11056, before the module looks: it has switched then, and its 150 ms run from
there (R38). -/
theorem test_module_speed_repeat_restarts_the_toggle :
    let d := (heard fitted 10000 (wireOf .full [0x16, 0, 0, 1, 1])).1.seeDominant
    let e := (d.switched 20000).seeDominant
    d.speed = .full ∧ (d.toggle 160500).speed = .reduced ∧ (d.toggle 160500).lastSwitch = 11056 ∧
      (e.toggle 161055).speed = .reduced ∧ (e.toggle 161056).speed = .full := by decide +kernel

/-! ### Reports (10.4.1) -/

/-- Record 7, LAMP 3 TAIL PARTIAL acknowledged, and record 8, LAMP 2 STOP OPEN; at 20130 TAIL is STEADY and STOP FLASH,
the worst site LAMP 2 STOP, severity 4. -/
def roadReports : State :=
  { road with
    clock := 20130000
    faults := ⟨[⟨7, .cell (.lamp 2 0), .partialLoss, 2, .activeAck, some 1, 0, 0, 1, none⟩,
      ⟨8, .cell (.lamp 1 1), .openCircuit, 4, .activeUnack, none, 20130, 20130, 1, none⟩], 9, false, 52⟩
    report := { road.report with lastImage := some ([], 20000), lastSummary := some ([], 19900) } }

theorem test_telltale_image :
    roadReports.imageNow = [0, 0x09, 0x44, 2, 52, 0x10, 0x01, 4] := by decide +kernel

theorem test_changed_image_is_due_after_50_ms :
    (after (.telltaleDue (at_ 0)) { roadReports with clock := 20049000 }).report.imageDue = false ∧
      (after (.telltaleDue (at_ 0)) { roadReports with clock := 20050000 }).report.imageDue = true := by decide +kernel

/-! ### States and operands that meet the statements' hypotheses

Each theorem is named after its statement; its clauses follow the statement's own, with times, lengths and counts at the
boundary values. -/

theorem forall_some {α : Type} {a : α} {P : α → Prop} (h : P a) : ∀ x, some a = some x → P x :=
  fun _ e => Option.some.inj e ▸ h

def takes (s : State) (row : RequestRow) (r : Request) : Bool :=
  decide (r.row = row ∧ s.report.afterTaking r = some [] ∧ permitted r.source r.row = true ∧ s.awake = true ∧
    r.formed = true)

theorem accepts_of {s : State} {row : RequestRow} {r : Request} (h : takes s row r = true) : s.Accepts row r [] :=
  have k := of_decide_eq_true h
  ⟨k.1, k.2.1, k.2.2.1, k.2.2.2.1, k.2.2.2.2⟩

def record_ (site : Site) (kind : FaultKind) (x : RecordState) : FaultRecord :=
  ⟨40, site, kind, 3, x, none, 9000, 9000, 1, none⟩

/-- Every queue, buffer and list of the part full. -/
def crowded : State :=
  { road.queued_ 8 with
    pending := [.scanRound (at_ 0)]
    faults := ⟨manyRecords 24 .activeAck, 25, false, 0⟩
    health := ⟨List.replicate 32 true, 256, none, none, none⟩
    report := { road.report with
      received := List.replicate 8 (service 15 [1]), transmit := List.replicate 24 ⟨.reply, [], none⟩ } }

theorem witness_StepTakesTheFrontCommand : crowded.pending = .scanRound (at_ 0) :: [] := rfl

theorem witness_StepIdlesWithNothingWaiting : State.reset.pending = [] := rfl

/-- Lamp cell (1, TAIL) FAULTED with its record, another kind counted to one below Q_SET; a command waiting. -/
def consistent_ : State :=
  let r := record_ (.cell (.lamp 0 0)) .leak .activeAck
  { ((road.listing [r]).setCell (.lamp 0 0)
      { Cell.fresh with
        state := .faulted, confirmed := some .leak, confirmedAt := some 9000, listed := true,
        candidate := some .overload, count := 2 }) with pending := [.scanRound (at_ 0)] }

theorem consistent_cells (k : CellKey) :
    consistent_.cell k = Cell.absent ∨ consistent_.cell k = Cell.fresh ∨ k = .lamp 0 0 := by
  rcases k with ⟨p, f⟩ | f | ⟨g, f⟩
  · revert p f; decide +kernel
  · revert f; decide +kernel
  · revert g f; decide +kernel

theorem consistent_listed (k : CellKey) :
    (consistent_.cell k).listed = (consistent_.faultAt (.cell k)).isSome ∧
      ((consistent_.cell k).state = .absent → (consistent_.cell k).listed = false) := by
  rcases k with ⟨p, f⟩ | f | ⟨g, f⟩
  · revert p f; decide +kernel
  · revert f; decide +kernel
  · revert g f; decide +kernel

/-- Serials in the map, 16 in each Library, and a queue of a QUERY and a PROFILE of each of four positions. -/
def unique_ : State :=
  let full : Library := ⟨(List.range 16).map fun n => ⟨BitVec.ofNat 32 n, Vector.replicate 8 (bulbs 4), 0⟩, 0⟩
  let image : StoredImage := ⟨Config.defaultSettings, full⟩
  let queue : List Entry :=
    ([0, 1, 2, 3].map fun p => ⟨.query p 1 .scan, 0⟩) ++ [0, 1, 2, 3].map fun p => ⟨.profile p, 0⟩
  { road.withQueue queue with
    pending := [.scanRound (at_ 0)]
    ignition := { road.ignition with library := full, stored := some image, save := some ⟨image, none⟩ } }

theorem unique_unique : unique_.Unique where
  serials p q r r' z hp hq hz hz' := by
    have key : ∀ p q, (unique_.record p).bind PosRecord.serial = (unique_.record q).bind PosRecord.serial →
        ((unique_.record p).bind PosRecord.serial).isSome = true → p = q := by decide +kernel
    exact key p q (by rw [hp, hq, Option.bind_some, Option.bind_some, hz, hz']) (by rw [hp, Option.bind_some, hz]; rfl)
  libraries l hl := by
    simp only [Ignition.libraries, unique_, Option.map_some, Option.toList_some, List.mem_cons, List.mem_append,
      List.not_mem_nil, or_false, or_self] at hl
    subst hl
    exact ⟨by decide +kernel, by decide +kernel⟩
  queries := by decide +kernel
  profiles := by decide +kernel

/-- A state that fills every place, one whose cells, records and map agree, and one that holds each thing once. -/
theorem witness_EveryStepKeepsTheBounds :
    (unique_.Unique ∧ ∃ t, step unique_ = .next t) ∧ (crowded.Bounded ∧ ∃ t, step crowded = .next t) ∧
      consistent_.Bounded ∧ consistent_.Consistent ∧ ∃ t, step consistent_ = .next t :=
  ⟨⟨unique_unique, _, rfl⟩, ⟨⟨by decide +kernel, by decide +kernel, by decide +kernel, by decide +kernel, by decide +kernel,
    by decide +kernel⟩, _, rfl⟩,
    ⟨by decide +kernel, by decide +kernel, by decide +kernel, by decide +kernel, by decide +kernel, by decide +kernel⟩,
    { sites := by decide +kernel
      ids := by decide +kernel
      idRange := by decide +kernel
      nextId := by decide +kernel
      listed := fun k => (consistent_listed k).1
      cells := fun k => by
        rcases consistent_cells k with h | h | rfl
        · rw [h]; exact ⟨rfl, rfl, rfl, rfl⟩
        · rw [h]; exact ⟨rfl, rfl, rfl, rfl⟩
        · exact ⟨rfl, rfl, by show (2 : Nat) < 3; decide⟩
      absent := fun k => (consistent_listed k).2
      unmapped := by decide +kernel
      noTrain := by decide +kernel
      contiguous := by decide +kernel
      tail := by decide +kernel }, _, rfl⟩

/-- One that is put to sleep, and one that sleeps on. -/
theorem witness_ASleepingPartStaysSilent :
    (∃ t, exec (.standbyEntry (at_ 0))
        { road with ignition := { road.ignition with high := false, quietSince := some 8000 } } = .next t ∧
      t.ignition.part = .asleep) ∧
    (State.reset.ignition.part = .asleep → State.reset.Silent) ∧
      ∃ t, exec (.requestReceive (at_ 0) ⟨0x53E, false, [4]⟩) State.reset = .next t ∧ t.ignition.part = .asleep :=
  ⟨⟨_, rfl, by decide +kernel⟩, fun _ => ⟨rfl, rfl, rfl, rfl, rfl⟩, _, rfl, by decide +kernel⟩

theorem witness_StateIsChangedByItsOwnerAlone :
    (∃ t, exec (.scanRound (at_ 0)) road = .next t) ∧ ∃ t, exec (.saveEnd (at_ 0) true) road = .next t :=
  ⟨⟨_, rfl⟩, _, rfl⟩

/-- A full queue without a QUERY of origin SCAN keeps the ENUMERATE entry waiting. -/
theorem witness_EveryCommandLeavesTheStateSettled :
    (∃ t, exec (.enumerate (at_ 0) (service 13 [1])) (road.queued_ 8) = .next t ∧
      t.scheduler.enumerateWaiting = true) ∧
    ∃ t, exec (.scanRound (at_ 0)) (road.setCell (.lamp 0 0) { Cell.fresh with state := .faulted, confirmed := some .leak })
      = .next t ∧ t.faults.records.length < 24 :=
  ⟨⟨_, rfl, by decide +kernel⟩, _, rfl, by decide +kernel⟩

/-- The SAMPLE confirms TAIL of position 2, and the apply that its request held back then removes the record: one step of
the revision (R160, 4.5.1). -/
theorem test_record_inserted_and_removed_steps_the_revision :
    let s := { awaited with
      ignition := { awaited.ignition with settings := { awaited.ignition.settings with qSet := 1 } }
      train := { awaited.train with
        records := awaited.train.records.set 1
          (some { unit (some 2) .silent with staged := Vector.replicate 8 (some (bulbs 3)), changed := Vector.replicate 8 true }) }
      apply := some ⟨[1], false, 0, ⟨.service, 7⟩⟩ }
    let t := afterAll [.frameReceiveStart (at_ 1000),
      .sample (at_ 3168) (wireOf .full ([0x21, 2, 17, 13, 1, 8, 30] ++ [0, 4, 0, 4, 0] ++ [0x01, 4, 0, 4, 0]))] s
    s.faults.records = [] ∧ t.faults.records = [] ∧ t.apply = none ∧ t.faults.nextId = s.faults.nextId + 1 ∧
      t.faults.revision = s.faults.revision + 1 := by decide +kernel

/-- A full list; the SAMPLE heals STOP's unlisted fault of position 2 (the flag clears) and then confirms TURN_L's, which
finds no place (the flag is set): the records are as they were, and the revision has stepped once (R157, R159, R160). -/
theorem test_flag_cleared_and_set_again_steps_the_revision :
    let full := ((cellKeys.drop 48).take 24).mapIdx fun i k =>
      (⟨i + 1, .cell k, .leak, 3, .activeAck, none, 0, 0, 1, none⟩ : FaultRecord)
    let s := { awaited with
      ignition := { awaited.ignition with settings := { awaited.ignition.settings with qSet := 1, qClear := 1 } }
      faults := ⟨full, 25, true, 7⟩ }
    let t := afterAll [.frameReceiveStart (at_ 1000),
        .sample (at_ 3168) (wireOf .full ([0x21, 2, 17, 13, 1, 8, 30] ++ [0x10, 14, 16, 14, 16] ++ [0x10, 4, 0, 4, 0]))]
      (s.setCell (.lamp 1 1) { Cell.fresh with state := .faulted, confirmed := some .leak })
    (t.cell (.lamp 1 1)).state = .clean ∧ (t.cell (.lamp 1 2)).state = .faulted ∧ t.faults = ⟨full, 25, true, 8⟩ := by
  decide +kernel

/-- 24 records go at once, in one step of the revision; a read changes none. -/
theorem witness_RevisionStepsOnceWhenTheListChanges :
    (∃ t, exec (.faultAckAll (at_ 0) ⟨2, .cluster, [1, 0, 0, 0, 0]⟩) (road.listing (manyRecords 24 .healedUnack)) = .next t ∧
      t.faults.records = [] ∧ t.faults.revision = road.faults.revision + 1) ∧
    ∃ t, exec (.faultRead (at_ 0) (service 1 [1, 0])) road = .next t ∧ t.faults.revision = road.faults.revision :=
  ⟨⟨_, rfl, by decide +kernel⟩, _, rfl, by decide +kernel⟩

/-- A flag that is exact, and one that a raise on a full list sets. -/
theorem witness_JudgementsSettleTheFlag :
    road.faults.overflow = false ∧ (∀ q, road.unlisted q = false) ∧
      (∃ j, (consistent_.deliverVerdict (.lamp 0 0) j).faults.overflow = false) ∧
      (({ road.listing (manyRecords 24 .activeAck) with
        ignition := { road.ignition with settings := { Config.defaultSettings with qSet := 1 } } } : State).deliverVerdict
          (.segment 0 1) (.bad .leak)).faults.overflow = true := by
  refine ⟨rfl, ?_, ⟨.good, by decide +kernel⟩, by decide +kernel⟩
  rintro (⟨p, f⟩ | f | ⟨g, f⟩)
  · revert p f; decide +kernel
  · revert f; decide +kernel
  · revert g f; decide +kernel

def resetting (k : ResetKind) : State := { road with report := { road.report with reset := .due k } }

theorem witness_HardResetStartsAllButTheStoreAfresh :
    (resetting .hard).report.reset = .due .hard ∧ (resetting .soft).report.reset ≠ .due .hard ∧
      road.report.reset ≠ .due .hard := by decide +kernel

/-- PENDING and RUNNING enumerations in a part that is awake, one ASLEEP, and none. -/
theorem witness_SoftResetKeepsCellsAndList :
    (resetting .soft).report.reset = .due .soft ∧ (resetting .soft).enumerator.phase = .idle ∧
      (coldStart.enumerator.phase ≠ .idle ∧ coldStart.ignition.part ≠ .asleep ∧
        coldStart.enumerator.coupled = true) ∧
      (collecting.enumerator.phase ≠ .idle ∧ collecting.ignition.part ≠ .asleep ∧
        collecting.enumerator.coupled = true) ∧
      State.reset.ignition.part = .asleep ∧ (resetting .soft).ignition.part ≠ .asleep ∧
      (resetting .hard).report.reset ≠ .due .soft := by decide +kernel

/-- ASLEEP with the ignition input HIGH since the time given, and the socket as given. -/
def highSince (at_ : Nat) (coupled : Bool) : State :=
  { road.asleep with steady := { socket := 0, ignition := at_ }, sense := { road.sense with coupled := coupled } }

/-- 50 ms at HIGH, and the moment before; the socket COUPLED and UNCOUPLED; a level just taken. -/
theorem witness_IgnitionHighWakesThePart :
    ((at_ 50000).inputs.ignitionHigh = (highSince 10000000 true).inputs.ignitionHigh ∧
      10000000 + 50000 ≤ (highSince 10000000 true).clock + 50000 ∧
      ¬ 10000000 + 50000 ≤ (highSince 10000000 true).clock + 49999) ∧
      ((at_ 50000).inputs.ignitionHigh = true ∧ (highSince 10000000 true).ignition.high = false ∧
        (highSince 10000000 true).ignition.part = .asleep ∧ (highSince 10000000 true).enumerator.phase = .idle ∧
        (highSince 10000000 true).steady.ignition = 10000000) ∧
      (highSince 10000000 true).sense.coupled = true ∧
      ((highSince 10000000 false).sense.coupled = false ∧ (highSince 10000000 false).apply = none) ∧
      road.asleep.attention.stuckMark = false ∧ Inputs.atRest.ignitionHigh ≠ road.inputs.ignitionHigh ∧
      (road.ignition.part ≠ .asleep ∧ road.ignition.high = true ∧ road.steady.ignition + 50000 ≤ road.clock) := by
  decide +kernel

def quietFor (ms : Nat) : State :=
  { road with ignition := { road.ignition with quietSince := some (BitVec.ofNat 32 (10000 - ms)) } }

theorem witness_StandbyEntryPutsThePartToSleep :
    ((quietFor 2000).ignition.part = .running ∧
      ((quietFor 2000).advance (at_ 0)).passed (quietFor 2000).ignition.quietSince 2000 = true ∧
      (quietFor 2000).apply = none) ∧
      ((quietFor 1999).advance (at_ 0)).passed (quietFor 1999).ignition.quietSince 2000 = false ∧
      road.asleep.ignition.part ≠ .running := by decide +kernel

/-- An apply that waits on position 1, persisted, and on anonymous position 3, skipped: its REPLY at standby entry. -/
theorem witness_StandbyEntryCompletesItsApply :
    let s := ((quietFor 2000).setRecord 0 (some staged_)).waiting_ [0, 2] true
    let t := after (.standbyEntry (at_ 0)) s
    (s.ignition.part = .running ∧ (s.advance (at_ 0)).passed s.ignition.quietSince 2000 = true ∧
      s.record 0 = some staged_ ∧ (∀ p : Pos, p ≠ 0 → (s.record p).bind PosRecord.serial ≠ some 1)) ∧
      (staged_.changed[(0 : Func)] = true ∧ staged_.staged[(0 : Func)] = some (bulbs 2) ∧
        staged_.applied[(0 : Func)] ≠ some (bulbs 2) ∧ (s.cell (.lamp 0 0)).state ≠ .absent) ∧
      staged_.staged[(1 : Func)] = staged_.applied[(1 : Func)] ∧
      ((t.record 2).map PosRecord.serial = some none ∧ t.apply = none ∧ t.ignition.part = .asleep ∧
        t.ignition.library.entries.map LibraryEntry.serial = [1]) ∧
      (s.apply.map fun a => (a.persist, a.skipped)) = some (true, 0) ∧
      ((s.waiting_ [0] false).apply.map Apply.persist) = some false := by decide +kernel

theorem witness_RequestsAreTurnedAwayInOrder :
    asks (.identRead (at_ 0) (service 15 [1])) = some (at_ 0, .identRead, service 15 [1]) ∧
      (service 13 [1]).row ≠ .identRead ∧ crowded.report.afterTaking (service 15 [1]) = none ∧
      ((⟨15, .cluster, [1]⟩ : Request).row = .identRead ∧ road.report.afterTaking ⟨15, .cluster, [1]⟩ = some [] ∧
        permitted .cluster .identRead = false) ∧
      ((service 15 [1]).row = .identRead ∧ road.asleep.report.afterTaking (service 15 [1]) = some [] ∧
        permitted .service .identRead = true ∧ road.asleep.ignition.part = .asleep) ∧
      ((service 15 [1, 2]).row = .identRead ∧ road.report.afterTaking (service 15 [1, 2]) = some [] ∧
        road.ignition.part ≠ .asleep ∧ (service 15 [1, 2]).formed = false) ∧
      ((body 0 [0xC0, 0, 0]).row = .lampCommand ∧ road.report.afterTaking (body 0 [0xC0, 0, 0]) = some [] ∧
        permitted .body .lampCommand = true ∧ (body 0 [0xC0, 0, 0]).formed = false) := by decide +kernel

/-- Each kind of request at its length and at the ends of its arguments' ranges, and just past each; the rows of one code. -/
theorem witness_RequestsHaveTheirForms :
    ([body 0 [0xAA, 0xAA, 1], service 1 [1, 9], service 2 [1, 0, 9, 9, 9], service 2 [1, 1, 4, 0, 255],
        service 2 [1, 1, 2, 0, 255], service 2 [1, 1, 0, 9, 7], service 3 [1, 6, 255], service 4 [1, 0], service 4 [1, 6],
        clearOf 0 6 7, clearOf 1 0 7, clearOf 2 6 255, clearOf 3 6 255, clearOf 4 0 255, body 6 [1, 6, 7, 0, 1, 0, 0, 0],
        applyOf 63 1, body 8 [1, 1, 7], body 9 [1, 6], service 10 [1, 0, 3, 0, 1], service 10 [1, 0, 14, 255, 255],
        service 10 [1, 1, 14], service 10 [1, 2], service 11 [1, 0, 3, 11, 127], service 11 [1, 1, 3, 1],
        service 12 [1, 0, 0, 0, 0], service 13 [1], service 14 [1, 0], service 14 [1, 1], service 15 [1]].map fun r =>
        (r.formed, r.row)) =
      [.lampCommand, .faultRead, .faultAckAll, .faultAck, .faultAck, .faultAck, .refresh, .mapRead, .mapRead, .siteClear,
        .siteClear, .siteClearChainBreak, .siteClearModule, .siteClearLink, .profileStage, .profileApply, .profileRead,
        .positionReset, .settingWrite, .settingWrite, .settingRead, .settingSave, .counterSetup, .counterRead,
        .libraryDelete, .enumerate, .partResetHard, .partResetSoft, .identRead].map (fun x => (true, x)) ∧
      (([body 0 [0, 0, 2], body 0 [0, 3, 0], service 1 [1], service 2 [1, 1, 5, 0, 0], service 2 [1, 1, 1, 0, 255],
        service 2 [1, 1, 2, 0, 8], service 3 [1, 7, 0], service 3 [1, 0, 0], service 4 [1, 7], clearOf 0 7 0,
        clearOf 0 1 255, clearOf 1 1 0, clearOf 2 7 0, clearOf 3 1 0, clearOf 4 0 0, clearOf 5 0 0,
        body 6 [1, 1, 8, 0, 0, 0, 0, 0], body 6 [1, 1, 0, 0, 2, 0, 0, 0], applyOf 0 0, applyOf 64 0, applyOf 1 2,
        body 8 [1, 1, 8], body 9 [1, 7], service 10 [1, 0, 3, 0, 2], service 10 [1, 0, 15, 0, 0], service 10 [1, 1, 15],
        service 10 [1, 3], service 10 [1], service 11 [1, 0, 4, 0, 0], service 11 [1, 0, 0, 12, 0],
        service 11 [1, 0, 0, 0, 128], service 11 [1, 1, 0, 2], service 11 [1, 2, 0, 0], service 14 [1, 2]] :
          List Request).all fun r => !r.formed && decide (r.kind < 16)) = true := by decide +kernel

def holding (n : Nat) : State := { road with report := { road.report with received := List.replicate n (service 15 [1]) } }

/-- The request identifiers of each source, the first and the last; source 3; a remote frame; those beside the 64. -/
theorem witness_RequestsJoinTheReceiveBuffer :
    ((0x500 : Nat) = (holding 7).ignition.canBase + 0 * 4 + 0 ∧ (holding 7).report.received.length < 8) ∧
      (0x501 : Nat) = road.ignition.canBase + 0 * 4 + 1 ∧ (0x53E : Nat) = road.ignition.canBase + 15 * 4 + 2 ∧
      (0x53F : Nat) = road.ignition.canBase + 15 * 4 + 3 ∧ (0x4FF : Nat) < road.ignition.canBase ∧
      road.ignition.canBase + 64 ≤ 0x540 ∧ (⟨0x500, true, []⟩ : CanFrame).remote = true ∧
      (⟨0x53E, false, [4]⟩ : CanFrame).ident.toNat = 0x53E ∧ 8 ≤ (holding 8).report.received.length := by
  decide +kernel

/-- A command that changes the states, the same again, and one ASLEEP with every function OFF. -/
theorem witness_LampCommandTakesItsStates :
    ((body 0 [0, 0x21, 1]).row = .lampCommand ∧ road.report.afterTaking (body 0 [0, 0x21, 1]) = some [] ∧
      (body 0 [0, 0x21, 1]).source = .body ∧ (body 0 [0, 0x21, 1]).formed = true) ∧
      (∀ f : Func, (body 0 [0, 0x21, 1]).commandState f = road.intake.states[f]) ∧
      (body 0 [0, 1, 1]).formed = true ∧ (¬ ∀ f : Func, (body 0 [0, 1, 1]).commandState f = road.intake.states[f]) ∧
      (∃ f : Func, (body 0 [0, 1, 1]).commandState f = .on ∨ (body 0 [0, 1, 1]).commandState f = .flash) ∧
      (body 0 [0, 0, 0]).formed = true ∧ (∀ f : Func, (body 0 [0, 0, 0]).commandState f = .off) ∧
      road.asleep.report.afterTaking (body 0 [0, 0, 0]) = some [] ∧ road.ignition.part ≠ .asleep ∧
      road.asleep.apply = none ∧
      ((⟨0, .cluster, [0, 0, 0]⟩ : Request).row = .lampCommand ∧
        road.report.afterTaking ⟨0, .cluster, [0, 0, 0]⟩ = some []) ∧
      ((body 0 [0xC0, 0, 0]).commandCode 7 = 3 ∧ road.report.afterTaking (body 0 [0xC0, 0, 0]) = some []) ∧
      (body 0 [0, 0, 2]).byte 2 = 2 ∧ ((body 0 [0, 0]).row = .lampCommand ∧ (body 0 [0, 0]).data.length ≠ 3) := by
  decide +kernel

theorem witness_CommandLossIsDeclared :
    (road.intake.lost = false ∧ 500 ≤ (road.advance (at_ 400000)).age road.intake.lastCommand) ∧
      (road.advance (at_ 399999)).age road.intake.lastCommand < 500 ∧ State.reset.intake.lost = true := by decide +kernel

theorem witness_ReadsAnswerWithTheirData :
    road.Accepts .faultRead (service 1 [1, 0]) [] ∧
      (road.Accepts .mapRead (service 4 [1, 0]) [] ∧ (service 4 [1, 0]).byte 1 = 0) ∧
      (road.Accepts .mapRead (service 4 [1, 6]) [] ∧ (service 4 [1, 6]).byte 1 = (5 : Pos).val + 1) ∧
      (road.Accepts .profileRead (service 8 [1, 6, 7]) [] ∧ (service 8 [1, 6, 7]).byte 1 = (5 : Pos).val + 1 ∧
        (service 8 [1, 6, 7]).byte 2 = (7 : Func).val) ∧
      road.Accepts .settingRead (service 10 [1, 1, 14]) [] ∧ road.Accepts .identRead (service 15 [1]) [] :=
  ⟨accepts_of (by decide +kernel), ⟨accepts_of (by decide +kernel), by decide⟩,
    ⟨accepts_of (by decide +kernel), by decide⟩, ⟨accepts_of (by decide +kernel), by decide, by decide⟩,
    accepts_of (by decide +kernel), accepts_of (by decide +kernel)⟩

def ackOf (id : Byte) : Request := ⟨2, .cluster, [1, id, 0, 1, 0]⟩

/-- Ids at both ends of their range; a record of each state. -/
theorem witness_FaultAckActsByRecordState :
    road.Accepts .faultAck (ackOf 1) [] ∧ road.Accepts .faultAck (ackOf 255) [] ∧
      ((manyRecords 1 .healedUnack).map fun x => (x.id, x.site)) = [(1, .cell (.lamp 0 0))] ∧
      siteOfCodes 0 1 0 = some (.cell (.lamp 0 0)) :=
  ⟨accepts_of (by decide +kernel), accepts_of (by decide +kernel), by decide +kernel, by decide⟩

/-- An ACTIVE_UNACK record, an ACTIVE_ACK and a HEALED_UNACK one; a full list; an empty one; a cell that is then admitted. -/
theorem witness_FaultAckAllAcknowledgesEveryRecord :
    ((road.listing (manyRecords 24 .healedUnack)).Accepts .faultAckAll (ackOf 0) [] ∧
      road.Accepts .faultAckAll ⟨2, .cluster, [1, 0, 9, 9, 9]⟩ []) ∧
      let s := (road.listing (manyRecords 24 .activeUnack)).withRecords
        (manyRecords 22 .activeUnack ++ (manyRecords 23 .activeAck).drop 22 ++ (manyRecords 24 .healedUnack).drop 23)
      let t := after (.faultAckAll (at_ 0) (ackOf 0))
        (s.setCell (.segment 0 0) { Cell.fresh with state := .faulted, confirmed := some .leak })
      t.faults.records.map FaultRecord.state = List.replicate 23 .activeAck ++ [.activeUnack] :=
  ⟨⟨accepts_of (by decide +kernel), accepts_of (by decide +kernel)⟩, by decide +kernel⟩

/-- Position 1 PRESENT and 3 LOST; mask empty and not; a QUERY queued; the queue with a place and full. -/
theorem witness_RefreshQueuesAQuery :
    (road.Accepts .refresh (service 3 [1, 3, 0xFF]) [] ∧ (service 3 [1, 3, 0xFF]).byte 1 = (2 : Pos).val + 1 ∧
      ¬ (road.posState 2 = some .present ∨ road.posState 2 = some .silent)) ∧
      (road.Accepts .refresh (service 3 [1, 1, 0]) [] ∧ road.posState 0 = some .present) ∧
      ((road.queued_ 7).Accepts .refresh (service 3 [1, 1, 1]) [] ∧ (road.queued_ 7).scheduler.queue.length < 8 ∧
        (∀ e ∈ (road.queued_ 7).scheduler.queue, e.work = .profile 3)) ∧
      ((road.queued_ 8).Accepts .refresh (service 3 [1, 1, 1]) [] ∧ 8 ≤ (road.queued_ 8).scheduler.queue.length) ∧
      ∃ e ∈ (road.withQueue [⟨.query 0 1 .scan, 0⟩]).scheduler.queue, ∃ m o, e.work = .query 0 m o :=
  ⟨⟨accepts_of (by decide +kernel), by decide, by decide +kernel⟩, ⟨accepts_of (by decide +kernel), by decide +kernel⟩,
    ⟨accepts_of (by decide +kernel), by decide +kernel, by decide +kernel⟩,
    ⟨accepts_of (by decide +kernel), by decide +kernel⟩, _, List.mem_singleton.mpr rfl, _, _, rfl⟩

/-- A cell with a record, one faulted without a record, and one with neither. -/
theorem witness_SiteClearResetsTheCell :
    let s := (road.listing (manyRecords 1 .activeAck)).setCell (.segment 3 7) { Cell.fresh with state := .recovering }
    s.Accepts .siteClear (clearOf 0 1 0) [] ∧ s.Accepts .siteClear (clearOf 2 3 7) [] ∧
      s.Accepts .siteClear (clearOf 1 0 7) [] ∧
      siteOfCodes ((clearOf 0 1 0).byte 1) ((clearOf 0 1 0).byte 2) ((clearOf 0 1 0).byte 3) =
        some (.cell (.lamp 0 0)) ∧
      siteOfCodes ((clearOf 2 3 7).byte 1) ((clearOf 2 3 7).byte 2) ((clearOf 2 3 7).byte 3) =
        some (.cell (.segment 3 7)) ∧
      siteOfCodes ((clearOf 1 0 7).byte 1) ((clearOf 1 0 7).byte 2) ((clearOf 1 0 7).byte 3) = some (.cell (.line 7)) ∧
      (s.faultAt (.cell (.lamp 0 0))).isSome = true ∧ (s.cell (.segment 3 7)).state = .recovering ∧
      (s.cell (.lamp 0 0)).state ≠ .absent ∧
      ((s.faultAt (.cell (.line 7))).isSome = false ∧ (s.cell (.line 7)).state ≠ .faulted ∧
        (s.cell (.line 7)).state ≠ .recovering) :=
  ⟨accepts_of (by decide +kernel), accepts_of (by decide +kernel), accepts_of (by decide +kernel), by decide +kernel⟩

theorem witness_SiteClearActsForItsOwner :
    let s := fun x => road.listing
      [record_ (.chainBreak 6) .chainBreak x, record_ (.module 1) .silentModule x, record_ .link .attentionStuck x]
    ((s .activeUnack).Accepts .siteClearChainBreak (clearOf 2 6 255) [] ∧ (clearOf 2 6 255).byte 2 = (6 : Seg).val ∧
      ((s .activeUnack).faultAt (.chainBreak 6)).map FaultRecord.state = some .activeUnack) ∧
      ((s .healedUnack).faultAt (.chainBreak 6)).map FaultRecord.state = some .healedUnack ∧
      road.faultAt (.chainBreak 6) = none ∧
      ((s .activeUnack).Accepts .siteClearModule (clearOf 3 2 255) [] ∧ (clearOf 3 2 255).byte 2 = (1 : Pos).val + 1 ∧
        ((s .activeUnack).faultAt (.module 1)).isSome = true ∧ (s .activeUnack).posState 1 = some .silent ∧
        (s .activeUnack).enumerator.coupled = true) ∧
      ((s .activeUnack).setRecord 1 none).posState 1 ≠ some .silent ∧
      ((s .activeUnack).Accepts .siteClearLink (clearOf 4 0 255) [] ∧ ((s .activeUnack).faultAt .link).isSome = true) ∧
      road.faultAt .link = none :=
  ⟨⟨accepts_of (by decide +kernel), by decide, by decide +kernel⟩, by decide +kernel, by decide +kernel,
    ⟨accepts_of (by decide +kernel), by decide, by decide +kernel, by decide +kernel, by decide +kernel⟩,
    by decide +kernel, ⟨accepts_of (by decide +kernel), by decide +kernel⟩, by decide +kernel⟩

/-- Position 3 LOST behind the break on segment 2: a POS_RESET of it queued among others, its request in the slot on the link
and between attempts, an apply that waits on it and on another. -/
theorem witness_SiteClearSendsTheLostAway :
    let s := (((road.listing [record_ (.chainBreak 2) .chainBreak .activeAck, record_ (.cell (.lamp 2 0)) .leak .activeAck,
      record_ (.cell (.segment 2 0)) .leak .activeAck]).withQueue
        [⟨.profile 0, 9000⟩, ⟨.posReset 2 ⟨.service, 7⟩, 9000⟩]).waiting_ [1, 2] false)
    let sent (stage : Stage) : State := { s with
      scheduler := { s.scheduler with slot := .addressed ⟨.query 2 1, 1, 0, 90, false, false, stage⟩ } }
    let t (x : State) : State := after (.siteClearChainBreak (at_ 0) (clearOf 2 2 255)) x
    (s.Accepts .siteClearChainBreak (clearOf 2 2 255) [] ∧ s.posState 2 = some .lost ∧ s.posState 1 = some .silent ∧
      s.scheduler.enumerateWaiting = false ∧ (s.faultAt (.chainBreak 2)).map FaultRecord.state = some .activeAck) ∧
      ((t s).record 2 = none ∧ (t s).cell (.lamp 2 0) = Cell.absent ∧ (t s).cell (.segment 3 0) = Cell.absent ∧
        ((t s).cell (.segment 2 0)).state = .unverified ∧ (t s).faults.records = [] ∧ (t s).train.linkState = .live ∧
        (t s).train.endCertain = true ∧ (t s).scheduler.queue = [⟨.profile 0, 9000⟩] ∧
        (t s).report.transmit = [⟨.reply, [5, 1, 0, 0, 0, 0], none⟩, ⟨.reply, [0x29, 7, 8, 0, 0, 0], none⟩] ∧
        (t s).apply.map Apply.waiting = some [1] ∧ (t (s.waiting_ [2] false)).apply = none) ∧
      ((t (sent .onLink)).scheduler.slot = .addressed ⟨.query 2 1, 1, 0, 90, false, true, .onLink⟩ ∧
        (t (sent .due)).scheduler.slot = .empty) :=
  ⟨⟨accepts_of (by decide +kernel), by decide +kernel, by decide +kernel, by decide +kernel, by decide +kernel⟩,
    by decide +kernel⟩

/-- Every field at the end of its range, and past it; a position that is not mapped. -/
theorem witness_ProfileStageWritesThePendingProfile :
    (road.Accepts .profileStage (body 6 [1, 1, 7, 15, 1, 100, 1, 44]) [] ∧
      (body 6 [1, 1, 7, 15, 1, 100, 1, 44]).byte 1 = (0 : Pos).val + 1 ∧
      (body 6 [1, 1, 7, 15, 1, 100, 1, 44]).byte 2 = (7 : Func).val ∧
      (body 6 [1, 1, 7, 15, 1, 100, 1, 44]).word 6 = 300) ∧
      (road.Accepts .profileStage (body 6 [1, 3, 0, 16, 0, 101, 0, 29]) [] ∧
        (body 6 [1, 3, 0, 16, 0, 101, 0, 29]).byte 1 = (2 : Pos).val + 1) ∧
      road.Accepts .profileStage (body 6 [1, 6, 0, 0, 0, 1, 0, 30]) [] ∧ road.record 5 = none :=
  ⟨⟨accepts_of (by decide +kernel), by decide, by decide, by decide⟩, ⟨accepts_of (by decide +kernel), by decide⟩,
    accepts_of (by decide +kernel), by decide +kernel⟩

/-- An apply in progress; no request in the slot; one addressed to position 2, named and not named; a lamp cell whose
profile changes, in a flagged entry of a position. -/
theorem witness_ProfileApplyCarriesOutFlaggedEntries :
    let flagged : PosRecord :=
      { unit (some 1) .present with
        staged := (Vector.replicate 8 none).set 0 (some (bulbs 2)), changed := (Vector.replicate 8 false).set 0 true }
    road.Accepts .profileApply (applyOf 63 0) [] ∧ road.apply = none ∧ road.scheduler.slot = .empty ∧
      (road.withApply (some ⟨[0], false, 0, ⟨.body, 1⟩⟩)).apply.isSome = true ∧
      (awaited.Accepts .profileApply (applyOf 1 0) [] ∧ (BitVec.ofNat 8 ((applyOf 1 0).byte 1) : Byte).getLsbD 1 = false ∧
        (applyOf 1 0).byte 2 = 0) ∧
      (road.Accepts .profileApply (applyOf 3 1) [] ∧ (applyOf 3 1).byte 2 = 1 ∧
        (road.record 1).bind PosRecord.serial = some 2 ∧
        ∀ q y, q ≠ (1 : Pos) → road.record q = some y → y.serial ≠ some 2) ∧
      ((BitVec.ofNat 8 ((applyOf 3 1).byte 1) : Byte).getLsbD 0 = true ∧
        (road.setRecord 0 (some flagged)).record 0 = some flagged ∧ flagged.changed[(0 : Func)] = true ∧
        flagged.staged[(0 : Func)] = some (bulbs 2) ∧ flagged.applied[(0 : Func)] ≠ some (bulbs 2) ∧
        (road.cell (.lamp 0 0)).state ≠ .absent ∧ flagged.changed[(1 : Func)] = false) ∧
      (awaited.Accepts .profileApply (applyOf 2 0) [] ∧ awaited.apply = none ∧
        awaited.scheduler.slot = .addressed ⟨.query 1 6, 1, 0, 17, false, false, .onLink⟩ ∧
        (awaited.record 1).isSome = true ∧ (BitVec.ofNat 8 ((applyOf 2 0).byte 1) : Byte).getLsbD 1 = true) := by
  refine ⟨accepts_of (by decide +kernel), by decide +kernel, by decide +kernel, by decide +kernel,
    ⟨accepts_of (by decide +kernel), by decide, by decide⟩, ⟨accepts_of (by decide +kernel), by decide,
    by decide +kernel, ?_⟩, by decide +kernel, accepts_of (by decide +kernel), by decide +kernel, by decide +kernel,
    by decide +kernel, by decide⟩
  have h : ∀ q : Pos, q ≠ 1 → (road.record q).map PosRecord.serial ≠ some (some 2) := by decide +kernel
  exact fun q y hq hy hs => h q hq (by rw [hy]; exact congrArg some hs)

/-- Position 2's QUERY is in the slot and positions 1 to 3 are named, persisted: 1 is applied and in the Library, 3 is
anonymous and skipped, 2 waits; a named position that is not mapped in the slot. -/
theorem witness_ProfileApplyWaitsOnOnePosition :
    let s := awaited.setRecord 0 (some staged_)
    let t := after (.profileApply (at_ 0) (applyOf 63 1)) s
    (s.Accepts .profileApply (applyOf 63 1) [] ∧ s.apply = none ∧
      s.scheduler.slot = .addressed ⟨.query 1 6, 1, 0, 17, false, false, .onLink⟩ ∧ (s.record 1).isSome = true) ∧
      (t.apply = some ⟨[1], true, 1, ⟨.body, 1⟩⟩ ∧ t.report.transmit = [] ∧ t.record 1 = s.record 1 ∧
        (t.record 0).map (fun y => (y.applied[(0 : Func)], y.source)) = some (some (bulbs 2), .staged) ∧
        t.ignition.library.entries.map LibraryEntry.serial = [1]) ∧
      (after (.profileApply (at_ 0) (applyOf 63 0)) (s.setRecord 1 none)).apply = none :=
  ⟨⟨accepts_of (by decide +kernel), by decide +kernel, by decide +kernel, by decide +kernel⟩, by decide +kernel⟩

/-- A flagged entry equal to the applied profile, of a cell with a record; a full Library with two candidates of one age,
one in the map and older. -/
theorem witness_ProfileApplyFillsTheLibrary :
    let entry (z : Serial) (n : BitVec 16) : LibraryEntry := ⟨z, Vector.replicate 8 (bulbs 4), n⟩
    let full : Library := ⟨(List.range 13).map (fun n => entry (BitVec.ofNat 32 (100 + n)) 90) ++
      [entry 2 10, entry 60 20, entry 50 20], 100⟩
    let s := (((road.setRecord 0 (some staged_)).listing [record_ (.cell (.lamp 0 1)) .leak .activeAck])).withLibrary full
    s.Accepts .profileApply (applyOf 1 1) [] ∧
      ((s.record 0 = some staged_ ∧ staged_.changed[(1 : Func)] = true ∧ staged_.staged[(1 : Func)] = some (bulbs 4) ∧
        staged_.applied[(1 : Func)] = some (bulbs 4) ∧ (s.faultAt (.cell (.lamp 0 1))).isSome = true) ∧
      (∀ q : Pos, (BitVec.ofNat 8 ((applyOf 1 1).byte 1) : Byte).getLsbD q.val = true ↔ q = 0) ∧
      (full.entries.length ≤ 16 ∧ (full.entries.map LibraryEntry.serial).Nodup) ∧
      (full.entries.length = 16 ∧ (∀ e ∈ full.entries, e.serial ≠ 1) ∧ entry 50 20 ∈ full.entries) ∧
      (∀ q : Pos, (s.record q).bind PosRecord.serial ≠ some 50) ∧ (s.record 1).bind PosRecord.serial = some 2 ∧
      ((entry 60 20).serial.toNat > (entry 50 20).serial.toNat) ∧
      (after (.profileApply (at_ 0) (applyOf 1 1)) s).ignition.library.entries.map LibraryEntry.serial =
        (List.range 13).map (fun n => BitVec.ofNat 32 (100 + n)) ++ [2, 60, 1]) :=
  ⟨accepts_of (by decide +kernel), by decide +kernel⟩

theorem witness_LibraryDeleteRemovesTheEntry :
    let s := road.withLibrary ⟨[⟨0xFFFFFFFF, Vector.replicate 8 (bulbs 4), 1⟩], 1⟩
    (s.Accepts .libraryDelete (service 12 [1, 255, 255, 255, 255]) [] ∧
      ∃ e ∈ s.ignition.library.entries,
        e.serial = BitVec.ofNat 32 ((service 12 [1, 255, 255, 255, 255]).word 1 * 65536 +
          (service 12 [1, 255, 255, 255, 255]).word 3)) ∧
      road.Accepts .libraryDelete (service 12 [1, 0, 0, 0, 0]) [] ∧ road.ignition.library.entries = [] :=
  ⟨⟨accepts_of (by decide +kernel), _, List.mem_singleton.mpr rfl, by decide +kernel⟩, accepts_of (by decide +kernel),
    rfl⟩

/-- A LOST position; a reset queued; a full queue; a place free. -/
theorem witness_PositionResetIsQueued :
    (road.Accepts .positionReset (body 9 [1, 3]) [] ∧ (body 9 [1, 3]).byte 1 = (2 : Pos).val + 1 ∧
      road.posState 2 = some .lost) ∧
      ((road.queued_ 7).Accepts .positionReset (body 9 [1, 1]) [] ∧ road.posState 0 = some .present ∧
        (road.queued_ 7).scheduler.queue.length < 8 ∧ (road.queued_ 7).scheduler.slot = .empty ∧
        ∀ e ∈ (road.queued_ 7).scheduler.queue, e.work = .profile 3) ∧
      8 ≤ (road.queued_ 8).scheduler.queue.length ∧
      ∃ e ∈ (road.withQueue [⟨.posReset 0 ⟨.body, 1⟩, 0⟩]).scheduler.queue, ∃ who, e.work = .posReset 0 who :=
  ⟨⟨accepts_of (by decide +kernel), by decide, by decide +kernel⟩,
    ⟨accepts_of (by decide +kernel), by decide +kernel, by decide +kernel, by decide +kernel, by decide +kernel⟩,
    by decide +kernel, _, List.mem_singleton.mpr rfl, _, rfl⟩

/-- Each kind of setting: held with the slot occupied, taken with it empty; Q_SET, Q_CLEAR; the first and last codes. -/
theorem witness_SettingWriteChangesTheWorkingSetting :
    (awaited.Accepts .settingWrite (service 10 [1, 0, 3, 0, 1]) [] ∧ awaited.scheduler.slot ≠ .empty ∧
      (service 10 [1, 0, 3, 0, 1]).byte 2 = 3) ∧
      (awaited.Accepts .settingWrite (service 10 [1, 0, 0, 7, 208]) [] ∧
        ¬ ((service 10 [1, 0, 0, 7, 208]).byte 2 = 1 ∨ (service 10 [1, 0, 0, 7, 208]).byte 2 = 2 ∨
          (service 10 [1, 0, 0, 7, 208]).byte 2 = 3)) ∧
      (road.Accepts .settingWrite (service 10 [1, 0, 9, 0, 1]) [] ∧ road.scheduler.slot = .empty) ∧
      road.Accepts .settingWrite (service 10 [1, 0, 10, 0, 1]) [] ∧
      road.Accepts .settingWrite (service 10 [1, 0, 14, 6, 0]) [] :=
  ⟨⟨accepts_of (by decide +kernel), by decide +kernel, by decide⟩, ⟨accepts_of (by decide +kernel), by decide⟩,
    ⟨accepts_of (by decide +kernel), by decide +kernel⟩, accepts_of (by decide +kernel), accepts_of (by decide +kernel)⟩

/-- Counts at the new threshold and just below it; a candidate whose count falls to 0; a RECOVERING cell under Q_CLEAR. -/
theorem witness_SettingWriteClampsTheCounts :
    let cells (n : Nat) : State := ((road.setCell (.lamp 0 0) { Cell.fresh with
        state := .suspect, candidate := some .leak, count := n }).setCell (.lamp 0 1) { Cell.fresh with
        state := .faulted, confirmed := some .leak, candidate := some .overload, count := n }).setCell (.lamp 0 2)
        { Cell.fresh with state := .recovering, confirmed := some .leak, count := n }
    let counts (code value : Byte) (n : Nat) : List (CellState × Option Verdict × Nat) :=
      let t := after (.settingWrite (at_ 0) (service 10 [1, 0, code, 0, value])) (cells n)
      ([0, 1, 2] : List Func).map fun f => ((t.cell (.lamp 0 f)).state, (t.cell (.lamp 0 f)).candidate, (t.cell (.lamp 0 f)).count)
    counts 9 2 2 = [(.suspect, some .leak, 1), (.faulted, some .overload, 1), (.recovering, none, 2)] ∧
      counts 9 3 2 = [(.suspect, some .leak, 2), (.faulted, some .overload, 2), (.recovering, none, 2)] ∧
      counts 9 1 2 = [(.suspect, some .leak, 0), (.faulted, none, 0), (.recovering, none, 2)] ∧
      counts 10 2 2 = [(.suspect, some .leak, 2), (.faulted, some .overload, 2), (.recovering, none, 1)] := by
  decide +kernel

/-- SPEED_LOCK: at FULL with nothing decided; with a return decided and not handed read_; at REDUCED, where a return is
due and where it is not. -/
theorem witness_SettingWriteDecidesBySpeedLock :
    let reduced (x : Health) : State := { road with link := { road.link with speed := .reduced }, health := x }
    (road.Accepts .settingWrite (service 10 [1, 0, 3, 0, 1]) [] ∧ (service 10 [1, 0, 3, 0, 1]).byte 2 = 3 ∧
      settingValue 3 ((service 10 [1, 0, 3, 0, 1]).word 3) = 1 ∧ settingValue 3 ((service 10 [1, 0, 3, 0, 0]).word 3) = 0 ∧
      road.link.speed = .full ∧ road.health.pending = none ∧ road.link.phase.carriesSpeed = false) ∧
      ((reduced ⟨[], 256, some .full, none, none⟩).health.pending = some .full ∧
        LinkPhase.carriesSpeed (.sending (speedFrame .full) 0) = true) ∧
      ((reduced ⟨[], 256, none, none, none⟩).link.speed = .reduced ∧
        (reduced ⟨[], 256, none, none, none⟩).health.cleanRun = 256 ∧
        (reduced ⟨[], 255, none, none, none⟩).health.cleanRun ≠ 256 ∧
        (reduced ⟨[], 256, none, none, none⟩).health.hold = none ∧
        (reduced ⟨[], 256, none, none, none⟩).health.pending = none) :=
  ⟨⟨accepts_of (by decide +kernel), by decide +kernel⟩, by decide +kernel⟩

theorem witness_SettingsReadBackInRange :
    (14 : Nat) ≤ 14 ∧ (13 : Nat) ≤ 14 ∧ (13 : Nat) ≠ 14 ∧
      ((Config.defaultSettings.write 14 (settingValue 14 0xFFFF)).read 14 = settingValue 14 0xFFFF) := by decide +kernel

theorem witness_SettingSaveStoresASnapshot :
    road.Accepts .settingSave (service 10 [1, 2]) [] ∧ road.ignition.save = none ∧
      (after (.settingSave (at_ 0) (service 10 [1, 2])) road).ignition.save =
        some ⟨⟨Config.defaultSettings, ⟨[], 0⟩⟩, some ⟨.service, 1⟩⟩ :=
  ⟨accepts_of (by decide +kernel), rfl, by decide +kernel⟩

theorem witness_CountersCountAndAreRead :
    road.ignition.part ≠ .asleep ∧ road.asleep.ignition.part = .asleep ∧
      (road.Accepts .counterSetup (service 11 [1, 0, 3, 11, 0x7F]) [] ∧
        (service 11 [1, 0, 3, 11, 0x7F]).byte 2 = (3 : Fin 4).val) ∧
      (road.Accepts .counterRead (service 11 [1, 1, 0, 1]) [] ∧ (service 11 [1, 1, 0, 1]).byte 2 = (0 : Fin 4).val) :=
  ⟨by decide +kernel, by decide +kernel, ⟨accepts_of (by decide +kernel), by decide⟩, accepts_of (by decide +kernel),
    by decide⟩

/-- The socket UNCOUPLED; a place free; a full queue with a QUERY of origin SCAN, and without. -/
theorem witness_EnumerateRequestWantsAnEnumeration :
    let r := service 13 [1]
    let s := road.withQueue (List.replicate 7 ⟨.profile 3, 9000⟩ ++ [⟨.query 0 1 .scan, 9000⟩])
    ({ road with enumerator := { road.enumerator with coupled := false } } : State).Accepts .enumerate r [] ∧
      ((road.queued_ 7).Accepts .enumerate r [] ∧ road.enumerator.coupled = true ∧ road.enumerator.phase = .idle ∧
        (road.queued_ 7).scheduler.queue.length < 8) ∧
      ((road.queued_ 8).Accepts .enumerate r [] ∧ 8 ≤ (road.queued_ 8).scheduler.queue.length ∧
        ∀ e ∈ (road.queued_ 8).scheduler.queue, e.work = .profile 3) ∧
      (s.Accepts .enumerate r [] ∧ 8 ≤ s.scheduler.queue.length ∧
        s.scheduler.queue = List.replicate 7 ⟨.profile 3, 9000⟩ ++ ⟨.query 0 1 .scan, 9000⟩ :: []) :=
  ⟨accepts_of (by decide +kernel), ⟨accepts_of (by decide +kernel), by decide +kernel, by decide +kernel,
    by decide +kernel⟩, ⟨accepts_of (by decide +kernel), by decide +kernel, by decide +kernel⟩,
    accepts_of (by decide +kernel), by decide +kernel, by decide +kernel⟩

theorem witness_PartResetWaitsForItsReply :
    road.Accepts .partResetHard (service 14 [1, 0]) [] ∧ road.Accepts .partResetSoft (service 14 [1, 1]) [] :=
  ⟨accepts_of (by decide +kernel), accepts_of (by decide +kernel)⟩

/-- The REPLY to a PART_RESET on the bus; messages queued; the reports due one after the other; nothing to send. -/
theorem witness_TransmitterTakesTheNextMessage :
    let message : Message := ⟨.reply, [1], some .hard⟩
    let sending : Report := { road.report with
      transmit := [message, message], deferred := [message], onBus := some ⟨⟨0x540, false, [1]⟩, true⟩ }
    (sending.transmit = message :: [message] ∧ sending.onBus = some ⟨⟨0x540, false, [1]⟩, true⟩ ∧
      sending.finish.reset = .due .hard) ∧
      (({ road.report with transmit := [message] } : Report).finish.transmit = [message] ∧
        road.report.finish.reset = .none) ∧
      (({ road.report with imageDue := true } : Report).finish.imageDue = true ∧
        ({ road.report with imageDue := true } : Report).finish.transmit = []) ∧
      (({ road.report with summaryDue := true } : Report).finish.summaryDue = true ∧
        ({ road.report with summaryDue := true } : Report).finish.imageDue = false) ∧
      road.report.finish.imageDue = false ∧ road.report.finish.summaryDue = false := by decide +kernel

/-- A report on the bus while messages wait, the bus idle while they wait, and a message of the queue with none deferred. -/
theorem witness_TransmitterKeepsTheQueue :
    let message : Message := ⟨.reply, [1], none⟩
    let x (b : Option OnBus) : Report := { road.report with transmit := [message], deferred := [message], onBus := b }
    ((x (some ⟨⟨0x542, false, [1]⟩, false⟩)).onBus = some ⟨⟨0x542, false, [1]⟩, false⟩ ∧
      (x (some ⟨⟨0x542, false, [1]⟩, false⟩)).finish = x none) ∧
      ((x none).onBus = none ∧ (x none).finish = x none) ∧
      road.report.transmit = [] ∧
      ({ x (some ⟨⟨0x540, false, [1]⟩, true⟩) with deferred := [] } : Report).finish.transmit = [] := by decide +kernel

/-- The periods of 200 ms and 500 ms since the last ones at 9800 and 9500, the moment before, and a change after 50 ms;
no report sent yet; ASLEEP. -/
theorem witness_ReportsFallDueByTheirPeriods :
    road.report.lastImage = some ([], 9800) ∧ road.report.lastSummary = some ([], 9500) ∧
      road.ignition.part ≠ .asleep ∧ 200 ≤ (road.advance (at_ 0)).age 9800 ∧ 500 ≤ (road.advance (at_ 0)).age 9500 ∧
      (({ road with clock := 9849999 } : State).advance (at_ 0)).age 9800 = 49 ∧
      (({ road with clock := 9849999 } : State).advance (at_ 1)).age 9800 = 50 ∧ road.imageNow ≠ [] ∧
      road.summaryNow ≠ [] ∧ coldStart.report.lastImage = none ∧ coldStart.report.lastSummary = none ∧
      road.asleep.ignition.part = .asleep ∧ road.report.imageDue = false ∧ road.report.summaryDue = false := by
  decide +kernel

/-- Coupling out of NO_TRAIN with seven entries queued. -/
def uncoupled : State :=
  { road.queued_ 7 with
    sense := { road.sense with coupled := false }, train := ⟨Vector.replicate 6 none, .noTrain, false⟩
    enumerator := { road.enumerator with coupled := false } }

/-- The input standing at a level for 200 ms, and the moment before; an input that has just changed. -/
theorem witness_SocketDetectSetsMapAndLink :
    let since (s : State) (level : Bool) : State :=
      { s with
        inputs := { live with socketCoupled := level }, steady := { socket := 9800000, ignition := 0 } }
    ((at_ 0).inputs.socketCoupled = (since uncoupled true).inputs.socketCoupled ∧
      (since uncoupled true).steady.socket + 200000 ≤ (since uncoupled true).clock + 0 ∧
      ¬ 9800001 + 200000 ≤ (since uncoupled true).clock + 0) ∧
      (at_ 0).inputs.socketCoupled = road.sense.coupled ∧ live.uncoupled.socketCoupled ≠ road.inputs.socketCoupled ∧
      (live.uncoupled.socketCoupled = (since road.asleep false).inputs.socketCoupled ∧
        live.uncoupled.socketCoupled ≠ (since road.asleep false).sense.coupled ∧
        (since road.asleep false).ignition.part = .asleep) ∧
      ((at_ 0).inputs.socketCoupled = true ∧ uncoupled.sense.coupled = false ∧ uncoupled.ignition.part ≠ .asleep ∧
        uncoupled.train.linkState = .noTrain ∧ uncoupled.enumerator.phase = .idle ∧
        uncoupled.scheduler.queue.length < 8 ∧ uncoupled.scheduler.enumerateWaiting = false ∧
        ¬ ∃ p, uncoupled.posState p = some .present) ∧
      (live.uncoupled.socketCoupled = false ∧ (since road false).inputs.socketCoupled = false ∧
        (since road false).sense.coupled = true ∧ (since road false).ignition.part ≠ .asleep ∧
        (since road false).train.linkState ≠ .noTrain ∧ (road.record 2).isSome = true) ∧
      collecting.enumerator.phase ≠ .idle ∧ collecting.train.linkState ≠ .noTrain ∧
      ∃ p, road.posState p = some .present := by decide +kernel

/-- Function f driven for the given milliseconds, the test points passed as given, commanded as given. -/
def drivenFor (ms points : Nat) (x : CommandState) : State :=
  { road with
    intake := ⟨Vector.replicate 8 x, 17, false, false, 9900⟩
    sense := ⟨Vector.replicate 8 ⟨true, some (BitVec.ofNat 32 (10000 - ms)), points⟩, true⟩ }

def reached (s : State) : Prop :=
  (s.sense.channels[0]).driven = true ∧ ∃ since, (s.sense.channels[0]).since = some since ∧
    (((s.sense.channels[0]).testPoints = 0 ∧ 30 ≤ (s.advance (at_ 0)).age since) ∨
      ((s.sense.channels[0]).testPoints = 1 ∧ 100 ≤ (s.advance (at_ 0)).age since))

/-- A train of LED circuits is not slow; a filament circuit makes it so. -/
def ledTrain (s : State) (x : LinkState) : State :=
  { s with train := ⟨#v[some { unit none .silent with applied := Vector.replicate 8 (some ⟨6, .led, 4, none⟩) }, none,
    none, none, none, none], x, true⟩ }

theorem witness_LineSamplesAreScreened :
    reached (drivenFor 30 0 .on) ∧ reached (drivenFor 100 1 .on) ∧ reached (ledTrain (drivenFor 30 0 .on) .live) ∧
      ((drivenFor 29 0 .on).advance (at_ 0)).age 9971 < 30 ∧ ((drivenFor 99 1 .on).advance (at_ 0)).age 9901 < 100 ∧
      ((drivenFor 30 0 .on).ignition.part = .running ∧ ((drivenFor 30 0 .on).cell (.line 0)).state ≠ .absent) ∧
      road.asleep.ignition.part ≠ .running ∧ (State.reset.cell (.line 0)).state = .absent ∧
      (drivenFor 30 0 .on).intake.lost = false ∧ State.reset.intake.lost = true ∧
      (drivenFor 30 0 .off).intake.states[(0 : Func)] = .off ∧ (drivenFor 30 0 .on).intake.states[(0 : Func)] ≠ .off ∧
      (∃ r x, road.record 0 = some r ∧ r.applied[(0 : Func)] = some x ∧ x.tech = .filament ∧ 1 ≤ x.n) ∧
      (∀ p, ((ledTrain road .down).record p).all fun r => decide ((r.applied[(0 : Func)]).map Profile.tech = some .led)) ∧
      (ledTrain road .down).train.linkState = .down ∧ (ledTrain road .live).train.linkState = .live ∧
      min 400 ({ live with voltage := 179 } : Inputs).voltage < road.ignition.settings.minJudgeV ∧
      (road.sense.channels[(0 : Func)]).since = none :=
  ⟨⟨by decide +kernel, _, rfl, by decide +kernel⟩, ⟨by decide +kernel, _, rfl, by decide +kernel⟩,
    ⟨by decide +kernel, _, rfl, by decide +kernel⟩, by decide +kernel, by decide +kernel, by decide +kernel,
    by decide +kernel, by decide +kernel, by decide +kernel, by decide +kernel, by decide +kernel, by decide +kernel,
    ⟨_, _, rfl, rfl, by decide +kernel, by decide +kernel⟩, by decide +kernel⟩

/-- A line sample that is accepted: in LIVE, where segment 0 can be ruled on, and in DOWN. -/
theorem witness_LineSamplesAreAccepted :
    let s := drivenFor 100 1 .on
    let x : Sample := ⟨0, 0, 264, 17, true, 10000, false, false⟩
    let t := (s.setCell (.lamp 0 0) { Cell.fresh with sample := some x })
    (t.train.linkState = .live ∧ (t.cell (.segment 0 0)).state ≠ .absent ∧
      (t.storeSample (.line 0) x).harnessRuling 0 0 true = some (.verdict .good)) ∧
      (ledTrain s .down).train.linkState = .down := by decide +kernel

/-- SCAN_PERIOD, 200 ms, since the round at 9800, and the moment before; a lit train and a dark one. -/
theorem witness_ScanRoundsQueueQueries :
    let dark := { road with intake := { road.intake with states := Vector.replicate 8 .off, lost := true } }
    (road.ignition.part = .running ∧ road.scheduler.lastRound = some 9800 ∧
      road.ignition.settings.scanPeriod ≤ (road.advance (at_ 0)).age 9800) ∧
      (({ road with clock := 9999999 } : State).advance (at_ 0)).age 9800 < road.ignition.settings.scanPeriod ∧
      road.scheduler.roundAtOnce = false ∧
      ((∀ f : Func, (5 : Mask).getLsbD f.val = true ↔ road.intake.states[f] = .on ∨ road.intake.states[f] = .flash) ∧
        (∃ f : Func, road.intake.states[f] = .on) ∧ road.scheduler.queue = [] ∧
        road.scheduler.enumerateWaiting = false) ∧
      (∀ f : Func, dark.intake.states[f] = .off) ∧ (∀ p, (dark.record p).all fun r => !r.wanted) ∧
      dark.intake.lost = true := by decide +kernel

/-- The queue full, and with one place and a QUERY to join; a description wanted; line samples held and accepted; the
counters of the round. -/
theorem witness_ScanRoundsOfferAndSample :
    let asking := road.setRecord 0 (some { unit (some 1) .present with wanted := true })
    let last := road.withQueue (List.replicate 6 ⟨.profile 3, 9000⟩ ++ [⟨.query 0 1 .sweep, 9000⟩])
    let drawn := drivenFor 100 1 .on
    let counting (e : CountedEvent) : State := { road with counters := Vector.replicate 4 ⟨e, 0x7F, 0, false⟩ }
    (8 ≤ (road.queued_ 8).scheduler.queue.length ∧ last.scheduler.queue.length < 8 ∧
      (∃ e ∈ last.scheduler.queue, e.work = .query 0 1 .sweep)) ∧
      ((∃ r, asking.record 0 = some r ∧ r.wanted = true) ∧ asking.scheduler.slot = .empty ∧
        asking.scheduler.queue = []) ∧
      (road.intake.lost = false ∧ (road.cell (.line 0)).state ≠ .absent ∧ road.intake.states[(0 : Func)] = .on ∧
        road.intake.states[(2 : Func)] = .flash ∧ road.intake.states[(1 : Func)] = .off ∧
        (∀ f : Func, (road.sense.channels[f]).driven = false) ∧
        (State.reset.cell (.line 0)).state = .absent) ∧
      ((drawn.sense.channels[(0 : Func)]).driven = true ∧ (drawn.sense.channels[(0 : Func)]).since = some 9900 ∧
        drawn.train.linkState = .live ∧ (ledTrain drawn .down).train.linkState = .down ∧
        (drawn.advance (at_ 0)).age 9900 = 100 ∧ ((drivenFor 99 1 .on).advance (at_ 0)).age 9901 = 99 ∧
        ((drivenFor 29 0 .on).advance (at_ 0)).age 9971 = 29) ∧
      ((counting .scanSkipped).counters[(0 : Fin 4)]).selector = .scanSkipped ∧
      ((counting .queueOccupancy).counters[(0 : Fin 4)]).selector = .queueOccupancy := by
  refine ⟨by decide +kernel, ⟨⟨_, rfl, rfl⟩, by decide +kernel⟩, by decide +kernel, by decide +kernel, by decide +kernel⟩

def flying (stage : Stage) : State :=
  { road with scheduler := { road.scheduler with slot := .addressed ⟨.query 0 1, 1, 0, 90, false, false, stage⟩ } }

/-- Each timer at its time and a moment before it. -/
theorem witness_TimersSetTheirMarks :
    let clean (hold : Time) : State :=
      { road with link := { road.link with speed := .reduced }, health := ⟨[], 256, none, none, some hold⟩ }
    let probing : State := { road.queued_ 7 with enumerator := ⟨.idle, some 5000, true⟩ }
    (road.scheduler.lastLampState = some 9800 ∧ (road.advance (at_ 50000)).age 9800 = 250 ∧
      (road.advance (at_ 49999)).age 9800 = 249) ∧
      ((flying (.reissueAt 10000001)).scheduler.slot = .addressed ⟨.query 0 1, 1, 0, 90, false, false,
          .reissueAt 10000001⟩ ∧
        10000001 ≤ ((flying (.reissueAt 10000001)).advance (at_ 1)).clock ∧
        ((flying (.reissueAt 10000001)).advance (at_ 0)).clock < 10000001) ∧
      (road.withLink { road.link with phase := .speedHold 10000001 }).link.phase = .speedHold 10000001 ∧
      ((clean 10000).health.hold = some 10000 ∧ ((clean 10000).advance (at_ 0)).age 10000 < 2 ^ 31 ∧
        2 ^ 31 ≤ ((clean 10001).advance (at_ 0)).age 10001) ∧
      ((clean 10000).ignition.part ≠ .asleep ∧ (clean 10000).link.speed = .reduced ∧
        (clean 10000).health.cleanRun = 256 ∧ (clean 10000).ignition.settings.speedLock = .fullAllowed ∧
        (clean 10000).health.pending = none) ∧
      road.link.speed ≠ .reduced ∧ road.health.hold = none ∧
      (probing.enumerator.probeFrom = some 5000 ∧ 5000 ≤ (probing.advance (at_ 0)).age 5000 ∧
        probing.enumerator.phase = .idle ∧ probing.ignition.part = .running ∧ probing.enumerator.coupled = true ∧
        (∃ p, probing.posState p = some .lost) ∧ probing.scheduler.queue.length < 8) ∧
      (({ probing with clock := 9999999 } : State).advance (at_ 0)).age 5000 < 5000 ∧
      road.enumerator.probeFrom = none := by decide +kernel

/-- The gap of three characters, 528 µs, since the last one, and the moment before; then each frame of the order in
turn, with what goes before it absent. -/
theorem witness_AnIdleLinkTakesTheFirstFrame :
    let heard := { road with link := { road.link with lineActive := some 9999472 } }
    (heard.ignition.part ≠ .asleep ∧ heard.link.phase = .free ∧ heard.link.reception = .none ∧
      ∀ at_, heard.link.lineActive = some at_ → at_ + 3 * charTime heard.link.speed ≤ heard.clock) ∧
      ¬ (9999473 + 3 * charTime heard.link.speed ≤ heard.clock) ∧
      (road.link.lastFrameSent = some 9900 ∧ (road.advance (at_ 899999)).age 9900 < 1000) ∧
      (road.withHealth { road.health with pending := some .reduced }).health.pending = some .reduced ∧
      (road.health.pending = none ∧ State.reset.scheduler.broadcastOwed = true ∧
        road.scheduler.broadcastOwed = false) ∧
      (flying .due).scheduler.slot = .addressed ⟨.query 0 1, 1, 0, 90, false, false, .due⟩ ∧
      Stage.onLink ≠ Stage.due ∧ collecting.scheduler.slot = .enumerating 1 false ∧ road.scheduler.slot = .empty ∧
      road.scheduler.queue = [] ∧ coldStart.enumerator.phase = .pending ∧
      coldStart.scheduler.queue = [⟨.enumerate, 0⟩] ∧
      (match collecting.enumerator.phase with | .running n _ => decide (n = 1) | _ => false) = true ∧
      ((∀ f : Func, (5 : Mask).getLsbD f.val = true ↔ road.intake.states[f] = .on ∨ road.intake.states[f] = .flash) ∧
        (0xFF : Mask) &&& 5 ≠ 0 ∧ road.ignition.part = .running) :=
  ⟨⟨by decide +kernel, rfl, rfl, forall_some (by decide +kernel)⟩, by decide +kernel⟩

/-- A QUERY of STOP, which is off, before a PROFILE, a POSITION_RESET or a QUERY of a lit function, and alone: discarded
while RUNNING and passed over while WAKING. -/
theorem witness_AnIdleLinkPassesOverQueries :
    let dark : List Entry := [⟨.query 0 2 .scan, 9000⟩]
    let waking := { road with ignition := { road.ignition with part := .waking } }
    (∀ f : Func, (5 : Mask).getLsbD f.val = true ↔ road.intake.states[f] = .on ∨ road.intake.states[f] = .flash) ∧
      (∀ e ∈ dark, e.work = .query 0 2 .scan) ∧ (2 : Mask) &&& 5 = 0 ∧ road.ignition.part = .running ∧
      waking.ignition.part = .waking ∧ road.scheduler.enumerateWaiting = false ∧
      (road.withQueue dark).scheduler.queue = dark ∧
      (road.withQueue (dark ++ [⟨.profile 1, 9000⟩])).scheduler.queue = dark ++ ⟨.profile 1, 9000⟩ :: [] ∧
      (road.withQueue (dark ++ [⟨.posReset 1 ⟨.service, 7⟩, 9000⟩])).scheduler.queue =
        dark ++ ⟨.posReset 1 ⟨.service, 7⟩, 9000⟩ :: [] ∧
      (road.withQueue (dark ++ [⟨.query 1 4 .sweep, 9000⟩])).scheduler.queue =
        dark ++ ⟨.query 1 4 .sweep, 9000⟩ :: [] ∧ (4 : Mask) &&& 5 ≠ 0 := by decide +kernel

/-- 1000 ms since the last frame of 9900; every monitor state that the link meets. -/
theorem witness_AWakePulsePrecedesTheFrame :
    (road.ignition.part ≠ .asleep ∧ road.link.phase = .free ∧ road.link.reception = .none ∧
      (∀ u, road.link.lineActive = some u → u + 3 * charTime road.link.speed ≤ (road.advance (at_ 900000)).clock) ∧
      (∀ u, road.link.lastFrameSent = some u → 1000 ≤ (road.advance (at_ 900000)).age u) ∧
      road.health.pending = none) ∧
      State.reset.scheduler.broadcastOwed = true ∧ road.attention.monitor = .idle ∧
      stuckLine.attention.monitor = .stuck none ∧
      (match pulsed.link.phase with | .wakeDrive _ end_ => decide (end_ = 3000) | _ => false) = true ∧
      pulsed.attention.monitor = .ownDrive ∧
      (match (after (.wakePulseRelease (at_ 2000)) pulsed).link.phase with
        | .wakeHold _ end_ => decide (end_ = 8000)
        | _ => false) = true :=
  ⟨⟨by decide +kernel, rfl, rfl, forall_some (by decide +kernel), forall_some (by decide +kernel), rfl⟩,
    by decide +kernel⟩

/-- Each frame that an idle link takes, 1000 ms after the last one: a pending SPEED, a due attempt, the ENUMERATE, each
entry behind a QUERY of no lit function. -/
theorem witness_AWakePulsePrecedesEachFrame :
    let kind (s : State) : Option (DownKind × Nat) :=
      let t := after (.linkIdle (at_ 900000)) s
      match t.link.phase with
      | .wakeDrive f end_ => if t.attention.monitor = .ownDrive then some (f.kind, end_) else none
      | _ => none
    let first (w : Work) : State := road.withQueue [⟨.query 1 2 .scan, 9000⟩, ⟨w, 9000⟩]
    kind (road.withHealth { road.health with pending := some .reduced }) = some (.speed, 10902000) ∧
      (road.scheduler.broadcastOwed = false ∧ (flying .due).scheduler.broadcastOwed = false ∧
        kind (flying .due) = some (.query, 10902000)) ∧
      ((collecting.enumerator.phase ≠ .idle ∧ coldStart.enumerator.phase = .pending) ∧
        kind { road.withQueue [⟨.enumerate, 9000⟩] with enumerator := ⟨.pending, none, true⟩ } =
          some (.enumerate, 10902000)) ∧
      (∀ f : Func, (5 : Mask).getLsbD f.val = true ↔ road.intake.states[f] = .on ∨ road.intake.states[f] = .flash) ∧
      ((2 : Mask) &&& 5 = 0 ∧ road.scheduler.enumerateWaiting = false ∧
        kind (first (.profile 1)) = some (.profileReq, 10902000) ∧
        kind (first (.posReset 1 ⟨.service, 7⟩)) = some (.posReset, 10902000) ∧
        kind (first (.query 0 1 .scan)) = some (.query, 10902000)) ∧
      ((after (.linkIdle (at_ 900000)) ({ flying .due with attention := ⟨false, .measuring 9999000 true none, false⟩ } : State)
        ).link.phase = .waitPulse ⟨.query, 1, 91, [1]⟩) := by decide +kernel

/-- The end of each kind of frame, and a moment before it. -/
theorem witness_TheFrameSentDecidesWhatFollows :
    let sending := fun f : DownFrame => (road.withLink { road.link with phase := .sending f 10000001 }).link.phase
    (sending (lampStateFrame road.intake) = .sending (lampStateFrame road.intake) 10000001 ∧
      (lampStateFrame road.intake).kind = .lampState) ∧
      10000001 ≤ (road.advance (at_ 1)).clock ∧ (road.advance (at_ 0)).clock < 10000001 ∧
      (queried.link.phase = .sending ⟨.query, 2, 17, [6]⟩ 10002056 ∧
        queried.scheduler.slot = .addressed ⟨.query 1 6, 1, 0, 17, false, false, .onLink⟩) ∧
      road.scheduler.slot = .empty ∧ (enumerateFrame 1).kind = .enumerate ∧ (speedFrame .full).kind = .speed ∧
      (speedFrame .full).payload = [0] ∧ (speedFrame .reduced).payload ≠ [0] := by decide +kernel

/-- The answer to the QUERY of `awaited` arriving, at the speed given; the attempt and BUSY count as given. -/
def arriving (speed : Speed) (attempt busyCount : Nat) : State :=
  { awaited with
    link := { awaited.link with speed := speed, reception := .receiving false, phase := .awaiting (.stopped 3008) }
    scheduler := { awaited.scheduler with
      slot := .addressed ⟨.query 1 6, attempt, busyCount, 17, false, false, .onLink⟩ } }

/-- A reception that has paused for two characters after its first, and the moment before; one of an awaited answer and one
in the window; surplus characters; the other speed; the fourth failure of the window, and a watch at the drop. -/
theorem witness_AFailedFrameEndsTheAttempt :
    (awaited.ignition.part ≠ .asleep ∧ awaited.link.phase = .awaiting (.running 10007056) ∧
      awaited.link.reception = .none ∧ awaited.link.received = some (10002056, false)) ∧
      (awaited.clock < 10002056 + 3 * charTime .full ∧
        ¬ ((awaited.advance (at_ 528)).clock < 10002056 + 3 * charTime .full)) ∧
      road.asleep.ignition.part = .asleep ∧ queried.link.phase = .sending ⟨.query, 2, 17, [6]⟩ 10002056 ∧
      ((road.withLink { road.link with reception := .receiving false }).link.reception = .receiving false ∧
        road.link.phase = .free ∧ road.link.reception = .none ∧ road.link.lineActive = some 9900000 ∧
        9900000 + 3 * charTime road.link.speed ≤ (road.advance (at_ 0)).clock ∧
        ¬ 9999473 + 3 * charTime road.link.speed ≤ (road.advance (at_ 0)).clock ∧
        9999472 + 3 * charTime road.link.speed ≤ (road.advance (at_ 0)).clock) ∧
      ((arriving .full 2 0).link.lineActive = some 10002056 ∧
        10002056 + 3 * charTime .full ≤ ((arriving .full 2 0).advance (at_ 528)).clock ∧
        (arriving .full 2 0).scheduler.slot = .addressed ⟨.query 1 6, 2, 0, 17, false, false, .onLink⟩) ∧
      ((after (.frameReceiveStart (at_ 1000)) collecting).link.reception = .receiving false ∧
        (after (.frameReceiveStart (at_ 1000)) collecting).link.phase = .collecting (collecting.clock + 22000) ∧
        parseFrame .full none badFrame = none) ∧
      (List.count true (([true, true, true] ++ [true] : List Bool)) = 4 ∧
        (road.withHealth { road.health with window := [true, true, true], watch := some 1 }).health.pending = none) ∧
      ((arriving .full 2 0).link.reception = .receiving false ∧
        (arriving .full 2 0).link.phase = .awaiting (.stopped 3008) ∧
        (arriving .full 2 0).scheduler.slot = .addressed ⟨.query 1 6, 2, 0, 17, false, false, .onLink⟩ ∧
        parseFrame .full (arriving .full 2 0).flightMask (badFrame.take (frameLength .full badFrame)) = none ∧
        2 ≤ (arriving .full 2 0).ignition.settings.retryLimit) ∧
      (frameLength .full (wireOf .full [0x22, 2, 17, 0] ++ badFrame) = 5 ∧
        (wireOf .full [0x22, 2, 17, 0] ++ badFrame).length = 6) ∧
      parseFrame .reduced none (wireOf .full [0x22, 2, 17, 0]) = none ∧
      (arriving .full 2 0).link.speed = .full ∧ (arriving .reduced 2 0).link.speed = .reduced := by decide +kernel

/-- Attempt RETRY_LIMIT and the one after it, at the timer's end and a moment before it; a position of streak 2. -/
theorem witness_ASilentPositionIsCountedAfterItsRetries :
    let waiting (attempt : Nat) : State := { awaited with
      scheduler := { awaited.scheduler with
        slot := .addressed ⟨.query 1 6, attempt, 0, 17, false, false, .onLink⟩ } }
    ((waiting 2).link.phase = .awaiting (.running 10007056) ∧
      (waiting 2).scheduler.slot = .addressed ⟨.query 1 6, 2, 0, 17, false, false, .onLink⟩) ∧
      ((waiting 2).advance (at_ 4999)).clock < 10007056 ∧ 10007056 ≤ ((waiting 2).advance (at_ 5000)).clock ∧
      2 ≤ (waiting 2).ignition.settings.retryLimit ∧ (waiting 3).ignition.settings.retryLimit < 3 ∧
      (arriving .full 2 0).link.phase = .awaiting (.stopped 3008) ∧
      (waiting 3).record 1 = some (unit (some 2) .silent) ∧ ((waiting 3).setRecord 1 none).record 1 = none ∧
      (((waiting 3).setRecord 1 (some { unit (some 2) .present with streak := 2 })).record 1).map PosRecord.state =
        some .present ∧
      ((waiting 3).faults.records.length < 24 ∧ (waiting 3).faultAt (.module 1) = none) ∧
      ((waiting 3).ignition.part ≠ .asleep ∧ (waiting 3).enumerator.coupled = true ∧
        (waiting 3).enumerator.phase = .idle ∧ (waiting 3).apply = none) ∧
      (((waiting 3).cell (.lamp 1 0)).state ≠ .absent ∧
        ((waiting 3).cell (.segment (1 : Pos).castSucc 0)).state ≠ .absent ∧
        ((waiting 3).cell (.segment (1 : Pos).succ 0)).state ≠ .absent ∧
        ((waiting 3).cell (.lamp 4 0)).state = .absent) := by decide +kernel

/-- The last attempt of a POS_RESET, and of a QUERY while the watch runs; an apply that waits on the position alone, and on
another too; one that persists, the position known and unknown. -/
theorem witness_ASilentPositionIsAnsweredForToItsOwner :
    let last (sent : Sent) : State := { awaited with
      scheduler := { awaited.scheduler with slot := .addressed ⟨sent, 3, 0, 17, false, false, .onLink⟩ }
      health := { awaited.health with watch := some 1 } }
    let s := ((last (.query 1 6)).setRecord 1 (some { staged_ with serial := some 2 })).waiting_ [1] true
    let t := after (.replyTimerEnd (at_ 5000)) s
    ((last (.posReset 1 ⟨.body, 9⟩)).link.phase = .awaiting (.running 10007056) ∧
      (after (.replyTimerEnd (at_ 5000)) (last (.posReset 1 ⟨.body, 9⟩))).report.transmit =
        [⟨.reply, [9, 9, 8, 0, 0, 0], none⟩] ∧
      (last (.posReset 1 ⟨.body, 9⟩)).ignition.settings.retryLimit < 3) ∧
      ((last (.query 1 6)).health.watch = some 1 ∧ t.health.watch = none ∧ t.health.pending = some .reduced) ∧
      ((s.apply.map Apply.waiting) = some [1] ∧ s.record 1 = some { staged_ with serial := some 2 } ∧
        (s.cell (.lamp 1 0)).state ≠ .absent ∧ t.apply = none ∧ t.ignition.library.entries.map LibraryEntry.serial = [2] ∧
        t.report.transmit = [⟨.reply, [0x27, 7, 0, 0, 0, 0], none⟩]) ∧
      ((after (.replyTimerEnd (at_ 5000)) (s.waiting_ [1, 2] false)).apply.map Apply.waiting) = some [2] ∧
      (s.waiting_ [2] false).apply.map (fun a => decide (1 ∈ a.waiting)) = some false := by decide +kernel

/-- The SAMPLE of STOP and TURN_L that answers the QUERY of `awaited` under epoch 30, with the first entry's flags. -/
def sampleOf (flags : Byte) : List WireChar :=
  wireOf .full ([0x21, 2, 17, 13, 1, 8, 30] ++ [flags, 4, 0, 4, 0] ++ [0x10, 4, 0, 4, 0])

def entryOf (status : EntryStatus) : SampleEntry := ⟨status, false, false, false, false, 1024, 1024⟩

def lastEntry : SampleEntry := ⟨.valid, false, false, true, false, 1024, 1024⟩

theorem receives_sample :
    (arriving .full 1 0).Receives ⟨.query 1 6, 1, 0, 17, false, false, .onLink⟩ (sampleOf 0)
      (.sample 264 30 [entryOf .valid, lastEntry]) :=
  ⟨by decide +kernel, rfl, ⟨_, rfl⟩, rfl, rfl, rfl, by decide +kernel, rfl⟩

/-- Each status of an entry; the epoch in force, one entry without an epoch, and the command-changed mark. -/
theorem witness_ASampleIsScreenedEntryByEntry :
    (arriving .full 1 0).Receives ⟨.query 1 6, 1, 0, 17, false, false, .onLink⟩ (sampleOf 0)
        (.sample 264 30 [entryOf .valid, lastEntry]) ∧
      (arriving .full 1 0).record 1 = some (unit (some 2) .silent) ∧ (arriving .full 1 0).apply = none ∧
      (functions.filter fun g => (6 : Mask).getLsbD g.val) = [1, 2] ∧
      ((arriving .full 1 0).cell (.lamp 1 1)).state ≠ .absent ∧ (arriving .full 1 0).intake.lost = false ∧
      (arriving .full 1 0).intake.states[(1 : Func)] ≠ .off ∧ (arriving .full 1 0).intake.epoch = 30 ∧
      ([(1 : Byte), 2, 3, 0x20].map fun b => (parseFrame .full (some 6) (sampleOf b)).map UpFrame.body) =
        [some (.sample 264 30 [entryOf .settling, lastEntry]), some (.sample 264 30 [entryOf .offPhase, lastEntry]),
          some (.sample 264 30 [entryOf .notDriven, lastEntry]),
          some (.sample 264 30 [{ entryOf .valid with noEpoch := true }, lastEntry])] :=
  ⟨receives_sample, by decide +kernel⟩

/-- A VALID entry, with a record of its profile and segments that can be ruled on and that cannot; a counter of
REPLY_VALID. -/
theorem witness_ASampleIsJudgedAndChecked :
    let s := (arriving .full 1 0).withIntake { (arriving .full 1 0).intake with epoch := 30 }
    let x : Sample := ⟨1024, 1024, 264, 30, true, s.now, false, false⟩
    ((entryOf .valid).status = .valid ∧ (unit (some 2) .silent).applied[(1 : Func)] = some (bulbs 4) ∧
      s.counters[(0 : Fin 4)].selector ≠ .replyValid ∧
      ((after (.counterSetup (at_ 0) (service 11 [1, 0, 0, 1, 0x7F])) road).counters[(0 : Fin 4)]).selector =
        .replyValid) ∧
      ((s.cell (.segment 1 1)).state ≠ .absent ∧
        (((s.setRecord 1 (some (unit (some 2) .present))).setCell (.lamp 0 1) { Cell.fresh with sample := some x }).storeSample
          (.lamp 1 1) x).harnessRuling 1 1 false = some (.verdict (.bad .senseConflict)) ∧
        ((s.setRecord 1 (some (unit (some 2) .present))).storeSample (.lamp 1 1) x).harnessRuling 1 1 false = none) ∧
      (s.storeSample (.lamp 1 1) x).harnessRuling 2 1 true = some (.hold .silent) ∧
      (s.setCell (.segment 1 1) Cell.absent).cell (.segment 1 1) = Cell.absent := by decide +kernel

/-- The SAMPLE of `arriving` while an apply waits on its position, alone and with another: STOP is stored, judged under the
old profile, and reset. -/
theorem witness_ASampleEndsAWait :
    let changed := { unit (some 2) .silent with
      staged := (Vector.replicate 8 none).set 1 (some (bulbs 2)), changed := (Vector.replicate 8 false).set 1 true }
    let s := ((arriving .full 1 0).setRecord 1 (some changed)).waiting_ [1] true
    let t := after (.sample (at_ 3168) (sampleOf 0)) s
    (s.Receives ⟨.query 1 6, 1, 0, 17, false, false, .onLink⟩ (sampleOf 0) (.sample 264 30 [entryOf .valid, lastEntry])) ∧
      (s.record 1 = some changed ∧ changed.changed[(1 : Func)] = true ∧ changed.staged[(1 : Func)] = some (bulbs 2) ∧
        changed.applied[(1 : Func)] ≠ some (bulbs 2) ∧ changed.changed[(2 : Func)] = false) ∧
      (t.apply = none ∧ (t.cell (.lamp 1 1)).sample = none ∧ (t.cell (.lamp 1 2)).sample.isSome = true ∧
        t.ignition.library.entries.map LibraryEntry.serial = [2] ∧
        t.report.transmit = [⟨.reply, [0x27, 7, 0, 0, 0, 0], none⟩]) ∧
      ((after (.sample (at_ 3168) (sampleOf 0)) (s.waiting_ [1, 2] false)).apply.map Apply.waiting) = some [2] :=
  ⟨⟨by decide +kernel, rfl, ⟨_, rfl⟩, rfl, rfl, rfl, by decide +kernel, rfl⟩, by decide +kernel⟩

/-- BUSY counts 3 and 4, attempts 2 and 3. -/
theorem witness_BusyIsReissuedFourTimes :
    (arriving .full 3 3).Receives ⟨.query 1 6, 3, 3, 17, false, false, .onLink⟩ (wireOf .full [0x22, 2, 17, 0]) .busy ∧
      (arriving .full 2 4).Receives ⟨.query 1 6, 2, 4, 17, false, false, .onLink⟩ (wireOf .full [0x22, 2, 17, 0]) .busy ∧
      2 ≤ (arriving .full 2 4).ignition.settings.retryLimit :=
  ⟨⟨by decide +kernel, rfl, ⟨_, rfl⟩, rfl, rfl, rfl, by decide +kernel, rfl⟩,
    ⟨by decide +kernel, rfl, ⟨_, rfl⟩, rfl, rfl, rfl, by decide +kernel, rfl⟩, by decide +kernel⟩

/-- The last attempt and the fifth BUSY, a frame cut short, one that fails its check and a SHORT pulse: each ends the request,
and counts position 2's streak. -/
theorem witness_ALastAttemptEndsItsRequest :
    let s := arriving .full 3 4
    let ended (t : State) : Bool :=
      decide (t.scheduler.slot = .empty ∧ (t.record 1).map PosRecord.streak = some 1 ∧ t.link.phase = .free)
    (s.Receives ⟨.query 1 6, 3, 4, 17, false, false, .onLink⟩ (wireOf .full [0x22, 2, 17, 0]) .busy ∧
      s.ignition.settings.retryLimit < 3) ∧
      (s.link.reception = .receiving false ∧ s.link.phase = .awaiting (.stopped 3008) ∧
        s.scheduler.slot = .addressed ⟨.query 1 6, 3, 4, 17, false, false, .onLink⟩) ∧
      (ended (after (.busy (at_ 880) (wireOf .full [0x22, 2, 17, 0])) s) &&
        ended (after (.crcFailure (at_ 880) badFrame) s) && ended (after (.frameTruncated (at_ 528)) s) &&
        ended (after (.pulseTaken (at_ 500)) { s with attention := ⟨true, .measuring 10000000 true (some 10001000), false⟩ }))
          = true :=
  ⟨⟨⟨by decide +kernel, rfl, ⟨_, rfl⟩, rfl, rfl, rfl, by decide +kernel, rfl⟩, by decide +kernel⟩, by decide +kernel⟩

/-- A request of the kind given in the slot, and its answer arriving. -/
def asked (x : Sent) : State :=
  { arriving .full 1 0 with
    scheduler := { (arriving .full 1 0).scheduler with slot := .addressed ⟨x, 1, 0, 17, false, false, .onLink⟩ } }

/-- A description under serial 2, whose first function is out of range. -/
def description : List WireChar :=
  wireOf .full ([0x24, 2, 17, 28, 0, 0, 0, 2] ++ [20, 7, 101] ++ List.replicate 21 1)

theorem receives_description :
    (asked (.profileReq 1)).Receives ⟨.profileReq 1, 1, 0, 17, false, false, .onLink⟩ description
      (.profileReply 2 (⟨20, 7, 101⟩ :: List.replicate 7 ⟨1, 1, 1⟩)) :=
  ⟨by decide +kernel, rfl, ⟨_, rfl⟩, rfl, rfl, rfl, by decide +kernel, rfl⟩

/-- The record's serial the same, absent, or another; the profile known and unknown, under each source. -/
theorem witness_ADescriptionIsAppliedInRange :
    (asked (.profileReq 1)).Receives ⟨.profileReq 1, 1, 0, 17, false, false, .onLink⟩ description
        (.profileReply 2 (⟨20, 7, 101⟩ :: List.replicate 7 ⟨1, 1, 1⟩)) ∧
      (asked (.profileReq 1)).record 1 = some (unit (some 2) .silent) ∧ (asked (.profileReq 1)).apply = none ∧
      (unit none .silent).serial = none ∧ (unit (some 3) .silent).serial = some 3 ∧
      (unit (some 2) .silent).source = .module ∧ (unit (some 2) .silent).applied[(0 : Func)] ≠ none ∧
      (unit (some 2) .silent).applied[(0 : Func)] ≠ some ⟨15, .filament, 100, none⟩ ∧
      ((asked (.profileReq 1)).cell (.lamp 1 0)).state ≠ .absent ∧ (asked (.profileReq 1)).enumerator.coupled = true :=
  ⟨receives_description, by decide +kernel⟩

theorem witness_APositionResetStartsItsCellsAfresh :
    (asked (.posReset 1 ⟨.service, 7⟩)).Receives ⟨.posReset 1 ⟨.service, 7⟩, 1, 0, 17, false, false, .onLink⟩
        (wireOf .full [0x25, 2, 17, 0]) .resetDone ∧
      (asked (.posReset 1 ⟨.service, 7⟩)).record 1 = some (unit (some 2) .silent) ∧
      (asked (.posReset 1 ⟨.service, 7⟩)).apply = none ∧
      ((asked (.posReset 1 ⟨.service, 7⟩)).cell (.segment 1 0)).state ≠ .absent ∧
      (asked (.posReset 1 ⟨.service, 7⟩)).scheduler.queue = [] ∧
      (asked (.posReset 1 ⟨.service, 7⟩)).scheduler.enumerateWaiting = false ∧
      (asked (.posReset 1 ⟨.service, 7⟩)).report.transmit.length < 24 ∧
      (asked (.posReset 1 ⟨.service, 7⟩)).report.deferred = [] :=
  ⟨⟨by decide +kernel, rfl, ⟨_, rfl⟩, rfl, rfl, rfl, by decide +kernel, rfl⟩, by decide +kernel⟩

/-- A BUSY of another tag while an answer is awaited, and one with nothing awaited. -/
theorem witness_AStrayFrameResumesTheTimer :
    ((arriving .full 1 0).ignition.part ≠ .asleep ∧ (arriving .full 1 0).link.reception = .receiving false ∧
      (arriving .full 1 0).link.speed = .full ∧
      parseFrame .full (arriving .full 1 0).flightMask (wireOf .full [0x22, 2, 16, 0]) = some ⟨1, 16, .busy⟩) ∧
      ((arriving .full 1 0).link.phase = .awaiting (.stopped 3008) ∧
        (arriving .full 1 0).scheduler.slot = .addressed ⟨.query 1 6, 1, 0, 17, false, false, .onLink⟩ ∧
        (16 : Byte) ≠ 17) ∧
      (parseFrame .full road.flightMask (wireOf .full [0x22, 6, 16, 0]) = some ⟨5, 16, .busy⟩ ∧ road.link.phase = .free) ∧
      ((arriving .reduced 1 0).link.speed = .reduced ∧
        parseFrame .reduced (arriving .reduced 1 0).flightMask (wireOf .reduced [0x22, 2, 16, 0]) = some ⟨1, 16, .busy⟩) ∧
      (let s := after (.frameReceiveStart (at_ 1000)) collecting
       s.ignition.part ≠ .asleep ∧ s.link.reception = .receiving false ∧ s.scheduler.slot = .enumerating 1 false ∧
          (match s.link.phase with | .collecting _ => true | _ => false) = true ∧
          parseFrame .full s.flightMask (wireOf .full [0x22, 6, 16, 0]) = some ⟨5, 16, .busy⟩ ∧
          parseFrame .full s.flightMask (wireOf .full [0x23, 6, 2, 6, 0, 0, 0, 9, 0, 1]) =
            some ⟨5, 2, .enumReply ⟨9, .trailer, true⟩⟩) ∧
      (let h := { road.health with cleanRun := 255 }
       min 256 (h.cleanRun + 1) = 256 ∧ h.hold = none ∧ h.pending = none ∧
          road.ignition.settings.speedLock = .fullAllowed) := by
  decide +kernel

/-- An answer of position 6 in the window of the first attempt. -/
theorem witness_AnEnumReplyIsEnteredOnce :
    let s := after (.frameReceiveStart (at_ 1000)) collecting
    (s.ignition.part ≠ .asleep ∧ s.link.reception = .receiving false ∧ s.link.speed = .full ∧
      s.link.phase = .collecting (collecting.clock + 22000) ∧ s.scheduler.slot = .enumerating 1 false ∧
      s.enumerator.phase = .running 1 (Vector.replicate 6 none)) ∧
      parseFrame .full none (wireOf .full [0x23, 6, 1, 6, 0, 0, 0, 9, 0, 1]) = some ⟨5, 1, .enumReply ⟨9, .trailer, true⟩⟩ ∧
      (s.withLink { s.link with speed := .reduced }).link.speed = .reduced ∧
      parseFrame .reduced none (wireOf .reduced [0x23, 6, 1, 6, 0, 0, 0, 9, 0, 1]) =
        some ⟨5, 1, .enumReply ⟨9, .trailer, true⟩⟩ := by
  decide +kernel

/-- An attempt of the number and answers given, in the window of `collecting`. -/
def attempted (n : Nat) (a : Vector (Option EnumAnswer) 6) : State :=
  { collecting with enumerator := { collecting.enumerator with phase := .running n a } }

/-- A complete set of one answer, and of six; an incomplete one, on attempts 2 and 3; a moment before the end. -/
theorem witness_TheWindowEndsItsAttempt :
    let one : Vector (Option EnumAnswer) 6 := #v[some ⟨9, .trailer, true⟩, none, none, none, none, none]
    let six : Vector (Option EnumAnswer) 6 := #v[some ⟨1, .trailer, false⟩, some ⟨2, .dolly, false⟩,
      some ⟨3, .trailer, false⟩, some ⟨4, .trailer, false⟩, some ⟨5, .trailer, false⟩, some ⟨6, .trailer, true⟩]
    ((attempted 2 one).link.phase = .collecting (collecting.clock + 22000) ∧
      (attempted 2 one).scheduler.slot = .enumerating 1 false ∧ (attempted 2 one).enumerator.phase = .running 2 one) ∧
      collecting.clock + 22000 ≤ ((attempted 2 one).advance (at_ 22000)).clock ∧
      ((attempted 2 one).advance (at_ 21999)).clock < collecting.clock + 22000 ∧
      (∀ p, (attempted 2 one).record p = none) ∧
      ((∃ x, one[(0 : Pos)] = some x ∧ x.last = true) ∧ ∀ p : Pos, 0 < p → one[p] = none) ∧
      ((six[(5 : Pos)]).map EnumAnswer.last = some true ∧
        ∀ p : Pos, p < 5 → (six[p]).map EnumAnswer.last = some false) ∧
      (∀ p q : Pos, p ≠ q → (six[p]).map EnumAnswer.serial ≠ (six[q]).map EnumAnswer.serial) ∧
      ∀ q : Pos, (Vector.replicate 6 (none : Option EnumAnswer))[q] = none := by
  refine ⟨by decide +kernel, by decide +kernel, by decide +kernel, by decide +kernel, ⟨⟨_, rfl, rfl⟩, ?_⟩, ?_, ?_, ?_⟩ <;>
    decide +kernel

/-- The window of an attempt that was cancelled; a map of three, the third LOST, read against no answer on attempt 3, while
the vehicle moves and while it stands; an answer of the serial there, of another, and of one that stood elsewhere; the
record of a chain break, active and healed. -/
theorem witness_TheWindowReadsItsResult :
    let ans (z : Serial) (last : Bool) : Option EnumAnswer := some ⟨z, .trailer, last⟩
    let read_ (a : Vector (Option EnumAnswer) 6) (moving : Bool) : State :=
      { attempted 3 a with
        train := ⟨#v[some (unit (some 1) .present), some (unit (some 2) .silent), some (unit none .lost), none, none,
          none], .live, true⟩
        intake := { road.intake with moving := moving }
        faults := ⟨[record_ (.chainBreak 2) .chainBreak .activeAck], 41, false, 0⟩ }
    let none_ : Vector (Option EnumAnswer) 6 := Vector.replicate 6 none
    let same := #v[ans 1 false, none, ans 3 true, none, none, none]
    let swapped := #v[ans 2 false, ans 1 false, ans 4 true, none, none, none]
    (({ read_ none_ true with scheduler := { road.scheduler with slot := .enumerating 3 true } } : State).scheduler.slot =
        .enumerating 3 true ∧
      (read_ none_ true).link.phase = .collecting (collecting.clock + 22000)) ∧
      ((read_ none_ true).scheduler.slot = .enumerating 1 false ∧ (read_ none_ true).enumerator.phase = .running 3 none_) ∧
      ((read_ none_ true).intake.moving = true ∧ (read_ none_ false).intake.moving = false ∧
        ((read_ none_ true).record 0).isSome = true ∧ (∀ q, resultAt none_ q = none)) ∧
      (((read_ same true).record 0).bind PosRecord.serial = some 1 ∧ (resultAt same 0).map EnumAnswer.serial = some 1 ∧
        resultAt same 1 = none ∧ (∀ q, (resultAt same q).map EnumAnswer.serial ≠ some 2) ∧
        ((read_ same true).record 2).map PosRecord.state = some .lost ∧
        (resultAt same 2).map EnumAnswer.serial = some 3) ∧
      ((resultAt swapped 1).map EnumAnswer.serial = some 1 ∧ (resultAt swapped 0).map EnumAnswer.serial = some 2) ∧
      ((read_ none_ true).apply = none ∧ ((read_ none_ true).record 1).map PosRecord.state = some .silent ∧
        ((read_ none_ true).cell (.lamp 1 0)).state = .absent ∧
        ({ read_ none_ true with cells := road.cells } : State).apply = none ∧
        (({ read_ none_ true with cells := road.cells } : State).cell (.lamp 1 0)).state ≠ .absent) ∧
      ((read_ none_ true).faultAt (.chainBreak 2)).map FaultRecord.state = some .activeAck ∧
      (∀ g : Seg, g ≠ 2 → (read_ none_ true).faultAt (.chainBreak g) = none) ∧
      (∀ g : Seg, collecting.faultAt (.chainBreak g) = none) ∧ collecting.faults.records.length < 24 := by
  decide +kernel

/-- A serial that the Library holds, another, and a gap; a chain break active before the first LOST position, on the
segment there and on either side, and a full list of cells' records. -/
theorem witness_TheWindowCreatesAndBreaks :
    let ans (z : Serial) (last : Bool) : Option EnumAnswer := some ⟨z, .trailer, last⟩
    let a : Vector (Option EnumAnswer) 6 := #v[ans 9 false, none, ans 8 true, none, none, none]
    let new := (attempted 3 a).withLibrary ⟨[⟨9, Vector.replicate 8 (bulbs 4), 0⟩], 0⟩
    let one := #v[ans 1 true, none, none, none, none, none]
    let broken (g : Seg) (x : RecordState) : State :=
      { attempted 3 one with
        train := ⟨#v[some (unit (some 1) .present), some (unit (some 2) .silent), none, none, none, none], .live, true⟩
        intake := { road.intake with moving := true }
        faults := ⟨[record_ (.chainBreak g) .chainBreak x], 41, false, 0⟩ }
    let rs := manyRecords 24 .activeAck
    let full : State := (broken 1 .activeAck).listing rs
    let ended (s : State) : State := after (.collectionWindowEnd (at_ 22000)) s
    ((new.ignition.library.entries.find? fun e => decide (e.serial = 9)).isSome = true ∧
      (new.ignition.library.entries.find? fun e => decide (e.serial = 8)) = none ∧ new.scheduler.queue.length ≤ 2 ∧
      (resultAt a 0).map EnumAnswer.serial = some 9 ∧ resultAt a 1 = none ∧ new.record 0 = none ∧
      (ended new).scheduler.queue.map Entry.work = [.profile 1, .profile 2] ∧
      (new.cell (.segment 1 0)).state = .absent ∧ new.faultAt (.cell (.segment 1 0)) = none) ∧
      (((broken 1 .activeUnack).faultAt (.chainBreak 1)).map FaultRecord.state = some .activeUnack ∧
        (∀ g : Seg, g ≠ 1 → (broken 1 .activeUnack).faultAt (.chainBreak g) = none) ∧
        (broken 1 .activeUnack).faults.records.length < 24 ∧ (resultAt one 0).map EnumAnswer.serial = some 1 ∧
        (ended (broken 1 .activeUnack)).posState 1 = some .lost ∧ (ended (broken 1 .activeUnack)).posState 0 = some .present) ∧
      (((ended (broken 0 .activeUnack)).faultAt (.chainBreak 0)).map FaultRecord.state = some .healedUnack ∧
        (ended (broken 0 .activeAck)).faultAt (.chainBreak 0) = none ∧
        (ended (broken 6 .activeAck)).faultAt (.chainBreak 6) = none) ∧
      (full.faults.records = (manyRecords 23 .activeAck) ++ [⟨24, .cell (.lamp 2 7), .openCircuit, 3, .activeAck, none, 0, 0, 1, none⟩] ∧
        (∀ r ∈ rs, r.state ≠ .healedUnack ∧ r.site.isCell = true) ∧ full.train.linkState = .live ∧
        (ended full).train.linkState = .live ∧ (ended full).faults.records.length = 24 ∧
        ((ended full).faultAt (.chainBreak 1)).isSome = true) := by decide +kernel

/-- A pulse that began at 10 s, of the width given in microseconds, its rise taken. -/
def pulse (width : Nat) (known : Bool) : State :=
  { road with clock := 10000000 + width, attention := ⟨true, .measuring 10000000 known (some (10000000 + width)), false⟩ }

/-- Each class at its bounds; 0.5 ms of high level, and the moment before. -/
theorem witness_PulsesActByTheirWidth :
    road.attention.monitor = .idle ∧ stuckLine.attention.monitor = .stuck none ∧
      ((pulse 500 true).attention.monitor = .measuring 10000000 true (some 10000500) ∧
        ((pulse 500 true).advance (at_ 499)).clock < 10000500 + 500 ∧
        10000500 + 500 ≤ ((pulse 500 true).advance (at_ 500)).clock) ∧
      ((after (.attentionFall ⟨0, low⟩) road).attention.monitor = .measuring 10000000 true none ∧
        (road.advance (at_ 499999)).clock < 10000000 + 500000) ∧
      ((pulse 500 true).ignition.part ≠ .asleep ∧ (pulse 500 true).link.phase = .free ∧
        (pulse 500 true).scheduler.slot = .empty ∧ (pulse 500 true).scheduler.queue = []) ∧
      (500 ≤ 10000500 - 10000000 ∧ 10009999 - 10000000 < 10000 ∧ 10000 ≤ 10010000 - 10000000 ∧
        10039999 - 10000000 < 40000 ∧ 40000 ≤ 10040000 - 10000000 ∧ 10000499 - 10000000 < 500 ∧
        10499999 - 10000000 < 500000 ∧ ¬ 10500000 - 10000000 < 500000 ∧
        (pulse 499999 true).attention.monitor = .measuring 10000000 true (some 10499999)) ∧
      ((5 : Mask) ≠ 0 ∧
        ∀ f : Func, (5 : Mask).getLsbD f.val = true ↔ road.intake.states[f] = .on ∨ road.intake.states[f] = .flash) ∧
      (awaited.link.phase = .awaiting (.running 10007056) ∧
        awaited.scheduler.slot = .addressed ⟨.query 1 6, 1, 0, 17, false, false, .onLink⟩ ∧
        1 ≤ awaited.ignition.settings.retryLimit) := by decide +kernel

/-- A line that falls 1 us before it has been high for 1 s, with its record in the list and without; a SHORT pulse during
the QUERY that it fails. -/
theorem witness_PulsesActOnALineAndAFrame :
    let releasing : State := { road with attention := ⟨true, .releasing 10000000, true⟩ }
    let known := releasing.listing [record_ .link .attentionStuck .activeAck]
    (releasing.attention.monitor = .releasing 10000000 ∧
      (releasing.advance ⟨999999, low⟩).clock < 10000000 + 1000000 ∧ releasing.link.phase = .free ∧
      releasing.faultAt .link = none ∧ (known.faultAt .link).isSome = true) ∧
      (queried.link.phase = .sending ⟨.query, 2, 17, [6]⟩ 10002056 ∧
        queried.scheduler.slot = .addressed ⟨.query 1 6, 1, 0, 17, false, false, .onLink⟩ ∧
        1 ≤ queried.ignition.settings.retryLimit ∧
        ({ queried with attention := (pulse 500 true).attention } : State).attention.monitor =
          .measuring 10000000 true (some 10000500)) := by decide +kernel

/-- A LONG pulse that finds a QUERY of position 1 in the queue, one that finds the queue full, and one that a frame waits
behind; a SHORT pulse while the ENUMERATE is being sent, and one whose request's position has gone. -/
theorem witness_PulsesActOnTheQueueAndAWaitingFrame :
    let swept (q : List Entry) : List Entry :=
      (after (.pulseTaken (at_ 500)) ((pulse 40000 true).withQueue q)).scheduler.queue
    let waiting : State := (pulse 40000 true).withLink { road.link with phase := .waitPulse (lampStateFrame road.intake) }
    let gone : State := { pulse 500 true with
      scheduler := { road.scheduler with slot := .addressed ⟨.query 3 1, 1, 0, 90, false, true, .onLink⟩ } }
    let sending : State := { pulse 500 true with
      scheduler := { road.scheduler with slot := .enumerating 90 false }
      link := { road.link with phase := .sending (enumerateFrame 90) 10001000 } }
    swept [⟨.query 0 2 .scan, 9000⟩, ⟨.profile 3, 9000⟩] = [⟨.query 0 7 .sweep, 9000⟩, ⟨.profile 3, 9000⟩] ∧
      swept [⟨.query 0 2 .refresh, 9000⟩] = [⟨.query 0 7 .refresh, 9000⟩] ∧
      swept (List.replicate 8 ⟨.profile 3, 9000⟩) = List.replicate 8 ⟨.profile 3, 9000⟩ ∧
      ((after (.pulseTaken (at_ 500)) waiting).attention.monitor = .ownDrive ∧
        (after (.pulseTaken (at_ 500)) waiting).link.phase = .wakeDrive (lampStateFrame road.intake) 10042500) ∧
      (after (.pulseTaken (at_ 500)) gone).scheduler.slot = .empty ∧
      ((after (.pulseTaken (at_ 500)) sending).scheduler.slot = .enumerating 90 false ∧
        (after (.pulseTaken (at_ 500)) sending).scheduler.broadcastOwed = true) := by decide +kernel

/-- 500 ms of low level, the moment before; a list with a place, full, and with a healed record of the site. -/
theorem witness_AStuckLineIsRaisedAndReleased :
    let falling := after (.attentionFall ⟨0, low⟩) road
    let full := falling.listing (manyRecords 24 .activeAck)
    (falling.attention.monitor = .measuring 10000000 true none ∧ falling.link.phase = .free) ∧
      ((falling.advance (at_ 499999)).clock < 10000000 + 500000 ∧
        10000000 + 500000 ≤ (falling.advance (at_ 500000)).clock) ∧
      (falling.faultAt .link = none ∧ (falling.listing (manyRecords 23 .activeAck)).faults.records.length < 24) ∧
      (24 ≤ full.faults.records.length ∧ full.faultAt .link = none ∧
        ∀ r ∈ full.faults.records, r.state ≠ .healedUnack) ∧
      ((falling.listing [record_ .link .attentionStuck .healedUnack]).faultAt .link).map FaultRecord.state =
        some .healedUnack ∧
      (full.withAttention ⟨false, .stuck (some 10000001), true⟩).attention.monitor = .stuck (some 10000001) ∧
      (road.withAttention ⟨true, .releasing 9000001, true⟩).attention.monitor = .releasing 9000001 ∧
      ((road.advance (at_ 0)).clock < 9000001 + 1000000 ∧ 9000001 + 1000000 ≤ (road.advance (at_ 1)).clock) ∧
      ((road.listing [record_ .link .attentionStuck .activeAck]).faultAt .link).map FaultRecord.state =
        some .activeAck := by decide +kernel

theorem witness_FramesAreRestoredFromTheirCharacters :
    (List.replicate 48 (0 : Byte)).length ≤ 48 ∧
      restoreFrame .full (wireOf .full ([0x21, 1, 2, 48] ++ List.replicate 48 0)) = some ([0x21, 1, 2, 48] ++ List.replicate 48 0) := by
  decide +kernel

theorem witness_CharactersCarryTheirFlag :
    5 ≤ zeroBits 0x07 ∧ zeroBits 0x0F ≤ 4 ∧ (⟨0x0F, true, true, .full⟩ : WireChar) ∈ badFrame ∧
      (⟨0x0F, true, true, .full⟩ : WireChar) ∈ badFrame.take (frameLength .full badFrame) ∧
      decodeChar .full ⟨0x0F, true, true, .full⟩ = none ∧ (encodeChar .reduced 0).speed ≠ .full ∧
      road.ignition.part ≠ .asleep ∧ road.link.speed = .full ∧
      (road.withLink { road.link with reception := .receiving false }).link.reception = .receiving false ∧
      road.link.phase = .free := by decide +kernel

/-- MIN_JUDGE_V and one below it; OPEN_FLOOR and one above it; the last ratio within tolerance; OVER_LIMIT. -/
theorem witness_CircuitJudgementFollowsItsStages :
    judged 4 42 .filament 179 3676 = ⟨.hold .lowSupply, none⟩ ∧ (judged 4 42 .filament 180 3676).ruling ≠ .hold .lowSupply ∧
      judged 0 42 .filament 264 41 = ⟨.verdict (.bad .unexpectedLoad), none⟩ ∧
      judged 0 42 .filament 264 40 = ⟨.hold .notFitted, some false⟩ ∧
      judged 4 42 .filament 264 40 = ⟨.verdict (.bad .openCircuit), none⟩ ∧
      judged 4 42 .filament 264 41 = ⟨.verdict (.bad .openCircuit), some true⟩ ∧
      judged 4 42 .filament 264 3235 = ⟨.verdict .good, some true⟩ ∧
      judged 4 42 .filament 264 3234 = ⟨.verdict (.bad (.partialLoss 1)), some true⟩ ∧
      judged 4 42 .filament 264 5147 = ⟨.verdict (.bad .overload), none⟩ := by decide +kernel

/-- Line-only judgement: below and at MIN_JUDGE_V; the empty map at the floor and above it; known profiles without a lamp,
and two whose tolerances differ. -/
theorem witness_LineIsJudgedByItsTotals :
    let two := deadLink (some ⟨4, .filament, 10, some 100⟩) (some ⟨6, .led, 4, some 200⟩)
    let none_ := deadLink none none
    (({ reading 270 1000 false with voltage := 179 } : Sample).voltage < two.ignition.settings.minJudgeV ∧
      two.ignition.settings.minJudgeV = 180) ∧
      (two.record 0).isSome = true ∧ (∀ p, State.reset.record p = none) ∧
      two.ignition.settings.openFloor = 40 ∧
      ((positions.filterMap fun p => (two.record p).bind fun r => r.applied[(0 : Func)]) =
        [⟨4, .filament, 10, some 100⟩, ⟨6, .led, 4, some 200⟩]) ∧
      ((positions.filterMap fun p => (none_.record p).bind fun r => r.applied[(0 : Func)]) = []) := by decide +kernel

/-- Q_SET 1 and 3, Q_CLEAR 1 and 2, in each state a judgement leaves. -/
theorem witness_JudgementsMoveTheCell :
    let suspect : Cell := { Cell.fresh with state := .suspect, candidate := some .leak, count := 2 }
    let faulted : Cell := { Cell.fresh with state := .faulted, confirmed := some (.partialLoss 1) }
    let recovering : Cell := { faulted with state := .recovering, count := 1 }
    qualify 3 5 0 Cell.absent (.bad .leak) = (Cell.absent, .nothing) ∧ (qualify 1 5 0 Cell.fresh (.bad .leak)).2 = .raise ∧
      (qualify 3 5 0 Cell.fresh (.bad .leak)).1.state = .suspect ∧
      (qualify 3 5 0 suspect (.bad .leak)).1.state = .faulted ∧
      (qualify 3 5 0 suspect (.bad .openCircuit)).1.count = 1 ∧ (qualify 3 1 0 faulted .good).2 = .heal ∧
      (qualify 3 2 0 faulted .good).1.state = .recovering ∧ (qualify 3 2 0 recovering .good).2 = .heal ∧
      (qualify 3 5 0 faulted (.bad (.partialLoss 2))).2 = .renewK ∧
      (qualify 1 5 0 recovering (.bad .leak)).2 = .escalate := by decide +kernel

/-- A raise with a place free, with a healed record of the key, and into a full list with and without healed records; an
escalation, a change of k and a heal of a listed cell, with its record in each state. -/
theorem witness_JudgementsReachTheList :
    let faulted : Cell :=
      { Cell.fresh with state := .faulted, confirmed := some (.partialLoss 1), confirmedAt := some 9, listed := true }
    let once : State := { road with
      ignition := { road.ignition with settings := { Config.defaultSettings with qSet := 1, qClear := 1 } } }
    let k : CellKey := .line 3
    let handed (c : Cell) (j : Judgement) := (qualify 1 1 once.now c j).2
    ((once.cell k).state = .unverified ∧ handed (once.cell k) (.bad .leak) = .raise ∧
      (qualify 1 1 once.now (once.cell k) (.bad .leak)).1.confirmed = some .leak ∧ once.faultAt (.cell k) = none ∧
      (once.listing (manyRecords 23 .activeAck)).faults.records.length < 24 ∧
      (∀ r ∈ (once.listing (manyRecords 23 .activeAck)).faults.records, r.id ≠ 255)) ∧
      ((once.listing [record_ (.cell k) .leak .healedUnack]).faultAt (.cell k)).map FaultRecord.state =
        some .healedUnack ∧
      ((manyRecords 24 .activeAck).length = 24 ∧ (∀ x ∈ manyRecords 24 .activeAck, x.state ≠ .healedUnack) ∧
        ((once.listing (manyRecords 24 .activeAck)).faultAt (.cell k)) = none) ∧
      (manyRecords 24 .healedUnack =
          [] ++ ⟨1, .cell (.lamp 0 0), .openCircuit, 3, .healedUnack, none, 0, 0, 1, none⟩ ::
            (manyRecords 24 .healedUnack).drop 1 ∧
        ((once.listing (manyRecords 24 .healedUnack)).faultAt (.cell k)) = none) ∧
      ((once.setCell k faulted).cell k = faulted ∧ handed faulted (.bad .leak) = .escalate ∧
        handed faulted (.bad (.partialLoss 2)) = .renewK ∧ handed faulted .good = .heal ∧
        handed { faulted with listed := false } (.bad .leak) = .escalate) ∧
      ([RecordState.activeUnack, .activeAck, .healedUnack].map fun x =>
        ((once.listing [record_ (.cell k) .leak x]).faultAt (.cell k)).map FaultRecord.state) =
          [some .activeUnack, some .activeAck, some .healedUnack] ∧
      (let held := once.withFaults ⟨[{ record_ (.cell (.line 4)) .leak .activeAck with id := 255 }], 255, false, 0⟩
       held.faultAt (.cell k) = none ∧ held.faults.records.length < 24 ∧ held.faults.nextId = 255 ∧
         ∃ x ∈ held.faults.records, x.id = 255) := by decide +kernel

/-- The segments of 8.7 beside positions that answer, beside a SILENT one, and at the end of the pair window. -/
theorem witness_SegmentsAreCheckedByTheirBalance :
    let s := chafed 1230
    let late := fun t : Time => (s.setCell (.lamp 1 0) { Cell.fresh with sample := some (taken 1230 610 t) })
    (((1 : Seg).val = (1 : Pos).val ∧ (s.record 1).isSome = true) ∧ (0 : Seg).val = (0 : Pos).val) ∧
      (s.posState 0 = some .present ∧ s.posState 1 = some .present) ∧ road.posState 1 = some .silent ∧
      road.posState 2 = some .lost ∧ road.harnessRuling 1 0 false = some (.hold .silent) ∧
      (s.setCell (.lamp 0 0) Cell.fresh).harnessRuling 1 0 false = none ∧
      (late 60606).harnessRuling 1 0 false = some (.verdict (.bad .leak)) ∧
      (late 60607).harnessRuling 1 0 false = none ∧
      ((s.cell (.lamp 1 0)).sample, (s.cell (.lamp 0 0)).sample, (s.cell (.line 0)).sample) =
        (some (taken 1230 610 60012), some (taken 2120 640 60006), some (taken 2150 0 60000)) ∧
      (s.setCell (.lamp 0 0) { Cell.fresh with sample := some (taken 640 2120 60006) }).harnessRuling 1 0 false =
        some (.verdict (.bad .senseConflict)) ∧
      (s.setCell (.lamp 0 0) { Cell.fresh with sample := some { taken 2120 640 60006 with loadSaturated := true } }).harnessRuling
        1 0 false = some (.hold .saturatedUnusable) := by decide +kernel

/-- Each end of 8.7 taken upstream, and the end segment, certain and not, beside a SILENT position and without a sample. -/
theorem witness_SegmentsAreCheckedUpstreamAndAtTheEnd :
    let s := chafed 1230
    let open_ : State := { s with train := { s.train with endCertain := false } }
    (s.record 3 = none ∧ (3 : Seg).val = (3 : Pos).val ∧ s.train.endCertain = true ∧
      s.harnessRuling 3 0 true = some (.verdict .good)) ∧
      (open_.train.endCertain = false ∧ open_.harnessRuling 3 0 true = none) ∧
      (s.setRecord 2 (some (unit none .silent))).harnessRuling 3 0 true = some (.hold .silent) ∧
      (s.setCell (.lamp 2 0) Cell.fresh).harnessRuling 3 0 true = none ∧
      (s.setCell (.lamp 2 0) { Cell.fresh with sample := some (taken 751 600 60019) }).harnessRuling 3 0 true =
        some (.verdict (.bad .leak)) ∧
      (s.setCell (.line 0) { Cell.fresh with sample := some (taken 2150 0 60606) }).harnessRuling 0 0 true =
        some (.verdict .good) ∧
      (s.setCell (.line 0) { Cell.fresh with sample := some (taken 2150 0 60607) }).harnessRuling 0 0 true = none := by
  decide +kernel

end Sys2Proof.Tests
end

section
/-! The train link: what its commands answer. Every command is an event (`State.event_holds`), so each clause of a statement is an
equation about the command's effect at its moment. -/

namespace Sys2Proof.Machine

/-! ### Commands that are events -/

section
variable (s : State) (m : Moment) (w : List WireChar)

theorem exec_ignitionChange : exec (.ignitionChange m) s = execIgnitionChange m s := rfl
theorem exec_lampStateInterval : exec (.lampStateInterval m) s = execLampStateInterval m s := rfl
theorem exec_reissueDue : exec (.reissueDue m) s = execReissueDue m s := rfl
theorem exec_speedHoldEnd : exec (.speedHoldEnd m) s = execSpeedHoldEnd m s := rfl
theorem exec_recoveryHoldExpiry : exec (.recoveryHoldExpiry m) s = execRecoveryHoldExpiry m s := rfl
theorem exec_probeInterval : exec (.probeInterval m) s = execProbeInterval m s := rfl
theorem exec_linkIdle : exec (.linkIdle m) s = execLinkIdle m s := rfl
theorem exec_wakePulseRelease : exec (.wakePulseRelease m) s = execWakePulseRelease m s := rfl
theorem exec_wakePulseHoldEnd : exec (.wakePulseHoldEnd m) s = execWakePulseHoldEnd m s := rfl
theorem exec_frameTransmitEnd : exec (.frameTransmitEnd m) s = execFrameTransmitEnd m s := rfl
theorem exec_frameReceiveStart : exec (.frameReceiveStart m) s = execFrameReceiveStart m s := rfl
theorem exec_frameTruncated : exec (.frameTruncated m) s = execFrameTruncated m s := rfl
theorem exec_enumReply : exec (.enumReply m w) s = execEnumReply m w s := rfl
theorem exec_crcFailure : exec (.crcFailure m w) s = execCrcFailure m w s := rfl
theorem exec_strayFrame : exec (.strayFrame m w) s = execStrayFrame m w s := rfl

end

theorem SettledFrom.of_eq {x y t : State} (h : SettledFrom x t) (hxy : x = y) : SettledFrom y t := hxy ▸ h

/-! ### Tests on the state, as propositions -/

theorem State.passed_iff {s : State} {t : Option Time} {n : Nat} :
    s.passed t n = true ↔ ∃ u, t = some u ∧ n ≤ s.age u := by
  cases t <;> simp [State.passed]

theorem State.awake_iff {s : State} : s.awake = true ↔ s.ignition.part ≠ .asleep := by simp [State.awake]

theorem State.running_iff {s : State} : s.running = true ↔ s.ignition.part = .running := by simp [State.running]

theorem mem_functions (f : Func) : f ∈ functions := by
  revert f; decide

theorem State.somePosition_iff {s : State} {x : PosState} :
    s.somePosition x = true ↔ ∃ p, s.posState p = some x := by
  simp only [State.somePosition, List.any_eq_true, decide_eq_true_eq]
  exact ⟨fun ⟨p, _, hp⟩ => ⟨p, hp⟩, fun ⟨p, hp⟩ => ⟨p, positions_mem p, hp⟩⟩

theorem State.probing_iff {s : State} :
    s.probing = true ↔ s.enumerator.phase = .idle ∧ s.ignition.part = .running ∧
      (s.train.linkState = .down ∨ ∃ p, s.posState p = some .lost) := by
  simp [State.probing, State.running, State.somePosition_iff, and_assoc]

/-- The table that is read is the moment's: `advance` moves the clock and the inputs alone. -/
@[simp] theorem State.advance_posState (s : State) (m : Moment) (p : Pos) :
    (s.advance m).posState p = s.posState p := rfl

/-! ### The return test and the request for an enumeration -/

theorem State.testReturn_eq (s : State) :
    s.testReturn = if s.ignition.part ≠ .asleep ∧ s.link.speed = .reduced ∧ s.health.cleanRun = 256 ∧
      s.health.hold = none ∧ s.ignition.settings.speedLock = .fullAllowed ∧ s.health.pending = none then
        s.withHealth { s.health with pending := some .full } else s := by
  simp only [State.testReturn, State.awake_iff]

/-- An enumeration that is requested with a place free goes to the head of the queue (R42, R81). -/
theorem State.requestEnumeration_placed {s : State} (ha : s.ignition.part ≠ .asleep) (hc : s.enumerator.coupled = true)
    (hp : s.enumerator.phase = .idle) (hq : s.scheduler.queue.length < 8) :
    s.requestEnumeration = (s.withEnumerator { s.enumerator with phase := .pending }).withQueue
      (⟨.enumerate, s.now⟩ :: s.scheduler.queue) := by
  have hfull : (s.withEnumPhase .pending).queueFull = false :=
    decide_eq_false (not_le.mpr hq)
  rw [State.requestEnumeration, if_pos ⟨State.awake_iff.mpr ha, hc, hp⟩, State.placeEnumerate, hfull]
  rfl

/-! ### The timers that set one mark each -/

section
variable (s : State) (m : Moment)

theorem lampStateInterval_marks : ∃ t, exec (.lampStateInterval m) s = .next t ∧
    let passed : Prop := ∃ at_, s.scheduler.lastLampState = some at_ ∧ 250 ≤ (s.advance m).age at_
    (s.ignition.part ≠ .asleep ∧ passed →
      SettledFrom ((s.advance m).withScheduler { s.scheduler with broadcastOwed := true }) t) ∧
    (¬ (s.ignition.part ≠ .asleep ∧ passed) → SettledFrom (s.advance m) t) := by
  rw [exec_lampStateInterval, execLampStateInterval]
  refine State.event_holds fun t ht => ?_
  simp only [State.awake_iff, State.passed_iff, State.advance_ignition, State.advance_scheduler] at ht
  exact ⟨fun h => by rwa [if_pos h] at ht, fun h => by rwa [if_neg h] at ht⟩

theorem reissueDue_marks : ∃ t, exec (.reissueDue m) s = .next t ∧
    ∀ x due, s.scheduler.slot = .addressed x → x.stage = .reissueAt due →
      (due ≤ (s.advance m).clock →
        SettledFrom ((s.advance m).withScheduler { s.scheduler with slot := .addressed { x with stage := .due } }) t) ∧
      ((s.advance m).clock < due → SettledFrom (s.advance m) t) := by
  rw [exec_reissueDue, execReissueDue]
  refine State.event_holds fun t ht x due hx hdue => ?_
  simp only [State.advance_scheduler, hx, hdue] at ht
  exact ⟨fun h => by rw [if_pos h] at ht; exact ht, fun h => by rwa [if_neg (by omega)] at ht⟩

theorem speedHoldEnd_frees : ∃ t, exec (.speedHoldEnd m) s = .next t ∧
    ∀ end_, s.link.phase = .speedHold end_ →
      (end_ ≤ (s.advance m).clock → SettledFrom ((s.advance m).withLink { s.link with phase := .free }) t) ∧
      ((s.advance m).clock < end_ → SettledFrom (s.advance m) t) := by
  rw [exec_speedHoldEnd, execSpeedHoldEnd]
  refine State.event_holds fun t ht end_ hp => ?_
  simp only [State.advance_link, hp] at ht
  exact ⟨fun h => by rw [if_pos h] at ht; exact ht, fun h => by rwa [if_neg (by omega)] at ht⟩

theorem recoveryHoldExpiry_marks : ∃ t, exec (.recoveryHoldExpiry m) s = .next t ∧
    (s.health.hold = none → SettledFrom (s.advance m) t) ∧
    ∀ expiry, s.health.hold = some expiry →
      let return_ : Prop := s.ignition.part ≠ .asleep ∧ s.link.speed = .reduced ∧ s.health.cleanRun = 256 ∧
        s.ignition.settings.speedLock = .fullAllowed ∧ s.health.pending = none
      (2 ^ 31 ≤ (s.advance m).age expiry → SettledFrom (s.advance m) t) ∧
      ((s.advance m).age expiry < 2 ^ 31 → ¬ return_ →
        SettledFrom ((s.advance m).withHealth { s.health with hold := none }) t) ∧
      ((s.advance m).age expiry < 2 ^ 31 → return_ →
        SettledFrom ((s.advance m).withHealth { s.health with hold := none, pending := some .full }) t) := by
  rw [exec_recoveryHoldExpiry, execRecoveryHoldExpiry]
  refine State.event_holds fun t ht => ⟨fun hn => ?_, fun expiry he => ?_⟩
  · simpa only [State.advance_health, hn] using ht
  · simp only [State.advance_health, he, State.testReturn_eq, State.withHealth_ignition, State.withHealth_link,
      State.withHealth_health, State.advance_ignition, State.advance_link, true_and] at ht
    refine ⟨fun h => by rwa [if_neg (by omega)] at ht, fun h hr => ?_, fun h hr => ?_⟩
    · rwa [if_pos h, if_neg hr] at ht
    · rw [if_pos h, if_pos hr] at ht
      exact ht

theorem probeInterval_marks : ∃ t, exec (.probeInterval m) s = .next t ∧
    (s.enumerator.probeFrom = none → SettledFrom (s.advance m) t) ∧
    ∀ from_, s.enumerator.probeFrom = some from_ →
      ((s.advance m).age from_ < 5000 → SettledFrom (s.advance m) t) ∧
      (5000 ≤ (s.advance m).age from_ → s.enumerator.phase = .idle → s.ignition.part = .running →
        s.enumerator.coupled = true → (s.train.linkState = .down ∨ ∃ p, s.posState p = some .lost) →
        s.scheduler.queue.length < 8 →
        SettledFrom (((s.advance m).withEnumerator { s.enumerator with phase := .pending }).withQueue
          (⟨.enumerate, (s.advance m).now⟩ :: s.scheduler.queue)) t) := by
  rw [exec_probeInterval, execProbeInterval]
  refine State.event_holds fun t ht => ?_
  simp only [State.probing_iff, State.passed_iff, State.advance_enumerator, State.advance_ignition, State.advance_train,
    State.advance_posState] at ht
  refine ⟨fun hn => ?_, fun from_ hf => ⟨fun h => ?_, fun h hphase hrun hc hl hq => ?_⟩⟩
  · rwa [if_neg fun ⟨_, u, hu, _⟩ => by simp [hn] at hu] at ht
  · rwa [if_neg fun ⟨_, u, hu, hge⟩ => by rw [hf] at hu; cases hu; omega] at ht
  · have hreq := State.requestEnumeration_placed (s := s.advance m) (by simp [hrun]) hc hphase hq
    rw [if_pos ⟨⟨hphase, hrun, hl⟩, from_, hf, h⟩, hreq] at ht
    exact ht

end

/-- Settles O41: each timer's command is an event whose effect is one test. -/
theorem timersSetTheirMarks : Obligations.TimersSetTheirMarks := fun s m =>
  ⟨lampStateInterval_marks s m, reissueDue_marks s m, speedHoldEnd_frees s m, recoveryHoldExpiry_marks s m,
    probeInterval_marks s m⟩

end Sys2Proof.Machine
end

section
/-! Characters and frames of the train link (R19 to R22): what a character restores to, what a whole frame restores to, and
where a frame ends. -/

namespace Sys2Proof.Machine

/-! ### The 0 bits of a byte -/

/-- The count of `zeroBits`, said of any list of bits. -/
theorem foldl_zeros (b : Byte) (l : List Nat) (n : Nat) :
    l.foldl (fun n i => if b.getLsbD i then n else n + 1) n = n + l.countP fun i => !b.getLsbD i := by
  induction l generalizing n with
  | nil => rfl
  | cons i l ih =>
    rw [List.foldl_cons, ih]
    cases h : b.getLsbD i <;> simp [h]
    omega

theorem zeroBits_eq (b : Byte) : zeroBits b = ([0, 1, 2, 3, 4, 5, 6, 7] : List Nat).countP fun i => !b.getLsbD i := by
  rw [zeroBits, foldl_zeros, Nat.zero_add]

/-- A 0 bit of a byte is a 1 bit of its inverse. -/
theorem zeroBits_not (b : Byte) : zeroBits (~~~b) + zeroBits b = 8 := by
  have hnot : ([0, 1, 2, 3, 4, 5, 6, 7] : List Nat).countP (fun i => !(~~~b).getLsbD i) =
      ([0, 1, 2, 3, 4, 5, 6, 7] : List Nat).countP fun i => ! !b.getLsbD i :=
    List.countP_congr fun i hi => by
      have : i < 8 := by revert i; decide
      simp [this]
  have hall := List.length_eq_countP_add_countP (fun i => !b.getLsbD i) (l := [0, 1, 2, 3, 4, 5, 6, 7])
  simp only [Bool.not_eq_true, Bool.decide_eq_false] at hall
  rw [zeroBits_eq, zeroBits_eq, hnot, Nat.add_comm]
  exact hall.symm

/-! ### Characters (R19, R20) -/

theorem encodeChar_inverted {b : Byte} (h : 5 ≤ zeroBits b) (v : Speed) : encodeChar v b = ⟨~~~b, true, true, v⟩ :=
  if_pos h

theorem encodeChar_plain {b : Byte} (h : zeroBits b ≤ 4) (v : Speed) : encodeChar v b = ⟨b, false, true, v⟩ :=
  if_neg (by omega)

@[simp] theorem encodeChar_speed (v : Speed) (b : Byte) : (encodeChar v b).speed = v := by
  unfold encodeChar; split <;> rfl

/-- A character carries at most four 0 bits. -/
theorem encodeChar_zeroBits (v : Speed) (b : Byte) : zeroBits (encodeChar v b).bits ≤ 4 := by
  have := zeroBits_not b
  unfold encodeChar
  split
  · show zeroBits (~~~b) ≤ 4; omega
  · show zeroBits b ≤ 4; omega

theorem decodeChar_flagged (v : Speed) (bits : Byte) :
    decodeChar v ⟨bits, true, true, v⟩ = if zeroBits (~~~bits) ≤ 4 then none else some (~~~bits) := by
  by_cases h : zeroBits (~~~bits) ≤ 4
  · simp [decodeChar, h]; omega
  · simpa [decodeChar, h] using (by omega : 5 ≤ zeroBits (~~~bits))

theorem decodeChar_unflagged (v : Speed) (bits : Byte) :
    decodeChar v ⟨bits, false, true, v⟩ = if 5 ≤ zeroBits bits then none else some bits := by
  by_cases h : 5 ≤ zeroBits bits
  · simp [decodeChar, h]
  · simp [decodeChar, h]

/-- A character sent at the other speed does not decode (R19). -/
theorem decodeChar_foreign {v : Speed} {c : WireChar} (h : c.speed ≠ v) : decodeChar v c = none :=
  if_neg fun hc => h hc.1

@[simp] theorem decodeChar_encodeChar (v : Speed) (b : Byte) : decodeChar v (encodeChar v b) = some b := by
  by_cases h : 5 ≤ zeroBits b
  · rw [encodeChar_inverted h, decodeChar_flagged, BitVec.not_not, if_neg (by omega)]
  · rw [encodeChar_plain (by omega), decodeChar_unflagged, if_neg h]

/-! ### Characters of a burst -/

theorem decodeAll_cons (v : Speed) (c : WireChar) (w : List WireChar) :
    decodeAll v (c :: w) = (decodeChar v c).bind fun b => (decodeAll v w).map (b :: ·) := by
  rw [decodeAll]
  cases decodeChar v c <;> cases decodeAll v w <;> rfl

theorem decodeAll_map_encodeChar (v : Speed) (bytes : List Byte) :
    decodeAll v (bytes.map (encodeChar v)) = some bytes := by
  induction bytes with
  | nil => rfl
  | cons b bytes ih => rw [List.map_cons, decodeAll_cons, decodeChar_encodeChar, ih]; rfl

/-- One character that does not decode spoils its burst (R20). -/
theorem decodeAll_none {v : Speed} {w : List WireChar} {c : WireChar} (hc : c ∈ w) (hd : decodeChar v c = none) :
    decodeAll v w = none := by
  induction w with
  | nil => cases hc
  | cons x w ih =>
    rw [decodeAll_cons]
    rcases List.mem_cons.mp hc with rfl | hw
    · rw [hd]; rfl
    · rw [ih hw]; cases decodeChar v x <;> rfl

/-- What a burst restores to has a byte for each character, the byte that the character restores to. -/
theorem decodeAll_getElem? {v : Speed} {w : List WireChar} {bytes : List Byte} (h : decodeAll v w = some bytes) :
    bytes.length = w.length ∧ ∀ i : Nat, (w[i]?).bind (decodeChar v) = bytes[i]? := by
  induction w generalizing bytes with
  | nil => cases h; simp
  | cons c w ih =>
    rw [decodeAll_cons] at h
    obtain ⟨b, hb, h⟩ := Option.bind_eq_some_iff.mp h
    obtain ⟨rest, hr, rfl⟩ := Option.map_eq_some_iff.mp h
    obtain ⟨hlen, hget⟩ := ih hr
    refine ⟨by simp [hlen], fun i => ?_⟩
    cases i with
    | zero => simpa using hb
    | succ i => simpa using hget i

/-! ### Frames (R21, R22) -/

/-- The header of a restored frame gives its length. -/
theorem restoreFrame_eq_some {v : Speed} {w : List WireChar} {body : List Byte} (h : restoreFrame v w = some body) :
    ∃ n, headerLength v w = some n ∧ n ≤ 48 ∧ w.length = 5 + n := by
  unfold restoreFrame at h
  split at h
  · cases h
  · next bytes hd =>
    obtain ⟨hlen, hget⟩ := decodeAll_getElem? hd
    dsimp only at h
    split at h
    · next hc =>
      obtain ⟨hlong, hle, hn, -⟩ := hc
      refine ⟨_, ?_, hle, hlen ▸ hn⟩
      rw [headerLength, hget, List.getElem?_eq_getElem (by omega)]
      rfl
    · cases h

/-- A restored frame has all the characters that its header asks for, and no other. -/
theorem frameLength_of_restoreFrame {v : Speed} {w : List WireChar} {body : List Byte}
    (h : restoreFrame v w = some body) : frameLength v w = w.length ∧ truncatedFrame v w = false := by
  obtain ⟨n, hn, hle, hlen⟩ := restoreFrame_eq_some h
  refine ⟨?_, ?_⟩
  · rw [frameLength, hn, hlen]; exact if_pos hle
  · rw [truncatedFrame, hn]; simp; omega

theorem parseFrame_of_restoreFrame_none {v : Speed} {mask : Option Mask} {w : List WireChar}
    (h : restoreFrame v w = none) : parseFrame v mask w = none := by
  rw [parseFrame, h]

theorem restoreFrame_of_parseFrame {v : Speed} {mask : Option Mask} {w : List WireChar} {f : UpFrame}
    (h : parseFrame v mask w = some f) : ∃ body, restoreFrame v w = some body := by
  cases hr : restoreFrame v w with
  | none => rw [parseFrame_of_restoreFrame_none hr] at h; cases h
  | some body => exact ⟨body, rfl⟩

theorem parseFrame_none_of_char {v : Speed} {mask : Option Mask} {w : List WireChar} {c : WireChar} (hc : c ∈ w)
    (hd : decodeChar v c = none) : parseFrame v mask w = none :=
  parseFrame_of_restoreFrame_none (by rw [restoreFrame, decodeAll_none hc hd])

/-- A frame is worked out on its restored bytes alone (R20, R22). -/
theorem parseFrame_congr {v : Speed} {w w' : List WireChar} (h : decodeAll v w = decodeAll v w') (mask : Option Mask) :
    parseFrame v mask w = parseFrame v mask w' := by
  unfold parseFrame restoreFrame; rw [h]

/-- Of the characters that have arrived, those beyond the frame's end leave a whole frame (R21). -/
theorem truncatedFrame_take {v : Speed} {w : List WireChar} (h : frameLength v w < w.length) :
    truncatedFrame v (w.take (frameLength v w)) = false := by
  unfold frameLength at h ⊢
  cases hl : headerLength v w with
  | none => simp [hl] at h
  | some n =>
    simp only [hl] at h ⊢
    split at h
    · next hn =>
      have hhead : headerLength v (w.take (5 + n)) = some n := by
        rw [← hl, headerLength, headerLength, List.getElem?_take_of_lt (by omega)]
      rw [if_pos hn, truncatedFrame, hhead]
      simp; omega
    · omega

/-! ### A frame as it is sent -/

section
variable (v : Speed) (kind target tag : Byte) {payload : List Byte}

theorem wireOf_eq (bytes : List Byte) : wireOf v bytes = bytes.map (encodeChar v) ++ [encodeChar v (crc8 bytes)] := by
  simp [wireOf]

theorem restoreFrame_wireOf (h : payload.length ≤ 48) :
    let bytes := [kind, target, tag, BitVec.ofNat 8 payload.length] ++ payload
    restoreFrame v (wireOf v bytes) = some bytes := by
  intro bytes
  have hlen : (BitVec.ofNat 8 payload.length).toNat = payload.length := Nat.mod_eq_of_lt (by omega)
  rw [restoreFrame, wireOf, decodeAll_map_encodeChar]
  have hget : (bytes ++ [crc8 bytes])[3]? = some (BitVec.ofNat 8 payload.length) := rfl
  simp only [hget, List.dropLast_concat, List.getLast?_concat, Option.getD_some, hlen]
  exact if_pos ⟨by simp [bytes], h, by simp [bytes]; omega, trivial⟩

/-- The frame's length is in its header, whatever follows the frame. -/
theorem frameLength_wireOf_append (h : payload.length ≤ 48) (after : List WireChar) :
    frameLength v (wireOf v ([kind, target, tag, BitVec.ofNat 8 payload.length] ++ payload) ++ after) =
      5 + payload.length := by
  have hlen : (BitVec.ofNat 8 payload.length).toNat = payload.length := Nat.mod_eq_of_lt (by omega)
  simp [frameLength, headerLength, wireOf, hlen, h]

theorem restoreFrame_foreign {v other : Speed} (h : other ≠ v) (bytes : List Byte) :
    restoreFrame other (wireOf v bytes) = none := by
  have hmem : encodeChar v (crc8 bytes) ∈ wireOf v bytes := by simp [wireOf]
  rw [restoreFrame, decodeAll_none hmem (decodeChar_foreign (by simpa using h.symm))]

end

/-- Settles O56, by the round trip of characters. -/
theorem framesAreRestoredFromTheirCharacters : Obligations.FramesAreRestoredFromTheirCharacters := by
  intro v kind target tag payload hp bytes
  have hlen : (wireOf v bytes).length = 5 + payload.length := by simp [wireOf, bytes]; omega
  refine ⟨hlen, restoreFrame_wireOf v kind target tag hp, fun other ho => restoreFrame_foreign ho bytes, fun after => ?_⟩
  rw [frameLength_wireOf_append v kind target tag hp after, ← hlen, List.take_left]

end Sys2Proof.Machine
end

section
/-! Receiving on the train link (R21, R27): what a settled state keeps, the end of a frame, what the health logic makes of a
clean one, and the frames that answer nothing or an ENUMERATE. -/

namespace Sys2Proof.Machine

/-! ### What the end of an event keeps -/

section
variable {s t : State} (h : SettledFrom s t)
include h

theorem SettledFrom.clock : t.clock = s.clock := congrArg (·.clock) h.rest
theorem SettledFrom.inputs : t.inputs = s.inputs := congrArg (·.inputs) h.rest
theorem SettledFrom.intake : t.intake = s.intake := congrArg (·.intake) h.rest
theorem SettledFrom.sense : t.sense = s.sense := congrArg (·.sense) h.rest
theorem SettledFrom.link : t.link = s.link := congrArg (·.link) h.rest
theorem SettledFrom.health : t.health = s.health := congrArg (·.health) h.rest
theorem SettledFrom.attention : t.attention = s.attention := congrArg (·.attention) h.rest
theorem SettledFrom.train : t.train = s.train := congrArg (·.train) h.rest
theorem SettledFrom.apply : t.apply = s.apply := congrArg (·.apply) h.rest
theorem SettledFrom.counters : t.counters = s.counters := congrArg (·.counters) h.rest
theorem SettledFrom.slot : t.scheduler.slot = s.scheduler.slot := congrArg (·.scheduler.slot) h.rest
theorem SettledFrom.tag : t.scheduler.tag = s.scheduler.tag := congrArg (·.scheduler.tag) h.rest
theorem SettledFrom.phase : t.enumerator.phase = s.enumerator.phase := congrArg (·.enumerator.phase) h.rest
theorem SettledFrom.coupled : t.enumerator.coupled = s.enumerator.coupled := congrArg (·.enumerator.coupled) h.rest
theorem SettledFrom.part : t.ignition.part = s.ignition.part := congrArg (·.ignition.part) h.rest
theorem SettledFrom.high : t.ignition.high = s.ignition.high := congrArg (·.ignition.high) h.rest
theorem SettledFrom.settings : t.ignition.settings = s.ignition.settings := congrArg (·.ignition.settings) h.rest
theorem SettledFrom.library : t.ignition.library = s.ignition.library := congrArg (·.ignition.library) h.rest
theorem SettledFrom.received : t.report.received = s.report.received := congrArg (·.report.received) h.rest
theorem SettledFrom.transmit : t.report.transmit = s.report.transmit := congrArg (·.report.transmit) h.rest
theorem SettledFrom.deferred : t.report.deferred = s.report.deferred := congrArg (·.report.deferred) h.rest

end

/-! ### Counting an event -/

/-- Whether and what an event counts is a matter of the counters and of the part's being awake (R191). -/
theorem State.countEvent_eq (s : State) (e : CountedEvent) (q : Option Nat) :
    s.countEvent e q =
      s.withCounters (if s.ignition.part ≠ .asleep then remap s.counters fun _ c => c.count e q 1 else s.counters) := by
  by_cases h : s.ignition.part = .asleep
  · rw [State.countEvent, State.countBy, if_neg (by simp [State.awake_iff, h]), if_neg (by simp [h])]; rfl
  · rw [State.countEvent, State.countBy, if_pos (State.awake_iff.mpr h), if_pos h]

section
variable (s : State) (e : CountedEvent) (q : Option Nat)

@[simp] theorem State.countEvent_clock : (s.countEvent e q).clock = s.clock := by rw [State.countEvent_eq]; rfl
@[simp] theorem State.countEvent_link : (s.countEvent e q).link = s.link := by rw [State.countEvent_eq]; rfl
@[simp] theorem State.countEvent_health : (s.countEvent e q).health = s.health := by rw [State.countEvent_eq]; rfl
@[simp] theorem State.countEvent_attention : (s.countEvent e q).attention = s.attention := by
  rw [State.countEvent_eq]; rfl
@[simp] theorem State.countEvent_scheduler : (s.countEvent e q).scheduler = s.scheduler := by
  rw [State.countEvent_eq]; rfl
@[simp] theorem State.countEvent_enumerator : (s.countEvent e q).enumerator = s.enumerator := by
  rw [State.countEvent_eq]; rfl
@[simp] theorem State.countEvent_ignition : (s.countEvent e q).ignition = s.ignition := by
  rw [State.countEvent_eq]; rfl
theorem State.countEvent_withLink (x : Link) :
    (s.withLink x).countEvent e q = (s.countEvent e q).withLink x := by
  rw [State.countEvent_eq, State.countEvent_eq]; rfl
theorem State.countEvent_withHealth (x : Health) :
    (s.withHealth x).countEvent e q = (s.countEvent e q).withHealth x := by
  rw [State.countEvent_eq, State.countEvent_eq]; rfl

end

/-! ### The health logic at a clean frame (R185, R187) -/

/-- The health logic after a clean frame: the window grows at FULL; at REDUCED the clean run does, and at 256 the return
is decided. -/
def State.cleanHealth (s : State) : Health :=
  let run := min 256 (s.health.cleanRun + 1)
  match s.link.speed with
  | .full => { s.health with window := (s.health.window ++ [false]).drop (s.health.window.length + 1 - 32) }
  | .reduced =>
    { s.health with
      cleanRun := run
      pending := if run = 256 ∧ s.health.hold = none ∧ s.ignition.settings.speedLock = .fullAllowed ∧
        s.health.pending = none then some .full else s.health.pending }

theorem windowWith_eq (w : List Bool) (b : Bool) : windowWith w b = (w ++ [b]).drop (w.length + 1 - 32) := by
  simp [windowWith]

theorem State.recordClean_eq {s : State} (ha : s.ignition.part ≠ .asleep) :
    s.recordClean = s.withHealth s.cleanHealth := by
  cases hv : s.link.speed with
  | full => simp only [State.recordClean, State.cleanHealth, hv, windowWith_eq]
  | reduced =>
    simp only [State.recordClean, State.cleanHealth, hv, State.testReturn_eq, State.withHealth_ignition,
      State.withHealth_link, State.withHealth_health, ne_eq, ha, not_false_eq_true, true_and]
    split <;> rfl

/-! ### The characters of a frame -/

theorem State.listens_iff {s : State} :
    s.listens = true ↔ s.ignition.part ≠ .asleep ∧ ∀ f end_, s.link.phase ≠ .sending f end_ := by
  unfold State.listens
  rw [Bool.and_eq_true, State.awake_iff]
  cases s.link.phase <;> simp

/-- Characters that come while a frame is received belong to it. -/
theorem State.receiveStart_receiving {s : State} (h : s.link.reception ≠ .none) : s.receiveStart = s :=
  if_neg fun hc => h hc.2

/-- A part that is ASLEEP or sending receives nothing (R26, R30). -/
theorem State.receiveStart_deaf {s : State} (h : s.listens = false) : s.receiveStart = s :=
  if_neg fun hc => by simp [h] at hc

/-- The characters that come while a frame is received are taken as its end, and what follows it begins another (R21). -/
theorem State.takeFrame_receiving {s : State} {doomed : Bool} (hl : s.listens = true)
    (hr : s.link.reception = .receiving doomed) (w : List WireChar) :
    s.takeFrame w =
      let t := s.takeCharacters doomed (w.take (frameLength s.link.speed w))
      if w.length ≤ frameLength s.link.speed w then t else t.receiveStart := by
  have hn : s.link.reception ≠ .none := by simp [hr]
  rw [State.takeFrame, if_neg fun hc => hn hc.2.1, State.receiveStart_receiving hn]
  simp only [hl, not_true_eq_false, if_false, hr]

/-- The link once a burst has ended now, its frame whole. -/
def Link.ended (x : Link) (clock : Nat) : Link :=
  { x with reception := .none, lineActive := some clock, received := some (clock, false) }

theorem State.receptionEnds_now (s : State) : s.receptionEnds 0 false = s.withLink (s.link.ended s.clock) := rfl

/-- A frame that decodes and passes every check is taken whole. -/
theorem State.takeFrame_valid {s : State} {w : List WireChar} {f : UpFrame} (hl : s.listens = true)
    (hr : s.link.reception = .receiving false) (hf : parseFrame s.link.speed s.flightMask w = some f) :
    s.takeFrame w = (s.withLink (s.link.ended s.clock)).takeValid f := by
  obtain ⟨body, hbody⟩ := restoreFrame_of_parseFrame hf
  obtain ⟨hlen, htrunc⟩ := frameLength_of_restoreFrame hbody
  have hparse : parseFrame (s.withLink (s.link.ended s.clock)).link.speed
      (s.withLink (s.link.ended s.clock)).flightMask w = some f := hf
  rw [State.takeFrame_receiving hl hr, hlen, List.take_length, if_pos le_rfl, State.takeCharacters, htrunc,
    State.receptionEnds_now]
  simp only [hparse, Bool.false_eq_true, if_false]

end Sys2Proof.Machine
end

section
/-! A valid frame that answers nothing, and one that an ENUMERATE collects (R27, R43, R185); a frame that holds a character
which does not decode (R20). -/

namespace Sys2Proof.Machine

/-! ### A valid frame by what awaits an answer (R27) -/

/-- The state once a valid frame has been received and recorded as clean. -/
def State.cleanlyReceived (s : State) : State := (s.withLink (s.link.ended s.clock)).withHealth s.cleanHealth

section
variable {s : State} {f : UpFrame} (ha : s.ignition.part ≠ .asleep)
include ha

/-- The clean frame is recorded first; then what awaits an answer decides. -/
theorem State.recordClean_ended : (s.withLink (s.link.ended s.clock)).recordClean = s.cleanlyReceived :=
  State.recordClean_eq ha

/-- A frame that comes with nothing awaited is discarded. -/
theorem State.takeValid_free (hp : s.link.phase = .free) :
    (s.withLink (s.link.ended s.clock)).takeValid f = s.cleanlyReceived := by
  have hphase : s.cleanlyReceived.link.phase = .free := hp
  rw [State.takeValid, State.recordClean_ended ha]
  simp only [hphase]

/-- A frame that does not answer the awaited request lets the reply timer run on with the time it had left. -/
theorem State.takeValid_stray {left : Nat} {x : Flight} (hp : s.link.phase = .awaiting (.stopped left))
    (hs : s.scheduler.slot = .addressed x) (hx : x.stage = .onLink) (hf : f.matches x = false) :
    (s.withLink (s.link.ended s.clock)).takeValid f =
      s.cleanlyReceived.withPhase (.awaiting (.running (s.clock + left))) := by
  have hphase : s.cleanlyReceived.link.phase = .awaiting (.stopped left) := hp
  have hslot : s.cleanlyReceived.scheduler.slot = .addressed x := hs
  rw [State.takeValid, State.recordClean_ended ha]
  simp only [hphase, State.onLink, hslot, Slot.flight, hx, if_true, hf, Bool.false_eq_true, if_false, State.resumeTimer]
  rfl

theorem State.takeValid_collecting {end_ : Nat} (hp : s.link.phase = .collecting end_) :
    (s.withLink (s.link.ended s.clock)).takeValid f = s.cleanlyReceived.collectFrame f := by
  have hphase : s.cleanlyReceived.link.phase = .collecting end_ := hp
  rw [State.takeValid, State.recordClean_ended ha]
  simp only [hphase]

end

theorem UpFrame.matches_eq_false {f : UpFrame} {x : Flight}
    (h : f.body.answers x.sent = false ∨ f.p ≠ x.sent.pos ∨ f.tag ≠ x.tag) : f.matches x = false := by
  rcases h with h | h | h <;> simp [UpFrame.matches, h]

/-- Of the frames in a collection window the attempt takes its own ENUM_REPLYs alone. -/
theorem State.collectFrame_stray {s : State} {f : UpFrame} {tag : Byte} {cancelled : Bool}
    (hs : s.scheduler.slot = .enumerating tag cancelled) (h : (∀ answer, f.body ≠ .enumReply answer) ∨ f.tag ≠ tag) :
    s.collectFrame f = s := by
  have hcollects : s.scheduler.slot.collects f.tag = if tag = f.tag then some (!cancelled) else none := by rw [hs]; rfl
  rw [State.collectFrame, hcollects]
  rcases h with h | h
  · cases hb : f.body with
    | enumReply answer => exact absurd hb (h answer)
    | sample _ _ _ => rfl
    | busy => rfl
    | profileReply _ _ => rfl
    | resetDone => rfl
  · rw [if_neg h.symm]; cases f.body <;> rfl

/-- An ENUM_REPLY of the attempt's tag is counted, and entered unless its position has answered (R43). -/
theorem State.collectFrame_enters {s : State} {p : Pos} {tag : Byte} {answer : EnumAnswer} {n : Nat}
    {a : Vector (Option EnumAnswer) 6} (hs : s.scheduler.slot = .enumerating tag false)
    (he : s.enumerator.phase = .running n a) :
    s.collectFrame ⟨p, tag, .enumReply answer⟩ =
      (s.countEvent .replyValid (some (p.val + 1))).withEnumerator
        { s.enumerator with phase := .running n (if a[p] = none then a.set p (some answer) else a) } := by
  have hcollects : s.scheduler.slot.collects tag = some true := by rw [hs]; exact if_pos rfl
  simp only [State.collectFrame, hcollects, if_true, State.enterAnswer, State.countEvent_enumerator, he,
    Option.isNone_iff_eq_none]
  split
  · rw [State.withEnumPhase, State.countEvent_enumerator]; rfl
  · have hsame : { s.enumerator with phase := .running n a } = s.enumerator := by rw [← he]
    show s.countEvent .replyValid (some (posNumber p)) = (s.countEvent .replyValid (some (posNumber p))).withEnumerator _
    rw [hsame, State.countEvent_eq]; rfl

/-- A part that receives, awake, with no frame of its own on the line. -/
theorem State.listens_of_phase {s : State} {x : LinkPhase} (ha : s.ignition.part ≠ .asleep) (hp : s.link.phase = x)
    (hx : ∀ f end_, x ≠ .sending f end_) : s.listens = true :=
  State.listens_iff.mpr ⟨ha, hp ▸ hx⟩

/-- Settles O51: by what awaits an answer (`State.takeValid_stray`, `_free`, `_collecting`). -/
theorem aStrayFrameResumesTheTimer : Obligations.AStrayFrameResumesTheTimer := by
  intro s m w f ha hr hf now run returns clean stray
  have hstray : ∀ x, stray x = ((s.advance m).cleanlyReceived).withPhase x := fun x => rfl
  have htaken (x : LinkPhase) (hp : s.link.phase = x) (hx : ∀ g end_, x ≠ .sending g end_) :
      (s.advance m).takeFrame w = ((s.advance m).withLink ((s.advance m).link.ended (s.advance m).clock)).takeValid f :=
    State.takeFrame_valid (State.listens_of_phase ha hp hx) hr hf
  rw [exec_strayFrame, execStrayFrame]
  refine State.event_holds fun t ht => ⟨fun x left hp hs hx hno => ?_, fun hp => ?_, fun end_ tag c hp hs hno => ?_⟩
  · rw [htaken _ hp (by simp), State.takeValid_stray (s := s.advance m) ha hp hs hx (UpFrame.matches_eq_false hno)] at ht
    exact ht
  · rw [htaken _ hp (by simp), State.takeValid_free (s := s.advance m) ha hp] at ht
    have hsame : stray .free = (s.advance m).cleanlyReceived := by rw [hstray, State.withPhase, ← hp]; rfl
    rwa [hsame]
  · rw [htaken _ hp (by simp), State.takeValid_collecting (s := s.advance m) ha hp,
      State.collectFrame_stray (s := (s.advance m).cleanlyReceived) hs hno] at ht
    have hsame : stray (.collecting end_) = (s.advance m).cleanlyReceived := by rw [hstray, State.withPhase, ← hp]; rfl
    rwa [hsame]

/-- Settles O52: the frame is the attempt's own (`State.collectFrame_enters`). -/
theorem anEnumReplyIsEnteredOnce : Obligations.AnEnumReplyIsEnteredOnce := by
  intro s m w p tag answer end_ n a ha hr hp hs he hf now run returns clean
  have hmask : (s.advance m).flightMask = none := by simp [State.flightMask, hs]
  rw [exec_enumReply, execEnumReply]
  refine State.event_holds fun t ht => ?_
  have hl : (s.advance m).listens = true := State.listens_of_phase ha hp (by simp)
  rw [State.takeFrame_valid hl hr (hmask ▸ hf), State.takeValid_collecting (s := s.advance m) ha hp,
    State.collectFrame_enters (s := (s.advance m).cleanlyReceived) hs he, State.cleanlyReceived,
    State.countEvent_withHealth, State.countEvent_withLink] at ht
  exact ht

end Sys2Proof.Machine
end

section
/-! What an idle link takes (R75), how it is handed over (R26, R28, R104), and what follows the frame's end (R26, R29, R43). -/

namespace Sys2Proof.Machine

/-! ### The lit functions and the LAMP_STATE -/

/-- A mask of the functions that satisfy a test holds each of them, and no other. -/
theorem maskWhere_getLsbD (g : Func → Bool) (f : Func) : (maskWhere g).getLsbD f.val = g f := by
  have hbits : functions.foldl (fun n f => if g f then n + 2 ^ f.val else n) 0 = Nat.ofBits g := by
    have hterm (n : Nat) (f : Func) : (if g f then n + 2 ^ f.val else n) = n + 2 ^ f.val * (g f).toNat := by
      cases g f <;> simp
    simp only [hterm, functions, List.foldl_cons, List.foldl_nil, Nat.ofBits, Fin.foldr_succ, Fin.foldr_zero]
    simp
    omega
  rw [maskWhere, BitVec.getLsbD_ofNat, hbits, Nat.testBit_ofBits_lt g f.val f.isLt]
  simp

theorem State.litMask_getLsbD (s : State) (f : Func) :
    s.litMask.getLsbD f.val = true ↔ s.intake.states[f] = .on ∨ s.intake.states[f] = .flash := by
  rw [State.litMask, maskWhere_getLsbD, State.lit, decide_eq_true_eq]

/-- The mask whose bits are the functions commanded ON or FLASH (R83). -/
theorem State.litMask_eq {s : State} {lit : Mask}
    (h : ∀ f : Func, lit.getLsbD f.val = true ↔ s.intake.states[f] = .on ∨ s.intake.states[f] = .flash) :
    s.litMask = lit := by
  refine BitVec.eq_of_getLsbD_eq fun i hi => ?_
  rw [Bool.eq_iff_iff]
  exact (s.litMask_getLsbD ⟨i, hi⟩).trans (h ⟨i, hi⟩).symm

/-- Two-bit fields add up as powers of four. -/
theorem packed_two (code : Func → Nat) : packed 2 code = ∑ f : Func, code f * 4 ^ f.val := by
  simp [packed, functions, Fin.sum_univ_eight]

/-! ### Handing a frame over (R26, R28, R104) -/

theorem State.linkFree_iff {s : State} : s.linkFree = true ↔ s.link.phase = .free ∧ s.link.reception = .none ∧
    ∀ at_, s.link.lineActive = some at_ → at_ + 3 * charTime s.link.speed ≤ s.clock := by
  unfold State.linkFree State.gapPassed
  cases s.link.lineActive <;> simp [and_assoc]

/-- Less than 1 s after the last frame a frame is sent at once. -/
theorem State.handOver_at_once {s : State} {at_ : Time} (hl : s.link.lastFrameSent = some at_) (ha : s.age at_ < 1000)
    (f : DownFrame) :
    s.handOver f = (s.countEvent .frameSent (some f.target.toNat)).withLink
      { s.link with
        phase := .sending f (s.clock + (5 + f.payload.length) * charTime s.link.speed), reception := .none } := by
  have hneeds : (s.countEvent .frameSent (some f.countedPosition)).needsWakePulse = false := by
    have hage : (s.countEvent .frameSent (some f.countedPosition)).age at_ = s.age at_ := by
      simp [State.age, State.now]
    simp [State.needsWakePulse, hl, hage, ha]
  simp only [State.handOver, hneeds, Bool.false_eq_true, if_false, State.sendNow, State.countEvent_link,
    State.countEvent_clock]
  rfl

/-- From 1 s of silence on, a wake pulse begins before the frame. -/
theorem State.handOver_after_silence {s : State} (h : ∀ at_, s.link.lastFrameSent = some at_ → 1000 ≤ s.age at_)
    (f : DownFrame) : s.handOver f = (s.countEvent .frameSent (some f.target.toNat)).beginWakePulse f := by
  have hneeds : (s.countEvent .frameSent (some f.countedPosition)).needsWakePulse = true := by
    unfold State.needsWakePulse
    rw [State.countEvent_link]
    cases hl : s.link.lastFrameSent with
    | none => rfl
    | some at_ =>
      have hage : (s.countEvent .frameSent (some f.countedPosition)).age at_ = s.age at_ := by
        simp [State.age, State.now]
      simpa [hage] using h at_ hl
  simp only [State.handOver, hneeds, if_true]
  rfl

/-- How the wake pulse begins, by the monitor's state (R104). -/
theorem State.beginWakePulse_idle {s : State} (h : s.attention.monitor = .idle) (f : DownFrame) :
    s.beginWakePulse f = (s.withLink { s.link with phase := .wakeDrive f (s.clock + 2000) }).withAttention
      { s.attention with monitor := .ownDrive } := by
  simp only [State.beginWakePulse, h]; rfl

theorem State.beginWakePulse_measuring {s : State} {start : Nat} {known : Bool} {rise : Option Nat}
    (h : s.attention.monitor = .measuring start known rise) (f : DownFrame) :
    s.beginWakePulse f = s.withLink { s.link with phase := .waitPulse f } := by
  simp only [State.beginWakePulse, h]; rfl

theorem State.beginWakePulse_stuck {s : State}
    (h : ∃ x, s.attention.monitor = .stuck x ∨ ∃ since, s.attention.monitor = .releasing since) (f : DownFrame) :
    s.beginWakePulse f = s.withLink { s.link with phase := .wakeDrive f (s.clock + 2000) } := by
  obtain ⟨x, h | ⟨since, h⟩⟩ := h <;> simp only [State.beginWakePulse, h] <;> rfl

/-! ### The first frame of R75 -/

/-- What an idle link takes: a pending speed change, else what the scheduler offers (R75). -/
def State.takeTurn (s : State) : State :=
  match s.health.pending with
  | some v => s.handOver (speedFrame v)
  | none => s.offerFrame

/-- The link is idle and the part awake (R26, R27). -/
def State.Idle (s : State) : Prop := s.ignition.part ≠ .asleep ∧ s.link.phase = .free ∧ s.link.reception = .none ∧
  ∀ at_, s.link.lineActive = some at_ → at_ + 3 * charTime s.link.speed ≤ s.clock

/-- LINK_IDLE has an effect on an idle link of a part that is awake alone. -/
theorem linkIdle_answers (s : State) (m : Moment) : ∃ t, exec (.linkIdle m) s = .next t ∧
    ((s.advance m).Idle → SettledFrom (s.advance m).takeTurn t) ∧
    (¬ (s.advance m).Idle → SettledFrom (s.advance m) t) := by
  have hidle : (s.advance m).awake = true ∧ (s.advance m).linkFree = true ↔ (s.advance m).Idle := by
    rw [State.awake_iff, State.linkFree_iff]; rfl
  rw [exec_linkIdle, execLinkIdle]
  refine State.event_holds fun t ht => ⟨fun h => ?_, fun h => ?_⟩
  · rw [if_pos (hidle.mpr h)] at ht; exact ht
  · rwa [if_neg fun hc => h (hidle.mp hc)] at ht

section
variable {s : State}

theorem State.takeTurn_speed {v : Speed} (h : s.health.pending = some v) :
    s.takeTurn = s.handOver ⟨.speed, 0, 0, [if v = .full then 0 else 1]⟩ := by
  simp only [State.takeTurn, h]
  cases v <;> rfl

theorem State.takeTurn_offer (h : s.health.pending = none) : s.takeTurn = s.offerFrame := by
  simp only [State.takeTurn, h]

theorem State.offerFrame_lampState (h : s.scheduler.broadcastOwed = true) :
    s.offerFrame = (s.withScheduler { s.scheduler with broadcastOwed := false }).handOver
      ⟨.lampState, 0, 0, [s.intake.epoch, BitVec.ofNat 8 ((∑ f : Func, (s.intake.states[f]).code * 4 ^ f.val) / 256),
        BitVec.ofNat 8 (∑ f : Func, (s.intake.states[f]).code * 4 ^ f.val)]⟩ := by
  rw [State.offerFrame, if_pos h, lampStateFrame, packed_two]
  rfl

/-- An attempt that is due goes out with the next tag. -/
theorem State.offerFrame_due {x : Flight} (ho : s.scheduler.broadcastOwed = false)
    (hs : s.scheduler.slot = .addressed x) (hx : x.stage = .due) :
    s.offerFrame = (s.withScheduler { s.scheduler with
        tag := s.scheduler.tag + 1, slot := .addressed { x with tag := s.scheduler.tag + 1, stage := .onLink } }).handOver
      (x.sent.frame (s.scheduler.tag + 1)) := by
  have hsend : s.offerFrame = s.sendFlight x := by
    simp only [State.offerFrame, ho, Bool.false_eq_true, if_false, hs, hx]
  rw [hsend]
  rfl

/-- While the slot is taken and no attempt is due, nothing is offered. -/
theorem State.offerFrame_busy {x : Flight} (ho : s.scheduler.broadcastOwed = false)
    (hs : s.scheduler.slot = .addressed x) (hx : x.stage ≠ .due) : s.offerFrame = s := by
  simp only [State.offerFrame, ho, Bool.false_eq_true, if_false, hs]
  cases hstage : x.stage with
  | due => exact absurd hstage hx
  | onLink => rfl
  | reissueAt _ => rfl

theorem State.offerFrame_enumerating {tag : Byte} {cancelled : Bool} (ho : s.scheduler.broadcastOwed = false)
    (hs : s.scheduler.slot = .enumerating tag cancelled) : s.offerFrame = s := by
  simp only [State.offerFrame, ho, Bool.false_eq_true, if_false, hs]

/-- An ENUMERATE at the head goes first; its first attempt moves the Enumerator to RUNNING (R42, R43). -/
theorem State.offerFrame_enumerate {n : Nat} {at_ : Time} {rest : List Entry} (ho : s.scheduler.broadcastOwed = false)
    (hs : s.scheduler.slot = .empty) (hq : s.scheduler.queue = ⟨.enumerate, at_⟩ :: rest)
    (hn : (s.enumerator.phase = .pending ∧ n = 1) ∨ ∃ a, s.enumerator.phase = .running n a) :
    s.offerFrame = ((s.withScheduler { s.scheduler with
        tag := s.scheduler.tag + 1, slot := .enumerating (s.scheduler.tag + 1) false }).withEnumerator
        { s.enumerator with phase := .running n (Vector.replicate 6 none) }).handOver
      ⟨.enumerate, 0, s.scheduler.tag + 1, []⟩ := by
  have hsend : s.offerFrame = s.sendEnumerate := by
    simp only [State.offerFrame, ho, Bool.false_eq_true, if_false, hs, hq]
  have hphase : s.nextTag.enumerator.phase = s.enumerator.phase := rfl
  rw [hsend, State.sendEnumerate, hphase]
  rcases hn with ⟨hp, rfl⟩ | ⟨a, hp⟩ <;> rw [hp] <;> rfl

/-! ### The entry that is sent first (R75 step 4, R82) -/

/-- QUERY entries that are passed over while WAKING, or hold no lit function while RUNNING. -/
def PassedOver (running : Bool) (lit : Mask) (before : List Entry) : Prop :=
  ∀ e ∈ before, ∃ p mask o, e.work = .query p mask o ∧ (running = true → mask &&& lit = 0)

/-- Entries passed over keep their places while WAKING, and are discarded while RUNNING. -/
theorem pickEntry_append {running : Bool} {lit : Mask} {before : List Entry} (h : PassedOver running lit before)
    (q : List Entry) : pickEntry running lit (before ++ q) =
      ((if running = true then [] else before) ++ (pickEntry running lit q).1, (pickEntry running lit q).2) := by
  induction before with
  | nil => cases running <;> rfl
  | cons e before ih =>
    obtain ⟨p, mask, o, hw, hm⟩ := h e List.mem_cons_self
    have hrest := ih fun x hx => h x (List.mem_cons_of_mem _ hx)
    rw [List.cons_append, pickEntry]
    cases running with
    | true => simpa [hw, hm rfl] using hrest
    | false => simp [hw, hrest]

/-- The request that an entry becomes when it is sent (R87). -/
def Entry.BecomesSent (running : Bool) (lit : Mask) (e : Entry) (x : Sent) : Prop :=
  (∃ p, e.work = .profile p ∧ x = .profileReq p) ∨ (∃ p who, e.work = .posReset p who ∧ x = .posReset p who) ∨
    ∃ p mask o, e.work = .query p mask o ∧ running = true ∧ mask &&& lit ≠ 0 ∧ x = .query p (mask &&& lit)

theorem pickEntry_sent {running : Bool} {lit : Mask} {e : Entry} {x : Sent} (h : e.BecomesSent running lit x)
    (after : List Entry) : pickEntry running lit (e :: after) = (after, some x) := by
  rw [pickEntry]
  rcases h with ⟨p, hw, rfl⟩ | ⟨p, who, hw, rfl⟩ | ⟨p, mask, o, hw, hr, hm, rfl⟩
  · simp only [hw]
  · simp only [hw]
  · simp only [hw, hr, not_true_eq_false, if_false, hm]

/-- No QUERY at the head is to give its place to an ENUMERATE entry: none waits, or the head is sent. -/
theorem State.headGivesPlace_false (h : s.scheduler.enumerateWaiting = false ∨
      ∃ e after x, s.scheduler.queue = e :: after ∧ e.BecomesSent s.running s.litMask x) :
    s.headGivesPlace = false := by
  unfold State.headGivesPlace
  split
  · next p mask o at_ rest hq =>
    rcases h with h | ⟨e, after, x, he, hx⟩
    · simp [h]
    · rw [hq] at he
      cases he
      rcases hx with ⟨_, hw, _⟩ | ⟨_, _, hw, _⟩ | ⟨_, _, _, hw, _, hm, _⟩
      · cases hw
      · cases hw
      · cases hw; rw [decide_eq_false hm]; simp
  · rfl

/-- With the slot empty and no ENUMERATE at the head, the scheduler picks among the entries. -/
theorem State.offerFrame_picks (ho : s.scheduler.broadcastOwed = false) (hs : s.scheduler.slot = .empty)
    (hq : ∀ e rest, s.scheduler.queue = e :: rest → e.work ≠ .enumerate) (hg : s.headGivesPlace = false) :
    s.offerFrame = match (pickEntry s.running s.litMask s.scheduler.queue).2 with
      | none => s.withQueue (pickEntry s.running s.litMask s.scheduler.queue).1
      | some x => (s.withQueue (pickEntry s.running s.litMask s.scheduler.queue).1).sendFlight (newFlight x) := by
  simp only [State.offerFrame, ho, Bool.false_eq_true, if_false, hs]
  split
  · next at_ rest he => exact absurd rfl (hq _ _ he)
  · rw [hg]; rfl

/-- The first entry that may be sent becomes the request in the slot, with the next tag. -/
theorem State.offerFrame_entry {before after : List Entry} {e : Entry} {x : Sent}
    (ho : s.scheduler.broadcastOwed = false) (hs : s.scheduler.slot = .empty)
    (hq : s.scheduler.queue = before ++ e :: after) (hw : before = [] ∨ s.scheduler.enumerateWaiting = false)
    (hb : PassedOver s.running s.litMask before) (hx : e.BecomesSent s.running s.litMask x) :
    s.offerFrame = (s.withScheduler { s.scheduler with
        queue := if s.running = true then after else before ++ after, tag := s.scheduler.tag + 1,
        slot := .addressed ⟨x, 1, 0, s.scheduler.tag + 1, false, false, .onLink⟩ }).handOver
      (x.frame (s.scheduler.tag + 1)) := by
  have hg : s.headGivesPlace = false := by
    refine State.headGivesPlace_false (hw.symm.imp_right fun hnil => ⟨e, after, x, ?_, hx⟩)
    rw [hq, hnil]; rfl
  have hhead : ∀ y rest, s.scheduler.queue = y :: rest → y.work ≠ .enumerate := by
    intro y rest hy
    have hmem : y = e ∨ y ∈ before := by
      cases before with
      | nil => rw [hq] at hy; cases hy; exact .inl rfl
      | cons z before => rw [hq] at hy; cases hy; exact .inr List.mem_cons_self
    rcases hmem with rfl | hmem
    · rcases hx with ⟨_, hw, _⟩ | ⟨_, _, hw, _⟩ | ⟨_, _, _, hw, _⟩ <;> simp [hw]
    · obtain ⟨p, mask, o, hw, _⟩ := hb y hmem; simp [hw]
  have hleft : (if s.running = true then [] else before) ++ after =
      if s.running = true then after else before ++ after := by split <;> rfl
  rw [State.offerFrame_picks ho hs hhead hg, hq, pickEntry_append hb, pickEntry_sent hx, hleft]
  rfl

theorem State.offerFrame_nothing (ho : s.scheduler.broadcastOwed = false) (hs : s.scheduler.slot = .empty)
    (hq : s.scheduler.queue = []) : s.offerFrame = s := by
  have hg : s.headGivesPlace = false := by simp [State.headGivesPlace, hq]
  rw [State.offerFrame_picks ho hs (by simp [hq]) hg, hq]
  show s.withQueue [] = s
  rw [← hq]; rfl

/-- With every entry passed over nothing is sent. -/
theorem State.offerFrame_none {before : List Entry} (ho : s.scheduler.broadcastOwed = false)
    (hs : s.scheduler.slot = .empty) (hq : s.scheduler.queue = before) (hw : s.scheduler.enumerateWaiting = false)
    (hb : PassedOver s.running s.litMask before) :
    s.offerFrame = s.withQueue (if s.running = true then [] else before) := by
  have hhead : ∀ y rest, s.scheduler.queue = y :: rest → y.work ≠ .enumerate := by
    intro y rest hy
    obtain ⟨p, mask, o, hw, _⟩ := hb y (by rw [← hq, hy]; exact List.mem_cons_self)
    simp [hw]
  have hpick : pickEntry s.running s.litMask before = (if s.running = true then [] else before, none) := by
    simpa [pickEntry] using pickEntry_append hb []
  rw [State.offerFrame_picks ho hs hhead (State.headGivesPlace_false (.inl hw)), hq, hpick]

end

end Sys2Proof.Machine
end

section
/-! The statements about what an idle link takes, the wake pulse and the end of the frame sent. -/

namespace Sys2Proof.Machine

section
variable {s : State} {m : Moment}

/-- The request in the slot with the next tag, and `q` left of the queue. -/
def State.sendingEntry (s : State) (m : Moment) (q : List Entry) (x : Sent) : State :=
  (s.advance m).withScheduler
    { s.scheduler with
      queue := q, tag := s.scheduler.tag + 1
      slot := .addressed ⟨x, 1, 0, s.scheduler.tag + 1, false, false, .onLink⟩ }

/-- The entries that R82 passes over, as the statements name them. -/
theorem passedOver_iff {lit : Mask} {before : List Entry} : PassedOver s.running lit before ↔
    ∀ e ∈ before, ∃ p mask o, e.work = .query p mask o ∧ (s.ignition.part = .running → mask &&& lit = 0) := by
  simp only [PassedOver, State.running_iff]

/-- LINK_IDLE sends the first entry that is not passed over; those before it keep their places while WAKING. -/
theorem State.advance_offerFrame_entry {before after left : List Entry} {e : Entry} {x : Sent} {lit : Mask}
    (ho : s.scheduler.broadcastOwed = false) (hs : s.scheduler.slot = .empty)
    (hq : s.scheduler.queue = before ++ e :: after) (hw : before = [] ∨ s.scheduler.enumerateWaiting = false)
    (hlit : ∀ f : Func, lit.getLsbD f.val = true ↔ s.intake.states[f] = .on ∨ s.intake.states[f] = .flash)
    (hb : PassedOver s.running lit before) (hx : e.BecomesSent s.running lit x)
    (hleft : (if s.ignition.part = .running then after else before ++ after) = left) :
    (s.advance m).offerFrame = (s.sendingEntry m left x).handOver (x.frame (s.scheduler.tag + 1)) := by
  obtain rfl : s.litMask = lit := State.litMask_eq hlit
  rw [State.offerFrame_entry (s := s.advance m) ho hs hq hw hb hx, ← hleft]
  simp only [State.running_iff]
  rfl

theorem State.advance_offerFrame_none {before : List Entry} {lit : Mask}
    (ho : s.scheduler.broadcastOwed = false) (hs : s.scheduler.slot = .empty) (hq : s.scheduler.queue = before)
    (hw : s.scheduler.enumerateWaiting = false)
    (hlit : ∀ f : Func, lit.getLsbD f.val = true ↔ s.intake.states[f] = .on ∨ s.intake.states[f] = .flash)
    (hb : PassedOver s.running lit before) :
    (s.advance m).offerFrame = (s.advance m).withQueue (if s.ignition.part = .running then [] else before) := by
  obtain rfl : s.litMask = lit := State.litMask_eq hlit
  rw [State.offerFrame_none (s := s.advance m) ho hs hq hw hb]
  simp only [State.running_iff]
  rfl

end

/-- Settles O42: each clause is one of the frames of `State.takeTurn`, handed over at once. -/
theorem anIdleLinkTakesTheFirstFrame : Obligations.AnIdleLinkTakesTheFirstFrame := by
  intro s m now idle sending codes tag taken
  obtain ⟨t, he, hturn, hbusy⟩ := linkIdle_answers s m
  refine ⟨t, he, hbusy, fun hi ⟨at_, hl, hage⟩ => ?_⟩
  replace hturn := hturn hi
  have sent {b : State} {f : DownFrame} (hb : b.link = s.link) (hc : b.clock = now.clock)
      (h : SettledFrom (b.handOver f) t) : SettledFrom (sending b f) t := by
    have hage' : b.age at_ < 1000 := by rwa [State.age, State.now, hc]
    rw [State.handOver_at_once (hb ▸ hl) hage' f, hb, hc] at h
    exact h
  refine ⟨fun v hv => sent rfl rfl (hturn.of_eq (State.takeTurn_speed hv)), fun hv => ?_⟩
  replace hturn := hturn.of_eq (State.takeTurn_offer hv)
  refine ⟨fun ho => sent rfl rfl (hturn.of_eq (State.offerFrame_lampState ho)), fun ho =>
    ⟨fun x hs => ⟨fun hx => sent rfl rfl (hturn.of_eq (State.offerFrame_due ho hs hx)),
      fun hx => hturn.of_eq (State.offerFrame_busy ho hs hx)⟩,
    fun x c hs => hturn.of_eq (State.offerFrame_enumerating ho hs), fun hs => ?_⟩⟩
  have entry {lit : Mask} {before after left : List Entry} {e : Entry} {x : Sent}
      (hlit : ∀ f : Func, lit.getLsbD f.val = true ↔ s.intake.states[f] = .on ∨ s.intake.states[f] = .flash)
      (hq : s.scheduler.queue = before ++ e :: after) (hw : before = [] ∨ s.scheduler.enumerateWaiting = false)
      (hb : PassedOver s.running lit before) (hx : e.BecomesSent s.running lit x)
      (hleft : (if s.ignition.part = .running then after else before ++ after) = left) :
      SettledFrom (sending (taken left x) (x.frame tag)) t :=
    sent rfl rfl (hturn.of_eq (State.advance_offerFrame_entry ho hs hq hw hlit hb hx hleft))
  have head {e : Entry} {rest : List Entry} {x : Sent} (hq : s.scheduler.queue = e :: rest)
      (hx : e.BecomesSent s.running s.litMask x) : SettledFrom (sending (taken rest x) (x.frame tag)) t :=
    entry (before := []) s.litMask_getLsbD hq (.inl rfl) (fun _ h => nomatch h) hx (ite_self _)
  refine ⟨fun hq => ?_, fun n at_ rest hq hn => sent rfl rfl (hturn.of_eq (State.offerFrame_enumerate ho hs hq hn)),
    fun p at_ rest hq => head hq (.inl ⟨p, rfl, rfl⟩), fun p who at_ rest hq => head hq (.inr (.inl ⟨p, who, rfl, rfl⟩)),
    fun p mask lit o at_ rest hq hrun hlit hm => ?_, fun lit before hlit hb hw => ⟨fun hq => ?_, fun e after hq => ?_⟩⟩
  · exact hturn.of_eq (State.offerFrame_nothing ho hs hq)
  · obtain rfl : s.litMask = lit := State.litMask_eq hlit
    exact head hq (.inr (.inr ⟨p, mask, o, rfl, State.running_iff.mpr hrun, hm, rfl⟩))
  · exact hturn.of_eq (State.advance_offerFrame_none ho hs hq hw hlit (passedOver_iff.mpr hb))
  · have first {x : Sent} (hx : e.BecomesSent s.running lit x) :=
      entry hlit hq (.inr hw) (passedOver_iff.mpr hb) hx rfl
    exact ⟨fun p he => first (.inl ⟨p, he, rfl⟩), fun p who he => first (.inr (.inl ⟨p, who, he, rfl⟩)),
      fun p mask o he hrun hm => first (.inr (.inr ⟨p, mask, o, he, State.running_iff.mpr hrun, hm, rfl⟩))⟩

/-! ### The wake pulse -/

/-- What the monitor makes of the line at the release (R104). -/
theorem State.releaseLine_ownDrive {s : State} (h : s.attention.monitor = .ownDrive) :
    s.releaseLine = s.withAttention
      ⟨s.inputs.attentionHigh, if s.inputs.attentionHigh = true then .idle else .measuring s.clock true none,
        s.attention.stuckMark⟩ := by
  unfold State.releaseLine
  cases hh : s.inputs.attentionHigh <;>
    (simp only [h, hh, State.withAttention_attention, State.withAttention_inputs, Bool.false_eq_true, if_false, if_true]
     rfl)

theorem State.releaseLine_releasing {s : State} {since : Nat} (h : s.attention.monitor = .releasing since) :
    s.releaseLine = s.withAttention
      ⟨s.inputs.attentionHigh,
        if s.inputs.attentionHigh = true then .releasing since
        else .stuck (if (s.faultAt .link).isNone then some (s.clock + 500000) else none),
        s.attention.stuckMark⟩ := by
  unfold State.releaseLine
  cases hh : s.inputs.attentionHigh with
  | true =>
    simp only [h, hh, State.withAttention_attention, State.withAttention_inputs, if_true]
  | false =>
    simp only [h, hh, State.withAttention_attention, State.withAttention_inputs, Bool.false_eq_true, if_false]
    rfl

theorem State.releaseLine_stuck_low {s : State} {due : Option Nat} (h : s.attention.monitor = .stuck due)
    (hh : s.inputs.attentionHigh = false) :
    s.releaseLine = s.withAttention ⟨s.inputs.attentionHigh, .stuck due, s.attention.stuckMark⟩ := by
  unfold State.releaseLine
  simp [h, hh]

/-- Before a frame that follows 1 s of silence, by the monitor's state. -/
theorem SettledFrom.wakes {s b t : State} {f : DownFrame} (hl : b.link = s.link) (ha : b.attention = s.attention)
    (hlast : ∀ at_, s.link.lastFrameSent = some at_ → 1000 ≤ b.age at_) (h : SettledFrom (b.handOver f) t) :
    let offered := b.countEvent .frameSent (some f.target.toNat)
    let driven : State := offered.withLink { s.link with phase := .wakeDrive f (b.clock + 2000) }
    (s.attention.monitor = .idle → SettledFrom (driven.withAttention { s.attention with monitor := .ownDrive }) t) ∧
    (∀ start known rise, s.attention.monitor = .measuring start known rise →
      SettledFrom (offered.withLink { s.link with phase := .waitPulse f }) t) ∧
    (∀ x, (s.attention.monitor = .stuck x ∨ ∃ since, s.attention.monitor = .releasing since) →
      SettledFrom driven t) := by
  intro offered driven
  have hpulse : SettledFrom (offered.beginWakePulse f) t :=
    h.of_eq (State.handOver_after_silence (fun at_ hat => hlast at_ (hl ▸ hat)) f)
  have hol : offered.link = s.link := (State.countEvent_link _ _ _).trans hl
  have hoa : offered.attention = s.attention := (State.countEvent_attention _ _ _).trans ha
  have hoc : offered.clock = b.clock := State.countEvent_clock _ _ _
  refine ⟨fun hm => ?_, fun start known rise hm => ?_, fun x hm => ?_⟩
  · have := hpulse.of_eq (State.beginWakePulse_idle (hoa ▸ hm) f)
    rwa [hol, hoa, hoc] at this
  · have := hpulse.of_eq (State.beginWakePulse_measuring (hoa ▸ hm) f)
    rwa [hol] at this
  · have := hpulse.of_eq (State.beginWakePulse_stuck ⟨x, hoa ▸ hm⟩ f)
    rwa [hol, hoc] at this

section
variable (s : State) (m : Moment)

theorem wakePulseRelease_answers : ∃ t, exec (.wakePulseRelease m) s = .next t ∧
    ∀ f end_, s.link.phase = .wakeDrive f end_ →
      ((s.advance m).clock < end_ → SettledFrom (s.advance m) t) ∧
      (end_ ≤ (s.advance m).clock →
        SettledFrom ((s.advance m).releaseLine.withPhase (.wakeHold f ((s.advance m).clock + 5000))) t) := by
  rw [exec_wakePulseRelease, execWakePulseRelease]
  refine State.event_holds fun t ht f end_ hp => ?_
  simp only [State.advance_link, hp] at ht
  exact ⟨fun h => by rwa [if_neg (by omega)] at ht, fun h => by rwa [if_pos h] at ht⟩

theorem wakePulseHoldEnd_answers : ∃ t, exec (.wakePulseHoldEnd m) s = .next t ∧
    ∀ f end_, s.link.phase = .wakeHold f end_ →
      ((s.advance m).clock < end_ → SettledFrom (s.advance m) t) ∧
      (end_ ≤ (s.advance m).clock → SettledFrom ((s.advance m).withLink
        { s.link with
          phase := .sending f ((s.advance m).clock + (5 + f.payload.length) * charTime s.link.speed)
          reception := .none }) t) := by
  rw [exec_wakePulseHoldEnd, execWakePulseHoldEnd]
  refine State.event_holds fun t ht f end_ hp => ?_
  simp only [State.advance_link, hp] at ht
  exact ⟨fun h => by rwa [if_neg (by omega)] at ht, fun h => by rw [if_pos h] at ht; exact ht⟩

end

/-- Settles O43: the frame that waits is the first one of `State.takeTurn`, and the drive, the release and the hold follow
by the monitor's state. -/
theorem aWakePulsePrecedesTheFrame : Obligations.AWakePulsePrecedesTheFrame := by
  intro s m now codes tag taken
  refine ⟨?_, ?_, wakePulseHoldEnd_answers s m⟩
  · obtain ⟨t, he, hturn, -⟩ := linkIdle_answers s m
    refine ⟨t, he, fun ha hp hr hline hlast => ?_⟩
    replace hturn := hturn ⟨ha, hp, hr, hline⟩
    refine ⟨fun v hv => (hturn.of_eq (State.takeTurn_speed hv)).wakes rfl rfl hlast, fun hv ho => ?_, fun hv ho => ?_⟩
    · exact ((hturn.of_eq (State.takeTurn_offer hv)).of_eq (State.offerFrame_lampState ho)).wakes rfl rfl hlast
    replace hturn := hturn.of_eq (State.takeTurn_offer hv)
    refine ⟨fun x hs hx => (hturn.of_eq (State.offerFrame_due ho hs hx)).wakes rfl rfl hlast,
      fun n at_ rest hs hq hn => (hturn.of_eq (State.offerFrame_enumerate ho hs hq hn)).wakes rfl rfl hlast,
      fun lit before e after hs hq hw hlit hb => ?_⟩
    have first {x : Sent} (hx : e.BecomesSent s.running lit x) :=
      (hturn.of_eq (State.advance_offerFrame_entry ho hs hq hw hlit (passedOver_iff.mpr hb) hx rfl)).wakes rfl rfl hlast
    exact ⟨fun p he => first (.inl ⟨p, he, rfl⟩), fun p who he => first (.inr (.inl ⟨p, who, he, rfl⟩)),
      fun p mask o he hrun hm => first (.inr (.inr ⟨p, mask, o, he, State.running_iff.mpr hrun, hm, rfl⟩))⟩
  · obtain ⟨t, he, hans⟩ := wakePulseRelease_answers s m
    refine ⟨t, he, fun f end_ hp => ⟨(hans f end_ hp).1, fun hend => ?_⟩⟩
    have hrel := (hans f end_ hp).2 hend
    refine ⟨fun hm hh => ?_, fun hm hh => ?_, fun since hm hh => ?_, fun since hm hh => ?_, fun due hm hh => ?_⟩
    · rw [State.releaseLine_ownDrive (s := s.advance m) hm, State.advance_inputs, if_pos hh] at hrel
      exact hrel
    · rw [State.releaseLine_ownDrive (s := s.advance m) hm, State.advance_inputs, if_neg (by simp [hh])] at hrel
      exact hrel
    · rw [State.releaseLine_releasing (s := s.advance m) hm, State.advance_inputs, if_pos hh] at hrel
      exact hrel
    · rw [State.releaseLine_releasing (s := s.advance m) hm, State.advance_inputs, if_neg (by simp [hh])] at hrel
      exact hrel
    · rw [State.releaseLine_stuck_low (s := s.advance m) hm hh] at hrel
      exact hrel

/-! ### The end of the frame sent -/

/-- The state once the last character of the part's frame has gone. -/
def State.lastCharacterSent (s : State) : State :=
  s.withLink
    { s.link with
      lastFrameSent := some s.now, lineActive := some s.clock, received := some (s.clock, false) }

theorem frameTransmitEnd_answers {s : State} {f : DownFrame} {end_ : Nat} (h : s.link.phase = .sending f end_)
    (m : Moment) : ∃ t, exec (.frameTransmitEnd m) s = .next t ∧
      ((s.advance m).clock < end_ → SettledFrom (s.advance m) t) ∧
      (end_ ≤ (s.advance m).clock → SettledFrom ((s.advance m).lastCharacterSent.frameSent f) t) := by
  rw [exec_frameTransmitEnd, execFrameTransmitEnd]
  refine State.event_holds fun t ht => ?_
  simp only [State.advance_link, h] at ht
  exact ⟨fun hc => by rwa [if_neg (by omega)] at ht, fun hc => by rw [if_pos hc] at ht; exact ht⟩

theorem windowTime_eq (v : Speed) : windowTime v = (if v = .full then 1 else 4) * 22000 := by
  cases v <;> rfl

theorem replyTime_eq (set : Settings) (v : Speed) (p : Pos) :
    replyTime set v p = (if v = .full then 1 else 4) * ((set.replyBase + (p.val + 1)) * 1000) := by
  cases v
  · exact (Nat.one_mul _).symm
  · rfl

/-- An addressed frame awaits its answer while its attempt stands (R26, R99). -/
theorem State.awaitAnswer_onLink {s : State} {x : Flight} (hs : s.scheduler.slot = .addressed x)
    (hx : x.stage = .onLink) : s.awaitAnswer = s.withPhase
      (.awaiting (.running (s.clock + replyTime s.ignition.settings s.link.speed x.sent.pos))) := by
  simp only [State.awaitAnswer, State.onLink, hs, Slot.flight, hx, if_true]

theorem State.awaitAnswer_failed {s : State} (h : ∀ x, s.scheduler.slot = .addressed x → x.stage ≠ .onLink) :
    s.awaitAnswer = s.withPhase .free := by
  have hnone : s.onLink = none := by
    unfold State.onLink
    cases hs : s.scheduler.slot with
    | addressed x => exact if_neg (h x hs)
    | empty => rfl
    | enumerating _ _ => rfl
  rw [State.awaitAnswer, hnone]

theorem State.frameSent_addressed {s : State} {f : DownFrame}
    (h : f.kind = .query ∨ f.kind = .profileReq ∨ f.kind = .posReset) : s.frameSent f = s.awaitAnswer := by
  rcases h with h | h | h <;> simp only [State.frameSent, h]

/-- Settles O44, by the kind of the frame sent (`State.frameSent`). -/
theorem theFrameSentDecidesWhatFollows : Obligations.TheFrameSentDecidesWhatFollows := by
  intro s m f end_ hp now sent factor
  obtain ⟨t, he, hearly, hend⟩ := frameTransmitEnd_answers hp m
  refine ⟨t, he, hearly, fun hc => ?_⟩
  replace hend := hend hc
  refine ⟨fun hk => ?_, fun hk => ?_, fun hk => ?_, fun hk => ?_⟩
  · simp only [State.frameSent, hk] at hend
    exact hend
  · rw [State.frameSent_addressed hk] at hend
    refine ⟨fun x hs hx => ?_, fun hno => ?_⟩
    · rw [State.awaitAnswer_onLink (s := (s.advance m).lastCharacterSent) hs hx, replyTime_eq] at hend
      exact hend
    · rw [State.awaitAnswer_failed (s := (s.advance m).lastCharacterSent) hno] at hend
      exact hend
  · simp only [State.frameSent, hk, windowTime_eq] at hend
    exact hend
  · simp only [State.frameSent, hk] at hend
    exact hend

end Sys2Proof.Machine
end

section
/-! Frames that fail (R21, R27, R185 to R188): what the health logic makes of one, how the attempt that awaits it ends, and what
admission at the end of an event cannot touch. -/

namespace Sys2Proof.Machine

/-! ### What admission cannot touch -/

/-- Admission takes faulted cells alone: another keeps its listed flag, and gets no record (R158). -/
theorem State.admitUpTo_unfaulted {k : CellKey} (n : Nat) {s : State} (hf : (s.cell k).faulty = false) :
    (s.admitUpTo n).cell k = s.cell k ∧
      (s.faultAt (.cell k) = none → (s.admitUpTo n).faultAt (.cell k) = none) := by
  induction n generalizing s with
  | zero => exact ⟨rfl, id⟩
  | succ n ih =>
    unfold State.admitUpTo
    split
    · split
      · exact ⟨rfl, id⟩
      · next j hj =>
        have hne : k ≠ j := by
          rintro rfl
          have := State.nextToAdmit_awaits hj
          simp [State.awaitsRecord, State.unlisted, hf] at this
        have hcell : (s.admitCell j).cell k = s.cell k := by
          unfold State.admitCell
          split
          · rfl
          · simp only [State.insertFault, State.markListed, State.setCell_other hne]; rfl
        have hsite : s.faultAt (.cell k) = none → (s.admitCell j).faultAt (.cell k) = none := fun hn => by
          unfold State.admitCell
          split
          · exact hn
          · rw [State.faultAt_none, State.insertFault_sites]
            simpa [hne] using State.faultAt_none.mp hn
        obtain ⟨hc, hs⟩ := ih (hcell ▸ hf)
        exact ⟨hc.trans hcell, fun hn => hs (hsite hn)⟩
    · exact ⟨rfl, id⟩

/-- The end of an event leaves a cell that is not faulted as it is, and inserts no record of it. -/
theorem State.conclude_unfaulted {s : State} {k : CellKey} (hf : (s.cell k).faulty = false) (b : FaultList) :
    (s.conclude b).cell k = s.cell k ∧ (s.faultAt (.cell k) = none → (s.conclude b).faultAt (.cell k) = none) := by
  have hq : s.settleQueue.cell k = s.cell k ∧ s.settleQueue.faultAt (.cell k) = s.faultAt (.cell k) := by
    unfold State.settleQueue; split <;> exact ⟨rfl, rfl⟩
  obtain ⟨hcells, hrecords, -⟩ := s.conclude_admits b
  have hsame : (s.conclude b).cell k = s.settleQueue.admitWaiting.cell k ∧
      (s.conclude b).faultAt (.cell k) = s.settleQueue.admitWaiting.faultAt (.cell k) := by
    simp [State.cell, State.faultAt, hcells, hrecords]
  obtain ⟨hc, hs⟩ := State.admitUpTo_unfaulted (s := s.settleQueue) Config.faultPlaces (hq.1 ▸ hf)
  exact ⟨hsame.1.trans (hc.trans hq.1), fun hn => hsame.2.trans (hs (hq.2.trans hn))⟩

/-- What the end of an event holds of the effect's state holds of what the command answers. -/
theorem State.event_concludes {s : State} {m : Moment} {f : State → State} {P : State → Prop}
    (h : P ((f (s.advance m)).conclude s.faults)) : ∃ t, s.event m f = .next t ∧ P t :=
  ⟨_, rfl, h⟩

/-! ### The health logic at a failed frame (R185 to R188) -/

/-- The health logic after a failed frame: it joins the window at FULL, where the fourth failure decides a drop, which ends
a running watch and starts the recovery hold; at REDUCED it ends the clean run and withdraws a return that has not been
handed over. -/
def State.failedHealth (s : State) : Health :=
  let window := (s.health.window ++ [true]).drop (s.health.window.length + 1 - 32)
  match s.link.speed with
  | .full =>
    if 4 ≤ window.count true ∧ s.health.pending = none then
      { s.health with
        window := window, pending := some .reduced, watch := none
        hold := if s.health.watch = none then s.health.hold else some (s.now + 30000) }
    else { s.health with window := window }
  | .reduced =>
    { s.health with
      cleanRun := 0
      pending := if s.health.pending = some .full ∧ s.link.phase.carriesSpeed = false then none else s.health.pending }

theorem failures_eq (w : List Bool) : failures w = w.count true := by
  rw [failures, List.count, List.countP_eq_length_filter]
  congr 1
  exact List.filter_congr fun b _ => by cases b <;> rfl

/-- A drop while the watch runs is a failed return (R188). -/
theorem State.decideDrop_decides {s : State} (h : s.health.pending = none) : s.decideDrop = s.withHealth
    { s.health with
      pending := some .reduced, watch := none
      hold := if s.health.watch = none then s.health.hold else some (s.now + 30000) } := by
  unfold State.decideDrop State.failReturn
  rw [if_pos h]
  cases hw : s.health.watch with
  | none => simp only [State.withHealth_health, hw, if_true]
  | some n =>
    simp only [State.withHealth_health, hw, reduceCtorEq, if_false]
    rfl

theorem State.decideDrop_pending {s : State} (h : s.health.pending ≠ none) : s.decideDrop = s := if_neg h

theorem State.recordFailed_eq (s : State) : s.recordFailed = s.withHealth s.failedHealth := by
  cases hv : s.link.speed with
  | full =>
    simp only [State.recordFailed, State.failedHealth, hv, windowWith_eq, failures_eq]
    by_cases hc : 4 ≤ ((s.health.window ++ [true]).drop (s.health.window.length + 1 - 32)).count true
    · by_cases hp : s.health.pending = none
      · rw [if_pos hc, if_pos (⟨hc, hp⟩ : _ ∧ s.health.pending = none), State.decideDrop_decides]
        · rfl
        · exact hp
      · rw [if_pos hc, if_neg fun h => hp h.2, State.decideDrop_pending]
        exact hp
    · rw [if_neg hc, if_neg fun h => hc h.1]
  | reduced =>
    simp only [State.recordFailed, State.failedHealth, hv, State.withdrawReturn, State.withHealth_health,
      State.withHealth_link, Bool.not_eq_true]
    split <;> rfl

/-! ### A failed frame by what awaits an answer (R27) -/

/-- With nothing awaited a failed frame is counted with no position. -/
theorem State.takeFailure_unawaited {s : State} (h : ∀ timer, s.link.phase ≠ .awaiting timer) :
    s.takeFailure = (s.withHealth s.failedHealth).countEvent .replyCrcFail none := by
  simp only [State.takeFailure, State.recordFailed_eq]
  split
  · next timer x hp _ => exact absurd hp (h timer)
  · rfl

/-- A failed frame ends the attempt that awaits its answer. -/
theorem State.takeFailure_awaited {s : State} {timer : ReplyTimer} {x : Flight} (hp : s.link.phase = .awaiting timer)
    (hs : s.scheduler.slot = .addressed x) (hx : x.stage = .onLink) :
    s.takeFailure = (((s.withHealth s.failedHealth).countEvent .replyCrcFail (some (x.sent.pos.val + 1))).withPhase
      .free).attemptFailed x := by
  have honLink : (s.withHealth s.failedHealth).onLink = some x := by
    simp only [State.onLink, State.withHealth_scheduler, hs, Slot.flight, hx, if_true]
  rw [State.takeFailure, State.recordFailed_eq]
  simp only [State.withHealth_link, hp, honLink]
  rfl

/-- An attempt that is not the last is followed by the next (R88). -/
theorem State.attemptFailed_next {s : State} {x : Flight} (hg : x.gone = false)
    (hx : x.attempt ≤ s.ignition.settings.retryLimit) : s.attemptFailed x =
      s.withSlot (.addressed { x with attempt := x.attempt + 1, busyCount := 0, stage := .due }) := by
  rw [State.attemptFailed, if_neg (by simp [hg]), if_pos hx]

theorem State.attemptFailed_last {s : State} {x : Flight} (hg : x.gone = false)
    (hx : s.ignition.settings.retryLimit < x.attempt) : s.attemptFailed x = s.requestFailed x := by
  rw [State.attemptFailed, if_neg (by simp [hg]), if_neg (by omega)]

/-! ### Where a burst ends -/

/-- A frame that fails at its last character: what follows it begins a frame inside the gap (R21). -/
theorem State.takeFrame_failed {s : State} {doomed : Bool} {w : List WireChar} (hl : s.listens = true)
    (hr : s.link.reception = .receiving doomed)
    (hf : doomed = true ∨ parseFrame s.link.speed s.flightMask (w.take (frameLength s.link.speed w)) = none) :
    s.takeFrame w =
      let n := frameLength s.link.speed w
      let t := (s.receptionEnds 0 (truncatedFrame s.link.speed (w.take n))).takeFailure
      if w.length ≤ n then t else t.receiveStart := by
  have hfail : s.takeCharacters doomed (w.take (frameLength s.link.speed w)) =
      (s.receptionEnds 0 (truncatedFrame s.link.speed (w.take (frameLength s.link.speed w)))).takeFailure := by
    have hmask (b : Bool) : parseFrame (s.receptionEnds 0 b).link.speed (s.receptionEnds 0 b).flightMask
        (w.take (frameLength s.link.speed w)) =
          parseFrame s.link.speed s.flightMask (w.take (frameLength s.link.speed w)) := rfl
    rw [State.takeCharacters]
    simp only [hmask]
    split
    · rfl
    · next f hsome =>
      rcases hf with rfl | hnone
      · exact if_pos rfl
      · rw [hnone] at hsome; cases hsome
  rw [State.takeFrame_receiving hl hr, hfail]

/-- The start of a burst concerns the link alone. -/
theorem State.receiveStart_eq (s : State) : s.receiveStart = s.withLink s.receiveStart.link := by
  unfold State.receiveStart
  split <;> rfl

theorem State.takeFrame_failed_link {s : State} {doomed : Bool} {w : List WireChar} (hl : s.listens = true)
    (hr : s.link.reception = .receiving doomed)
    (hf : doomed = true ∨ parseFrame s.link.speed s.flightMask (w.take (frameLength s.link.speed w)) = none) :
    ∃ b L, s.takeFrame w = (s.receptionEnds 0 b).takeFailure.withLink L := by
  refine ⟨truncatedFrame s.link.speed (w.take (frameLength s.link.speed w)), ?_⟩
  rw [State.takeFrame_failed hl hr hf]
  dsimp only
  split
  · exact ⟨(State.takeFailure _).link, rfl⟩
  · exact ⟨_, State.receiveStart_eq _⟩

/-- Characters that follow a whole frame at once begin a frame inside its gap (R21). -/
theorem State.receiveStart_in_gap {s : State} (hl : s.listens = true) (hr : s.link.reception = .none)
    (hrec : s.link.received = some (s.clock, false)) (hp : ∀ clock, s.link.phase.stopTimer clock = s.link.phase) :
    s.receiveStart = s.withLink { s.link with reception := .receiving true, lineActive := some s.clock } := by
  have hnow : s.receptionNow = .receiving true := by
    have hgap : s.clock < s.clock + 3 * charTime s.link.speed := by cases s.link.speed <;> simp [charTime]
    simp only [State.receptionNow, hrec, receptionAt, hgap, decide_true]
  rw [State.receiveStart, if_pos ⟨hl, hr⟩]
  simp [hnow, hp]

/-- Settles O57: characters decode as they were sent, and a frame with one that does not is a CRC failure. -/
theorem charactersCarryTheirFlag : Obligations.CharactersCarryTheirFlag := by
  refine ⟨fun v b => ⟨fun h => encodeChar_inverted h v, fun h => encodeChar_plain h v, encodeChar_zeroBits v b,
      decodeChar_encodeChar v b⟩,
    fun v bits => ⟨decodeChar_flagged v bits, decodeChar_unflagged v bits⟩, fun v c h => decodeChar_foreign h,
    wireOf_eq, fun v mask w c hc hd => parseFrame_none_of_char hc hd, fun v mask w w' h => parseFrame_congr h mask,
    fun s m w c doomed ha hr hp hc hd => ?_⟩
  have hl : (s.advance m).listens = true := State.listens_of_phase ha hp (by simp)
  obtain ⟨b, L, hframe⟩ := State.takeFrame_failed_link hl hr (.inr (parseFrame_none_of_char hc hd))
  rw [exec_crcFailure, execCrcFailure]
  refine State.event_holds fun t ht => ?_
  rw [hframe, State.takeFailure_unawaited (by simp [State.receptionEnds, hp]), State.countEvent_withHealth] at ht
  rw [State.receptionEnds, State.countEvent_withLink, State.countEvent_eq] at ht
  rw [State.countEvent_eq]
  exact ⟨ht.counters, ht.slot, ht.train, ht.intake, ht.cells⟩

end Sys2Proof.Machine
end

section
/-! What the operations on cells, positions and the Fault List leave alone: each touches the cells and the records of its
sites, and no block but the Train Map beside them. -/

namespace Sys2Proof.Machine

/-- t is s but for the Train Map and the cells and records of the sites in S. -/
structure Touches (S : Site → Prop) (s t : State) : Prop where
  rest : ((t.withTrain s.train).withCells s.cells).withFaults s.faults = s
  cells : ∀ k, ¬ S (.cell k) → t.cell k = s.cell k
  records : ∀ r : FaultRecord, ¬ S r.site → (r ∈ t.faults.records ↔ r ∈ s.faults.records)

section
variable {S : Site → Prop} {s t : State} (h : Touches S s t)
include h

theorem Touches.clock : t.clock = s.clock := congrArg (·.clock) h.rest
theorem Touches.intake : t.intake = s.intake := congrArg (·.intake) h.rest
theorem Touches.sense : t.sense = s.sense := congrArg (·.sense) h.rest
theorem Touches.link : t.link = s.link := congrArg (·.link) h.rest
theorem Touches.health : t.health = s.health := congrArg (·.health) h.rest
theorem Touches.attention : t.attention = s.attention := congrArg (·.attention) h.rest
theorem Touches.scheduler : t.scheduler = s.scheduler := congrArg (·.scheduler) h.rest
theorem Touches.enumerator : t.enumerator = s.enumerator := congrArg (·.enumerator) h.rest
theorem Touches.apply : t.apply = s.apply := congrArg (·.apply) h.rest
theorem Touches.report : t.report = s.report := congrArg (·.report) h.rest
theorem Touches.counters : t.counters = s.counters := congrArg (·.counters) h.rest
theorem Touches.ignition : t.ignition = s.ignition := congrArg (·.ignition) h.rest

theorem Touches.trans {u : State} (g : Touches S t u) : Touches S s u where
  rest := by
    calc ((u.withTrain s.train).withCells s.cells).withFaults s.faults
      _ = (((((u.withTrain t.train).withCells t.cells).withFaults t.faults).withTrain s.train).withCells
            s.cells).withFaults s.faults := rfl
      _ = s := by rw [g.rest, h.rest]
  cells k hk := (g.cells k hk).trans (h.cells k hk)
  records r hr := (g.records r hr).trans (h.records r hr)

theorem Touches.mono {S' : Site → Prop} (hS : ∀ x, S x → S' x) : Touches S' s t where
  rest := h.rest
  cells k hk := h.cells k fun hc => hk (hS _ hc)
  records r hr := h.records r fun hc => hr (hS _ hc)

/-- The record of a site that is not touched. -/
theorem Touches.faultAt_none {site : Site} (hs : ¬ S site) : t.faultAt site = none ↔ s.faultAt site = none := by
  have hiff (r : FaultRecord) (hr : r.site = site) : r ∈ t.faults.records ↔ r ∈ s.faults.records :=
    h.records r (hr ▸ hs)
  simp only [State.faultAt, List.find?_eq_none, decide_eq_true_eq]
  exact ⟨fun hn r hr he => hn r ((hiff r he).mpr hr) he, fun hn r hr he => hn r ((hiff r he).mp hr) he⟩

end

/-! ### Folds -/

theorem foldl_touches {S : Site → Prop} {α : Type} {g : State → α → State} {l : List α} {s : State}
    (hg : ∀ u, ∀ a ∈ l, Touches S u (g u a)) : Touches S s (l.foldl g s) := by
  induction l generalizing s with
  | nil => exact ⟨rfl, fun _ _ => rfl, fun _ _ => Iff.rfl⟩
  | cons a l ih =>
    exact (hg s a List.mem_cons_self).trans (ih fun u b hb => hg u b (List.mem_cons_of_mem a hb))

/-- What one step of a fold establishes and no step undoes holds at the end. -/
theorem foldl_establishes {α : Type} {P Q : State → Prop} {g : State → α → State} {l : List α} {s : State} {x : α}
    (hQ : ∀ u a, Q u → Q (g u a)) (keeps : ∀ u a, Q u → P u → P (g u a)) (sets : ∀ u, Q u → P (g u x)) (hx : x ∈ l)
    (hs : Q s) : P (l.foldl g s) := by
  obtain ⟨before, after, rfl⟩ := List.append_of_mem hx
  rw [List.foldl_append, List.foldl_cons]
  have hreach : Q (before.foldl g s) := foldl_closed hQ hs
  exact (foldl_closed (P := fun u => Q u ∧ P u) (fun u a hu => ⟨hQ u a hu.1, keeps u a hu.1 hu.2⟩)
    ⟨hQ _ _ hreach, sets _ hreach⟩).2

/-! ### One cell, one record -/

section
variable {S : Site → Prop}

theorem Touches.refl (s : State) : Touches S s s := ⟨rfl, fun _ _ => rfl, fun _ _ => Iff.rfl⟩

theorem withTrain_touches (s : State) (x : TrainMap) : Touches S s (s.withTrain x) :=
  ⟨rfl, fun _ _ => rfl, fun _ _ => Iff.rfl⟩

theorem setRecord_touches (s : State) (p : Pos) (r : Option PosRecord) : Touches S s (s.setRecord p r) :=
  withTrain_touches s _

theorem setCell_touches {s : State} {k : CellKey} {c : Cell} (hS : S (.cell k)) : Touches S s (s.setCell k c) where
  rest := rfl
  cells _ hj := State.setCell_other fun he => hj (he ▸ hS)
  records _ _ := Iff.rfl

theorem markListed_touches {s : State} {site : Site} {b : Bool} (hS : S site) : Touches S s (s.markListed site b) := by
  unfold State.markListed
  split
  · exact setCell_touches hS
  all_goals exact .refl s

theorem withFaults_touches {s : State} {x : FaultList}
    (hr : ∀ r : FaultRecord, ¬ S r.site → (r ∈ x.records ↔ r ∈ s.faults.records)) : Touches S s (s.withFaults x) :=
  ⟨rfl, fun _ _ => rfl, hr⟩

theorem withRecords_touches {s : State} {rs : List FaultRecord}
    (hr : ∀ r : FaultRecord, ¬ S r.site → (r ∈ rs ↔ r ∈ s.faults.records)) : Touches S s (s.withRecords rs) :=
  withFaults_touches hr

theorem removeFault_touches {s : State} {site : Site} (hS : S site) : Touches S s (s.removeFault site) := by
  unfold State.removeFault
  split
  · exact .refl s
  · refine (withRecords_touches fun r hr => ?_).trans (markListed_touches hS)
    have hne : r.site ≠ site := fun he => hr (he ▸ hS)
    simp [hne]

theorem changeFault_touches {s : State} {site : Site} {g : FaultRecord → FaultRecord} (hg : ∀ r, (g r).site = r.site)
    (hS : S site) : Touches S s (s.changeFault site g) := by
  refine withRecords_touches fun r hr => ?_
  have hne : r.site ≠ site := fun he => hr (he ▸ hS)
  rw [List.mem_map]
  refine ⟨?_, fun h => ⟨r, h, if_neg hne⟩⟩
  rintro ⟨x, hx, he⟩
  split at he
  · next hsite => exact absurd ((he ▸ hg x).trans hsite) hne
  · exact he ▸ hx

theorem healFault_touches {s : State} {site : Site} (hS : S site) : Touches S s (s.healFault site) := by
  unfold State.healFault
  split
  · exact .refl s
  · split
    · exact changeFault_touches (fun _ => rfl) hS
    · exact removeFault_touches hS
    · exact .refl s

theorem holdCell_touches {s : State} {k : CellKey} {r : HoldReason} (hS : S (.cell k)) :
    Touches S s (s.holdCell k r) := by
  unfold State.holdCell
  split
  · exact .refl s
  · exact setCell_touches hS

theorem makeAbsent_touches {s : State} {k : CellKey} (hS : S (.cell k)) : Touches S s (s.makeAbsent k) :=
  (removeFault_touches hS).trans (setCell_touches hS)

theorem clearCell_touches {s : State} {k : CellKey} (hS : S (.cell k)) : Touches S s (s.clearCell k) := by
  unfold State.clearCell
  split
  · exact .refl s
  · exact (removeFault_touches hS).trans (setCell_touches hS)

theorem resetForProfile_touches {s : State} {p : Pos} {f : Func} {x : Profile} (hS : S (.cell (.lamp p f))) :
    Touches S s (s.resetForProfile p f x) := by
  unfold State.resetForProfile
  split
  · exact .refl s
  · exact (removeFault_touches hS).trans (setCell_touches hS)

/-! ### The segment cells beside a position, and the line cells -/

theorem settleSegmentCell_touches {s : State} {g : Seg} {f : Func} (hS : S (.cell (.segment g f))) :
    Touches S s (s.settleSegmentCell g f) := by
  unfold State.settleSegmentCell
  split
  · split
    · exact setCell_touches hS
    · exact clearCell_touches hS
  · exact makeAbsent_touches hS

theorem settleSegments_touches {s : State} {p : Pos} (hS : ∀ g f, S (.cell (.segment g f))) :
    Touches S s (s.settleSegments p) :=
  foldl_touches fun _ _ _ => (settleSegmentCell_touches (hS _ _)).trans (settleSegmentCell_touches (hS _ _))

theorem dropSegments_touches {s : State} (hS : ∀ g f, S (.cell (.segment g f))) : Touches S s s.dropSegments := by
  refine foldl_touches fun u g _ => ?_
  split
  · exact .refl u
  · exact foldl_touches fun _ _ _ => makeAbsent_touches (hS _ _)

theorem holdSilent_touches {s : State} {p : Pos} (hl : ∀ f, S (.cell (.lamp p f)))
    (hS : ∀ f, S (.cell (.segment p.castSucc f)) ∧ S (.cell (.segment p.succ f))) : Touches S s (s.holdSilent p) :=
  foldl_touches fun _ f _ =>
    ((holdCell_touches (hl f)).trans (holdCell_touches (hS f).1)).trans (holdCell_touches (hS f).2)

theorem lineCellFollows_touches {s : State} {old new : LinkState} {f : Func} (hS : S (.cell (.line f))) :
    Touches S s (s.lineCellFollows old new f) := by
  unfold State.lineCellFollows
  split
  · exact .refl s
  · exact makeAbsent_touches hS
  · exact setCell_touches hS
  · exact (setCell_touches hS).trans (healFault_touches hS)
  all_goals exact .refl s

theorem setLinkState_touches {s : State} {new : LinkState} (hS : ∀ f, S (.cell (.line f))) :
    Touches S s (s.setLinkState new) :=
  (withTrain_touches s _).trans (foldl_touches fun _ f _ => lineCellFollows_touches (hS f))

end

/-! ### What the operations leave of the Train Map -/

@[simp] theorem State.holdCell_train (s : State) (k : CellKey) (r : HoldReason) :
    (s.holdCell k r).train = s.train := by
  unfold State.holdCell
  split <;> rfl

@[simp] theorem State.settleSegments_train (s : State) (p : Pos) : (s.settleSegments p).train = s.train := by
  have hcell (u : State) (g : Seg) (f : Func) : (u.settleSegmentCell g f).train = u.train := by
    unfold State.settleSegmentCell
    split
    · split <;> simp
    · simp
  exact foldl_same (fun u f => by rw [hcell, hcell]) functions s

@[simp] theorem State.dropSegments_train (s : State) : s.dropSegments.train = s.train := by
  refine foldl_same (fun u g => ?_) segments s
  split
  · rfl
  · exact foldl_same (fun v f => by simp) functions u

@[simp] theorem State.holdSilent_train (s : State) (p : Pos) : (s.holdSilent p).train = s.train :=
  foldl_same (fun u f => by simp) functions s

theorem State.record_of_train {s t : State} (h : t.train = s.train) (p : Pos) : t.record p = s.record p := by
  rw [State.record, State.record, h]

theorem State.posState_of_train {s t : State} (h : t.train = s.train) (p : Pos) : t.posState p = s.posState p := by
  rw [State.posState, State.posState, State.record_of_train h]

@[simp] theorem State.makeAbsent_cell (s : State) (k : CellKey) : (s.makeAbsent k).cell k = Cell.absent :=
  State.setCell_same _ _ _

/-- A cell that is ABSENT stays so when another goes ABSENT. -/
theorem State.makeAbsent_keeps {s : State} {k j : CellKey} (h : s.cell j = Cell.absent) :
    (s.makeAbsent k).cell j = Cell.absent := by
  by_cases hj : j = k
  · rw [hj, State.makeAbsent_cell]
  · rw [(makeAbsent_touches (S := fun x => x = .cell k) rfl).cells j (by simpa using hj), h]

/-- A link state of NO_TRAIN that is new makes every line cell ABSENT (R7). -/
theorem State.setLinkState_noTrain {s : State} (h : s.train.linkState ≠ .noTrain) (f : Func) :
    (s.setLinkState .noTrain).cell (.line f) = Cell.absent := by
  have hfollows (u : State) (g : Func) : u.lineCellFollows s.train.linkState .noTrain g = u.makeAbsent (.line g) := by
    cases hl : s.train.linkState with
    | noTrain => exact absurd hl h
    | live => rfl
    | down => rfl
  exact foldl_establishes (P := fun u => u.cell (.line f) = Cell.absent) (Q := fun _ => True) (fun _ _ h => h)
    (fun u g _ hu => by rw [hfollows]; exact State.makeAbsent_keeps hu)
    (fun u _ => by rw [hfollows]; exact State.makeAbsent_cell u _) (mem_functions f) trivial

end Sys2Proof.Machine
end

section
/-! Waking (R45, R194, R195): what each block holds once the part is WAKING, the departure of every position, and the wake
with the socket COUPLED and UNCOUPLED. -/

namespace Sys2Proof.Machine

/-! ### The departure of a position that nothing is asked of (R49) -/

/-- No request is queued or in the slot, and no apply is in progress. -/
structure State.Unasked (s : State) : Prop where
  queue : s.scheduler.queue = []
  slot : s.scheduler.slot = .empty
  apply : s.apply = none

/-- The sites whose cells and records the departure of p can touch (R49). -/
def departureSite (p : Pos) : Site → Prop
  | .cell (.lamp q _) => q = p
  | .cell (.line _) => False
  | .cell (.segment _ _) => True
  | .chainBreak _ => True
  | .module q => q = p
  | .link => False

/-- What the departure of a mapped p makes of the cells, the list and the map. -/
def State.leave (s : State) (p : Pos) : State :=
  (((((functions.foldl (fun t f => t.makeAbsent (.lamp p f)) s).removeFault (.module p)).setRecord p none).settleSegments
    p).dropSegments.removeFault (.chainBreak p.castSucc)).removeFault (.chainBreak p.succ)

theorem State.Unasked.of_touches {S : Site → Prop} {s t : State} (h : s.Unasked) (ht : Touches S s t) : t.Unasked :=
  ⟨ht.scheduler ▸ h.queue, ht.scheduler ▸ h.slot, ht.apply ▸ h.apply⟩

theorem bare_touches (s : State) (p : Pos) :
    Touches (departureSite p) s (functions.foldl (fun t f => t.makeAbsent (.lamp p f)) s) :=
  foldl_touches fun _ _ _ => makeAbsent_touches rfl

/-- Beyond the lamp cells, a departure touches segments and records alone. -/
theorem leave_touches_segments (s : State) (p : Pos) : Touches (fun x => departureSite p x ∧ ∀ f, x ≠ .cell (.lamp p f))
    (functions.foldl (fun t f => t.makeAbsent (.lamp p f)) s) (s.leave p) :=
  ((((removeFault_touches ⟨rfl, nofun⟩).trans (setRecord_touches _ p none)).trans
    (settleSegments_touches fun _ _ => ⟨trivial, nofun⟩)).trans (dropSegments_touches fun _ _ => ⟨trivial, nofun⟩)).trans
      ((removeFault_touches ⟨trivial, nofun⟩).trans (removeFault_touches ⟨trivial, nofun⟩))

theorem leave_touches (s : State) (p : Pos) : Touches (departureSite p) s (s.leave p) :=
  (bare_touches s p).trans ((leave_touches_segments s p).mono fun _ h => h.1)

theorem State.leave_train (s : State) (p : Pos) :
    (s.leave p).train = { s.train with records := s.train.records.set p none } := by
  have hbare : (functions.foldl (fun t f => t.makeAbsent (.lamp p f)) s).train = s.train :=
    foldl_same (fun t f => by simp) functions s
  simp [State.leave, State.setRecord, hbare]

theorem State.leave_lamp (s : State) (p : Pos) (f : Func) : (s.leave p).cell (.lamp p f) = Cell.absent := by
  rw [(leave_touches_segments s p).cells _ fun h => h.2 f rfl]
  exact foldl_establishes (P := fun u => u.cell (.lamp p f) = Cell.absent) (Q := fun _ => True) (fun _ _ h => h)
    (fun _ _ _ hu => State.makeAbsent_keeps hu) (fun u _ => State.makeAbsent_cell u _) (mem_functions f) trivial

theorem State.discardEntries_nil {s : State} (h : s.scheduler.queue = []) (g : Pos → Bool) : s.discardEntries g = s := by
  have : s.discardEntries g = s.withQueue [] := by simp [State.discardEntries, h]
  rw [this, ← h]
  rfl

theorem State.forsake_empty {s : State} (h : s.scheduler.slot = .empty) (p : Pos) : s.forsake p = s := by
  rw [State.forsake, h]

theorem State.stopWaiting_none {s : State} (h : s.apply = none) (p : Pos) : s.stopWaiting p = s := by
  have : s.stopWaiting p = s.withApply none := by simp [State.stopWaiting, State.completeApply, h]
  rw [this, ← h]
  rfl

theorem State.depart_eq {s : State} (h : s.Unasked) (p : Pos) :
    s.depart p = if (s.record p).isNone then s else s.leave p := by
  have hl := h.of_touches (leave_touches s p)
  have hdone : (((s.leave p).discardEntries fun q => decide (q = p)).forsake p).stopWaiting p = s.leave p := by
    rw [State.discardEntries_nil hl.queue, State.forsake_empty hl.slot, State.stopWaiting_none hl.apply]
  unfold State.depart
  split
  · rfl
  · exact hdone

/-! ### The departure of every position (R45) -/

/-- u is s after the departure of some positions: each is mapped as in s, or is not and its lamp cells are ABSENT if it was. -/
structure Departing (s u : State) : Prop where
  touches : Touches (fun x => ∃ p, departureSite p x) s u
  linkState : u.train.linkState = s.train.linkState
  lamps : ∀ p f, (s.record p).isSome → (u.record p).isSome ∨ u.cell (.lamp p f) = Cell.absent

theorem Departing.unasked {s u : State} (h : Departing s u) (hs : s.Unasked) : u.Unasked := hs.of_touches h.touches

theorem State.leave_record (s : State) (p q : Pos) : (s.leave p).record q = if q = p then none else s.record q := by
  rw [← State.setRecord_record]
  exact State.record_of_train (State.leave_train s p) q

theorem Departing.depart {s u : State} (h : Departing s u) (hs : s.Unasked) (p : Pos) : Departing s (u.depart p) := by
  rw [State.depart_eq (h.unasked hs)]
  split
  · exact h
  · refine ⟨h.touches.trans ((leave_touches u p).mono fun x hx => ⟨p, hx⟩), ?_, fun q f hq => ?_⟩
    · rw [State.leave_train]; exact h.linkState
    · by_cases hqp : q = p
      · subst hqp
        exact .inr (State.leave_lamp u q f)
      · rw [State.leave_record, if_neg hqp, (leave_touches u p).cells (.lamp q f) hqp]
        exact h.lamps q f hq

theorem Departing.depart_record {s u : State} (h : Departing s u) (hs : s.Unasked) (p : Pos) :
    (u.depart p).record p = none := by
  rw [State.depart_eq (h.unasked hs)]
  split
  · next hn => simpa using hn
  · rw [State.leave_record, if_pos rfl]

theorem Departing.depart_unmapped {s u : State} (h : Departing s u) (hs : s.Unasked) (p : Pos) {q : Pos}
    (hq : u.record q = none) : (u.depart p).record q = none := by
  rw [State.depart_eq (h.unasked hs)]
  split
  · exact hq
  · rw [State.leave_record]
    split
    · rfl
    · exact hq

/-- Once every position has departed the map is empty and the lamp cells are ABSENT; no other block has changed. -/
theorem State.departAll_departs {s : State} (hs : s.Unasked) :
    Departing s s.departAll ∧ (∀ p, s.departAll.record p = none) ∧ s.departAll.train.endCertain = false := by
  have hself : Departing s s := ⟨.refl s, rfl, fun _ _ h => .inl h⟩
  have hall : Departing s (positionsDown.foldl (fun u p => u.depart p) s) :=
    foldl_closed (fun _ p h => h.depart hs p) hself
  have hnone (p : Pos) : (positionsDown.foldl (fun u p => u.depart p) s).record p = none :=
    foldl_establishes (P := fun u => u.record p = none) (Q := Departing s) (fun u q h => h.depart hs q)
      (fun u q h hp => h.depart_unmapped hs q hp) (fun u h => h.depart_record hs p) (positionsDown_mem p) hself
  unfold State.departAll
  generalize positionsDown.foldl (fun u p => u.depart p) s = u at hall hnone
  exact ⟨⟨hall.touches.trans (withTrain_touches _ _), hall.linkState, hall.lamps⟩, hnone, rfl⟩

/-- The socket is UNCOUPLED with nothing asked of any position (R45). -/
theorem State.uncouple_empties {s : State} (hs : s.Unasked) (hc : s.enumerator.coupled = false) :
    Touches (fun _ => True) s s.uncouple ∧ (∀ p, s.uncouple.record p = none) ∧ s.uncouple.train.linkState = .noTrain ∧
      s.uncouple.train.endCertain = false ∧
      (∀ p f, (s.record p).isSome → s.uncouple.cell (.lamp p f) = Cell.absent) ∧
      (s.train.linkState ≠ .noTrain → ∀ f, s.uncouple.cell (.line f) = Cell.absent) := by
  obtain ⟨hall, hnone, hend⟩ := State.departAll_departs hs
  have heq : s.uncouple = s.departAll.setLinkState .noTrain := by
    simp [State.uncouple, State.refreshLink, State.linkStateNow, hall.touches.enumerator, hc]
  have hlines : Touches (fun x => ∃ f, x = .cell (.line f)) s.departAll s.uncouple :=
    heq ▸ setLinkState_touches fun f => ⟨f, rfl⟩
  have htrain : s.uncouple.train = { s.departAll.train with linkState := .noTrain } := by rw [heq, State.setLinkState_train]
  refine ⟨(hall.touches.mono fun _ _ => trivial).trans (hlines.mono fun _ _ => trivial), fun p => ?_, ?_, ?_,
    fun p f hp => ?_, fun hl f => ?_⟩
  · simp only [State.record, htrain]
    exact hnone p
  · rw [htrain]
  · rw [htrain]; exact hend
  · rw [hlines.cells _ (by simp)]
    exact (hall.lamps p f hp).resolve_left (by simp [hnone p])
  · rw [heq]
    exact State.setLinkState_noTrain (by rwa [hall.linkState]) f

end Sys2Proof.Machine
end

section
/-! IGNITION_CHANGE (R194, R195). -/

namespace Sys2Proof.Machine

/-! ### The blocks of a part that wakes -/

/-- The part once it is WAKING, before an enumeration is asked for: every block but the monitor. -/
def State.roused (s : State) (a : Attention) : State :=
  (((((((s.withIgnition { s.ignition with part := .waking }).withSense
    { s.sense with channels := Vector.ofFn fun f => Channel.afresh s.inputs.driven[f] s.now }).withLink
    { s.link with phase := .free, reception := .none }).withHealth s.health.cleared).withScheduler
    (s.scheduler.emptied true)).withAttention a).withReport s.report.bothDue).withEnumerator
    { s.enumerator with coupled := s.sense.coupled }

theorem State.monitorWakes_eq (s : State) : ∃ a, s.monitorWakes = s.withAttention a ∧
    (s.attention.stuckMark = false →
      a.monitor = if s.inputs.attentionHigh then .idle else .measuring s.clock false none) := by
  unfold State.monitorWakes
  cases s.attention.stuckMark with
  | true => dsimp only; split_ifs <;> exact ⟨_, rfl, nofun⟩
  | false => exact ⟨_, rfl, fun _ => rfl⟩

/-- The blocks that come before the monitor in a wake. -/
def State.stirred (s : State) : State :=
  let part := (s.withPart .waking).readChannels
  let link := (part.withLink { part.link with phase := .free, reception := .none }).withHealth part.health.cleared
  link.withScheduler (link.scheduler.emptied true)

/-- The socket-detect state is handed on to the Enumerator (R45). -/
def State.handSocket (s : State) : State := s.withEnumerator { s.enumerator with coupled := s.sense.coupled }

theorem State.wake_stirred (s : State) :
    s.wake = s.stirred.monitorWakes.reportsDue.handSocket.wakeEnumeration.lockDrop := by
  unfold State.wake State.handSocket State.stirred
  dsimp only

theorem State.wake_eq (s : State) : ∃ a, s.wake = (s.roused a).wakeEnumeration.lockDrop ∧
    (s.attention.stuckMark = false →
      a.monitor = if s.inputs.attentionHigh then .idle else .measuring s.clock false none) := by
  obtain ⟨a, ha, hmonitor⟩ := s.stirred.monitorWakes_eq
  have hroused : (s.stirred.withAttention a).reportsDue.handSocket = s.roused a := by
    simp [State.stirred, State.roused, State.reportsDue, State.handSocket, State.readChannels, State.withPart, State.now]
  have hattention : s.stirred.attention = s.attention := by simp [State.stirred, State.readChannels, State.withPart]
  have hinputs : s.stirred.inputs = s.inputs := by simp [State.stirred, State.readChannels, State.withPart]
  have hclock : s.stirred.clock = s.clock := by simp [State.stirred, State.readChannels, State.withPart]
  rw [hattention, hinputs, hclock] at hmonitor
  exact ⟨a, by rw [State.wake_stirred, ha, hroused], hmonitor⟩

/-- A drop that SPEED_LOCK asks for concerns the change pending and the watch alone (R189). -/
theorem State.lockDrop_eq (s : State) : ∃ h, s.lockDrop = s.withHealth h ∧ h.window = s.health.window ∧
    h.cleanRun = s.health.cleanRun ∧ h.hold = s.health.hold := by
  unfold State.lockDrop
  split
  · exact ⟨_, rfl, rfl, rfl, rfl⟩
  · exact ⟨s.health, rfl, rfl, rfl, rfl⟩

/-- While the ignition is HIGH the vehicle is not quiet (R194). -/
theorem State.conclude_quietSince {s : State} (h : s.ignition.high = true) (b : FaultList) :
    (s.conclude b).ignition.quietSince = none := by
  obtain ⟨u, hu⟩ : ∃ u : State, s.conclude b = u.settleQuiet.settleProbe.settleReports := ⟨_, rfl⟩
  have hreports (v : State) : v.settleReports.ignition = v.ignition := by
    unfold State.settleReports; split <;> rfl
  have hprobe (v : State) : v.settleProbe.ignition = v.ignition := by
    unfold State.settleProbe
    split
    · split <;> rfl
    · rfl
  have hhigh : u.ignition.high = true := by
    have hquiet : u.settleQuiet.ignition.high = u.ignition.high := by
      unfold State.settleQuiet
      split
      · split <;> rfl
      · rfl
    rw [← hquiet, ← hprobe, ← hreports, ← hu, State.conclude_ignition_high, h]
  rw [hu, hreports, hprobe, State.settleQuiet, if_neg (by simp [State.isQuiet, hhigh])]
  rfl

/-! ### The wake with the socket COUPLED and UNCOUPLED -/

/-- With the socket COUPLED an enumeration waits at the head of an empty queue (R42, R195). -/
theorem State.wakeEnumeration_coupled {s : State} (a : Attention) (hc : s.sense.coupled = true)
    (hp : s.enumerator.phase = .idle) : (s.roused a).wakeEnumeration =
      ((s.roused a).withEnumerator ⟨.pending, s.enumerator.probeFrom, true⟩).withQueue [⟨.enumerate, s.now⟩] := by
  have hcoupled : (s.roused a).enumerator.coupled = true := by simp [State.roused, hc]
  have hnow : (s.roused a).now = s.now := by simp [State.now, State.roused]
  have henumerator : { (s.roused a).enumerator with phase := .pending } =
      (⟨.pending, s.enumerator.probeFrom, true⟩ : Enumerator) := by simp [State.roused, hc]
  have hqueue : (s.roused a).scheduler.queue = [] := by simp [State.roused, Scheduler.emptied]
  rw [State.wakeEnumeration, if_pos hcoupled, State.requestEnumeration_placed (s := s.roused a) (by simp [State.roused])
    hcoupled hp (by simp [hqueue]), hnow, henumerator, hqueue]

/-- What the blocks hold after a wake with the socket COUPLED. -/
theorem State.wake_coupled {s : State} (hc : s.sense.coupled = true) (hp : s.enumerator.phase = .idle) :
    s.wake.ignition = { s.ignition with part := .waking } ∧
      s.wake.scheduler = { s.scheduler.emptied true with queue := [⟨.enumerate, s.now⟩] } ∧
      s.wake.enumerator.phase = .pending ∧ s.wake.link = { s.link with phase := .free, reception := .none } ∧
      s.wake.sense.channels = (Vector.ofFn fun f => Channel.afresh s.inputs.driven[f] s.now) ∧
      s.wake.report = s.report.bothDue ∧
      (s.wake.health.window = [] ∧ s.wake.health.cleanRun = 0 ∧ s.wake.health.hold = s.health.hold) ∧
      (s.attention.stuckMark = false →
        s.wake.attention.monitor = if s.inputs.attentionHigh then .idle else .measuring s.clock false none) ∧
      s.wake.clock = s.clock ∧ s.wake.intake = s.intake ∧ s.wake.counters = s.counters ∧ s.wake.train = s.train ∧
      s.wake.apply = s.apply ∧ s.wake.cells = s.cells ∧ s.wake.faults = s.faults := by
  obtain ⟨a, hwake, ha⟩ := s.wake_eq
  obtain ⟨h, hdrop, hwindow, hrun, hhold⟩ := (s.roused a).wakeEnumeration.lockDrop_eq
  rw [State.wakeEnumeration_coupled a hc hp] at hdrop hwake hwindow hrun hhold
  have hhealth : (((s.roused a).withEnumerator ⟨.pending, s.enumerator.probeFrom, true⟩).withQueue
      [⟨.enumerate, s.now⟩]).health = s.health.cleared := by simp [State.roused, State.withQueue]
  rw [hhealth] at hwindow hrun hhold
  rw [hwake, hdrop]
  refine ⟨?_, ?_, ?_, ?_, ?_, ?_, ⟨hwindow, hrun, hhold⟩, fun hmark => ?_, ?_, ?_, ?_, ?_, ?_, ?_, ?_⟩
  case refine_7 => simp [State.roused, State.withQueue, ha hmark]
  all_goals simp [State.roused, State.withQueue]

theorem State.cell_of_cells {s t : State} (h : t.cells = s.cells) (k : CellKey) : t.cell k = s.cell k := by
  rw [State.cell, State.cell, h]

theorem State.enterRunning_waking {s : State} (h : s.ignition.part = .waking) : s.enterRunning =
    (s.withIgnition { s.ignition with part := .running }).withScheduler { s.scheduler with roundAtOnce := true } := by
  rw [State.enterRunning, h]

/-- With the socket UNCOUPLED every position departs and WAKING ends at once (R45, R195). -/
theorem State.wake_uncoupled {s : State} (hc : s.sense.coupled = false) (ha : s.apply = none) :
    s.wake.ignition = { s.ignition with part := .running } ∧
      s.wake.scheduler = { s.scheduler.emptied true with roundAtOnce := true } ∧
      s.wake.enumerator = { s.enumerator with coupled := false } ∧
      s.wake.link = { s.link with phase := .free, reception := .none } ∧ s.wake.report = s.report.bothDue ∧
      s.wake.intake = s.intake ∧ s.wake.counters = s.counters ∧
      (∀ p, s.wake.record p = none) ∧ s.wake.train.linkState = .noTrain ∧ s.wake.train.endCertain = false ∧
      (∀ p f, (s.record p).isSome → s.wake.cell (.lamp p f) = Cell.absent) ∧
      (s.train.linkState ≠ .noTrain → ∀ f, s.wake.cell (.line f) = Cell.absent) := by
  obtain ⟨a, hwake, -⟩ := s.wake_eq
  have hcoupled : (s.roused a).enumerator.coupled = false := by simp [State.roused, hc]
  have hunasked : (s.roused a).Unasked :=
    ⟨by simp [State.roused, Scheduler.emptied], by simp [State.roused, Scheduler.emptied], by simpa [State.roused] using ha⟩
  obtain ⟨htouches, hnone, hstate, hend, hlamps, hlines⟩ := State.uncouple_empties hunasked hcoupled
  have hwaking : (s.roused a).uncouple.ignition.part = .waking := by rw [htouches.ignition]; simp [State.roused]
  obtain ⟨h, hdrop, -⟩ := (s.roused a).uncouple.enterRunning.lockDrop_eq
  rw [hwake, State.wakeEnumeration, if_neg (by simp [hcoupled]), hdrop, State.enterRunning_waking hwaking]
  generalize (s.roused a).uncouple = u at htouches hnone hstate hend hlamps hlines
  refine ⟨?_, ?_, ?_, ?_, ?_, ?_, ?_, fun p => ?_, hstate, hend, fun p f hp => ?_, fun hl f => ?_⟩
  · simp [htouches.ignition, State.roused]
  · simp [htouches.scheduler, State.roused]
  · simp [htouches.enumerator, State.roused, hc]
  · simp [htouches.link, State.roused]
  · simp [htouches.report, State.roused]
  · simp [htouches.intake, State.roused]
  · simp [htouches.counters, State.roused]
  · rw [← hnone p]
    exact State.record_of_train (by simp) p
  · rw [← hlamps p f (by rw [← hp]; exact congrArg _ (State.record_of_train (by simp [State.roused]) p))]
    exact State.cell_of_cells (by simp) _
  · rw [← hlines (by simpa [State.roused] using hl) f]
    exact State.cell_of_cells (by simp) _

/-! ### The command -/

section
variable {s : State} {m : Moment}

/-- From when the ignition input has held its level (R194; log entry 48). -/
theorem State.ignitionHeld_iff : (s.advance m).ignitionHeld = true ↔
    m.inputs.ignitionHigh = s.inputs.ignitionHigh ∧ s.steady.ignition + 50000 ≤ s.clock + m.elapsed := by
  rw [State.ignitionHeld, decide_eq_true_eq]
  simp only [State.advance_steady, State.advance_clock, Steady.follow]
  split
  · next h => simp [h]
  · next h => simp [h]

/-- The ignition state's new level, the one change of its own that the command makes. -/
def State.ignitionTaken (s : State) (m : Moment) : State :=
  (s.advance m).withIgnition { s.ignition with high := m.inputs.ignitionHigh }

theorem ignitionChange_ignored (h : ¬ (s.advance m).ignitionHeld = true ∨ m.inputs.ignitionHigh = s.ignition.high) :
    ∃ t, exec (.ignitionChange m) s = .next t ∧ SettledFrom (s.advance m) t := by
  rw [exec_ignitionChange, execIgnitionChange]
  exact State.event_settles (if_pos h.symm)

theorem ignitionChange_taken (hheld : (s.advance m).ignitionHeld = true) (hnew : m.inputs.ignitionHigh ≠ s.ignition.high)
    (hstays : m.inputs.ignitionHigh = false ∨ s.ignition.part ≠ .asleep) :
    ∃ t, exec (.ignitionChange m) s = .next t ∧ SettledFrom (s.ignitionTaken m) t := by
  rw [exec_ignitionChange, execIgnitionChange]
  refine State.event_settles ?_
  have hif : ¬ ((s.advance m).inputs.ignitionHigh = (s.advance m).ignition.high ∨ ¬ (s.advance m).ignitionHeld = true) := by
    rintro (h | h)
    · exact hnew h
    · exact h hheld
  dsimp only
  rw [if_neg hif]
  rcases hstays with hlow | hpart
  · exact if_neg (by simp [hlow])
  · have hwake : (s.ignitionTaken m).wakeIfAsleep = s.ignitionTaken m := by
      have : (s.ignitionTaken m).ignition.part = s.ignition.part := rfl
      rw [State.wakeIfAsleep, this]
      cases hp : s.ignition.part with
      | asleep => exact absurd hp hpart
      | waking => rfl
      | running => rfl
    exact (congrArg (fun x => if m.inputs.ignitionHigh = true then x else s.ignitionTaken m) hwake).trans (ite_self _)

theorem ignitionChange_wakes (hheld : (s.advance m).ignitionHeld = true) (hhigh : m.inputs.ignitionHigh = true)
    (hlow : s.ignition.high = false) (hpart : s.ignition.part = .asleep) {P : State → Prop}
    (hP : P ((s.ignitionTaken m).wake.conclude s.faults)) : ∃ t, exec (.ignitionChange m) s = .next t ∧ P t := by
  rw [exec_ignitionChange, execIgnitionChange]
  refine State.event_concludes ?_
  have hif : ¬ ((s.advance m).inputs.ignitionHigh = (s.advance m).ignition.high ∨ ¬ (s.advance m).ignitionHeld = true) := by
    simp [hheld, hhigh, hlow]
  have hwake : (s.ignitionTaken m).wakeIfAsleep = (s.ignitionTaken m).wake := by
    have : (s.ignitionTaken m).ignition.part = s.ignition.part := rfl
    rw [State.wakeIfAsleep, this, hpart]
  dsimp only
  rw [if_neg hif]
  have htaken : (if m.inputs.ignitionHigh = true then (s.ignitionTaken m).wakeIfAsleep else s.ignitionTaken m) =
      (s.ignitionTaken m).wake := by rw [if_pos hhigh, hwake]
  exact htaken ▸ hP

end

theorem State.now_of_clock {s t : State} (h : t.clock = s.clock) : t.now = s.now := by rw [State.now, State.now, h]

theorem Channel.afresh_eq (driven : Bool) (now : Time) :
    Channel.afresh driven now = ⟨driven, if driven then some now else none, 0⟩ := rfl

/-- Settles O13: the effect is the ignition state's new level and, for a sleeping part that it wakes, the wake's. -/
theorem ignitionHighWakesThePart : Obligations.IgnitionHighWakesThePart := by
  intro s m
  refine ⟨?_, ?_, fun hheld hstays => ?_, fun h => ignitionChange_ignored (h.imp_left fun hn => ?_)⟩
  · rintro ⟨hheld, hhigh, hlow, hpart, hphase⟩ hc
    refine ignitionChange_wakes (State.ignitionHeld_iff.mpr hheld) hhigh hlow hpart ?_
    have ht := (s.ignitionTaken m).wake.conclude_settledFrom s.faults
    have hquiet := State.conclude_quietSince (s := (s.ignitionTaken m).wake) (b := s.faults)
    obtain ⟨hign, hsched, henum, hlink, hsense, hreport, hhealth, hatt, hclock, hintake, hcounters, htrain, happly, hcells,
      hfaults⟩ := State.wake_coupled (s := s.ignitionTaken m) hc hphase
    have hhigh' : (s.ignitionTaken m).wake.ignition.high = true := by rw [hign]; exact hhigh
    generalize (s.ignitionTaken m).wake = v at *
    generalize v.conclude s.faults = t at *
    have hnow : t.now = (s.ignitionTaken m).now := State.now_of_clock (ht.clock.trans hclock)
    have hscheduler : t.scheduler = v.scheduler := ht.scheduler (by rw [hsched]; rfl)
    refine ⟨by rw [ht.part, hign], by rw [ht.high, hhigh'], hquiet hhigh', by rw [ht.intake, hintake]; rfl,
      by rw [ht.train, htrain]; rfl, by rw [ht.counters, hcounters]; rfl, by rw [ht.apply, happly]; rfl, fun f => ?_,
      by rw [ht.link, hlink]; rfl, by rw [ht.link, hlink], by rw [ht.link, hlink]; rfl, by rw [ht.health, hhealth.1],
      by rw [ht.health, hhealth.2.1], by rw [ht.health, hhealth.2.2]; rfl, by rw [hscheduler, hsched, hnow],
      by rw [hscheduler, hsched]; rfl, by rw [hscheduler, hsched]; rfl, by rw [hscheduler, hsched]; rfl,
      by rw [ht.phase, henum], fun hmark => ?_, fun k => ?_, ?_, by rw [ht.received, hreport]; rfl,
      by rw [ht.transmit, hreport]; rfl, ht.due.1 (by rw [hreport]; rfl), ht.due.2 (by rw [hreport]; rfl),
      by rw [ht.settings, hign]; rfl⟩
    · rw [ht.sense, hsense, hnow]
      simp [Channel.afresh_eq, State.ignitionTaken]
    · rw [ht.attention, hatt hmark, ht.clock, hclock]
      rfl
    · rw [ht.cells k, State.cell_of_cells hcells]
      rfl
    · rw [← show v.faults.records = s.faults.records by rw [hfaults]; rfl]
      exact ht.records
  · rintro ⟨hheld, hhigh, hlow, hpart, hphase⟩ hc happly
    refine ignitionChange_wakes (State.ignitionHeld_iff.mpr hheld) hhigh hlow hpart ?_
    have ht := (s.ignitionTaken m).wake.conclude_settledFrom s.faults
    have hquiet := State.conclude_quietSince (s := (s.ignitionTaken m).wake) (b := s.faults)
    have hcell (k : CellKey) (hk : (s.ignitionTaken m).wake.cell k = Cell.absent) :
        ((s.ignitionTaken m).wake.conclude s.faults).cell k = Cell.absent :=
      (State.conclude_unfaulted (by rw [hk]; rfl) s.faults).1.trans hk
    obtain ⟨hign, hsched, henum, hlink, hreport, hintake, hcounters, hnone, hstate, hend, hlamps, hlines⟩ :=
      State.wake_uncoupled (s := s.ignitionTaken m) hc happly
    have hhigh' : (s.ignitionTaken m).wake.ignition.high = true := by rw [hign]; exact hhigh
    generalize (s.ignitionTaken m).wake = v at *
    generalize v.conclude s.faults = t at *
    have hscheduler : t.scheduler = v.scheduler := ht.scheduler (by rw [hsched]; rfl)
    exact ⟨by rw [ht.part, hign], by rw [ht.high, hhigh'], hquiet hhigh',
      fun p => (State.record_of_train ht.train p).trans (hnone p), by rw [ht.train, hstate], by rw [ht.train, hend],
      by rw [ht.phase, henum]; exact hphase, by rw [ht.coupled, henum],
      fun p f hp => hcell _ (hlamps p f hp), fun hl f => hcell _ (hlines hl f),
      by rw [hscheduler, hsched]; rfl, by rw [hscheduler, hsched]; rfl, by rw [hscheduler, hsched]; rfl,
      by rw [hscheduler, hsched]; rfl, by rw [ht.intake, hintake]; rfl, by rw [ht.counters, hcounters]; rfl,
      by rw [ht.link, hlink]; rfl, by rw [ht.link, hlink], by rw [ht.received, hreport]; rfl,
      by rw [ht.transmit, hreport]; rfl, ht.due.1 (by rw [hreport]; rfl), ht.due.2 (by rw [hreport]; rfl),
      by rw [ht.settings, hign]; rfl, by rw [ht.library, hign]; rfl⟩
  · have hsame : m.inputs.ignitionHigh = s.ignition.high ∨ m.inputs.ignitionHigh ≠ s.ignition.high := em _
    rcases hsame with hsame | hnew
    · refine hsame ▸ ?_
      exact ignitionChange_ignored (.inr hsame)
    · refine ignitionChange_taken (State.ignitionHeld_iff.mpr hheld) hnew ?_
      rcases hstays with hlow | hpart | hhigh
      · exact .inl hlow
      · exact .inr hpart
      · exact .inl (by simpa [hhigh] using hnew)
  · rwa [State.ignitionHeld_iff]

end Sys2Proof.Machine
end

section
/-! A request that fails and the silent streak of its position (R53, R54). -/

namespace Sys2Proof.Machine

/-! ### Raising the record of a site that has none (R154, R157) -/

section
variable {S : Site → Prop}

theorem insertFault_touches {s : State} {site : Site} {kind : FaultKind} {l : Option Nat} {first : Time} (hS : S site) :
    Touches S s (s.insertFault site kind l first) := by
  unfold State.insertFault
  refine (withFaults_touches fun r hr => ?_).trans (markListed_touches hS)
  have hne : r.site ≠ site := fun he => hr (he ▸ hS)
  simp only [List.mem_append, List.mem_singleton, or_iff_left_iff_imp]
  rintro rfl
  exact absurd rfl hne

/-- Where the raise takes the place of another record, its site is among those touched too (R157). -/
theorem raiseFault_touches {s : State} {site : Site} {kind : FaultKind} {l : Option Nat} (hS : ∀ x, S x) :
    Touches S s (s.raiseFault site kind l s) := by
  unfold State.raiseFault
  split
  · split
    · exact changeFault_touches (fun _ => rfl) (hS site)
    · exact .refl s
  · split
    · exact insertFault_touches (hS site)
    · split
      · exact (removeFault_touches (hS _)).trans (insertFault_touches (hS site))
      · exact .refl s

end

@[simp] theorem State.raiseSilent_train (s : State) (p : Pos) : (s.raiseSilent p).train = s.train :=
  State.raiseFault_train rfl _ _ _

/-- A raise changes a cell's listed flag alone (R6, R157). -/
theorem State.raiseFault_cell (s : State) (site : Site) (kind : FaultKind) (l : Option Nat) (k : CellKey) :
    (s.raiseFault site kind l s).cell k = { s.cell k with listed := ((s.raiseFault site kind l s).cell k).listed } := by
  unfold State.raiseFault
  split
  · split <;> rfl
  · split
    · exact State.insertFault_cell _ _ _ _ _ _
    · split
      · next x _ =>
        rw [State.insertFault_cell, State.removeFault_cell]
      · rfl

/-- With a place free, the raise of SILENT_MODULE inserts a record of severity 3 with the position's serial (R54, R152). -/
theorem State.raiseSilent_inserts {s : State} {p : Pos} (hn : s.faultAt (.module p) = none)
    (hl : s.faults.records.length < 24) : ∃ y ∈ (s.raiseSilent p).faults.records, y.site = .module p ∧
      y.kind = .silentModule ∧ y.severity = 3 ∧ y.state = .activeUnack ∧ y.serial = (s.record p).bind PosRecord.serial := by
  have hins : s.raiseSilent p = s.insertFault (.module p) .silentModule none s.now := by
    simp only [State.raiseSilent, State.raiseFault, hn]
    exact if_pos hl
  rw [hins, State.insertFault_records]
  exact ⟨_, List.mem_append_right _ (List.mem_singleton_self _), rfl, rfl, rfl, rfl, rfl⟩

/-! ### The cells beside a position (R54, R138) -/

/-- A cell once SILENT is its hold reason; an ABSENT one takes none (R4). -/
def Cell.silenced (c : Cell) : Cell := if c.state = .absent then c else { c with hold := some .silent }

/-- k is a lamp cell of p or a segment cell beside it. -/
def CellKey.beside (p : Pos) (k : CellKey) : Prop :=
  ∃ f, k = .lamp p f ∨ k = .segment p.castSucc f ∨ k = .segment p.succ f

theorem Cell.silenced_silenced (c : Cell) : c.silenced.silenced = c.silenced := by
  by_cases h : c.state = .absent <;> simp [Cell.silenced, h]

theorem State.holdCell_silent (s : State) (j k : CellKey) :
    (s.holdCell j .silent).cell k = if k = j then (s.cell k).silenced else s.cell k := by
  unfold State.holdCell Cell.silenced
  by_cases hk : k = j
  · subst hk
    rw [if_pos rfl]
    split
    · rfl
    · exact State.setCell_same _ _ _
  · rw [if_neg hk]
    split
    · rfl
    · exact State.setCell_other hk

theorem State.holdCell_silences {s : State} {j k : CellKey} {c : Cell} (h : s.cell k = c ∨ s.cell k = c.silenced) :
    (s.holdCell j .silent).cell k = c ∨ (s.holdCell j .silent).cell k = c.silenced := by
  rw [State.holdCell_silent]
  split
  · rcases h with h | h
    · exact .inr (by rw [h])
    · exact .inr (by rw [h, Cell.silenced_silenced])
  · exact h

theorem State.holdCell_keeps_silenced {s : State} {j k : CellKey} {c : Cell} (h : s.cell k = c.silenced) :
    (s.holdCell j .silent).cell k = c.silenced := by
  rw [State.holdCell_silent, h, Cell.silenced_silenced, ite_self]

theorem State.holdCell_self {s : State} {k : CellKey} {c : Cell} (h : s.cell k = c ∨ s.cell k = c.silenced) :
    (s.holdCell k .silent).cell k = c.silenced := by
  rw [State.holdCell_silent, if_pos rfl]
  rcases h with h | h
  · rw [h]
  · rw [h, Cell.silenced_silenced]

theorem State.holdSilent_beside {s : State} {p : Pos} {k : CellKey} (hk : k.beside p) :
    (s.holdSilent p).cell k = (s.cell k).silenced := by
  obtain ⟨f, hf⟩ := hk
  refine foldl_establishes (P := fun u => u.cell k = (s.cell k).silenced)
    (Q := fun u => u.cell k = s.cell k ∨ u.cell k = (s.cell k).silenced)
    (fun _ _ h => State.holdCell_silences (State.holdCell_silences (State.holdCell_silences h)))
    (fun _ _ _ h => State.holdCell_keeps_silenced (State.holdCell_keeps_silenced (State.holdCell_keeps_silenced h)))
    (fun u h => ?_) (mem_functions f) (.inl rfl)
  rcases hf with rfl | rfl | rfl
  · exact State.holdCell_keeps_silenced (State.holdCell_keeps_silenced (State.holdCell_self h))
  · exact State.holdCell_keeps_silenced (State.holdCell_self (State.holdCell_silences h))
  · exact State.holdCell_self (State.holdCell_silences (State.holdCell_silences h))

theorem holdSilent_touches_beside (s : State) (p : Pos) :
    Touches (fun x => ∃ k : CellKey, k.beside p ∧ x = .cell k) s (s.holdSilent p) :=
  holdSilent_touches (fun f => ⟨_, ⟨f, .inl rfl⟩, rfl⟩)
    fun f => ⟨⟨_, ⟨f, .inr (.inl rfl)⟩, rfl⟩, ⟨_, ⟨f, .inr (.inr rfl)⟩, rfl⟩⟩

theorem State.holdSilent_away {s : State} {p : Pos} {k : CellKey} (hk : ¬ k.beside p) :
    (s.holdSilent p).cell k = s.cell k :=
  (holdSilent_touches_beside s p).cells k (by simpa using hk)

/-! ### A request for an enumeration -/

/-- s with another phase of the Enumerator, queue and counts: what a request for an enumeration can change (R42, R81). -/
structure AsksFor (s t : State) : Prop where
  rest : ((t.withEnumerator s.enumerator).withScheduler s.scheduler).withCounters s.counters = s
  slot : t.scheduler.slot = s.scheduler.slot
  tag : t.scheduler.tag = s.scheduler.tag
  coupled : t.enumerator.coupled = s.enumerator.coupled
  counters : s.scheduler.queue.length < 8 → t.counters = s.counters

theorem withScheduler_asks {s : State} {x : Scheduler} {c : Vector Counter 4} (hslot : x.slot = s.scheduler.slot)
    (htag : x.tag = s.scheduler.tag) (hc : s.scheduler.queue.length < 8 → c = s.counters) :
    AsksFor s ((s.withScheduler x).withCounters c) where
  rest := by cases s; rfl
  slot := hslot
  tag := htag
  coupled := rfl
  counters := hc

/-- An ENUMERATE entry placed, or waiting for a place; one that displaces a QUERY is counted (R81). -/
theorem State.placeEnumerate_eq (s : State) : ∃ q b c, s.placeEnumerate = (s.withScheduler
    { s.scheduler with queue := q, enumerateWaiting := b }).withCounters c ∧
      (s.scheduler.queue.length < 8 → c = s.counters) := by
  unfold State.placeEnumerate
  split
  · exact ⟨⟨.enumerate, s.now⟩ :: s.scheduler.queue, s.scheduler.enumerateWaiting, s.counters, rfl, fun _ => rfl⟩
  · next hfull =>
    have hl : ¬ s.scheduler.queue.length < 8 := by
      simpa [State.queueFull, Config.queuePlaces] using of_decide_eq_true (not_not.mp hfull)
    split
    · next left p _ =>
      rw [State.countEvent_eq]
      exact ⟨⟨.enumerate, s.now⟩ :: left, s.scheduler.enumerateWaiting, _, rfl, fun h => absurd h hl⟩
    · exact ⟨s.scheduler.queue, true, s.counters, rfl, fun _ => rfl⟩

theorem placeEnumerate_asks (s : State) : AsksFor s s.placeEnumerate ∧ s.placeEnumerate.enumerator = s.enumerator := by
  obtain ⟨q, b, c, heq, hc⟩ := s.placeEnumerate_eq
  rw [heq]
  exact ⟨withScheduler_asks rfl rfl hc, rfl⟩

theorem requestEnumeration_asks (s : State) : AsksFor s s.requestEnumeration ∧
    (s.ignition.part ≠ .asleep → s.enumerator.coupled = true → s.requestEnumeration.enumerator.phase =
      if s.enumerator.phase = .idle then .pending else s.enumerator.phase) := by
  unfold State.requestEnumeration
  split
  · next h =>
    obtain ⟨hplaced, henumerator⟩ := placeEnumerate_asks (s.withEnumPhase .pending)
    refine ⟨⟨?_, hplaced.slot, hplaced.tag, hplaced.coupled, hplaced.counters⟩, fun _ _ => ?_⟩
    · have hrest := hplaced.rest
      generalize (s.withEnumPhase .pending).placeEnumerate = t at hrest
      calc ((t.withEnumerator s.enumerator).withScheduler s.scheduler).withCounters s.counters
        _ = (((t.withEnumerator (s.withEnumPhase .pending).enumerator).withScheduler
              (s.withEnumPhase .pending).scheduler).withCounters (s.withEnumPhase .pending).counters).withEnumerator
                s.enumerator := rfl
        _ = (s.withEnumPhase .pending).withEnumerator s.enumerator := by rw [hrest]
        _ = s := rfl
    · rw [henumerator, if_pos h.2.2]
      rfl
  · next h =>
    refine ⟨⟨rfl, rfl, rfl, rfl, fun _ => rfl⟩, fun ha hc => ?_⟩
    rw [if_neg fun hp => h ⟨State.awake_iff.mpr ha, hc, hp⟩]

/-! ### The failed request and the streak (R53) -/

/-- A position with record r falls SILENT when one more request to it fails (R53). -/
def PosRecord.falls (r : PosRecord) : Prop := r.state = .present ∧ 2 ≤ r.streak

/-- Record r after one more failed request (R53, R54). -/
def PosRecord.unanswered (r : PosRecord) : PosRecord :=
  { r with streak := min 3 (r.streak + 1), state := if r.state = .present ∧ 2 ≤ r.streak then .silent else r.state }

/-- The blocks in which the failure of a request does not show in its position are the same in u and v. -/
structure Alike (u v : State) : Prop where
  clock : v.clock = u.clock
  intake : v.intake = u.intake
  sense : v.sense = u.sense
  link : v.link = u.link
  health : v.health = u.health
  attention : v.attention = u.attention
  apply : v.apply = u.apply
  report : v.report = u.report
  ignition : v.ignition = u.ignition

theorem Alike.trans {s t u : State} (h : Alike s t) (g : Alike t u) : Alike s u :=
  ⟨g.clock.trans h.clock, g.intake.trans h.intake, g.sense.trans h.sense, g.link.trans h.link, g.health.trans h.health,
    g.attention.trans h.attention, g.apply.trans h.apply, g.report.trans h.report, g.ignition.trans h.ignition⟩

theorem Touches.alike {S : Site → Prop} {s t : State} (h : Touches S s t) : Alike s t :=
  ⟨h.clock, h.intake, h.sense, h.link, h.health, h.attention, h.apply, h.report, h.ignition⟩

theorem AsksFor.alike {s t : State} (h : AsksFor s t) : Alike s t :=
  ⟨congrArg (·.clock) h.rest, congrArg (·.intake) h.rest, congrArg (·.sense) h.rest, congrArg (·.link) h.rest,
    congrArg (·.health) h.rest, congrArg (·.attention) h.rest, congrArg (·.apply) h.rest, congrArg (·.report) h.rest,
    congrArg (·.ignition) h.rest⟩

theorem AsksFor.train {s t : State} (h : AsksFor s t) : t.train = s.train := congrArg (·.train) h.rest
theorem AsksFor.cells {s t : State} (h : AsksFor s t) : t.cells = s.cells := congrArg (·.cells) h.rest
theorem AsksFor.faults {s t : State} (h : AsksFor s t) : t.faults = s.faults := congrArg (·.faults) h.rest

/-- v is u once a request to p, whose record is r, has failed (R53, R54). -/
structure Unanswered (u v : State) (p : Pos) (r : PosRecord) : Prop where
  alike : Alike u v
  slot : v.scheduler.slot = u.scheduler.slot
  tag : v.scheduler.tag = u.scheduler.tag
  counters : u.scheduler.queue.length < 8 → v.counters = u.counters
  record : ∀ q, v.record q = if q = p then some r.unanswered else u.record q
  raised : (r.falls ∨ r.state = .silent) → u.faults.records.length < 24 → u.faultAt (.module p) = none →
    ∃ y ∈ v.faults.records, y.site = .module p ∧ y.kind = .silentModule ∧ y.severity = 3 ∧ y.state = .activeUnack ∧
      y.serial = r.serial
  asked : r.falls → u.ignition.part ≠ .asleep → u.enumerator.coupled = true →
    v.enumerator.phase = if u.enumerator.phase = .idle then .pending else u.enumerator.phase
  linkState : r.falls → v.train.linkState = if u.enumerator.coupled = true then
    (if ∃ q, v.posState q = some .present then .live else .down) else .noTrain
  stands : ¬ r.falls → v.enumerator.phase = u.enumerator.phase ∧ v.train.linkState = u.train.linkState
  silenced : r.falls → ∀ k : CellKey, k.beside p → v.cell k = { (u.cell k).silenced with listed := (v.cell k).listed }
  cells : ∀ k : CellKey, (r.falls → (∀ f, k ≠ .line f) ∧ ¬ k.beside p) →
    v.cell k = { u.cell k with listed := (v.cell k).listed }

theorem State.changeRecord_mapped {s : State} {p : Pos} {r : PosRecord} (h : s.record p = some r)
    (g : PosRecord → PosRecord) : s.changeRecord p g = s.setRecord p (some (g r)) := by rw [State.changeRecord, h]

theorem State.setRecord_setRecord (s : State) (p : Pos) (a b : Option PosRecord) :
    (s.setRecord p a).setRecord p b = s.setRecord p b := by
  simp [State.setRecord, State.withTrain]

theorem State.setRecord_same (s : State) (p : Pos) (r : Option PosRecord) : (s.setRecord p r).record p = r := by
  rw [State.setRecord_record, if_pos rfl]

/-- What a request to a mapped position does that fails: the streak alone, or the fall to SILENT, or its record raised
again (R53). -/
theorem State.unanswered_eq {s : State} {p : Pos} {r : PosRecord} (h : s.record p = some r) :
    (r.falls → s.unanswered p =
      ((((s.setRecord p (some r.unanswered)).raiseSilent p).holdSilent p).requestEnumeration).refreshLink) ∧
    (¬ r.falls → s.unanswered p = if r.state = .silent ∧ s.faultAt (.module p) = none then
      (s.setRecord p (some r.unanswered)).raiseSilent p else s.setRecord p (some r.unanswered)) := by
  have hcount : s.countSilence p = s.setRecord p (some { r with streak := min 3 (r.streak + 1) }) :=
    State.changeRecord_mapped h _
  have hstreak : min 3 (r.streak + 1) = 3 ↔ 2 ≤ r.streak := by omega
  simp only [State.unanswered, hcount, State.setRecord_same]
  refine ⟨fun ⟨hp, hs⟩ => ?_, fun hf => ?_⟩
  · simp only [hp, hstreak, hs, if_true, State.becomeSilent,
      State.changeRecord_mapped (State.setRecord_same s p _), State.setRecord_setRecord]
    simp [PosRecord.unanswered, hp, hs]
  · have hstays : r.unanswered = { r with streak := min 3 (r.streak + 1) } := by
      exact congrArg (fun x => ({ r with streak := min 3 (r.streak + 1), state := x } : PosRecord)) (if_neg hf)
    rw [hstays]
    cases hstate : r.state with
    | present =>
      have : ¬ 2 ≤ r.streak := fun hs => hf ⟨hstate, hs⟩
      simp [hstreak, this]
    | silent =>
      simp only [true_and, Option.isNone_iff_eq_none]
      rfl
    | lost => simp

/-- A raise of SILENT_MODULE as p counts a failure, with a place free and no record of it yet. -/
theorem raiseSilent_raises {u v : State} {p : Pos} {r : PosRecord} (hv : v = u.setRecord p (some r.unanswered))
    (hl : u.faults.records.length < 24) (hn : u.faultAt (.module p) = none) :
    ∃ y ∈ (v.raiseSilent p).faults.records, y.site = .module p ∧ y.kind = .silentModule ∧ y.severity = 3 ∧
      y.state = .activeUnack ∧ y.serial = r.serial := by
  subst hv
  obtain ⟨y, hy, hsite, hkind, hsev, hstate, hserial⟩ :=
    State.raiseSilent_inserts (s := u.setRecord p (some r.unanswered)) hn hl
  refine ⟨y, hy, hsite, hkind, hsev, hstate, hserial.trans ?_⟩
  rw [State.setRecord_same]
  rfl

/-- The streak of p counted with no change of its state, its record raised again or not. -/
theorem unanswered_stays {u : State} {p : Pos} {r : PosRecord} (hr : u.record p = some r) (hf : ¬ r.falls) :
    Unanswered u (u.unanswered p) p r := by
  obtain ⟨v, hv⟩ : ∃ v, v = u.setRecord p (some r.unanswered) := ⟨_, rfl⟩
  have hset : Touches (fun _ => True) u v := hv ▸ setRecord_touches u p _
  have hrecord (q : Pos) : v.record q = if q = p then some r.unanswered else u.record q := by
    rw [hv, State.setRecord_record]
  have hlink : v.train.linkState = u.train.linkState := by rw [hv]; rfl
  have hcells : v.cells = u.cells := by rw [hv]; rfl
  rw [(State.unanswered_eq hr).2 hf, ← hv]
  split
  · have hraise : Touches (fun _ => True) v (v.raiseSilent p) := raiseFault_touches fun _ => trivial
    have hall := hset.trans hraise
    exact {
      alike := hall.alike
      slot := congrArg _ hall.scheduler
      tag := congrArg _ hall.scheduler
      counters := fun _ => hall.counters
      record := fun q => (State.record_of_train (v.raiseSilent_train p) q).trans (hrecord q)
      raised := fun _ hl hn => raiseSilent_raises hv hl hn
      asked := fun h => absurd h hf
      linkState := fun h => absurd h hf
      stands := fun _ => ⟨congrArg _ hall.enumerator, by rw [State.raiseSilent_train, hlink]⟩
      silenced := fun h => absurd h hf
      cells := fun k _ => by rw [State.raiseSilent, State.raiseFault_cell, State.cell_of_cells hcells] }
  · next hno =>
    exact {
      alike := hset.alike
      slot := congrArg _ hset.scheduler
      tag := congrArg _ hset.scheduler
      counters := fun _ => hset.counters
      record := hrecord
      raised := fun h _ hn => absurd ⟨h.resolve_left hf, hn⟩ hno
      asked := fun h => absurd h hf
      linkState := fun h => absurd h hf
      stands := fun _ => ⟨congrArg _ hset.enumerator, hlink⟩
      silenced := fun h => absurd h hf
      cells := fun k _ => by rw [State.cell_of_cells hcells] }

theorem CellKey.line_not_beside (p : Pos) (f : Func) : ¬ (CellKey.line f).beside p := by
  simp [CellKey.beside]

/-- Position p falls SILENT. -/
theorem unanswered_falls {u : State} {p : Pos} {r : PosRecord} (hr : u.record p = some r) (hf : r.falls) :
    Unanswered u (u.unanswered p) p r := by
  obtain ⟨v, hv⟩ : ∃ v, v = u.setRecord p (some r.unanswered) := ⟨_, rfl⟩
  obtain ⟨a, ha⟩ : ∃ a, a = v.raiseSilent p := ⟨_, rfl⟩
  obtain ⟨b, hb⟩ : ∃ b, b = a.holdSilent p := ⟨_, rfl⟩
  obtain ⟨c, hc⟩ : ∃ c, c = b.requestEnumeration := ⟨_, rfl⟩
  obtain ⟨d, hd⟩ : ∃ d, d = c.refreshLink := ⟨_, rfl⟩
  have heq : u.unanswered p = d := by rw [(State.unanswered_eq hr).1 hf, ← hv, ← ha, ← hb, ← hc, ← hd]
  have hset : Touches (fun _ => True) u v := hv ▸ setRecord_touches u p _
  have hraise : Touches (fun _ => True) v a := ha ▸ raiseFault_touches fun _ => trivial
  have hhold : Touches (fun x => ∃ k : CellKey, k.beside p ∧ x = .cell k) a b := hb ▸ holdSilent_touches_beside a p
  have hasks : AsksFor b c := hc ▸ (requestEnumeration_asks b).1
  have hlines : Touches (fun x => ∃ f, x = .cell (.line f)) c d := hd ▸ setLinkState_touches fun f => ⟨f, rfl⟩
  have hub : Touches (fun _ => True) u b := (hset.trans hraise).trans (hhold.mono fun _ _ => trivial)
  have htrain : d.train = { v.train with linkState := c.linkStateNow } := by
    rw [hd, State.refreshLink, State.setLinkState_train, hasks.train, hb, State.holdSilent_train, ha, State.raiseSilent_train]
  have hrecord (q : Pos) : d.record q = if q = p then some r.unanswered else u.record q := by
    rw [← State.setRecord_record u p q, ← hv, State.record, htrain, State.record]
  have hcell (k : CellKey) (hk : ∀ f, k ≠ .line f) : d.cell k = b.cell k :=
    (hlines.cells k (by simpa using hk)).trans (State.cell_of_cells hasks.cells k)
  have ha_cell (k : CellKey) : a.cell k = { u.cell k with listed := (a.cell k).listed } := by
    rw [ha, State.raiseSilent, State.raiseFault_cell, hv]
    rfl
  have hcoupled : c.enumerator.coupled = u.enumerator.coupled := hasks.coupled.trans (congrArg _ hub.enumerator)
  rw [heq]
  exact {
    alike := (hub.alike.trans hasks.alike).trans hlines.alike
    slot := by rw [hlines.scheduler, hasks.slot, hub.scheduler]
    tag := by rw [hlines.scheduler, hasks.tag, hub.scheduler]
    counters := fun hq => by rw [hlines.counters, hasks.counters (by rwa [hub.scheduler]), hub.counters]
    record := hrecord
    raised := fun _ hl hn => by
      obtain ⟨y, hy, hsite, hkind⟩ := raiseSilent_raises hv hl hn
      refine ⟨y, ?_, hsite, hkind⟩
      rw [hlines.records y (by simp [hsite]), hasks.faults, hhold.records y (by simp [hsite]), ha]
      exact hy
    asked := fun _ hawake hcpl => by
      rw [hlines.enumerator, hc, (requestEnumeration_asks b).2 (by rwa [hub.ignition]) (by rwa [hub.enumerator]),
        hub.enumerator]
    linkState := fun _ => by
      have hpos (q : Pos) : d.posState q = c.posState q := by
        rw [State.posState, State.posState, State.record, htrain, State.record, hasks.train, hb, State.holdSilent_train, ha,
          State.raiseSilent_train]
      rw [htrain]
      simp only [State.linkStateNow, hcoupled, State.somePosition_iff, hpos]
      split_ifs <;> simp_all
    stands := fun h => absurd hf h
    silenced := fun _ k hk => by
      have hline (f : Func) : k ≠ .line f := by
        rintro rfl
        exact CellKey.line_not_beside p f hk
      rw [hcell k hline, hb, State.holdSilent_beside hk, ha_cell k]
      simp only [Cell.silenced]
      split <;> rfl
    cells := fun k hk => by
      obtain ⟨hline, hbeside⟩ := hk hf
      rw [hcell k hline, hb, State.holdSilent_away hbeside, ha_cell k] }

/-- A failed request to a mapped position (R53). -/
theorem State.unanswered_mapped {u : State} {p : Pos} {r : PosRecord} (hr : u.record p = some r) :
    Unanswered u (u.unanswered p) p r := by
  by_cases hf : r.falls
  · exact unanswered_falls hr hf
  · exact unanswered_stays hr hf

/-- A failed request to a position that is not mapped leaves everything (R53). -/
theorem State.unanswered_unmapped {u : State} {p : Pos} (hr : u.record p = none) : u.unanswered p = u := by
  have hcount : u.countSilence p = u := by rw [State.countSilence, State.changeRecord, hr]
  rw [State.unanswered, hcount, hr]

end Sys2Proof.Machine
end

section
/-! The end of a wait in a PROFILE_APPLY (R66 to R70): the flagged entries of a position carried out, the position
persisted, and the apply that goes on or completes. -/

namespace Sys2Proof.Machine

/-! ### A record carried out entry by entry (R66) -/

/-- Record r once its flagged entry for f is carried out. -/
def PosRecord.carried (r : PosRecord) (f : Func) : PosRecord :=
  match r.changed[f], r.staged[f] with
  | true, some x =>
    { r with
      staged := r.staged.set f none, changed := r.changed.set f false, source := .staged
      applied := r.applied.set f (some x) }
  | _, _ => r

/-- Function f of record r has nothing to carry out. -/
def PosRecord.Unflagged (r : PosRecord) (f : Func) : Prop := r.changed[f] = false ∨ r.staged[f] = none

/-- y is record r with the flagged entries of the functions in F carried out. -/
structure PosRecord.CarriedFor (F : Func → Prop) (r y : PosRecord) : Prop where
  flagged : ∀ (f : Func) (q : Profile), F f → r.changed[f] = true → r.staged[f] = some q →
    y.applied[f] = some q ∧ y.staged[f] = none ∧ y.changed[f] = false ∧ y.source = .staged
  others : ∀ f : Func, (F f → r.Unflagged f) →
    y.applied[f] = r.applied[f] ∧ y.staged[f] = r.staged[f] ∧ y.changed[f] = r.changed[f]
  source : (∀ f, F f → r.Unflagged f) → y.source = r.source
  staged : r.source = .staged → y.source = .staged
  rest : y.serial = r.serial ∧ y.kind = r.kind ∧ y.coupledAt = r.coupledAt
  state : y.state = r.state
  streak : y.streak = r.streak

theorem PosRecord.unflagged_or (r : PosRecord) (f : Func) :
    r.Unflagged f ∨ ∃ q, r.changed[f] = true ∧ r.staged[f] = some q := by
  unfold PosRecord.Unflagged
  cases r.changed[f] <;> cases r.staged[f] <;> simp

theorem PosRecord.CarriedFor.refl (r : PosRecord) : r.CarriedFor (fun _ => False) r :=
  ⟨fun _ _ h => h.elim, fun _ _ => ⟨rfl, rfl, rfl⟩, fun _ => rfl, id, ⟨rfl, rfl, rfl⟩, rfl, rfl⟩

theorem PosRecord.Unflagged.of_eq {r y : PosRecord} {f : Func} (h : r.Unflagged f) (hs : y.staged[f] = r.staged[f])
    (hc : y.changed[f] = r.changed[f]) : y.Unflagged f := by
  unfold PosRecord.Unflagged
  rwa [hs, hc]

theorem PosRecord.CarriedFor.trans {F G : Func → Prop} {r y z : PosRecord} (h : r.CarriedFor F y)
    (g : y.CarriedFor G z) : r.CarriedFor (fun f => F f ∨ G f) z where
  flagged f q hf hc hs := by
    by_cases hF : F f
    · obtain ⟨happlied, hstaged, hchanged, hsource⟩ := h.flagged f q hF hc hs
      obtain ⟨ha, hs', hc'⟩ := g.others f fun _ => .inr hstaged
      exact ⟨ha.trans happlied, hs'.trans hstaged, hc'.trans hchanged, g.staged hsource⟩
    · obtain ⟨-, hstaged, hchanged⟩ := h.others f fun hF' => absurd hF' hF
      exact g.flagged f q (hf.resolve_left hF) (hchanged.trans hc) (hstaged.trans hs)
  others f hf := by
    obtain ⟨happlied, hstaged, hchanged⟩ := h.others f fun hF => hf (.inl hF)
    obtain ⟨ha, hs, hc⟩ := g.others f fun hG => (hf (.inr hG)).of_eq hstaged hchanged
    exact ⟨ha.trans happlied, hs.trans hstaged, hc.trans hchanged⟩
  source hf := by
    have hsource := h.source fun f hF => hf f (.inl hF)
    refine (g.source fun f hG => ?_).trans hsource
    obtain ⟨-, hstaged, hchanged⟩ := h.others f fun hF => hf f (.inl hF)
    exact (hf f (.inr hG)).of_eq hstaged hchanged
  staged hs := g.staged (h.staged hs)
  rest := ⟨g.rest.1.trans h.rest.1, g.rest.2.1.trans h.rest.2.1, g.rest.2.2.trans h.rest.2.2⟩
  state := g.state.trans h.state
  streak := g.streak.trans h.streak

theorem PosRecord.carried_unflagged {r : PosRecord} {f : Func} (h : r.Unflagged f) : r.carried f = r := by
  unfold PosRecord.carried
  split
  · next x hc hs =>
    rcases h with h | h
    · rw [h] at hc; cases hc
    · rw [h] at hs; cases hs
  · rfl

theorem PosRecord.carried_flagged {r : PosRecord} {f : Func} {x : Profile} (hc : r.changed[f] = true)
    (hs : r.staged[f] = some x) : r.carried f =
      { r with
        staged := r.staged.set f none, changed := r.changed.set f false, source := .staged
        applied := r.applied.set f (some x) } := by
  rw [PosRecord.carried, hc, hs]

theorem vector_set_other {α : Type} {n : Nat} (v : Vector α n) {f g : Fin n} (x : α) (h : g ≠ f) :
    (v.set f x)[g] = v[g] := by
  have : ¬ f.val = g.val := fun he => h (Fin.ext he.symm)
  simp [this]

theorem PosRecord.carried_carriedFor (r : PosRecord) (f : Func) : r.CarriedFor (fun g => g = f) (r.carried f) := by
  rcases r.unflagged_or f with h | ⟨x, hc, hs⟩
  · rw [PosRecord.carried_unflagged h]
    refine ⟨fun g q hg hc hs => ?_, fun _ _ => ⟨rfl, rfl, rfl⟩, fun _ => rfl, id, ⟨rfl, rfl, rfl⟩, rfl, rfl⟩
    subst hg
    rcases h with h | h
    · rw [h] at hc; cases hc
    · rw [h] at hs; cases hs
  · rw [PosRecord.carried_flagged hc hs]
    refine ⟨fun g q hg hc' hs' => ?_, fun g hg => ?_, fun hall => ?_, fun _ => rfl, ⟨rfl, rfl, rfl⟩, rfl, rfl⟩
    · subst hg
      rw [hs] at hs'
      cases hs'
      simp
    · have hne : g ≠ f := by
        rintro rfl
        rcases hg rfl with h | h
        · rw [h] at hc; cases hc
        · rw [h] at hs; cases hs
      exact ⟨vector_set_other _ _ hne, vector_set_other _ _ hne, vector_set_other _ _ hne⟩
    · rcases hall f rfl with h | h
      · rw [h] at hc; cases hc
      · rw [h] at hs; cases hs

theorem PosRecord.CarriedFor.carriedOut {F : Func → Prop} {r y : PosRecord} (h : r.CarriedFor F y) (hF : ∀ f, F f) :
    r.CarriedOut y :=
  ⟨fun f q => h.flagged f q (hF f), fun f hf => h.others f fun _ => hf, fun hf => h.source fun f _ => hf f, h.rest⟩

/-! ### A position applied (R66, R68) -/

theorem Cell.resetFor_iff {set : Settings} {state : PosState} {q : Profile} {c : Cell} : c.ResetFor set state q ↔
    c = { state := .unverified, confirmed := none, candidate := none, count := 0, sample := none
          hold := if state = .present then none else some .silent
          resolvable := resolves q.n (toleranceOf set q), listed := c.listed, confirmedAt := none } := by
  unfold Cell.ResetFor resolves toleranceOf
  cases q.tol with
  | some n => exact Iff.rfl
  | none => cases q.tech <;> exact Iff.rfl

theorem State.resetForProfile_resets {s : State} {p : Pos} {f : Func} {q : Profile} {r : PosRecord}
    (hr : s.record p = some r) (ha : (s.cell (.lamp p f)).state ≠ .absent) :
    (s.resetForProfile p f q).faultAt (.cell (.lamp p f)) = none ∧
      Cell.ResetFor s.ignition.settings r.state q ((s.resetForProfile p f q).cell (.lamp p f)) := by
  have hpos : (s.removeFault (.cell (.lamp p f))).posState p = some r.state := by
    rw [State.posState_of_train (State.removeFault_train _ _), State.posState, hr]
    rfl
  have hhold : (if some r.state = some PosState.silent ∨ some r.state = some PosState.lost then some HoldReason.silent
      else none) = if r.state = .present then none else some .silent := by
    cases r.state <;> rfl
  rw [State.resetForProfile, if_neg ha]
  simp only [hpos, hhold, State.removeFault_ignition]
  refine ⟨State.removeFault_faultAt s (.cell (.lamp p f)), ?_⟩
  rw [State.setCell_same, Cell.resetFor_iff]
  rfl

/-- A flagged entry carried out: where it changes the applied profile, the lamp cell is reset (R66). -/
theorem State.carryOut_flagged {s : State} {p : Pos} {f : Func} {r : PosRecord} {x : Profile} (hr : s.record p = some r)
    (hc : r.changed[f] = true) (hs : r.staged[f] = some x) : s.carryOut p f =
      if r.applied[f] = some x then s.setRecord p (some (r.carried f))
      else (s.setRecord p (some (r.carried f))).resetForProfile p f x := by
  have happlied (g : PosRecord) : (s.setRecord p (some g)).appliedProfile p f = g.applied[f] := by
    rw [State.appliedProfile, State.setRecord_same]
  simp only [State.carryOut, hr, hc, hs, State.changeRecord_mapped hr, State.applyProfile, happlied,
    State.changeRecord_mapped (State.setRecord_same s p _), State.setRecord_setRecord, PosRecord.carried_flagged hc hs]
  split
  · next hsame =>
    have : r.applied.set f (some x) = r.applied := by
      rw [← hsame]
      simp
    rw [this]
  · rfl

/-- t is s with the flagged entries of p for the functions in l carried out, its record r before and y after. -/
structure CarriesOut (l : List Func) (s t : State) (p : Pos) (r y : PosRecord) : Prop where
  record : ∀ q, t.record q = if q = p then some y else s.record q
  linkState : t.train.linkState = s.train.linkState
  carried : r.CarriedFor (fun f => f ∈ l) y
  touches : Touches (fun x => ∃ f ∈ l, (∃ q, r.Changes f q) ∧ x = .cell (.lamp p f)) s t
  reset : ∀ f ∈ l, ∀ q, r.Changes f q → (s.cell (.lamp p f)).state ≠ .absent →
    t.faultAt (.cell (.lamp p f)) = none ∧ Cell.ResetFor s.ignition.settings r.state q (t.cell (.lamp p f))

theorem State.carryOut_carriesOut {s : State} {p : Pos} (f : Func) {r : PosRecord} (hr : s.record p = some r) :
    CarriesOut [f] s (s.carryOut p f) p r (r.carried f) := by
  have hcarried : r.CarriedFor (fun g => g ∈ [f]) (r.carried f) := by
    simpa only [List.mem_singleton] using r.carried_carriedFor f
  have hset (q : Pos) : (s.setRecord p (some (r.carried f))).record q = if q = p then some (r.carried f) else s.record q :=
    State.setRecord_record s p q _
  rcases r.unflagged_or f with h | ⟨x, hc, hs⟩
  · have hsame : s.carryOut p f = s := by
      unfold State.carryOut
      rw [hr]
      dsimp only
      split
      · next x hc hs =>
        rcases h with h | h
        · rw [h] at hc; cases hc
        · rw [h] at hs; cases hs
      · rfl
    have hno (q : Profile) : ¬ r.Changes f q := fun ⟨hc, hs, _⟩ => by
      rcases h with h | h
      · rw [h] at hc; cases hc
      · rw [h] at hs; cases hs
    rw [hsame]
    refine ⟨fun q => ?_, rfl, hcarried, .refl s, fun g hg q hq => ?_⟩
    · rw [PosRecord.carried_unflagged h]
      split
      · next he => rw [he, hr]
      · rfl
    · rw [List.mem_singleton.mp hg] at hq
      exact absurd hq (hno q)
  · rw [State.carryOut_flagged hr hc hs]
    split
    · next hsame =>
      refine ⟨hset, rfl, hcarried, setRecord_touches s p _, fun g hg q hq => ?_⟩
      obtain ⟨-, hq, hne⟩ := hq
      rw [List.mem_singleton.mp hg] at hq hne
      rw [hs] at hq
      exact absurd (hsame.trans hq) hne
    · next hne =>
      have hchanges : r.Changes f x := ⟨hc, hs, hne⟩
      refine ⟨fun q => ?_, ?_, hcarried, (setRecord_touches s p _).trans
        (resetForProfile_touches ⟨f, List.mem_singleton_self f, ⟨x, hchanges⟩, rfl⟩), fun g hg q hq ha => ?_⟩
      · rw [State.record_of_train (State.resetForProfile_train _ _ _ _)]
        exact hset q
      · rw [State.resetForProfile_train]
        rfl
      · obtain rfl := List.mem_singleton.mp hg
        obtain ⟨-, hq, -⟩ := hq
        rw [hs] at hq
        cases hq
        have hstate : (r.carried g).state = r.state := hcarried.state
        rw [← hstate]
        exact State.resetForProfile_resets (s := s.setRecord p (some (r.carried g))) (State.setRecord_same s p _) ha

/-- Entries are carried out one function after the other, each at its own lamp cell. -/
theorem State.carryOut_foldl {l : List Func} (hl : l.Nodup) {s : State} {p : Pos} {r : PosRecord}
    (hr : s.record p = some r) : ∃ y, CarriesOut l s (l.foldl (fun t f => t.carryOut p f) s) p r y := by
  induction l generalizing s r with
  | nil =>
    refine ⟨r, fun q => ?_, rfl, by simpa using PosRecord.CarriedFor.refl r, .refl s, fun _ h => absurd h List.not_mem_nil⟩
    split
    · next he => rw [he, List.foldl_nil, hr]
    · rfl
  | cons g l ih =>
    obtain ⟨hg, hnodup⟩ := List.nodup_cons.mp hl
    have hone := s.carryOut_carriesOut g hr
    obtain ⟨y, hrest⟩ := ih hnodup (r := r.carried g) (by rw [hone.record, if_pos rfl])
    have hne {f : Func} (hf : f ∈ l) : f ≠ g := fun he => hg (he ▸ hf)
    have hsame {f : Func} (hf : f ∈ l) (q : Profile) : (r.carried g).Changes f q ↔ r.Changes f q := by
      obtain ⟨happlied, hstaged, hchanged⟩ := hone.carried.others f fun hm => absurd (List.mem_singleton.mp hm) (hne hf)
      rw [PosRecord.Changes, PosRecord.Changes, happlied, hstaged, hchanged]
    refine ⟨y, fun q => ?_, hrest.linkState.trans hone.linkState, ?_, ?_, fun f hf q hq ha => ?_⟩
    · rw [List.foldl_cons, hrest.record, hone.record]
      split <;> rfl
    · simpa only [List.mem_cons, List.not_mem_nil, or_false] using hone.carried.trans hrest.carried
    · refine (hone.touches.mono ?_).trans (hrest.touches.mono ?_)
      · rintro x ⟨f, hf, hq, hx⟩
        exact ⟨f, by simpa using .inl (List.mem_singleton.mp hf), hq, hx⟩
      · rintro x ⟨f, hf, ⟨q, hq⟩, hx⟩
        exact ⟨f, List.mem_cons_of_mem g hf, ⟨q, (hsame hf q).mp hq⟩, hx⟩
    · rw [List.foldl_cons]
      rcases List.mem_cons.mp hf with rfl | hf
      · obtain ⟨hnone, hreset⟩ := hone.reset f (List.mem_singleton_self f) q hq ha
        have haway : ¬ ∃ g ∈ l, (∃ q, (r.carried f).Changes g q) ∧ Site.cell (.lamp p f) = .cell (.lamp p g) := by
          rintro ⟨g, hgl, -, he⟩
          cases he
          exact hg hgl
        rw [hrest.touches.faultAt_none haway, hrest.touches.cells _ haway]
        exact ⟨hnone, hreset⟩
      · have haway : ¬ ∃ h ∈ [g], (∃ q, r.Changes h q) ∧ Site.cell (.lamp p f) = .cell (.lamp p h) := by
          rintro ⟨h, hh, -, he⟩
          cases he
          exact hne hf (List.mem_singleton.mp hh)
        have hset := hrest.reset f hf q ((hsame hf q).mpr hq) (by rwa [hone.touches.cells _ haway])
        rw [hone.touches.ignition, hone.carried.state] at hset
        exact hset

theorem State.applyPosition_carriesOut {s : State} {p : Pos} {r : PosRecord} (hr : s.record p = some r) :
    ∃ y, CarriesOut functions s (s.applyPosition p) p r y :=
  State.carryOut_foldl (by decide) hr

end Sys2Proof.Machine
end

section
/-! A position leaves the waiting set of an apply (R67, R70), and a request that fails as a whole (R53, R57, R89). -/

namespace Sys2Proof.Machine

/-! ### Persisting a position (R70) -/

theorem Library.stamp_holds {l : Library} {serial : Serial} {ps : Vector Profile 8}
    (h : ∃ e ∈ l.entries, e.serial = serial ∧ e.profiles = ps) :
    ∃ e ∈ (l.stamp serial).entries, e.serial = serial ∧ e.profiles = ps := by
  obtain ⟨e, he, hserial, hprofiles⟩ := h
  exact ⟨_, List.mem_map_of_mem he, by rw [if_pos hserial]; exact hserial, by rw [if_pos hserial]; exact hprofiles⟩

/-- What is written under a serial is held under it (R70). -/
theorem Library.write_holds (l : Library) (kept : List Serial) (serial : Serial) (ps : Vector Profile 8) :
    ∃ e ∈ (l.write kept serial ps).entries, e.serial = serial ∧ e.profiles = ps := by
  unfold Library.write
  split
  · next x hx =>
    have hmem : x ∈ l.entries := List.mem_of_find?_eq_some hx
    have hserial : x.serial = serial := by simpa using List.find?_some hx
    refine Library.stamp_holds ⟨_, List.mem_map_of_mem hmem, ?_⟩
    rw [if_pos hserial]
    exact ⟨hserial, rfl⟩
  · exact Library.stamp_holds ⟨_, List.mem_append_right _ (List.mem_singleton_self _), rfl, rfl⟩

theorem PosRecord.knownProfiles_none {r : PosRecord} : r.knownProfiles = none ↔ ∃ f : Func, r.applied[f] = none := by
  unfold PosRecord.knownProfiles
  by_cases h : (functions.all fun f => (r.applied[f]).isSome) = true
  · rw [if_pos h]
    simp only [reduceCtorEq, false_iff, not_exists]
    intro f hf
    have := List.all_eq_true.mp h f (mem_functions f)
    simp [hf] at this
  · rw [if_neg h]
    simp only [true_iff]
    by_contra hn
    refine h (List.all_eq_true.mpr fun f _ => ?_)
    exact Option.isSome_iff_ne_none.mpr fun hf => hn ⟨f, hf⟩

theorem PosRecord.knownProfiles_some {r : PosRecord} {ps : Vector Profile 8} (h : r.knownProfiles = some ps) (f : Func) :
    r.applied[f] = some ps[f] := by
  have hknown : r.applied[f] ≠ none := fun hf => by
    rw [PosRecord.knownProfiles_none.mpr ⟨f, hf⟩] at h
    cases h
  obtain ⟨q, hq⟩ := Option.ne_none_iff_exists'.mp hknown
  unfold PosRecord.knownProfiles at h
  split at h
  · cases h
    simp only [Fin.getElem_fin, Vector.getElem_ofFn]
    rw [Fin.getElem_fin] at hq
    simp [hq]
  · cases h

/-- A position persisted: the Library holds its profiles, or it is skipped and counted as such. -/
theorem State.persistPosition_eq {s : State} {p : Pos} {y : PosRecord} (hy : s.record p = some y) :
    (y.Skipped → s.persistPosition p = s.withApply (s.apply.map fun a => { a with skipped := a.skipped + 1 })) ∧
    (¬ y.Skipped → ∃ lib : Library, lib.Holds y ∧ s.persistPosition p = s.withLibrary lib) := by
  simp only [State.persistPosition, hy, PosRecord.Skipped, ← PosRecord.knownProfiles_none]
  cases hserial : y.serial with
  | none => exact ⟨fun _ => rfl, fun h => absurd (.inl rfl) h⟩
  | some serial =>
    cases hknown : y.knownProfiles with
    | none => exact ⟨fun _ => rfl, fun h => absurd (.inr rfl) h⟩
    | some ps =>
      refine ⟨fun h => by simp at h, fun _ => ⟨_, ?_, rfl⟩⟩
      obtain ⟨e, he, heserial, heprofiles⟩ := s.ignition.library.write_holds s.trainSerials serial ps
      exact ⟨e, he, by rw [hserial, heserial], fun f => by rw [PosRecord.knownProfiles_some hknown f, heprofiles]⟩

/-! ### A REPLY that falls due -/

/-- The Report Unit once a deferred REPLY has fallen due (R173). -/
def Report.due (x : Report) (m : Message) : Report :=
  if x.transmit.length < Config.transmitPlaces ∧ x.deferred = [] then { x with transmit := x.transmit ++ [m] }
  else { x with deferred := x.deferred ++ [m] }

theorem State.fallDue_eq (s : State) (m : Message) : s.fallDue m = s.withReport (s.report.due m) := by
  unfold State.fallDue Report.due
  split <;> rfl

/-! ### Leaving the waiting set (R67) -/

/-- Position p leaves the waiting set of apply a; the apply goes on with the others, or is complete and answered. -/
theorem State.stopWaiting_eq {s : State} {a : Apply} (ha : s.apply = some a) (p : Pos) :
    let left := a.waiting.filter fun q => decide (q ≠ p)
    s.stopWaiting p = if left = [] then (s.withApply none).withReport (s.report.due (a.reply a.skipped))
      else s.withApply (some { a with waiting := left }) := by
  intro left
  simp only [State.stopWaiting, ha, Option.map_some, State.completeApply, State.withApply_apply]
  split
  · rw [State.replyApply, State.fallDue_eq]
    rfl
  · rfl

/-- t is s once the request to p that apply a waits for has ended, p's record r before and y after: p is applied, persisted
if the apply persists, and leaves the waiting set (R66, R67, R70). -/
structure EndsWait (s t : State) (p : Pos) (a : Apply) (r y : PosRecord) : Prop where
  applied : CarriesOut functions s (s.applyPosition p) p r y
  rest : t = (((s.applyPosition p).withLibrary t.ignition.library).withApply t.apply).withReport t.report
  persisted : a.persist = true → ¬ y.Skipped → t.ignition.library.Holds y
  kept : a.persist = false → t.ignition.library = s.ignition.library
  leaves : ∃ skipped : Nat,
    (a.persist = true ∧ y.Skipped → skipped = a.skipped + 1) ∧
    (¬ (a.persist = true ∧ y.Skipped) → skipped = a.skipped) ∧
    (a.waiting.filter (fun q => decide (q ≠ p)) ≠ [] →
      t.apply = some { a with waiting := a.waiting.filter fun q => decide (q ≠ p), skipped := skipped } ∧
        t.report = s.report) ∧
    (a.waiting.filter (fun q => decide (q ≠ p)) = [] →
      t.apply = none ∧ t.report = s.report.due (a.reply skipped))

/-- A position of apply a persisted where the apply persists: the Library and the skipped count that it leaves. -/
theorem State.persisted_eq {c : State} {p : Pos} {a : Apply} {y : PosRecord} (hy : c.record p = some y)
    (ha : c.apply = some a) : ∃ (lib : Library) (skipped : Nat),
    (if a.persist = true then c.persistPosition p else c) =
      (c.withLibrary lib).withApply (some { a with skipped := skipped }) ∧
    (a.persist = true → ¬ y.Skipped → lib.Holds y) ∧ (a.persist = false → lib = c.ignition.library) ∧
    (a.persist = true ∧ y.Skipped → skipped = a.skipped + 1) ∧
    (¬ (a.persist = true ∧ y.Skipped) → skipped = a.skipped) := by
  obtain ⟨hskipped, hheld⟩ := State.persistPosition_eq hy
  have hsame : c = (c.withLibrary c.ignition.library).withApply (some a) := by rw [← ha]; rfl
  by_cases hpersist : a.persist = true
  · rw [if_pos hpersist]
    by_cases hskip : y.Skipped
    · refine ⟨c.ignition.library, a.skipped + 1, ?_, fun _ h => absurd hskip h, fun _ => rfl, fun _ => rfl,
        fun h => absurd ⟨hpersist, hskip⟩ h⟩
      rw [hskipped hskip, ha]
      rfl
    · obtain ⟨lib, hlib, heq⟩ := hheld hskip
      refine ⟨lib, a.skipped, ?_, fun _ _ => hlib, fun h => by simp [h] at hpersist, fun h => absurd h.2 hskip,
        fun _ => rfl⟩
      rw [heq]
      calc c.withLibrary lib = (c.withLibrary lib).withApply c.apply := rfl
        _ = (c.withLibrary lib).withApply (some a) := by rw [ha]
  · rw [if_neg hpersist]
    exact ⟨c.ignition.library, a.skipped, hsame, fun h => absurd h hpersist, fun _ => rfl, fun h => absurd h.1 hpersist,
      fun _ => rfl⟩

theorem State.applyWaited_ends {s : State} {p : Pos} {a : Apply} {r : PosRecord} (hr : s.record p = some r)
    (ha : s.apply = some a) (hp : p ∈ a.waiting) : ∃ y, EndsWait s (s.applyWaited p) p a r y := by
  obtain ⟨y, hy⟩ := State.applyPosition_carriesOut hr
  have hwaits : s.applyWaits p = true := by rw [State.applyWaits, ha]; exact decide_eq_true hp
  have hwaited : s.applyWaited p =
      (if a.persist then (s.applyPosition p).persistPosition p else s.applyPosition p).stopWaiting p := by
    rw [State.applyWaited, if_pos hwaits, State.applyAndPersist, ha]
  obtain ⟨lib, skipped, heq, hholds, hkept, hcounted, hnot⟩ :=
    State.persisted_eq (by rw [hy.record, if_pos rfl]) (hy.touches.apply.trans ha)
  rw [hy.touches.ignition] at hkept
  have hreport := hy.touches.report
  refine ⟨y, ?_⟩
  rw [hwaited, heq, State.stopWaiting_eq rfl]
  obtain ⟨c, hc⟩ : ∃ c, c = s.applyPosition p := ⟨_, rfl⟩
  rw [← hc] at hy hreport ⊢
  dsimp only
  split
  · next hleft =>
    refine ⟨hc ▸ hy, ?_, hholds, hkept, skipped, hcounted, hnot, fun h => absurd hleft h, fun _ => ⟨rfl, ?_⟩⟩
    · rw [← hc]
      rfl
    · exact congrArg (fun x : Report => x.due (a.reply skipped)) hreport
  · next hleft =>
    refine ⟨hc ▸ hy, ?_, hholds, hkept, skipped, hcounted, hnot, fun _ => ⟨rfl, hreport⟩, fun h => absurd h hleft⟩
    rw [← hc]
    rfl

/-- Nothing waits on p. -/
theorem State.applyWaited_none {s : State} {p : Pos} (h : ∀ a, s.apply = some a → p ∉ a.waiting) :
    s.applyWaited p = s := by
  refine if_neg ?_
  unfold State.applyWaits
  split
  · simp
  · next a ha => simpa using h a ha

end Sys2Proof.Machine
end

section
/-! A request that fails after its last attempt (R53, R54, R57, R66 to R70, R89, R138, R188). -/

namespace Sys2Proof.Machine

/-! ### What its owner makes of the failure (R57, R89, R188) -/

/-- The health logic after the failure of a request: only a QUERY's reaches it, for its watch (R188). -/
def Health.failed (h : Health) (now : Time) : Sent → Health
  | .query _ _ =>
    match h.watch with
    | some _ => { h with watch := none, pending := some .reduced, hold := some (now + 30000) }
    | none => h
  | .profileReq _ => h
  | .posReset _ _ => h

theorem Health.failed_eq (h : Health) (now : Time) (x : Sent) : h.failed now x = match x, h.watch with
    | .query _ _, some _ => { h with watch := none, pending := some .reduced, hold := some (now + 30000) }
    | .query _ _, none => h
    | .profileReq _, _ => h
    | .posReset _ _, _ => h := by
  cases x with
  | query p mask =>
    unfold Health.failed
    cases h.watch <;> rfl
  | profileReq p => rfl
  | posReset p who => rfl

/-- The Report Unit after the failure of a request: a POS_RESET answers its master FAILED (R57). -/
def Report.failed (x : Report) : Sent → Report
  | .query _ _ => x
  | .profileReq _ => x
  | .posReset _ who => x.due ⟨.reply, [BitVec.ofNat 8 (9 + 16 * who.source.code), who.number, 8, 0, 0, 0], none⟩

theorem State.ownerFails_eq (s : State) (x : Sent) :
    s.ownerFails x = (s.withHealth (s.health.failed s.now x)).withReport (s.report.failed x) := by
  cases x with
  | query p mask =>
    simp only [State.ownerFails, State.failReturn, Health.failed, Report.failed]
    cases s.health.watch <;> rfl
  | profileReq p => rfl
  | posReset p who =>
    rw [State.ownerFails, State.replyPositionReset, State.fallDue_eq]
    rfl

theorem State.failed_report (s : State) (x : Sent) : (match x with
    | .query _ _ => s
    | .profileReq _ => s
    | .posReset _ who => s.fallDue
        ⟨.reply, [BitVec.ofNat 8 (9 + 16 * who.source.code), who.number, 8, 0, 0, 0], none⟩).report =
      s.report.failed x := by
  cases x with
  | query p mask => rfl
  | profileReq p => rfl
  | posReset p who => simp only [State.fallDue_eq, State.withReport_report, Report.failed]

/-! ### What an apply that waits makes of it (R67) -/

/-- t is s once the request to p has ended, whether or not an apply waits for it; the record of p is r before and y after. -/
structure Waited (s t : State) (p : Pos) (r y : PosRecord) : Prop where
  clock : t.clock = s.clock
  intake : t.intake = s.intake
  sense : t.sense = s.sense
  link : t.link = s.link
  health : t.health = s.health
  attention : t.attention = s.attention
  scheduler : t.scheduler = s.scheduler
  enumerator : t.enumerator = s.enumerator
  counters : t.counters = s.counters
  settings : t.ignition.settings = s.ignition.settings
  part : t.ignition.part = s.ignition.part
  record : ∀ q, t.record q = if q = p then some y else s.record q
  linkState : t.train.linkState = s.train.linkState
  state : y.state = r.state
  streak : y.streak = r.streak
  serial : y.serial = r.serial
  cells : ∀ k, (∀ a f q, s.apply = some a → p ∈ a.waiting → k = .lamp p f → ¬ r.Changes f q) → t.cell k = s.cell k
  records : ∀ x : FaultRecord, (∀ f, x.site ≠ .cell (.lamp p f)) → (x ∈ t.faults.records ↔ x ∈ s.faults.records)
  waits : ∀ a, s.apply = some a → p ∈ a.waiting → EndsWait s t p a r y
  idle : (∀ a, s.apply = some a → p ∉ a.waiting) → t = s ∧ y = r

theorem EndsWait.waited {s t : State} {p : Pos} {a : Apply} {r y : PosRecord} (h : EndsWait s t p a r y)
    (ha : s.apply = some a) (hp : p ∈ a.waiting) : Waited s t p r y := by
  have happlied := h.applied
  have hrest := h.rest
  generalize s.applyPosition p = c at happlied hrest
  have htouches := happlied.touches
  have htrain : t.train = c.train := congrArg (·.train) hrest
  have hcells : t.cells = c.cells := congrArg (·.cells) hrest
  have hfaults : t.faults = c.faults := congrArg (·.faults) hrest
  exact {
    clock := (congrArg (·.clock) hrest).trans htouches.clock
    intake := (congrArg (·.intake) hrest).trans htouches.intake
    sense := (congrArg (·.sense) hrest).trans htouches.sense
    link := (congrArg (·.link) hrest).trans htouches.link
    health := (congrArg (·.health) hrest).trans htouches.health
    attention := (congrArg (·.attention) hrest).trans htouches.attention
    scheduler := (congrArg (·.scheduler) hrest).trans htouches.scheduler
    enumerator := (congrArg (·.enumerator) hrest).trans htouches.enumerator
    counters := (congrArg (·.counters) hrest).trans htouches.counters
    settings := (congrArg (·.ignition.settings) hrest).trans (congrArg (·.settings) htouches.ignition)
    part := (congrArg (·.ignition.part) hrest).trans (congrArg (·.part) htouches.ignition)
    record := fun q => (State.record_of_train htrain q).trans (happlied.record q)
    linkState := (congrArg (·.linkState) htrain).trans happlied.linkState
    state := happlied.carried.state
    streak := happlied.carried.streak
    serial := happlied.carried.rest.1
    cells := fun k hk => (State.cell_of_cells hcells k).trans (htouches.cells k fun ⟨f, _, ⟨q, hq⟩, he⟩ =>
      hk a f q ha hp (Site.cell.inj he) hq)
    records := fun x hx => by
      rw [hfaults]
      exact htouches.records x fun ⟨f, _, _, he⟩ => hx f he
    waits := fun b hb hpb => by
      rw [ha] at hb
      cases hb
      exact h
    idle := fun hno => absurd hp (hno a ha) }

theorem State.applyWaited_waited {s : State} {p : Pos} {r : PosRecord} (hr : s.record p = some r) :
    ∃ y, Waited s (s.applyWaited p) p r y := by
  by_cases hw : ∃ a, s.apply = some a ∧ p ∈ a.waiting
  · obtain ⟨a, ha, hp⟩ := hw
    obtain ⟨y, hy⟩ := State.applyWaited_ends hr ha hp
    exact ⟨y, hy.waited ha hp⟩
  · have hno (a : Apply) (ha : s.apply = some a) : p ∉ a.waiting := fun hp => hw ⟨a, ha, hp⟩
    rw [State.applyWaited_none hno]
    refine ⟨r, rfl, rfl, rfl, rfl, rfl, rfl, rfl, rfl, rfl, rfl, rfl, fun q => ?_, rfl, rfl, rfl, rfl, fun _ _ => rfl,
      fun _ _ => Iff.rfl, fun a ha hp => absurd hp (hno a ha), fun _ => ⟨rfl, rfl⟩⟩
    split
    · next he => rw [he, hr]
    · rfl

/-- At a position that is not mapped, the end of a wait concerns the apply and its REPLY alone. -/
theorem State.applyWaited_unmapped {s : State} {p : Pos} (hr : s.record p = none) :
    ∃ A R, s.applyWaited p = (s.withApply A).withReport R := by
  by_cases hw : ∃ a, s.apply = some a ∧ p ∈ a.waiting
  · obtain ⟨a, ha, hp⟩ := hw
    have hwaits : s.applyWaits p = true := by rw [State.applyWaits, ha]; exact decide_eq_true hp
    have hcarry (f : Func) : s.carryOut p f = s := by rw [State.carryOut, hr]
    have happly : s.applyPosition p = s := foldl_closed (P := fun u => u = s) (fun u f hu => by rw [hu, hcarry]) rfl
    have hpersist : s.persistPosition p = s := by rw [State.persistPosition, hr]
    rw [State.applyWaited, if_pos hwaits, State.applyAndPersist, ha]
    simp only [happly, hpersist, ite_self]
    rw [State.stopWaiting_eq ha]
    split
    · exact ⟨_, _, rfl⟩
    · exact ⟨some { a with waiting := a.waiting.filter fun q => decide (q ≠ p) }, s.report, rfl⟩
  · rw [State.applyWaited_none fun a ha hp => hw ⟨a, ha, hp⟩]
    exact ⟨s.apply, s.report, rfl⟩

/-! ### The failed request as a whole -/

/-- z is u with the slot empty and any state of the link. -/
structure Emptied (u z : State) : Prop where
  clock : z.clock = u.clock
  intake : z.intake = u.intake
  sense : z.sense = u.sense
  health : z.health = u.health
  attention : z.attention = u.attention
  scheduler : z.scheduler = { u.scheduler with slot := .empty }
  enumerator : z.enumerator = u.enumerator
  train : z.train = u.train
  apply : z.apply = u.apply
  cells : z.cells = u.cells
  faults : z.faults = u.faults
  report : z.report = u.report
  counters : z.counters = u.counters
  ignition : z.ignition = u.ignition

/-- A request to an unmapped position fails: its owner and an apply that waits are told. -/
theorem requestFails_unmapped {u z f t : State} {x : Flight} {L : Link} (hz : Emptied u z)
    (hf : f = ((z.unanswered x.sent.pos).ownerFails x.sent).applyWaited x.sent.pos) (ht : SettledFrom (f.withLink L) t)
    (hr : u.record x.sent.pos = none) : u.RequestFails t x := by
  have hzr : z.record x.sent.pos = none := (State.record_of_train hz.train _).trans hr
  have hnow : z.now = u.now := State.now_of_clock hz.clock
  rw [State.unanswered_unmapped hzr, State.ownerFails_eq] at hf
  obtain ⟨A, R, heq⟩ := State.applyWaited_unmapped (p := x.sent.pos)
    (s := (z.withHealth (z.health.failed z.now x.sent)).withReport (z.report.failed x.sent)) hzr
  rw [heq] at hf
  have htrain : t.train = u.train := by rw [ht.train, hf]; simp [hz.train]
  refine ⟨?_, ⟨?_, ?_, ?_, ?_, ?_⟩, fun _ => ?_, fun q _ => State.record_of_train htrain q,
    fun _ => (State.record_of_train htrain _).trans hr, ?_, fun r h => by rw [hr] at h; cases h⟩
  · rw [ht.slot, hf]; simp [hz.scheduler]
  · rw [ht.intake, hf]; simp [hz.intake]
  · rw [ht.sense, hf]; simp [hz.sense]
  · rw [ht.attention, hf]; simp [hz.attention]
  · rw [ht.tag, hf]; simp [hz.scheduler]
  · rw [ht.settings, hf]; simp [hz.ignition]
  · rw [ht.counters, hf]; simp [hz.counters]
  · rw [ht.health, hf]
    simp only [State.withLink_health, State.withReport_health, State.withApply_health, State.withHealth_health, hz.health, hnow]
    exact Health.failed_eq _ _ _

/-- The apply goes on or is complete, as the Report Unit's own part of it says. -/
theorem EndsWait.leavesApply {w o f t : State} {p : Pos} {a : Apply} {r y : PosRecord} (h : EndsWait o f p a r y)
    (hw : o.report = w.report) (happly : t.apply = f.apply) (htransmit : t.report.transmit = f.report.transmit)
    (hdeferred : t.report.deferred = f.report.deferred) : w.LeavesApply t a p y := by
  obtain ⟨skipped, hcounted, hnot, hon, hdone⟩ := h.leaves
  refine ⟨skipped, hcounted, hnot, fun hleft => ?_, fun hleft => ?_⟩
  · obtain ⟨hfa, hfr⟩ := hon hleft
    rw [happly, htransmit, hdeferred, hfr, hw]
    exact ⟨hfa, rfl, rfl⟩
  · obtain ⟨hfa, hfr⟩ := hdone hleft
    rw [happly, htransmit, hdeferred, hfr, hw, State.fallDue_eq]
    exact ⟨hfa, rfl, rfl⟩

theorem PosRecord.CarriedOut.of_unanswered {r y : PosRecord} (h : r.unanswered.CarriedOut y) : r.CarriedOut y :=
  ⟨h.flagged, h.others, h.source, h.rest⟩

/-- What a waiting apply does at p shows in the state that the event answers: a cell that is reset is not faulted, so
nothing is admitted for it. -/
theorem EndsWait.applies {u o f t : State} {p : Pos} {a : Apply} {r y : PosRecord} (h : EndsWait o f p a r.unanswered y)
    (hsettings : o.ignition.settings = u.ignition.settings)
    (hstate : ∀ g, (o.cell (.lamp p g)).state = (u.cell (.lamp p g)).state)
    (hcell : ∀ k, (f.cell k).faulty = false →
      t.cell k = f.cell k ∧ (f.faultAt (.cell k) = none → t.faultAt (.cell k) = none))
    (hlibrary : t.ignition.library = f.ignition.library) (hy : y.state = r.unanswered.state) :
    u.Applies t p r y a.persist := by
  have happlied := h.applied
  have hrest := h.rest
  generalize o.applyPosition p = c at happlied hrest
  have hcells (k : CellKey) : f.cell k = c.cell k := State.cell_of_cells (congrArg (·.cells) hrest) k
  have hfaults : f.faults = c.faults := congrArg (·.faults) hrest
  refine ⟨(happlied.carried.carriedOut mem_functions).of_unanswered, fun g q hq ha => ?_, fun hpersist hskip => ?_⟩
  · obtain ⟨hnone, hreset⟩ := happlied.reset g (mem_functions g) q hq (by rwa [hstate])
    have hunverified : (f.cell (.lamp p g)).state = .unverified := by
      rw [hcells]
      exact congrArg Cell.state hreset
    obtain ⟨htcell, htfault⟩ := hcell (.lamp p g) (by simp [Cell.faulty, hunverified])
    rw [htcell, hcells, hy, ← hsettings]
    exact ⟨htfault (by rwa [State.faultAt, hfaults]), hreset⟩
  · rw [hlibrary]
    exact h.persisted hpersist hskip

/-- A cell beside a position that falls SILENT, and any other, after the failure. -/
theorem Unanswered.cell_eq {u v : State} {p : Pos} {r : PosRecord} (h : Unanswered u v p r) {k : CellKey}
    (hline : r.falls → ∀ f, k ≠ .line f) :
    (r.falls → k.beside p → (u.cell k).state ≠ .absent →
      v.cell k = { u.cell k with hold := some .silent, listed := (v.cell k).listed }) ∧
    (¬ (r.falls ∧ k.beside p ∧ (u.cell k).state ≠ .absent) →
      v.cell k = { u.cell k with listed := (v.cell k).listed }) := by
  refine ⟨fun hf hb ha => ?_, fun hno => ?_⟩
  · rw [h.silenced hf k hb, Cell.silenced, if_neg ha]
  · by_cases hb : r.falls ∧ k.beside p
    · have ha : (u.cell k).state = .absent := by
        by_contra hc
        exact hno ⟨hb.1, hb.2, hc⟩
      rw [h.silenced hb.1 k hb.2, Cell.silenced, if_pos ha]
    · exact h.cells k fun hf => ⟨hline hf, fun hk => hb ⟨hf, hk⟩⟩

theorem Unanswered.cell_state {u v : State} {p : Pos} {r : PosRecord} (h : Unanswered u v p r) (q : Pos) (f : Func) :
    (v.cell (.lamp q f)).state = (u.cell (.lamp q f)).state := by
  obtain ⟨hsilent, hother⟩ := h.cell_eq (k := .lamp q f) fun _ g => by simp
  by_cases hc : r.falls ∧ CellKey.beside p (.lamp q f) ∧ (u.cell (.lamp q f)).state ≠ .absent
  · rw [hsilent hc.1 hc.2.1 hc.2.2]
  · rw [hother hc]

/-- A request to a mapped position fails. -/
theorem requestFails_mapped {u z f t : State} {x : Flight} {L : Link} {r : PosRecord} (hz : Emptied u z)
    (hf : f = ((z.unanswered x.sent.pos).ownerFails x.sent).applyWaited x.sent.pos) (ht : SettledFrom (f.withLink L) t)
    (hcell : ∀ k, (f.cell k).faulty = false →
      t.cell k = f.cell k ∧ (f.faultAt (.cell k) = none → t.faultAt (.cell k) = none))
    (hr : u.record x.sent.pos = some r) : u.RequestFails t x := by
  have hzr (q : Pos) : z.record q = u.record q := State.record_of_train hz.train q
  have hzcell (k : CellKey) : z.cell k = u.cell k := State.cell_of_cells hz.cells k
  have hnow : z.now = u.now := State.now_of_clock hz.clock
  obtain ⟨v, hv⟩ : ∃ v, v = z.unanswered x.sent.pos := ⟨_, rfl⟩
  have hun : Unanswered z v x.sent.pos r := hv ▸ State.unanswered_mapped ((hzr _).trans hr)
  rw [← hv, State.ownerFails_eq] at hf
  obtain ⟨o, ho⟩ : ∃ o, o = (v.withHealth (v.health.failed v.now x.sent)).withReport (v.report.failed x.sent) := ⟨_, rfl⟩
  rw [← ho] at hf
  have horecord (q : Pos) : o.record q = v.record q := State.record_of_train (by simp [ho]) q
  have hocell (k : CellKey) : o.cell k = v.cell k := State.cell_of_cells (by simp [ho]) k
  have hoapply : o.apply = u.apply := by simp [ho, hun.alike.apply, hz.apply]
  have horeport : o.report = u.report.failed x.sent := by simp [ho, hun.alike.report, hz.report]
  have hoignition : o.ignition = u.ignition := by simp [ho, hun.alike.ignition, hz.ignition]
  obtain ⟨y, hw⟩ := State.applyWaited_waited (s := o) (p := x.sent.pos) (r := r.unanswered)
    (by rw [horecord, hun.record, if_pos rfl])
  rw [← hf] at hw
  have htrain : t.train = f.train := by rw [ht.train]; rfl
  have htcell (k : CellKey) : t.cell k = { f.cell k with listed := (t.cell k).listed } := ht.cells k
  have htransmit : t.report.transmit = f.report.transmit := by rw [ht.transmit]; rfl
  have hdeferred : t.report.deferred = f.report.deferred := by rw [ht.deferred]; rfl
  have happly : t.apply = f.apply := by rw [ht.apply]; rfl
  have hlibrary : t.ignition.library = f.ignition.library := by rw [ht.library]; rfl
  have hrecord (q : Pos) : t.record q = if q = x.sent.pos then some y else u.record q := by
    rw [State.record_of_train htrain, hw.record, horecord, hun.record, hzr]
    split <;> rfl
  have hlinkState : t.train.linkState = v.train.linkState := by rw [htrain, hw.linkState]; simp [ho]
  have hposState (q : Pos) : t.posState q = v.posState q := by
    rw [State.posState, State.posState, hrecord, hun.record, hzr]
    split
    · exact congrArg some hw.state
    · rfl
  have hphase : t.enumerator.phase = v.enumerator.phase := by rw [ht.phase]; simp [hw.enumerator, ho]
  refine {
    slot := by rw [ht.slot]; simp [hw.scheduler, ho, hun.slot, hz.scheduler]
    kept := ⟨by rw [ht.intake]; simp [hw.intake, ho, hun.alike.intake, hz.intake],
      by rw [ht.sense]; simp [hw.sense, ho, hun.alike.sense, hz.sense],
      by rw [ht.attention]; simp [hw.attention, ho, hun.alike.attention, hz.attention],
      by rw [ht.tag]; simp [hw.scheduler, ho, hun.tag, hz.scheduler],
      by rw [ht.settings]; simp [hw.settings, hoignition]⟩
    counters := fun hq => by
      rw [ht.counters]
      simp [hw.counters, ho, hun.counters (by rwa [hz.scheduler]), hz.counters]
    others := fun q hq => by rw [hrecord, if_neg hq]
    unmapped := fun h => by rw [hr] at h; cases h
    health := ?_
    mapped := fun r₁ h₁ => ?_ }
  · have hvnow : v.now = u.now := (State.now_of_clock hun.alike.clock).trans hnow
    rw [ht.health]
    simp only [State.withLink_health, hw.health, ho, State.withReport_health, State.withHealth_health, hun.alike.health,
      hz.health, hvnow]
    exact Health.failed_eq _ _ _
  · rw [hr] at h₁
    cases h₁
    have hcells (k : CellKey) (hk : ∀ a f q, u.apply = some a → x.sent.pos ∈ a.waiting → k = .lamp x.sent.pos f →
        ¬ r.Changes f q) : t.cell k = { v.cell k with listed := (t.cell k).listed } := by
      rw [htcell k, hw.cells k (by rwa [hoapply]), hocell k]
    refine ⟨y, by rw [hrecord, if_pos rfl], hw.streak, hw.serial, hw.state, fun hs hl hn => ?_, fun hf ha hc => ?_,
      fun hf => ?_, fun hf => ?_, fun a ha hwaits => ?_, fun hno => ?_, fun k hline hk => ?_⟩
    · obtain ⟨m, hm, hsite, hrest⟩ := hun.raised hs (by rwa [hz.faults]) (by rwa [State.faultAt, hz.faults])
      refine ⟨m, ht.records.subset ?_, hsite, hrest⟩
      have hof : o.faults = v.faults := by simp [ho]
      exact (hw.records m (by simp [hsite])).mpr (hof ▸ hm)
    · rw [hphase, hun.asked hf (by rwa [hz.ignition]) (by rwa [hz.enumerator]), hz.enumerator]
    · rw [hlinkState, hun.linkState hf, hz.enumerator]
      simp only [hposState]
    · obtain ⟨hphase', hlink'⟩ := hun.stands hf
      exact ⟨by rw [hphase, hphase', hz.enumerator], by rw [hlinkState, hlink', hz.train]⟩
    · have hends := hw.waits a (hoapply.trans ha) hwaits
      refine ⟨hends.applies (by rw [hoignition]) (fun g => by rw [hocell, hun.cell_state, hzcell]) hcell hlibrary hw.state,
        hends.leavesApply (horeport.trans (u.failed_report x.sent).symm) happly htransmit hdeferred, fun hpersist => ?_⟩
      rw [hlibrary, hends.kept hpersist, hoignition]
    · obtain ⟨hfo, rfl⟩ := hw.idle fun a ha => hno a (hoapply ▸ ha)
      have hreport := horeport.trans (u.failed_report x.sent).symm
      exact ⟨by rw [happly, hfo, hoapply], rfl, rfl, rfl, rfl, by rw [hlibrary, hfo, hoignition],
        by rw [htransmit, hfo]; exact congrArg (·.transmit) hreport,
        by rw [hdeferred, hfo]; exact congrArg (·.deferred) hreport⟩
    · obtain ⟨hsilent, hother⟩ := hun.cell_eq hline
      rw [hzcell k] at hsilent hother
      exact ⟨fun hf hb ha => by rw [hcells k hk, hsilent hf hb ha], fun h => by rw [hcells k hk, hother h]⟩

/-- The state of the link, the clock and the part are no matter of a request's failure. -/
theorem State.requestFailed_keeps (s : State) (x : Flight) : (s.requestFailed x).link = s.link ∧
    (s.requestFailed x).clock = s.clock ∧ (s.requestFailed x).ignition.part = s.ignition.part := by
  obtain ⟨z, hz⟩ : ∃ z, z = s.withSlot .empty := ⟨_, rfl⟩
  have hzs : z.link = s.link ∧ z.clock = s.clock ∧ z.ignition.part = s.ignition.part := by rw [hz]; exact ⟨rfl, rfl, rfl⟩
  rw [State.requestFailed, ← hz, State.ownerFails_eq]
  cases hr : z.record x.sent.pos with
  | none =>
    rw [State.unanswered_unmapped hr]
    obtain ⟨A, R, heq⟩ := State.applyWaited_unmapped (p := x.sent.pos)
      (s := (z.withHealth (z.health.failed z.now x.sent)).withReport (z.report.failed x.sent)) hr
    rw [heq]
    simpa using hzs
  | some r =>
    have hun := State.unanswered_mapped hr
    generalize z.unanswered x.sent.pos = v at *
    obtain ⟨o, ho⟩ : ∃ o, o = (v.withHealth (v.health.failed v.now x.sent)).withReport (v.report.failed x.sent) := ⟨_, rfl⟩
    rw [← ho]
    obtain ⟨y, hw⟩ := State.applyWaited_waited (s := o) (p := x.sent.pos) (r := r.unanswered) (by
      rw [State.record_of_train (s := v) (by simp [ho]), hun.record, if_pos rfl])
    rw [hw.link, hw.clock, hw.part, ho]
    simpa [hun.alike.link, hun.alike.clock, hun.alike.ignition] using hzs

/-- The last attempt of a request has failed, in whatever state the link was and is left, and the event ends. -/
theorem requestFailed_fails (u : State) (x : Flight) (L L' : Link) (b : FaultList) :
    u.RequestFails ((((u.withLink L).requestFailed x).withLink L').conclude b) x := by
  obtain ⟨z, hz⟩ : ∃ z, z = (u.withLink L).withSlot .empty := ⟨_, rfl⟩
  have hempty : Emptied u z := by
    subst hz
    exact ⟨rfl, rfl, rfl, rfl, rfl, rfl, rfl, rfl, rfl, rfl, rfl, rfl, rfl, rfl⟩
  obtain ⟨f, hf⟩ : ∃ f, f = ((z.unanswered x.sent.pos).ownerFails x.sent).applyWaited x.sent.pos := ⟨_, rfl⟩
  have heq : (u.withLink L).requestFailed x = f := by rw [State.requestFailed, ← hz, hf]
  rw [heq]
  have ht := (f.withLink L').conclude_settledFrom b
  have hcell (k : CellKey) (hk : (f.cell k).faulty = false) : ((f.withLink L').conclude b).cell k = f.cell k ∧
      (f.faultAt (.cell k) = none → ((f.withLink L').conclude b).faultAt (.cell k) = none) :=
    State.conclude_unfaulted (s := f.withLink L') hk b
  cases hr : u.record x.sent.pos with
  | none => exact requestFails_unmapped hempty hf ht hr
  | some r => exact requestFails_mapped hempty hf ht hcell hr

end Sys2Proof.Machine
end

section
/-! Receiving, a frame cut short, and a CRC failure (R21, R26, R27, R53, R88, R89, R185 to R188). -/

namespace Sys2Proof.Machine

/-! ### A failed frame counted -/

/-- s with a failed frame counted for a position or for none, and recorded by the health logic (R27, R185). -/
def State.failureCounted (s : State) (q : Option Nat) : State :=
  (s.countEvent .replyCrcFail q).withHealth s.failedHealth

/-- The link once a burst has ended at a time, its frame cut short or whole. -/
def Link.burstEnded (x : Link) (at_ : Nat) (truncated : Bool) : Link :=
  { x with reception := .none, lineActive := some at_, received := some (at_, truncated) }

section
variable {s : State} (ago : Nat) (truncated : Bool)

theorem State.receptionEnds_failedHealth : (s.receptionEnds ago truncated).failedHealth = s.failedHealth := rfl

/-- A failed frame with no attempt awaiting an answer. -/
theorem State.burst_unawaited (h : ∀ timer, s.link.phase ≠ .awaiting timer) :
    (s.receptionEnds ago truncated).takeFailure =
      (s.failureCounted none).withLink (s.link.burstEnded (s.clock - ago) truncated) := by
  rw [State.takeFailure_unawaited (s := s.receptionEnds ago truncated) h, State.receptionEnds_failedHealth,
    State.countEvent_withHealth, State.receptionEnds, State.countEvent_withLink]
  rfl

/-- A failed frame while the attempt of request x awaits its answer. -/
theorem State.burst_awaited {timer : ReplyTimer} {x : Flight} (hp : s.link.phase = .awaiting timer)
    (hs : s.scheduler.slot = .addressed x) (hx : x.stage = .onLink) :
    (s.receptionEnds ago truncated).takeFailure = ((s.failureCounted (some (x.sent.pos.val + 1))).withLink
      { s.link.burstEnded (s.clock - ago) truncated with phase := .free }).attemptFailed x := by
  rw [State.takeFailure_awaited (s := s.receptionEnds ago truncated) hp hs hx, State.receptionEnds_failedHealth,
    State.countEvent_withHealth, State.receptionEnds, State.countEvent_withLink, State.withPhase]
  simp only [State.withHealth_link, State.withLink_link]
  rfl

end

/-! ### What the failure leaves standing -/

/-- The map, the command, the monitor and the list of s stand in t, and its cells but for their listed flags. -/
def Stands (s t : State) : Prop :=
  t.train = s.train ∧ t.intake = s.intake ∧ t.attention = s.attention ∧
    (∀ k, t.cell k = { s.cell k with listed := (t.cell k).listed }) ∧ s.faults.records <+: t.faults.records

/-- A failed frame that ends no request: counted, recorded, and the slot and the link as given. -/
theorem failureCounted_settles {s t : State} {q : Option Nat} {L L' : Link} {y : Slot}
    (ht : SettledFrom ((((s.failureCounted q).withLink L).withSlot y).withLink L') t) :
    t.link = L' ∧ t.counters = (s.countEvent .replyCrcFail q).counters ∧ t.health = s.failedHealth ∧
      t.scheduler.slot = y ∧ t.enumerator.phase = s.enumerator.phase ∧ Stands s t := by
  rw [State.failureCounted, State.countEvent_eq] at ht
  have hcells : ((((s.failureCounted q).withLink L).withSlot y).withLink L').cells = s.cells := by
    simp [State.failureCounted, State.countEvent_eq, State.withSlot]
  refine ⟨ht.link, ?_, ht.health, ht.slot, ?_, ?_, ?_, ?_, fun k => ?_, ?_⟩
  · rw [ht.counters, State.countEvent_eq]
    rfl
  · rw [ht.phase]; simp [State.withSlot]
  · rw [ht.train]; simp [State.withSlot]
  · rw [ht.intake]; simp [State.withSlot]
  · rw [ht.attention]; simp [State.withSlot]
  · rw [ht.cells k]
    rw [State.failureCounted, State.countEvent_eq] at hcells
    rw [State.cell_of_cells hcells k]
  · have := ht.records
    simpa [State.withSlot] using this

/-! ### What a failed burst comes to, by what awaits an answer -/

/-- However a burst that fails has ended, the link is left in phase `phase`, and the clock and the part are as they were. -/
def State.BurstLeaves (s : State) (phase : LinkPhase) : Prop :=
  ∀ ago truncated, let t := (s.receptionEnds ago truncated).takeFailure
    t.link = { s.link.burstEnded (s.clock - ago) truncated with phase := phase } ∧ t.clock = s.clock ∧
      t.ignition.part = s.ignition.part

section
variable {s : State}

section
variable (h : ∀ timer, s.link.phase ≠ .awaiting timer)
include h

theorem burstLeaves_unawaited : s.BurstLeaves s.link.phase := by
  intro ago truncated
  simp [State.burst_unawaited ago truncated h, State.failureCounted, Link.burstEnded]

/-- With nothing awaited the failed frame is counted with no position, and nothing else follows (R27). -/
theorem failedBurst_unawaited {ago : Nat} {truncated : Bool} {L : Link} {t : State}
    (ht : SettledFrom ((s.receptionEnds ago truncated).takeFailure.withLink L) t) :
    t.link = L ∧ t.counters = (s.countEvent .replyCrcFail none).counters ∧ t.health = s.failedHealth ∧
      t.scheduler.slot = s.scheduler.slot ∧ t.enumerator.phase = s.enumerator.phase ∧ Stands s t := by
  rw [State.burst_unawaited ago truncated h] at ht
  refine failureCounted_settles (L := s.link.burstEnded (s.clock - ago) truncated) (ht.of_eq ?_)
  rw [State.failureCounted, State.countEvent_eq]
  rfl

end

section
variable {timer : ReplyTimer} {x : Flight} (hp : s.link.phase = .awaiting timer)
  (hs : s.scheduler.slot = .addressed x) (hx : x.stage = .onLink) (hg : x.gone = false)
include hp hs hx hg

theorem failedBurst_next {ago : Nat} {truncated : Bool} {L : Link} {t : State}
    (hlimit : x.attempt ≤ s.ignition.settings.retryLimit)
    (ht : SettledFrom ((s.receptionEnds ago truncated).takeFailure.withLink L) t) :
    t.link = L ∧ t.counters = (s.countEvent .replyCrcFail (some (x.sent.pos.val + 1))).counters ∧
      t.health = s.failedHealth ∧
      t.scheduler.slot = .addressed { x with attempt := x.attempt + 1, busyCount := 0, stage := .due } ∧
      t.enumerator.phase = s.enumerator.phase ∧ Stands s t := by
  rw [State.burst_awaited ago truncated hp hs hx,
    State.attemptFailed_next hg (by simpa [State.failureCounted] using hlimit)] at ht
  exact failureCounted_settles ht

/-- The state that a failed frame leaves of the last attempt, however the link is left. -/
theorem failedBurst_last {ago : Nat} {truncated : Bool} {L : Link} {b : FaultList}
    (hlimit : s.ignition.settings.retryLimit < x.attempt) :
    (s.failureCounted (some (x.sent.pos.val + 1))).RequestFails
      (((s.receptionEnds ago truncated).takeFailure.withLink L).conclude b) x := by
  rw [State.burst_awaited ago truncated hp hs hx,
    State.attemptFailed_last hg (by simpa [State.failureCounted] using hlimit)]
  exact requestFailed_fails _ _ _ _ _

theorem burstLeaves_awaited : s.BurstLeaves .free := by
  intro ago truncated
  rw [State.burst_awaited ago truncated hp hs hx]
  rcases Nat.lt_or_ge s.ignition.settings.retryLimit x.attempt with hlimit | hlimit
  · rw [State.attemptFailed_last hg (by simpa [State.failureCounted] using hlimit)]
    obtain ⟨hlink, hclock, hpart⟩ := State.requestFailed_keeps ((s.failureCounted (some (x.sent.pos.val + 1))).withLink
      { s.link.burstEnded (s.clock - ago) truncated with phase := .free }) x
    exact ⟨hlink, hclock.trans (by simp [State.failureCounted]), hpart.trans (by simp [State.failureCounted])⟩
  · rw [State.attemptFailed_next hg (by simpa [State.failureCounted] using hlimit)]
    exact ⟨rfl, by simp [State.failureCounted, State.withSlot], by simp [State.failureCounted, State.withSlot]⟩

end

/-- A frame of a burst that fails at its last character leaves the link free for what follows it, inside its gap (R21). -/
theorem takeFrame_fails {phase : LinkPhase} {doomed : Bool} {w : List WireChar} (ha : s.ignition.part ≠ .asleep)
    (hl : s.listens = true) (hr : s.link.reception = .receiving doomed)
    (hf : doomed = true ∨ parseFrame s.link.speed s.flightMask (w.take (frameLength s.link.speed w)) = none)
    (hleaves : s.BurstLeaves phase) (hsend : ∀ f end_, phase ≠ .sending f end_)
    (htimer : ∀ clock, phase.stopTimer clock = phase) :
    ∃ truncated L, s.takeFrame w = (s.receptionEnds 0 truncated).takeFailure.withLink L ∧ L.phase = phase ∧
      L.lineActive = some s.clock ∧ L.speed = s.link.speed ∧
      L.reception = if w.length ≤ (w.take (frameLength s.link.speed w)).length then .none else .receiving true := by
  have hlength : w.length ≤ (w.take (frameLength s.link.speed w)).length ↔ w.length ≤ frameLength s.link.speed w := by
    rw [List.length_take]
    omega
  simp only [hlength]
  rw [State.takeFrame_failed hl hr hf]
  dsimp only
  split
  · generalize truncatedFrame s.link.speed (w.take (frameLength s.link.speed w)) = truncated
    obtain ⟨hlink, -, -⟩ := hleaves 0 truncated
    refine ⟨truncated, (s.receptionEnds 0 truncated).takeFailure.link, rfl, ?_⟩
    rw [hlink]
    exact ⟨rfl, rfl, rfl, rfl⟩
  · next hlong =>
    rw [truncatedFrame_take (not_le.mp hlong)]
    obtain ⟨hlink, hclock, hpart⟩ := hleaves 0 false
    refine ⟨false, _, State.receiveStart_eq _, ?_⟩
    generalize (s.receptionEnds 0 false).takeFailure = t at hlink hclock hpart ⊢
    have hlistens : t.listens = true :=
      State.listens_iff.mpr ⟨by rwa [hpart], fun f end_ => by rw [hlink]; exact hsend f end_⟩
    rw [State.receiveStart_in_gap hlistens (by rw [hlink]; rfl) (by rw [hlink, hclock]; rfl)
      fun clock => by rw [hlink]; exact htimer clock]
    simp [hlink, hclock, Link.burstEnded]

end

/-! ### FRAME_RECEIVE_START -/

theorem frameReceiveStart_deaf {s : State} {m : Moment} {t : State} (ht : SettledFrom (s.advance m).receiveStart t)
    (h : s.ignition.part = .asleep ∨ ∃ f end_, s.link.phase = .sending f end_) : SettledFrom (s.advance m) t := by
  have hdeaf : (s.advance m).listens = false := by
    rw [Bool.eq_false_iff]
    intro hl
    obtain ⟨hawake, hsending⟩ := State.listens_iff.mp hl
    rcases h with h | ⟨f, end_, h⟩
    · exact hawake h
    · exact hsending f end_ h
  rwa [State.receiveStart_deaf hdeaf] at ht

/-- The first character of an answer stops the reply timer with what it has left (R27). -/
theorem receiveStart_stops {s : State} {deadline last : Nat} (ha : s.ignition.part ≠ .asleep)
    (hp : s.link.phase = .awaiting (.running deadline)) (hr : s.link.reception = .none)
    (hl : s.link.received = some (last, false)) : s.receiveStart = s.withLink
      { s.link with
        reception := .receiving (decide (s.clock < last + 3 * charTime s.link.speed))
        lineActive := some s.clock, phase := .awaiting (.stopped (deadline - s.clock)) } := by
  have hlistens : s.listens = true := State.listens_of_phase ha hp (by simp)
  have hnow : s.receptionNow = .receiving (decide (s.clock < last + 3 * charTime s.link.speed)) := by
    simp only [State.receptionNow, hl, receptionAt]
  rw [State.receiveStart, if_pos ⟨hlistens, hr⟩]
  simp [hnow, hp, LinkPhase.stopTimer]

/-! ### FRAME_TRUNCATED -/

theorem State.pausePassed_iff {s : State} : s.pausePassed = true ↔
    ∀ at_, s.link.lineActive = some at_ → at_ + 3 * charTime s.link.speed ≤ s.clock := by
  unfold State.pausePassed
  cases s.link.lineActive <;> simp

/-- What FRAME_TRUNCATED does once the pause has passed while a frame is received. -/
theorem frameTruncated_paused {s : State} {m : Moment} {doomed : Bool} (hr : s.link.reception = .receiving doomed)
    (hp : (s.advance m).pausePassed = true) : exec (.frameTruncated m) s =
      s.event m fun t => (t.receptionEnds (2 * charTime t.link.speed) true).takeFailure := by
  rw [exec_frameTruncated, execFrameTruncated, State.event, State.event]
  simp only [State.advance_link, hr, hp, if_true]

/-! ### The commands -/

section
variable (s : State) (m : Moment)

theorem frameReceiveStart_answers : ∃ t, exec (.frameReceiveStart m) s = .next t ∧
    ((s.ignition.part = .asleep ∨ (∃ f end_, s.link.phase = .sending f end_)) → SettledFrom (s.advance m) t) ∧
    ∀ deadline last, s.ignition.part ≠ .asleep → s.link.phase = .awaiting (.running deadline) →
      s.link.reception = .none → s.link.received = some (last, false) →
      SettledFrom ((s.advance m).withLink
        { s.link with
          reception := .receiving (decide ((s.advance m).clock < last + 3 * charTime s.link.speed))
          lineActive := some (s.advance m).clock
          phase := .awaiting (.stopped (deadline - (s.advance m).clock)) }) t := by
  rw [exec_frameReceiveStart, execFrameReceiveStart]
  refine State.event_holds fun t ht => ⟨frameReceiveStart_deaf ht, fun deadline last ha hp hr hl => ?_⟩
  rw [receiveStart_stops (s := s.advance m) ha hp hr hl] at ht
  exact ht

end

/-- A pause that has not passed, or with nothing received, ends nothing. -/
theorem frameTruncated_waits {s : State} {m : Moment} {t : State}
    (h : s.link.reception = .none ∨ ¬ (s.advance m).pausePassed = true)
    (ht : exec (.frameTruncated m) s = .next t) : SettledFrom (s.advance m) t := by
  have hstays : exec (.frameTruncated m) s = s.event m id := by
    rw [exec_frameTruncated, execFrameTruncated, State.event, State.event]
    rcases h with h | h
    · simp only [State.advance_link, h]
      rfl
    · simp only [State.advance_link, h]
      cases s.link.reception <;> rfl
  obtain ⟨u, hu, hsettled⟩ := s.event_next m id
  rw [hstays, hu] at ht
  cases ht
  exact hsettled

section
variable {s : State} {m : Moment}

/-- FRAME_TRUNCATED with no attempt awaiting an answer. -/
theorem frameTruncated_unawaited (hno : ∀ timer, s.link.phase ≠ .awaiting timer) {t : State}
    (ht : SettledFrom ((s.advance m).receptionEnds (2 * charTime s.link.speed) true).takeFailure t) :
    t.link = s.link.burstEnded ((s.advance m).clock - 2 * charTime s.link.speed) true ∧
      t.counters = ((s.advance m).countEvent .replyCrcFail none).counters ∧ t.health = (s.advance m).failedHealth ∧
      t.scheduler.slot = s.scheduler.slot ∧ t.enumerator.phase = s.enumerator.phase ∧ Stands s t := by
  obtain ⟨hlink, -, -⟩ := burstLeaves_unawaited (s := s.advance m) hno (2 * charTime s.link.speed) true
  obtain ⟨hl, hcounters, hhealth, hslot, hphase, hstands⟩ := failedBurst_unawaited (s := s.advance m) hno
    (L := ((s.advance m).receptionEnds (2 * charTime s.link.speed) true).takeFailure.link) ht
  exact ⟨hl.trans hlink, hcounters, hhealth, hslot, hphase, hstands⟩

end

/-- Settles O45: each clause is what a burst that failed comes to, by what awaits an answer. -/
theorem aFailedFrameEndsTheAttempt : Obligations.AFailedFrameEndsTheAttempt := by
  intro s m w
  refine ⟨frameReceiveStart_answers s m, ?_, ?_⟩
  · by_cases hcut : (∃ doomed, s.link.reception = .receiving doomed) ∧ (s.advance m).pausePassed = true
    · obtain ⟨⟨doomed, hr⟩, hpaused⟩ := hcut
      rw [frameTruncated_paused hr hpaused]
      refine State.event_concludes ⟨fun h => ?_, fun doomed' hr' _ => ?_⟩
      · rcases h with h | h
        · rw [hr] at h; cases h
        · exact absurd (State.pausePassed_iff.mp hpaused) h
      · have hsettled := (((s.advance m).receptionEnds (2 * charTime s.link.speed) true).takeFailure).conclude_settledFrom
          s.faults
        dsimp only
        refine ⟨fun hp => ?_, fun end_ hp => ?_, fun x timer hp => ⟨?_, ?_⟩⟩
        · obtain ⟨hlink, hcounters, hhealth, hslot, -, hstands⟩ := frameTruncated_unawaited (by simp [hp]) hsettled
          refine ⟨?_, hcounters, hhealth, hslot, hstands⟩
          rw [← hp]
          exact hlink
        · obtain ⟨hlink, hcounters, hhealth, hslot, hphase, hstands⟩ := frameTruncated_unawaited (by simp [hp]) hsettled
          refine ⟨?_, hcounters, hhealth, hslot, hphase, hstands⟩
          rw [← hp]
          exact hlink
        · rintro ⟨hs, hx, hg, hlimit⟩
          obtain ⟨hl, -, -⟩ := burstLeaves_awaited (s := s.advance m) hp hs hx hg (2 * charTime s.link.speed) true
          obtain ⟨hlink, hcounters, hhealth, hslot, -, hstands⟩ := failedBurst_next (s := s.advance m) hp hs hx hg hlimit
            (L := ((s.advance m).receptionEnds (2 * charTime s.link.speed) true).takeFailure.link) hsettled
          exact ⟨hlink.trans hl, hhealth, ⟨hcounters, hslot⟩, hstands⟩
        · rintro ⟨hs, hx, hg, hlimit⟩
          obtain ⟨hl, -, -⟩ := burstLeaves_awaited (s := s.advance m) hp hs hx hg (2 * charTime s.link.speed) true
          exact ⟨hsettled.link.trans hl, failedBurst_last (s := s.advance m) hp hs hx hg
            (L := ((s.advance m).receptionEnds (2 * charTime s.link.speed) true).takeFailure.link) hlimit⟩
    · obtain ⟨t, ht⟩ : ∃ t, exec (.frameTruncated m) s = .next t := by
        rw [exec_frameTruncated, execFrameTruncated]
        exact ⟨_, rfl⟩
      refine ⟨t, ht, fun h => frameTruncated_waits (h.imp_right fun hn hc => hn (State.pausePassed_iff.mp hc)) ht,
        fun doomed hr hpaused => absurd ⟨⟨doomed, hr⟩, State.pausePassed_iff.mpr hpaused⟩ hcut⟩
  · rw [exec_crcFailure, execCrcFailure]
    refine State.event_concludes ?_
    dsimp only
    intro doomed ha hr hf
    refine ⟨fun end_ hp => ?_, fun x timer hp => ⟨?_, ?_⟩⟩
    · have hno (timer : ReplyTimer) : s.link.phase ≠ .awaiting timer := by simp [hp]
      obtain ⟨truncated, L, heq, hphase, hactive, hspeed, hreception⟩ := takeFrame_fails (s := s.advance m) ha
        (State.listens_of_phase ha hp (by simp)) hr hf (burstLeaves_unawaited (s := s.advance m) hno)
        (by simp [hp]) (by simp [hp, LinkPhase.stopTimer])
      rw [heq]
      have ht := (((s.advance m).receptionEnds 0 truncated).takeFailure.withLink L).conclude_settledFrom s.faults
      obtain ⟨hlink, hcounters, hhealth, hslot, hphase', hstands⟩ := failedBurst_unawaited (s := s.advance m) hno ht
      rw [hlink]
      exact ⟨⟨hphase.trans hp, hactive, hspeed, hreception⟩, hcounters, hhealth, hslot, hphase', hstands⟩
    · rintro ⟨hs, hx, hg, hlimit⟩
      obtain ⟨truncated, L, heq, hphase, hactive, hspeed, hreception⟩ := takeFrame_fails (s := s.advance m) ha
        (State.listens_of_phase ha hp (by simp)) hr hf (burstLeaves_awaited (s := s.advance m) hp hs hx hg)
        (by simp) (by simp [LinkPhase.stopTimer])
      rw [heq]
      have ht := (((s.advance m).receptionEnds 0 truncated).takeFailure.withLink L).conclude_settledFrom s.faults
      obtain ⟨hlink, hcounters, hhealth, hslot, -, hstands⟩ :=
        failedBurst_next (s := s.advance m) hp hs hx hg hlimit ht
      rw [hlink]
      exact ⟨⟨hphase, hactive, hspeed, hreception⟩, hhealth, ⟨hcounters, hslot⟩, hstands⟩
    · rintro ⟨hs, hx, hg, hlimit⟩
      obtain ⟨truncated, L, heq, hphase, hactive, hspeed, hreception⟩ := takeFrame_fails (s := s.advance m) ha
        (State.listens_of_phase ha hp (by simp)) hr hf (burstLeaves_awaited (s := s.advance m) hp hs hx hg)
        (by simp) (by simp [LinkPhase.stopTimer])
      rw [heq, State.conclude_link]
      exact ⟨⟨hphase, hactive, hspeed, hreception⟩, failedBurst_last (s := s.advance m) hp hs hx hg hlimit⟩

end Sys2Proof.Machine
end
